-- ==== Sys2Proof/Word.lean ====
section
/-! DEFINITION. The word types of the LZ2K decoder engine: a byte of a memory (20_memory.md R30 to R32) and a
32-bit register (10_state.md R12, R14, R15, R22). All values are unsigned (00_scope.md R7). -/

namespace Sys2Proof

/-- One byte of IN, OUT or WIN (R30, R31, R32). -/
abbrev Byte := BitVec 8

/-- A 32-bit register, the width of the bit reader's shift register and of the size fields (R5). -/
abbrev Word := BitVec 32

end Sys2Proof
end

