-- ==== Sys2Proof/Machine/Bits.lean ====
section
/-! DEFINITION. Bit fields: the order of bits in a field (20_memory.md R37: the first bit is the most significant),
fields of the 32-bit look-ahead register, and the bytes of the container's little-endian integers (R38). -/

namespace Sys2Proof.Machine

/-- The `n` bits that spell `v`, most significant bit first (R37). -/
def bitsOf : Nat → Nat → List Bool
  | 0, _ => []
  | n + 1, v => v.testBit n :: bitsOf n v

/-- The number a list of bits spells after the number `acc`, the first bit being the most significant (R37). -/
def natOfBits : Nat → List Bool → Nat
  | acc, [] => acc
  | acc, b :: bs => natOfBits (2 * acc + b.toNat) bs

/-- The 32-bit register that shows a list of bits from its top bit on, zeros after the last one (R36). -/
def windowOf (bits : List Bool) : Word :=
  BitVec.ofNat 32 (natOfBits 0 (bits.take 32) * 2 ^ (32 - (bits.take 32).length))

/-- The top `n` bits of a 32-bit register, as a number (R7). -/
def topBits (w : Word) (n : Nat) : Nat := w.toNat / 2 ^ (32 - n)

/-- The `n` bits that follow the top `k` bits of a 32-bit register, as a number. -/
def fieldAt (w : Word) (k n : Nat) : Nat := topBits w (k + n) % 2 ^ n

/-- How many of the bits of `w` from the top one on are 1, counting at most `fuel` of them from bit place `k`. -/
def onesAt (w : Word) : (fuel k : Nat) → Nat
  | 0, _ => 0
  | f + 1, k => if fieldAt w k 1 = 1 then onesAt w f (k + 1) + 1 else 0

/-- Bit `j` of a byte string read most significant bit first, zero past its end (R35, R36). -/
def bitOfBytes (bytes : List Byte) (j : Nat) : Bool :=
  match bytes[j / 8]? with
  | some b => b.toNat.testBit (7 - j % 8)
  | none => false

/-- The bytes that hold a list of bits, first bit most significant, the last byte filled with zeros (R35). -/
def bytesOfBits (bits : List Bool) : List Byte :=
  (List.range ((bits.length + 7) / 8)).map fun k =>
    BitVec.ofNat 8 (natOfBits 0 ((List.range 8).map fun j => bits.getD (8 * k + j) false))

/-- A little-endian 32-bit integer (R38). -/
def littleEndian (b0 b1 b2 b3 : Byte) : Word :=
  BitVec.ofNat 32 (b0.toNat + 2 ^ 8 * b1.toNat + 2 ^ 16 * b2.toNat + 2 ^ 24 * b3.toNat)

/-- The four bytes of a little-endian 32-bit integer, lowest address first (R38). -/
def littleEndianBytes (w : Word) : List Byte :=
  [BitVec.ofNat 8 w.toNat, BitVec.ofNat 8 (w.toNat / 2 ^ 8), BitVec.ofNat 8 (w.toNat / 2 ^ 16),
    BitVec.ofNat 8 (w.toNat / 2 ^ 24)]

/-- The binary digits of a number, most significant first, no leading zeros; `fuel` bounds how many. -/
def digitsOf : (fuel v : Nat) → List Bool
  | 0, _ => []
  | f + 1, v => if v = 0 then [] else digitsOf f (v / 2) ++ [v % 2 == 1]

end Sys2Proof.Machine
end

