-- ==== Sys2Proof/Config.lean ====
section
/-! DEFINITION. The implementation parameters of 00_scope.md R5, at the values this hardware takes, the other
values of the two count parameters (92_eei_decisions.md section 2), and the free values: what the spec leaves
unspecified after a hardware reset (70_reset_and_hazards.md R190, 93_implementation_defined.md U11) and in a fresh OUT
(44_host_commands.md R150). -/

namespace Sys2Proof

/-- The three code tables (00_scope.md R1, 10_state.md R18). -/
inductive TableId where
  /-- `T_LEN`, the code-length table. -/
  | tLen
  /-- `T_LIT`, the literal and run-length table. -/
  | tLit
  /-- `T_OFF`, the offset-class table. -/
  | tOff
deriving DecidableEq, Repr

/-- What the count field of a hybrid description counts (`HYB_COUNT_MODE`: R5, D5, 92 section 2). -/
inductive HybCountMode where
  /-- The number of `HLEN` elements read. -/
  | reads
  /-- The count bounds the running symbol index. -/
  | index
deriving DecidableEq, Repr

/-- What the count field of a coded description counts (`COD_COUNT_MODE`: R5, D6, 92 section 2). -/
inductive CodCountMode where
  /-- Entries that are no zero run. -/
  | nonrun
  /-- Every entry, runs included. -/
  | all
  /-- The count bounds the running symbol index. -/
  | index
deriving DecidableEq, Repr

namespace Config

/-- `REGW` (R5): the width of the shift register. -/
abbrev regw : Nat := 32
/-- `MAXLEN` (R5): the longest code length. -/
abbrev maxLen : Nat := 16
/-- `N_LEN` (R5). -/
abbrev nLen : Nat := 19
/-- `CB_LEN` (R5). -/
abbrev cbLen : Nat := 5
/-- `SKIP_LEN` (R5). -/
abbrev skipLen : Nat := 3
/-- `N_LIT` (R5). -/
abbrev nLit : Nat := 510
/-- `CB_LIT` (R5). -/
abbrev cbLit : Nat := 9
/-- `N_OFF` (R5). -/
abbrev nOff : Nat := 14
/-- `CB_OFF` (R5). -/
abbrev cbOff : Nat := 4
/-- `SUBW` (R5): the width of the sub-block symbol count. -/
abbrev subw : Nat := 16
/-- `LIT_MAX` (R5): the largest literal symbol. -/
abbrev litMax : Nat := 255
/-- `RUN_BIAS` (R5): run length = symbol - 253. -/
abbrev runBias : Nat := 253
/-- `MIN_RUN` (R5). -/
abbrev minRun : Nat := 3
/-- `MAX_RUN` (R5). -/
abbrev maxRun : Nat := 256
/-- `MAX_DIST` (R5): the largest distance the offset alphabet can spell. -/
abbrev maxDist : Nat := 8192
/-- `WSIZE` (R5, D19): the size of `WIN`; a parameter, at least 8192, at the spec's default (log 17). -/
abbrev wsize : Nat := 8192
/-- `HYB_COUNT_MODE` (R5, D5) at the spec's default (log 17). -/
abbrev hybCountMode : HybCountMode := .reads
/-- `COD_COUNT_MODE` (R5, D6) at the spec's default (log 17). -/
abbrev codCountMode : CodCountMode := .nonrun

/-- The registers whose value a hardware reset leaves unspecified (10_state.md R27). -/
inductive Unspecified where
  | inSize | outSize | reg | ptr | rem | used | remaining | produced | lastN
  | sv (t : TableId) | ss (t : TableId) | tused (t : TableId)
  | len (t : TableId) (s : Nat) | code (t : TableId) (s : Nat)
deriving DecidableEq, Repr

/-- The free value that the `k`-th hardware reset leaves in a `w`-bit register: nothing is known of it
(R27, R190, U11; log 2). -/
opaque freeBits (k : Nat) (r : Unspecified) (w : Nat) : BitVec w

/-- The free value that the `k`-th hardware reset leaves in `BR.pos` (R13, R27; log 2). -/
opaque freePos (k : Nat) : Nat

/-- The free value of byte `a` of a fresh OUT that the engine did not write, at the `k`-th time such bytes are taken:
nothing is known of it (44_host_commands.md R150: "fresh bytes"; log 14). -/
opaque freeByte (k a : Nat) : Byte

end Config

/-- The alphabet size `T.N` (R18). -/
@[reducible] def TableId.size : TableId → Nat
  | .tLen => Config.nLen
  | .tLit => Config.nLit
  | .tOff => Config.nOff

/-- The count-field width `cb` (R18). -/
@[reducible] def TableId.countBits : TableId → Nat
  | .tLen => Config.cbLen
  | .tLit => Config.cbLit
  | .tOff => Config.cbOff

/-- The run-skip position each hybrid construction of a sub-block is given (R111): 3 for `T_LEN`, `NONE` for the
others (D8). -/
def TableId.skip : TableId → Option Nat
  | .tLen => some Config.skipLen
  | .tLit => none
  | .tOff => none

end Sys2Proof
end

