-- ==== Sys2Proof/Machine/Table.lean ====
section
/-! DEFINITION. The code tables (10_state.md R18) as plain data, and what the construction and the decode do to
one table: clearing (41_codetable.md R90), storing a length, the canonical assignment (R102) and the lookup of a
(code, length) pair (R100). -/

namespace Sys2Proof.Machine

/-- A code table of `n` symbols whose count field has `cb` bits (R18). -/
structure Table (n cb : Nat) where
  /-- `T.sv`: the shortcut symbol is valid. -/
  sv : Bool
  /-- `T.ss`: the shortcut symbol. -/
  ss : BitVec cb
  /-- `T.used`: the used-symbol count as read. -/
  used : BitVec cb
  /-- `T.len[s]`. -/
  len : Vector (BitVec 5) n
  /-- `T.code[s]`. -/
  code : Vector (BitVec 16) n
deriving DecidableEq, Repr

/-- A table all of whose fields are 0. -/
def Table.zero (n cb : Nat) : Table n cb :=
  ⟨false, 0, 0, Vector.replicate n 0, Vector.replicate n 0⟩

/-- The three tables: separate storage, none aliases another (R18). -/
structure Tables where
  tLen : Table (TableId.size .tLen) (TableId.countBits .tLen)
  tLit : Table (TableId.size .tLit) (TableId.countBits .tLit)
  tOff : Table (TableId.size .tOff) (TableId.countBits .tOff)
deriving DecidableEq, Repr

/-- The table of that name. -/
def Tables.get (x : Tables) : (t : TableId) → Table t.size t.countBits
  | .tLen => x.tLen
  | .tLit => x.tLit
  | .tOff => x.tOff

/-- The three tables with the one of that name replaced. -/
def Tables.set (x : Tables) : (t : TableId) → Table t.size t.countBits → Tables
  | .tLen, v => { x with tLen := v }
  | .tLit, v => { x with tLit := v }
  | .tOff, v => { x with tOff := v }

/-- `T.len[s]`; 0 past the alphabet. -/
def Table.lenAt {n cb : Nat} (t : Table n cb) (s : Nat) : Nat := (t.len.getD s 0).toNat

/-- `T.code[s]`; 0 past the alphabet. -/
def Table.codeAt {n cb : Nat} (t : Table n cb) (s : Nat) : Nat := (t.code.getD s 0).toNat

/-- What `CT.CLEAR` does to its table (R90): `T.sv` and every length 0, the rest as it was. -/
def Table.clear {n cb : Nat} (t : Table n cb) : Table n cb :=
  { t with sv := false, len := Vector.replicate n 0 }

/-- The used-symbol count recorded (R91). -/
def Table.setUsed {n cb : Nat} (t : Table n cb) (k : Nat) : Table n cb :=
  { t with used := BitVec.ofNat cb k }

/-- The degenerate alphabet of the symbol `s` (R92). -/
def Table.setShortcut {n cb : Nat} (t : Table n cb) (s : Nat) : Table n cb :=
  { t with ss := BitVec.ofNat cb s, sv := true, used := BitVec.ofNat cb 1 }

/-- `T.len[i] <- l` (R95, R99). -/
def Table.setLen {n cb : Nat} (t : Table n cb) (i l : Nat) : Table n cb :=
  { t with len := t.len.setIfInBounds i (BitVec.ofNat 5 l) }

/-- What a pass of the canonical assignment over the symbols answers: the codes, the counter, and whether the
code space sufficed. -/
structure Assigned where
  codes : List (BitVec 16)
  ctr : Nat
  ok : Bool
deriving DecidableEq, Repr

/-- The inner loop of `CT.ASSIGN` (R102) for the length `l`, over the symbols in ascending order: `ctr` is the
17-bit counter. It stops at the first symbol that finds `ctr ≥ 2^16`; the codes assigned so far stay. -/
def assignPass (l : Nat) : List (BitVec 5) → List (BitVec 16) → Nat → Assigned
  | x :: xs, c :: cs, ctr =>
    if x.toNat = l then
      if 2 ^ 16 ≤ ctr then ⟨c :: cs, ctr, false⟩
      else
        let r := assignPass l xs cs (ctr + 2 ^ (16 - l))
        ⟨BitVec.ofNat 16 (ctr >>> (16 - l)) :: r.codes, r.ctr, r.ok⟩
    else
      let r := assignPass l xs cs ctr
      ⟨c :: r.codes, r.ctr, r.ok⟩
  | _, cs, ctr => ⟨cs, ctr, true⟩

/-- The outer loop of `CT.ASSIGN` (R102): the lengths `l`, `l + 1`, ... of which `k` are left. -/
def assignFrom (lens : List (BitVec 5)) : (k l : Nat) → List (BitVec 16) → Nat → Assigned
  | 0, _, cs, ctr => ⟨cs, ctr, true⟩
  | k + 1, l, cs, ctr =>
    let r := assignPass l lens cs ctr
    if r.ok then assignFrom lens k (l + 1) r.codes r.ctr else r

theorem assignPass_length (l : Nat) (xs : List (BitVec 5)) (cs : List (BitVec 16)) (ctr : Nat) :
    (assignPass l xs cs ctr).codes.length = cs.length := by
  induction xs generalizing cs ctr with
  | nil => rfl
  | cons x xs ih =>
    cases cs with
    | nil => rfl
    | cons c cs =>
      simp only [assignPass]
      split
      · split
        · rfl
        · simp [ih]
      · simp [ih]

theorem assignFrom_length (lens : List (BitVec 5)) (k l : Nat) (cs : List (BitVec 16)) (ctr : Nat) :
    (assignFrom lens k l cs ctr).codes.length = cs.length := by
  induction k generalizing l cs ctr with
  | zero => rfl
  | succ k ih =>
    simp only [assignFrom]
    split
    · rw [ih, assignPass_length]
    · exact assignPass_length ..

/-- The canonical assignment of a table (R102): lengths 1 to 16, the counter starting at 0. -/
def Table.assigned {n cb : Nat} (t : Table n cb) : Assigned :=
  assignFrom t.len.toList Config.maxLen 1 t.code.toList 0

/-- The table with the codes that `CT.ASSIGN` writes (R102); partly written if the code space ran out. -/
def Table.withCodes {n cb : Nat} (t : Table n cb) : Table n cb :=
  { t with code := ⟨⟨t.assigned.codes⟩, by simp [Table.assigned, assignFrom_length]⟩ }

/-- The first symbol, counting from `s`, whose length is `l` and whose code is `c` (R100, ascending: D14). -/
def findCode (l c : Nat) : List (BitVec 5) → List (BitVec 16) → Nat → Option Nat
  | x :: xs, y :: ys, s => if x.toNat = l ∧ y.toNat = c then some s else findCode l c xs ys (s + 1)
  | _, _, _ => none

/-- The symbol of `T` with the code `c` of `l` bits, if there is one (R100). -/
def Table.lookup {n cb : Nat} (t : Table n cb) (l c : Nat) : Option Nat :=
  findCode l c t.len.toList t.code.toList 0

end Sys2Proof.Machine
end

