-- ==== Sys2Proof/Syntax.lean ====
section
/-! DEFINITION. The instructions: one constructor per row of spec/opcode_table.json (host commands, the register
read, the reset event, the container header, the stream elements, the unit operations), the fault names of
60_exceptions.md R160, and the places of the grammar of 30_encoding.md R51 at which a stream element can stand. -/

namespace Sys2Proof

/-- The engine's faults (60_exceptions.md R160). -/
inductive ErrCode where
  /-- `E_DECODE` (R161). -/
  | decode
  /-- `E_BAD_DISTANCE` (R162). -/
  | badDistance
  /-- `E_TABLE_OVERFLOW` (R163). -/
  | tableOverflow
  /-- `E_BAD_LENGTH` (R164). -/
  | badLength
  /-- `E_BAD_SYMBOL` (R165). -/
  | badSymbol
  /-- `E_OVERSUBSCRIBED` (R166). -/
  | oversubscribed
  /-- `E_EMPTY_SUBBLOCK` (R167). -/
  | emptySubblock
  /-- `E_OUTPUT_OVERRUN` (R168). -/
  | outputOverrun
  /-- `E_PROTOCOL` (R169). -/
  | protocol
deriving DecidableEq, Repr

/-- The loop variables of the two constructions (41_codetable.md R95, R101): the count `n`, the running symbol
index `i`, the entries counted so far `r`. -/
structure Scan where
  n : Nat
  i : Nat
  r : Nat
deriving DecidableEq, Repr

/-- Where the parser stands in the grammar of R51; it fixes the kind of the next stream element (R50). -/
inductive Site where
  /-- No element is being parsed: between units. -/
  | none
  /-- The block is over: what follows is padding (R70). -/
  | pad
  /-- A `SUBHDR` (R52). -/
  | subhdr
  /-- A `COUNT` (R53) of the table. -/
  | count (t : TableId)
  /-- A `DEGEN` (R54) of the table. -/
  | degen (t : TableId)
  /-- An `HLEN` (R55, R56) of the table. -/
  | hlen (t : TableId) (v : Scan)
  /-- The `HSKIP` (R57) of the table. -/
  | hskip (t : TableId) (v : Scan)
  /-- A `CL` entry (R58) of `T_LIT`. -/
  | cl (v : Scan)
  /-- A `LIT` or `MATCH` (R63, R64). -/
  | unit
  /-- The `OFF` (R65) of the `MATCH` whose symbol was `c`. -/
  | off (c : BitVec 9)
deriving DecidableEq, Repr

/-- The instructions, one constructor per row of spec/opcode_table.json. -/
inductive Instr where
  /-- `CMD.RESERVED`: command code 00 (R148). -/
  | cmdReserved
  /-- `START(inSize, outSize)`: command code 01 (R141). -/
  | start (inSize outSize : Word)
  /-- `STEP`: command code 10 (R142). -/
  | step
  /-- `RUN`: command code 11 (R143). -/
  | run
  /-- `READ`: the HOST reads the numbered register (R25, R144). -/
  | read (no : BitVec 3)
  /-- `RESET`: hardware reset is asserted (R190). -/
  | reset
  /-- `CONTAINER.HEADER`: the HOST meets the header of a block (R66, R150). -/
  | containerHeader (outSize inSize : Word)
  /-- `SUBHDR` (R52). -/
  | subhdr (c : BitVec 16)
  /-- `COUNT.5` (R53). -/
  | count5 (n : BitVec 5)
  /-- `COUNT.9` (R53). -/
  | count9 (n : BitVec 9)
  /-- `COUNT.4` (R53). -/
  | count4 (n : BitVec 4)
  /-- `DEGEN.5` (R54). -/
  | degen5 (s : BitVec 5)
  /-- `DEGEN.9` (R54). -/
  | degen9 (s : BitVec 9)
  /-- `DEGEN.4` (R54). -/
  | degen4 (s : BitVec 4)
  /-- `HLEN.DIRECT`: code length 0 to 6 (R55). -/
  | hlenDirect (l : BitVec 3)
  /-- `HLEN.ESC7` (R56). -/
  | hlenEsc7
  /-- `HLEN.ESC8` (R56). -/
  | hlenEsc8
  /-- `HLEN.ESC9` (R56). -/
  | hlenEsc9
  /-- `HLEN.ESC10` (R56). -/
  | hlenEsc10
  /-- `HLEN.ESC11` (R56). -/
  | hlenEsc11
  /-- `HLEN.ESC12` (R56). -/
  | hlenEsc12
  /-- `HLEN.ESC13` (R56). -/
  | hlenEsc13
  /-- `HLEN.ESC14` (R56). -/
  | hlenEsc14
  /-- `HLEN.ESC15` (R56). -/
  | hlenEsc15
  /-- `HLEN.ESC16` (R56). -/
  | hlenEsc16
  /-- `HLEN.ILLEGAL`: a tenth 1 in the tail (R72, R164). -/
  | hlenIllegal
  /-- `HSKIP` (R57). -/
  | hskip (k : BitVec 2)
  /-- `CL.ZERO` (R59). -/
  | clZero
  /-- `CL.ZRUN4` (R60). -/
  | clZrun4 (x : BitVec 4)
  /-- `CL.ZRUN9` (R61). -/
  | clZrun9 (x : BitVec 9)
  /-- `CL.LEN` of the value `v`, 3 to 18 (R62). -/
  | clLen (v : BitVec 5)
  /-- `LIT` (R63). -/
  | lit (c : Byte)
  /-- `MATCH` of the symbol `c`, 256 to 509 (R64); its `OFF` element follows. -/
  | matchSym (c : BitVec 9)
  /-- `OFF.0` (R65). -/
  | off0
  /-- `OFF.1` (R65). -/
  | off1
  /-- `OFF.2` (R65). -/
  | off2 (d : BitVec 1)
  /-- `OFF.3` (R65). -/
  | off3 (d : BitVec 2)
  /-- `OFF.4` (R65). -/
  | off4 (d : BitVec 3)
  /-- `OFF.5` (R65). -/
  | off5 (d : BitVec 4)
  /-- `OFF.6` (R65). -/
  | off6 (d : BitVec 5)
  /-- `OFF.7` (R65). -/
  | off7 (d : BitVec 6)
  /-- `OFF.8` (R65). -/
  | off8 (d : BitVec 7)
  /-- `OFF.9` (R65). -/
  | off9 (d : BitVec 8)
  /-- `OFF.10` (R65). -/
  | off10 (d : BitVec 9)
  /-- `OFF.11` (R65). -/
  | off11 (d : BitVec 10)
  /-- `OFF.12` (R65). -/
  | off12 (d : BitVec 11)
  /-- `OFF.13` (R65). -/
  | off13 (d : BitVec 12)
  /-- `PAD` (R70). -/
  | pad
  /-- `BR.INIT` (R80). -/
  | brInit
  /-- `BR.INGEST(n)`, `n` at most 32 (R81). -/
  | brIngest (n : Fin 33)
  /-- `BR.GET(n)`, `n` at most 32 (R84; a larger `n` is unrepresentable, D34). -/
  | brGet (n : Fin 33)
  /-- `CT.CLEAR(T)` (R90). -/
  | ctClear (t : TableId)
  /-- `CT.COUNT(T, cb)`, `cb` being the table's (R91). -/
  | ctCount (t : TableId)
  /-- `CT.DEGEN(T, cb)`, `cb` being the table's (R92). -/
  | ctDegen (t : TableId)
  /-- `CT.HLEN` (R93). -/
  | ctHlen
  /-- `CT.HSKIP(T, i)` (R94). -/
  | ctHskip (t : TableId) (i : Nat)
  /-- `CT.INIT_HYBRID(T, cb, skip)`, `cb` being the table's, `none` being `NONE` (R95). -/
  | ctInitHybrid (t : TableId) (skip : Option Nat)
  /-- `CT.INIT_CODED(T, cb, D)`, `cb` being the table's (R101). -/
  | ctInitCoded (t d : TableId)
  /-- `CT.ASSIGN(T)` (R102). -/
  | ctAssign (t : TableId)
  /-- `CT.DECODE(T)` (R100). -/
  | ctDecode (t : TableId)
  /-- `BD.INIT_SUBBLOCK` (R111). -/
  | bdInitSubblock
  /-- `BD.UNIT` (R112). -/
  | bdUnit
  /-- `BD.LITERAL(c)` (R113). -/
  | bdLiteral (c : Byte)
  /-- `BD.MATCH(c)` (R114). -/
  | bdMatch (c : BitVec 9)
  /-- `BD.OFFSET` (R116, R117). -/
  | bdOffset
  /-- `LZ.EMIT(b)` (R130). -/
  | lzEmit (b : Byte)
  /-- `LZ.COPY(runLength, distance)` (R131). -/
  | lzCopy (runLength : BitVec 9) (distance : BitVec 14)
  /-- `raise E` (R171). -/
  | raise (e : ErrCode)
deriving DecidableEq, Repr

end Sys2Proof
end

