-- ==== Sys2Proof/WellFormed.lean ====
section
/-! DEFINITION. Which instructions the spec's encodings and operand ranges admit (30_encoding.md R67, R71, R72 and
the operand lines of the operation rules). A stream element that encodes a fault (`SUBHDR 0`, `HLEN.ILLEGAL`, a
degenerate symbol past the alphabet) is well formed: it has bits, and those bits have a meaning. -/

namespace Sys2Proof

/-- The operands are in the ranges the spec gives them. -/
def Instr.wf : Instr → Bool
  | .cmdReserved => true
  | .start _ _ => true
  | .step => true
  | .run => true
  | .read no => no != 7#3                                       -- R25: CMD is write-only
  | .reset => true
  | .containerHeader _ _ => true
  | .subhdr _ => true
  | .count5 _ => true
  | .count9 _ => true
  | .count4 _ => true
  | .degen5 _ => true
  | .degen9 _ => true
  | .degen4 _ => true
  | .hlenDirect l => l != 7#3                                   -- R55: 111 opens the escape
  | .hlenEsc7 => true
  | .hlenEsc8 => true
  | .hlenEsc9 => true
  | .hlenEsc10 => true
  | .hlenEsc11 => true
  | .hlenEsc12 => true
  | .hlenEsc13 => true
  | .hlenEsc14 => true
  | .hlenEsc15 => true
  | .hlenEsc16 => true
  | .hlenIllegal => true
  | .hskip _ => true
  | .clZero => true
  | .clZrun4 _ => true
  | .clZrun9 _ => true
  | .clLen v => decide (3 ≤ v.toNat ∧ v.toNat ≤ 18)             -- R62
  | .lit _ => true
  | .matchSym c => decide (256 ≤ c.toNat ∧ c.toNat ≤ 509)       -- R64
  | .off0 => true
  | .off1 => true
  | .off2 _ => true
  | .off3 _ => true
  | .off4 _ => true
  | .off5 _ => true
  | .off6 _ => true
  | .off7 _ => true
  | .off8 _ => true
  | .off9 _ => true
  | .off10 _ => true
  | .off11 _ => true
  | .off12 _ => true
  | .off13 _ => true
  | .pad => true
  | .brInit => true
  | .brIngest _ => true
  | .brGet _ => true
  | .ctClear _ => true
  | .ctCount _ => true
  | .ctDegen _ => true
  | .ctHlen => true
  | .ctHskip t i => decide (i ≤ t.size)                         -- R94: a running index
  | .ctInitHybrid t skip => skip.all (fun k => decide (k < t.size))  -- R95: a symbol index, or NONE
  | .ctInitCoded t d => decide (d ≠ .tLit ∧ d ≠ t)              -- R101: built already, over a small alphabet
  | .ctAssign _ => true
  | .ctDecode _ => true
  | .bdInitSubblock => true
  | .bdUnit => true
  | .bdLiteral _ => true
  | .bdMatch c => decide (256 ≤ c.toNat ∧ c.toNat ≤ 509)        -- R114
  | .bdOffset => true
  | .lzEmit _ => true
  | .lzCopy n d => decide (3 ≤ n.toNat ∧ n.toNat ≤ 256 ∧ 1 ≤ d.toNat ∧ d.toNat ≤ 8192)  -- R131
  | .raise _ => true

end Sys2Proof
end

