-- ==== Sys2Proof/Decode.lean ====
section
/-! DEFINITION. The decoder, total on every form an instruction can reach the machine in and rejecting by name, and
after it the encoder. Commands are decoded from `CMD[1:0]` (30_encoding.md R71), register reads by number
(10_state.md R25), the container header from its twelve bytes (R66), stream elements from the look-ahead register at
the parser's place in the grammar (R50, R51), by the tables in force (R68, R69). -/

namespace Sys2Proof

open Sys2Proof.Machine

/-- The form in which an instruction reaches the machine. -/
inductive Form where
  /-- The HOST writes `CMD[1:0]` with the operands beside it (R71, R140). -/
  | command (code : BitVec 2) (inSize outSize : Word)
  /-- The HOST reads the numbered register (R144). -/
  | read (no : BitVec 3)
  /-- Hardware reset is asserted (R190). -/
  | reset
  /-- The bytes of a container header (R66). -/
  | header (bytes : List Byte)
  /-- Stream bits, the first to be read first; zeros follow the last (R36). -/
  | bits (bits : List Bool)
  /-- An instruction invoked by name, as the unit operations are: they have no encoding of their own. -/
  | operation (i : Instr)
deriving DecidableEq, Repr

/-- Why the decoder rejects a form. -/
inductive Reject where
  /-- Not twelve bytes (R150). -/
  | shortHeader
  /-- The marker is not "LZ2K" (R150). -/
  | badMarker
  /-- 16 bits match no code word of the table in force (R72): the engine raises `E_DECODE`. -/
  | noCodeWord
  /-- `T_OFF` answers a class outside its alphabet, for which there is no `OFF`; no table a construction built does
  (R92, R119). -/
  | classOutside
  /-- No stream element is being parsed (R50, R51, R140). -/
  | nothingParsed
  /-- An instruction invoked by name with an operand out of the range its rule states (R87, R94, R95, R101, R114,
  R131). -/
  | operandRange
deriving DecidableEq, Repr

/-- Try the code lengths `l`, `l + 1`, ... of which `k` are left, on the top bits of a register: the first symbol
that matches, with its length (R69; R106 allows looking ahead). -/
def matchCode {n cb : Nat} (t : Table n cb) (w : Word) : (k l : Nat) → Option (Nat × Nat)
  | 0, _ => none
  | k + 1, l =>
    match t.lookup l (topBits w l) with
    | some s => some (s, l)
    | none => matchCode t w k (l + 1)

/-- The symbol whose code word stands at the top of a register and the width of that word: 0 bits for a degenerate
table (R68), else 1 to 16 (R69). -/
def codeWordAt {n cb : Nat} (t : Table n cb) (w : Word) : Option (Nat × Nat) :=
  if t.sv then some (t.ss.toNat, 0) else matchCode t w Config.maxLen 1

/-- The `COUNT` of a table from its value (R53). -/
def countOf : TableId → Nat → Instr
  | .tLen, n => .count5 (BitVec.ofNat 5 n)
  | .tLit, n => .count9 (BitVec.ofNat 9 n)
  | .tOff, n => .count4 (BitVec.ofNat 4 n)

/-- The `DEGEN` of a table from its value (R54). -/
def degenOf : TableId → Nat → Instr
  | .tLen, s => .degen5 (BitVec.ofNat 5 s)
  | .tLit, s => .degen9 (BitVec.ofNat 9 s)
  | .tOff, s => .degen4 (BitVec.ofNat 4 s)

/-- The escape form of `HLEN` with `k` ones after `111` (R56, R72). -/
def hlenEscape : Nat → Instr
  | 0 => .hlenEsc7
  | 1 => .hlenEsc8
  | 2 => .hlenEsc9
  | 3 => .hlenEsc10
  | 4 => .hlenEsc11
  | 5 => .hlenEsc12
  | 6 => .hlenEsc13
  | 7 => .hlenEsc14
  | 8 => .hlenEsc15
  | 9 => .hlenEsc16
  | _ + 10 => .hlenIllegal

/-- The `OFF` of class `p` whose delta stands after the top `k` bits of a register (R65). -/
def offOf (w : Word) (k : Nat) : Nat → Except Reject Instr
  | 0 => .ok .off0
  | 1 => .ok .off1
  | 2 => .ok (.off2 (BitVec.ofNat 1 (fieldAt w k 1)))
  | 3 => .ok (.off3 (BitVec.ofNat 2 (fieldAt w k 2)))
  | 4 => .ok (.off4 (BitVec.ofNat 3 (fieldAt w k 3)))
  | 5 => .ok (.off5 (BitVec.ofNat 4 (fieldAt w k 4)))
  | 6 => .ok (.off6 (BitVec.ofNat 5 (fieldAt w k 5)))
  | 7 => .ok (.off7 (BitVec.ofNat 6 (fieldAt w k 6)))
  | 8 => .ok (.off8 (BitVec.ofNat 7 (fieldAt w k 7)))
  | 9 => .ok (.off9 (BitVec.ofNat 8 (fieldAt w k 8)))
  | 10 => .ok (.off10 (BitVec.ofNat 9 (fieldAt w k 9)))
  | 11 => .ok (.off11 (BitVec.ofNat 10 (fieldAt w k 10)))
  | 12 => .ok (.off12 (BitVec.ofNat 11 (fieldAt w k 11)))
  | 13 => .ok (.off13 (BitVec.ofNat 12 (fieldAt w k 12)))
  | _ + 14 => .error .classOutside

/-- The `CL` entry of the value `v` whose extra bits stand after the top `k` bits (R58 to R62: any other value than
0, 1 and 2 is a length). -/
def clOf (w : Word) (k : Nat) : Nat → Instr
  | 0 => .clZero
  | 1 => .clZrun4 (BitVec.ofNat 4 (fieldAt w k 4))
  | 2 => .clZrun9 (BitVec.ofNat 9 (fieldAt w k 9))
  | v + 3 => .clLen (BitVec.ofNat 5 (v + 3))

/-- The unit element of the symbol `c` of `T_LIT` (R63, R64, R112: a literal up to 255, otherwise a match). -/
def unitOf (c : Nat) : Instr :=
  if c ≤ Config.litMax then .lit (BitVec.ofNat 8 c) else .matchSym (BitVec.ofNat 9 c)

/-- The stream element at the parser's place, read from the 32-bit look-ahead register (R50, R51). An element has
at most 28 bits, so the register shows it whole. -/
def decodeElement (site : Site) (x : Tables) (w : Word) : Except Reject Instr :=
  match site with
  | .none => .error .nothingParsed
  | .pad => .ok .pad
  | .subhdr => .ok (.subhdr (BitVec.ofNat 16 (topBits w 16)))
  | .count t => .ok (countOf t (topBits w t.countBits))
  | .degen t => .ok (degenOf t (topBits w t.countBits))
  | .hlen _ _ =>
    if topBits w 3 = 7 then .ok (hlenEscape (onesAt w 10 3)) else .ok (.hlenDirect (BitVec.ofNat 3 (topBits w 3)))
  | .hskip _ _ => .ok (.hskip (BitVec.ofNat 2 (topBits w 2)))
  | .cl _ =>
    match codeWordAt x.tLen w with
    | some (v, k) => .ok (clOf w k v)
    | none => .error .noCodeWord
  | .unit =>
    match codeWordAt x.tLit w with
    | some (c, _) => .ok (unitOf c)
    | none => .error .noCodeWord
  | .off _ =>
    match codeWordAt x.tOff w with
    | some (p, k) => offOf w k p
    | none => .error .noCodeWord

/-- The command of a code (R71); only START uses the operands. -/
def decodeCommand (code : BitVec 2) (inSize outSize : Word) : Instr :=
  if code = 0#2 then .cmdReserved
  else if code = 1#2 then .start inSize outSize
  else if code = 2#2 then .step
  else .run

/-- The header of a block from its twelve bytes (R66, R38); the marker is "LZ2K". -/
def decodeHeader : List Byte → Except Reject Instr
  | [m0, m1, m2, m3, o0, o1, o2, o3, i0, i1, i2, i3] =>
    if m0 = 0x4C#8 ∧ m1 = 0x5A#8 ∧ m2 = 0x32#8 ∧ m3 = 0x4B#8 then
      .ok (.containerHeader (littleEndian o0 o1 o2 o3) (littleEndian i0 i1 i2 i3))
    else .error .badMarker
  | _ => .error .shortHeader

/-- The instruction is a unit operation: it has no encoding and is invoked by name (30_encoding.md, opening). -/
def Instr.isOperation : Instr → Bool
  | .brInit => true
  | .brIngest _ => true
  | .brGet _ => true
  | .ctClear _ => true
  | .ctCount _ => true
  | .ctDegen _ => true
  | .ctHlen => true
  | .ctHskip _ _ => true
  | .ctInitHybrid _ _ => true
  | .ctInitCoded _ _ => true
  | .ctAssign _ => true
  | .ctDecode _ => true
  | .bdInitSubblock => true
  | .bdUnit => true
  | .bdLiteral _ => true
  | .bdMatch _ => true
  | .bdOffset => true
  | .lzEmit _ => true
  | .lzCopy _ _ => true
  | .raise _ => true
  | _ => false

/-- The decoder. -/
def decode (site : Site) (x : Tables) : Form → Except Reject Instr
  | .command code a b => .ok (decodeCommand code a b)
  | .read no => .ok (.read no)
  | .reset => .ok .reset
  | .header bytes => decodeHeader bytes
  | .bits bits => decodeElement site x (windowOf bits)
  | .operation i => if i.wf then .ok i else .error .operandRange

/-- The code word of a symbol (R68): `T.len[s]` bits of `T.code[s]`; no bits if the table is degenerate. -/
def codeBits {n cb : Nat} (t : Table n cb) (s : Nat) : List Bool :=
  if t.sv then [] else bitsOf (t.lenAt s) (t.codeAt s)

/-- The bits of the escape form of `HLEN` for the length `l`, 7 to 16 (R56). -/
def escapeBits (l : Nat) : List Bool := List.replicate (3 + (l - 7)) true ++ [false]

/-- The bits of an `OFF` of class `p` with the delta `d` (R65). -/
def offBits (x : Tables) (p d : Nat) : List Bool := codeBits x.tOff p ++ bitsOf (p - 1) d

/-- The encoder: the form of a well-formed instruction under the tables in force (R52 to R66, R71). -/
def encode (x : Tables) : Instr → Form
  | .cmdReserved => .command 0#2 0 0
  | .start a b => .command 1#2 a b
  | .step => .command 2#2 0 0
  | .run => .command 3#2 0 0
  | .read no => .read no
  | .reset => .reset
  | .containerHeader outSize inSize =>
    .header ([0x4C#8, 0x5A#8, 0x32#8, 0x4B#8] ++ littleEndianBytes outSize ++ littleEndianBytes inSize)
  | .subhdr c => .bits (bitsOf 16 c.toNat)
  | .count5 n => .bits (bitsOf 5 n.toNat)
  | .count9 n => .bits (bitsOf 9 n.toNat)
  | .count4 n => .bits (bitsOf 4 n.toNat)
  | .degen5 s => .bits (bitsOf 5 s.toNat)
  | .degen9 s => .bits (bitsOf 9 s.toNat)
  | .degen4 s => .bits (bitsOf 4 s.toNat)
  | .hlenDirect l => .bits (bitsOf 3 l.toNat)
  | .hlenEsc7 => .bits (escapeBits 7)
  | .hlenEsc8 => .bits (escapeBits 8)
  | .hlenEsc9 => .bits (escapeBits 9)
  | .hlenEsc10 => .bits (escapeBits 10)
  | .hlenEsc11 => .bits (escapeBits 11)
  | .hlenEsc12 => .bits (escapeBits 12)
  | .hlenEsc13 => .bits (escapeBits 13)
  | .hlenEsc14 => .bits (escapeBits 14)
  | .hlenEsc15 => .bits (escapeBits 15)
  | .hlenEsc16 => .bits (escapeBits 16)
  | .hlenIllegal => .bits (List.replicate 13 true)
  | .hskip k => .bits (bitsOf 2 k.toNat)
  | .clZero => .bits (codeBits x.tLen 0)
  | .clZrun4 e => .bits (codeBits x.tLen 1 ++ bitsOf 4 e.toNat)
  | .clZrun9 e => .bits (codeBits x.tLen 2 ++ bitsOf 9 e.toNat)
  | .clLen v => .bits (codeBits x.tLen v.toNat)
  | .lit c => .bits (codeBits x.tLit c.toNat)
  | .matchSym c => .bits (codeBits x.tLit c.toNat)
  | .off0 => .bits (offBits x 0 0)
  | .off1 => .bits (offBits x 1 0)
  | .off2 d => .bits (offBits x 2 d.toNat)
  | .off3 d => .bits (offBits x 3 d.toNat)
  | .off4 d => .bits (offBits x 4 d.toNat)
  | .off5 d => .bits (offBits x 5 d.toNat)
  | .off6 d => .bits (offBits x 6 d.toNat)
  | .off7 d => .bits (offBits x 7 d.toNat)
  | .off8 d => .bits (offBits x 8 d.toNat)
  | .off9 d => .bits (offBits x 9 d.toNat)
  | .off10 d => .bits (offBits x 10 d.toNat)
  | .off11 d => .bits (offBits x 11 d.toNat)
  | .off12 d => .bits (offBits x 12 d.toNat)
  | .off13 d => .bits (offBits x 13 d.toNat)
  | .pad => .bits []
  | .brInit => .operation .brInit
  | .brIngest n => .operation (.brIngest n)
  | .brGet n => .operation (.brGet n)
  | .ctClear t => .operation (.ctClear t)
  | .ctCount t => .operation (.ctCount t)
  | .ctDegen t => .operation (.ctDegen t)
  | .ctHlen => .operation .ctHlen
  | .ctHskip t i => .operation (.ctHskip t i)
  | .ctInitHybrid t skip => .operation (.ctInitHybrid t skip)
  | .ctInitCoded t d => .operation (.ctInitCoded t d)
  | .ctAssign t => .operation (.ctAssign t)
  | .ctDecode t => .operation (.ctDecode t)
  | .bdInitSubblock => .operation .bdInitSubblock
  | .bdUnit => .operation .bdUnit
  | .bdLiteral c => .operation (.bdLiteral c)
  | .bdMatch c => .operation (.bdMatch c)
  | .bdOffset => .operation .bdOffset
  | .lzEmit b => .operation (.lzEmit b)
  | .lzCopy n d => .operation (.lzCopy n d)
  | .raise e => .operation (.raise e)

/-- The tables with nothing in them. -/
def noTables : Tables := ⟨Table.zero _ _, Table.zero _ _, Table.zero _ _⟩

/-- The place of the grammar at which a table word's element is read: an `HLEN` of `T_LEN` (log 9). -/
def tableSite : Site := .hlen .tLen ⟨1, 0, 0⟩

/-- The bits are exactly one `HLEN` (R55, R56). -/
def isHlenBits (bits : List Bool) : Bool :=
  match decode tableSite noTables (.bits bits) with
  | .ok i => decide (encode noTables i = .bits bits)
  | .error _ => false

/-- How a word of spec/opcode_table.json is laid out (log 9): up to 8 bits with only `CMD[1:0]` set, a command with
operands of zeros; 96 bits, the bytes of a container header, the first byte lowest; a number whose binary digits,
without leading zeros, fill the word but for less than a byte and spell an `HLEN`, that element; any other 16 bits, a
`SUBHDR`. -/
def tableForm (nbits w : Nat) : Option (Site × Form) :=
  if nbits ≤ 8 ∧ w < 4 then some (.none, .command (BitVec.ofNat 2 w) 0 0)
  else if nbits = 96 then some (.none, .header ((List.range 12).map fun k => BitVec.ofNat 8 (w / 2 ^ (8 * k))))
  else if nbits < (digitsOf nbits w).length + 8 ∧ isHlenBits (digitsOf nbits w) then
    some (tableSite, .bits (digitsOf nbits w))
  else if nbits = 16 then some (.subhdr, .bits (bitsOf 16 w))
  else none

/-- The instruction the decoder reads from a word numbered as spec/opcode_table.json numbers it (log 9). -/
def decodeTableWord (nbits w : Nat) : Option Instr :=
  match tableForm nbits w with
  | some (site, f) =>
    match decode site noTables f with
    | .ok i => some i
    | .error _ => none
  | none => none

end Sys2Proof
end

