-- ==== Sys2Proof/Machine/Memory.lean ====
section
/-! DEFINITION. The three byte memories (20_memory.md R30 to R32) as sorted lists of cells, what an unlisted address
reads as, and reading and writing one byte (R40: every access is one byte wide and has no side effect). -/

namespace Sys2Proof.Machine

/-- A memory: cells in strictly rising address order, none equal to what an unlisted address reads as. -/
abbrev Mem := List Host.Cell

/-- The memory spaces (R30, R31, R32). -/
inductive Space where
  | inp | out | win
deriving DecidableEq, Repr

/-- What an unlisted address reads as. IN: 0, a byte the HOST did not place (log 3, DESIGN CHOICE, unsafe).
OUT and WIN: no value, a byte nothing has written (R29; log 4, safe). -/
def Space.unlisted : Space → Option Byte
  | .inp => some 0
  | .out => none
  | .win => none

/-- The byte listed at an address. -/
def Mem.listed : Mem → Nat → Option Byte
  | [], _ => none
  | (k, b) :: m, a => if k = a then some b else Mem.listed m a

/-- The byte at an address of a space. -/
def Mem.read (sp : Space) (m : Mem) (a : Nat) : Option Byte :=
  match m.listed a with
  | some b => some b
  | none => sp.unlisted

/-- The list without the cell at an address. -/
def Mem.erase : Mem → Nat → Mem
  | [], _ => []
  | (k, b) :: m, a => if k = a then m else (k, b) :: Mem.erase m a

/-- The list with the cell at an address put in its place. -/
def Mem.insert : Mem → Nat → Byte → Mem
  | [], a, v => [(a, v)]
  | (k, b) :: m, a, v =>
    if a < k then (a, v) :: (k, b) :: m
    else if a = k then (a, v) :: m
    else (k, b) :: Mem.insert m a v

/-- The byte at an address of a space replaced; the canonical form is kept. -/
def Mem.write (sp : Space) (m : Mem) (a : Nat) (v : Byte) : Mem :=
  if sp.unlisted = some v then m.erase a else m.insert a v

/-- Every address of the list is above `k`, and they rise strictly. -/
def Mem.risingFrom : Nat → Mem → Bool
  | _, [] => true
  | lo, (k, _) :: m => decide (lo ≤ k) && Mem.risingFrom (k + 1) m

/-- The canonical form: addresses strictly rising, no cell equal to what an unlisted address reads as. -/
def Mem.wf (sp : Space) (m : Mem) : Bool :=
  Mem.risingFrom 0 m && m.all (fun c => decide (sp.unlisted ≠ some c.2))

/-- The memory that holds a byte string from address `a` on, and nothing else. -/
def Mem.ofBytes (sp : Space) : (a : Nat) → List Byte → Mem
  | _, [] => []
  | a, b :: bs => if sp.unlisted = some b then Mem.ofBytes sp (a + 1) bs else (a, b) :: Mem.ofBytes sp (a + 1) bs

end Sys2Proof.Machine
end

