-- ==== Sys2Proof/Machine/State.lean ====
section
/-! DEFINITION. The machine's state as plain data: every piece of state 10_state.md R10 and 20_memory.md R30 to R32
give the engine, the HOST's side of 44_host_commands.md R150, and the model's own fields (INVENTORY.md, State); the
state after hardware reset; the faults and refusals of the model. -/

namespace Sys2Proof.Machine

/-- `ST.state` (10_state.md R11). -/
inductive Phase where
  /-- No block bound. -/
  | idle
  /-- A block is bound and `BD.remaining = 0`. -/
  | await
  /-- `BD.remaining > 0`. -/
  | decoding
  /-- `BD.produced = OUT_SIZE`. -/
  | done
  /-- A fault was raised. -/
  | fault
deriving DecidableEq, Repr

/-- The bit reader's registers (R13 to R16). -/
structure BitReader where
  /-- `BR.pos`: stream bits consumed (R13). -/
  pos : Nat
  /-- `BR.reg`: the shift register (R14). -/
  reg : Word
  /-- `BR.ptr`: the byte cursor (R15). -/
  ptr : Word
  /-- `BR.rem`: the remaining byte count (R15). -/
  rem : Word
  /-- `BR.used`: bits of the byte at `BR.ptr` already absorbed (R16). -/
  used : BitVec 3
deriving DecidableEq, Repr

/-- What the HOST does with the file after a block that failed (R153: the HOST's choice). -/
inductive Policy where
  /-- Read no further block; the failed one adds nothing to the output. -/
  | stopAtFailure
  /-- Go on as R150's loop is written: the failed block's OUT is appended, and the next block is read. -/
  | nextBlock
deriving DecidableEq, Repr

/-- The HOST's container reader (R150, R151, R153, R170). -/
structure HostSide where
  /-- The file `F`. -/
  file : List Byte
  /-- The cursor `q`. -/
  cursor : Nat
  /-- The output so far. -/
  output : List Byte
  /-- The blocks reported as failed: the cursor of each and its code (R150, R153). -/
  reports : List (Nat × BitVec 4)
  /-- The container was found malformed (R170). -/
  malformed : Bool
  /-- The HOST reads no further block after a failure (R153). -/
  halted : Bool
  /-- The HOST's policy (R153). -/
  policy : Policy
deriving DecidableEq, Repr

/-- What the outside asks of the machine next (R140; log 8). -/
inductive Request where
  /-- A command, a register read, a reset, or a unit operation invoked by name. -/
  | deliver (f : Form)
  /-- The HOST handles the next block of its file (R150). -/
  | container
  /-- A STEP, run element by element (log 11). -/
  | byElements
deriving DecidableEq, Repr

/-- The state of the machine. -/
structure State where
  /-- `ST.state` (R11). -/
  st : Phase
  /-- `ST.err` (R11, R160). -/
  err : BitVec 4
  /-- `IN_SIZE` (R12). -/
  inSize : Word
  /-- `OUT_SIZE` (R12). -/
  outSize : Word
  /-- The bit reader (R13 to R16). -/
  br : BitReader
  /-- `T_LEN`, `T_LIT`, `T_OFF` (R18). -/
  tabs : Tables
  /-- `BD.remaining` (R21). -/
  remaining : BitVec 16
  /-- `BD.produced` (R22). -/
  produced : Word
  /-- `BD.last_n` (R23). -/
  lastN : BitVec 9
  /-- `IN` (R30), the HOST's. -/
  inp : List Host.Cell
  /-- `OUT` (R31). -/
  out : List Host.Cell
  /-- `WIN` (R32). -/
  win : List Host.Cell
  /-- What the last status read returned to the HOST (R144; log 16). -/
  readData : Word
  /-- What the last unit operation invoked by name returned to its invoker (R8; log 12). -/
  ret : Nat
  /-- Where the parser stands (R50, R51; log 7). -/
  site : Site
  /-- The requests that have not been served, oldest first (R140; log 8). -/
  port : List Request
  /-- How often free values have been taken: by a hardware reset (R190; log 2) or from a fresh OUT (R150; log 14). -/
  freeCount : Nat
  /-- The HOST's container reader (R150). -/
  host : HostSide
deriving DecidableEq, Repr

/-- The model stops. None of these is a fault of the spec: those are states the engine goes on from
(60_exceptions.md R171). -/
inductive Fault where
  /-- `LZ.EMIT` at an OUT address at or past `OUT_SIZE`, which does not exist (R8, R31; R134 says it is never
  reached). Raised by `emit`. Safe: the model stops (log 5). -/
  | outAddress
  /-- A copy reads a byte of OUT that nothing has written (R8, R29). Raised by `copyLoop`. Safe: the model stops
  (log 4). -/
  | unwrittenByte
deriving DecidableEq, Repr

/-- The model gives no meaning. -/
inductive Refusal where
  /-- An instruction without a meaning yet. Raised by `exec` only. Safe. -/
  | notModelled (mnemonic : String)
  /-- An instruction invoked by name with an operand out of the range its rule states (R87, R94, R95, R101, R114,
  R131). Raised by `rejected`, which `step` calls. Safe (log 12). -/
  | operandRange
  /-- A stream element where the grammar has none of its kind (R50, R51). Raised by the stream elements. Safe (log 11). -/
  | outOfPlace
  /-- A read of the write-only register CMD (R25). Raised by READ. Safe (log 16). -/
  | writeOnly
  /-- `BD.UNIT` outside its precondition, `ST.state` AWAIT or DECODING (R112). Raised by `BD.UNIT` invoked by name.
  Safe (log 13). -/
  | precondition
deriving DecidableEq, Repr

/-- The machine right after hardware reset (10_state.md R27, 70_reset_and_hazards.md R190): IDLE, no fault; every
register the spec leaves unspecified at 0 (log 1), nothing placed in IN, nothing written in OUT and WIN, nothing
asked of the engine. -/
def State.reset : State where
  st := .idle
  err := 0
  inSize := 0
  outSize := 0
  br := ⟨0, 0, 0, 0, 0⟩
  tabs := noTables
  remaining := 0
  produced := 0
  lastN := 0
  inp := []
  out := []
  win := []
  readData := 0
  ret := 0
  site := .none
  port := []
  freeCount := 0
  host := ⟨[], 0, [], [], false, false, .stopAtFailure⟩

end Sys2Proof.Machine
end

