-- ==== Sys2Proof/Machine/Flags.lean ====
section
/-! DEFINITION. The status bits (10_state.md R24: the engine has no arithmetic flags) and the host-visible register
map (R25). -/

namespace Sys2Proof.Machine

/-- The number of a control state (R11). -/
def phaseCode : Phase → BitVec 3
  | .idle => 0
  | .await => 1
  | .decoding => 2
  | .done => 3
  | .fault => 4

/-- The status bit `done` (R24). -/
def State.isDone (s : State) : Bool := decide (s.st = .done)

/-- The status bit `fault` (R24). -/
def State.isFault (s : State) : Bool := decide (s.st = .fault)

/-- A unit may be decoded: AWAIT or DECODING (R112, R142). -/
def State.isActive (s : State) : Bool := decide (s.st = .await ∨ s.st = .decoding)

/-- `STATUS` (R25): state in bits 2..0, done in bit 3, fault in bit 4, the rest 0. -/
def State.statusWord (s : State) : Word :=
  BitVec.ofNat 32 ((phaseCode s.st).toNat + 2 ^ 3 * s.isDone.toNat + 2 ^ 4 * s.isFault.toNat)

/-- The register of that number as the HOST reads it (R25, R144); 7 is the write-only CMD. -/
def State.register (s : State) (no : BitVec 3) : Option Word :=
  if no = 0#3 then some s.statusWord
  else if no = 1#3 then some (s.err.setWidth 32)
  else if no = 2#3 then some s.inSize
  else if no = 3#3 then some s.outSize
  else if no = 4#3 then some s.produced
  else if no = 5#3 then some (s.lastN.setWidth 32)
  else if no = 6#3 then some (s.remaining.setWidth 32)
  else none

/-- The state after a unit that did not fault (R120). -/
def State.nextPhase (s : State) : Phase :=
  if s.produced = s.outSize then .done else if s.remaining = 0 then .await else .decoding

end Sys2Proof.Machine
end

