-- ==== Sys2Proof/Machine/Operands.lean ====
section
/-! DEFINITION. The derived operands of 30_encoding.md R67: how a field's value becomes a length, a run, a run length
or a distance. -/

namespace Sys2Proof.Machine

/-- The zero run of a `CL.ZRUN4` (R60). -/
def zeroRun4 (x : Nat) : Nat := 3 + x

/-- The zero run of a `CL.ZRUN9` (R61). -/
def zeroRun9 (x : Nat) : Nat := 20 + x

/-- The code length of a `CL.LEN` (R62). -/
def codeLength (v : Nat) : Nat := v - 2

/-- The run length of a match symbol (R64, R115). -/
def runLength (c : Nat) : Nat := c - Config.runBias

/-- How many delta bits an offset class has (R65, R117). -/
def extraBits (p : Nat) : Nat := p - 1

/-- The distance of an offset class and its delta (R65, R116, R117). -/
def distance (p delta : Nat) : Nat := if p = 0 then 1 else 2 ^ extraBits p + delta + 1

/-- The number of a fault code (60_exceptions.md R160). -/
def errCode : ErrCode → BitVec 4
  | .decode => 1
  | .badDistance => 2
  | .tableOverflow => 3
  | .badLength => 4
  | .badSymbol => 5
  | .oversubscribed => 6
  | .emptySubblock => 7
  | .outputOverrun => 8
  | .protocol => 9

end Sys2Proof.Machine
end

