-- ==== Sys2Proof/Machine/Ops.lean ====
section
/-! DEFINITION. The named operations over the state: the updates of one field, the results an operation can have,
TAKING A FAULT (60_exceptions.md R171) as one shared operation, and the ways out of FAULT, which are START and reset
(R174). -/

namespace Sys2Proof.Machine

/-- The bit reader's registers replaced. -/
def State.setBr (s : State) (b : BitReader) : State := { s with br := b }

/-- The table of that name. -/
def State.tab (s : State) (t : TableId) : Table t.size t.countBits := s.tabs.get t

/-- The table of that name replaced. -/
def State.setTab (s : State) (t : TableId) (x : Table t.size t.countBits) : State :=
  { s with tabs := s.tabs.set t x }

/-- `BD.remaining <- c`. -/
def State.setRemaining (s : State) (c : BitVec 16) : State := { s with remaining := c }

/-- The parser's place replaced (log 7). -/
def State.setSite (s : State) (p : Site) : State := { s with site := p }

/-- The value an operation invoked by name returns (log 12). -/
def State.setRet (s : State) (v : Nat) : State := { s with ret := v }

/-- The requests not yet served (log 8). -/
def State.setPort (s : State) (p : List Request) : State := { s with port := p }

/-- The HOST's container reader replaced. -/
def State.setHost (s : State) (h : HostSide) : State := { s with host := h }

/-- Free values have been taken (log 2, log 14). -/
def State.nextFree (s : State) : State := { s with freeCount := s.freeCount + 1 }

/-- The byte `b` written at `BD.produced` in OUT and WIN, and `BD.produced` advanced: the writes of `LZ.EMIT` (R130). -/
def State.pushByte (s : State) (b : Byte) : State :=
  { s with
    out := Mem.write .out s.out s.produced.toNat b
    win := Mem.write .win s.win (s.produced.toNat % Config.wsize) b
    produced := s.produced + 1 }

/-- A unit that did not fault has produced `n` bytes: `BD.last_n` and the next state (R112, R120). At DONE what
follows in the stream is padding (R70). -/
def State.finishUnit (s : State) (n : Nat) : State :=
  { s with
    lastN := BitVec.ofNat 9 n
    st := s.nextPhase
    site := if s.nextPhase = .done then .pad else .none }

/-- TAKING A FAULT (R171): the code is recorded, the state becomes FAULT, the rest of the operation and of the
command is abandoned; nothing else changes. In FAULT the first code stays (R8, R175; log 18). -/
def State.raise (s : State) (e : ErrCode) : State :=
  { s with
    err := if s.st = .fault then s.err else errCode e
    st := .fault
    site := .none }

/-- What an operation answers: a value and the state it leaves; or it raised a fault, which ends its callers too
(R8), in the state that `raise` left; or the model stops. -/
inductive Res (α : Type) where
  | ok (a : α) (s : State)
  | raised (s : State)
  | stop (f : Fault)

/-- An operation, and then another on what it answers; a raise ends both (R8). -/
def Res.andThen {α β : Type} (r : Res α) (k : α → State → Res β) : Res β :=
  match r with
  | .ok a s => k a s
  | .raised s => .raised s
  | .stop f => .stop f

/-- The outcome of an operation that returns nothing. A raised fault is a next state: the command completes (R171). -/
def Res.outcome : Res Unit → Host.Outcome State Fault Refusal
  | .ok _ s => .next s
  | .raised s => .next s
  | .stop f => .fault f

/-- The outcome of an operation invoked by name that returns a value. -/
def Res.outcomeRet : Res Nat → Host.Outcome State Fault Refusal
  | .ok v s => .next (s.setRet v)
  | .raised s => .next s
  | .stop f => .fault f

/-- `raise E` inside an operation. -/
def raiseIn {α : Type} (e : ErrCode) (s : State) : Res α := .raised (s.raise e)

/-- `MemRead(OUT, a, 1)` (R8, R31). -/
def State.readOut (s : State) (a : Nat) : Option Byte := Mem.read .out s.out a

/-- `OUT[0 .. n-1]` as the HOST reads it (R150): a byte of the fresh OUT that nothing has written is a free value
(log 14). -/
def State.collected (s : State) (n : Nat) : List Byte :=
  (List.range n).map fun a => (s.readOut a).getD (Config.freeByte s.freeCount a)

/-- `MemRead(WIN, a, 1)` (R8, R32). -/
def State.readWin (s : State) (a : Nat) : Option Byte := Mem.read .win s.win a

/-- `MemRead(IN, a, 1)` (R8, R30): every address answers. -/
def State.readIn (s : State) (a : Nat) : Byte := (Mem.read .inp s.inp a).getD 0

/-- A table whose every entry is the free value the `k`-th reset leaves (R27; log 2). -/
def freeTable (k : Nat) (t : TableId) : Table t.size t.countBits where
  sv := (Config.freeBits k (.sv t) 1).getLsbD 0
  ss := Config.freeBits k (.ss t) t.countBits
  used := Config.freeBits k (.tused t) t.countBits
  len := Vector.ofFn fun s => Config.freeBits k (.len t s) 5
  code := Vector.ofFn fun s => Config.freeBits k (.code t s) 16

/-- Hardware reset (R190): IDLE, no fault; every other register and table entry a free value (log 2), no byte of WIN
with a value; IN, OUT and the HOST as they were. -/
def State.hardReset (s : State) : State :=
  { s with
    st := .idle
    err := 0
    inSize := Config.freeBits s.freeCount .inSize 32
    outSize := Config.freeBits s.freeCount .outSize 32
    br :=
      { pos := Config.freePos s.freeCount
        reg := Config.freeBits s.freeCount .reg 32
        ptr := Config.freeBits s.freeCount .ptr 32
        rem := Config.freeBits s.freeCount .rem 32
        used := Config.freeBits s.freeCount .used 3 }
    tabs := ⟨freeTable s.freeCount .tLen, freeTable s.freeCount .tLit, freeTable s.freeCount .tOff⟩
    remaining := Config.freeBits s.freeCount .remaining 16
    produced := Config.freeBits s.freeCount .produced 32
    lastN := Config.freeBits s.freeCount .lastN 9
    win := []
    site := .none
    freeCount := s.freeCount + 1 }

end Sys2Proof.Machine
end

