-- ==== Sys2Proof/Machine/BitReader.lean ====
section
/-! DEFINITION. The bit reader's operations (40_bitreader.md), in the register-level form of R82. -/

namespace Sys2Proof.Machine

/-- The byte the bit reader absorbs from (R82): `IN[BR.ptr]` while bytes remain, else zero bits. An address at or past
`IN_SIZE` does not exist and supplies zero bits (R30, R36; log 6). -/
def State.currentByte (s : State) : Byte :=
  if 0 < s.br.rem.toNat ∧ s.br.ptr.toNat < s.inSize.toNat then s.readIn s.br.ptr.toNat else 0

/-- One step of `BR.INGEST` (R82): `k` bits of the current byte, not crossing its end. -/
def State.absorb (s : State) (k : Nat) : State :=
  let used := s.br.used.toNat
  let chunk := (s.currentByte.toNat >>> (8 - used - k)) % 2 ^ k
  let whole := used + k = 8
  s.setBr
    { pos := s.br.pos
      reg := s.br.reg <<< k ||| BitVec.ofNat 32 chunk
      used := BitVec.ofNat 3 (used + k)
      ptr := if whole ∧ 0 < s.br.rem.toNat then s.br.ptr + 1 else s.br.ptr
      rem := if whole ∧ 0 < s.br.rem.toNat then s.br.rem - 1 else s.br.rem }

/-- The loop of `BR.INGEST` (R82); each pass absorbs at least one bit, so `fuel = n` passes suffice (log 19). -/
def ingestLoop : (fuel n : Nat) → State → State
  | 0, _, s => s
  | f + 1, n, s =>
    if n = 0 then s
    else ingestLoop f (n - min n (8 - s.br.used.toNat)) (s.absorb (min n (8 - s.br.used.toNat)))

/-- `BR.INGEST(n)` (R81, R82). -/
def State.ingest (s : State) (n : Nat) : State := ingestLoop n n s

/-- `BR.INIT` (R80). -/
def State.brInit (s : State) : State :=
  (s.setBr { pos := 0, reg := 0, ptr := 0, rem := s.inSize, used := 0 }).ingest 32

/-- What `BR.GET(n)` returns (R84): the top `n` bits of the register; 0 for `n = 0` (R85). -/
def State.peek (s : State) (n : Nat) : Nat := if n = 0 then 0 else topBits s.br.reg n

/-- The state `BR.GET(n)` leaves (R84): refilled, `BR.pos` advanced; unchanged for `n = 0` (R85). -/
def State.consume (s : State) (n : Nat) : State :=
  if n = 0 then s else (s.ingest n).setBr { (s.ingest n).br with pos := s.br.pos + n }

/-- `BR.GET(n)`, written `get(n)` (R84), `0 ≤ n ≤ 32`. -/
def State.get (s : State) (n : Nat) : Nat × State := (s.peek n, s.consume n)

end Sys2Proof.Machine
end

