-- ==== Sys2Proof/Machine/CodeTable.lean ====
section
/-! DEFINITION. The code-table operations (41_codetable.md): the steps both constructions share, the hybrid and the
coded construction, the canonical assignment and the symbol decode. -/

namespace Sys2Proof.Machine

/-- `CT.CLEAR(T)` (R90). -/
def clearTable (t : TableId) (s : State) : State := s.setTab t (s.tab t).clear

/-- The count of `CT.COUNT` recorded (R91): `T.used <- n` unless `n = 0`. -/
def recordCount (t : TableId) (n : Nat) (s : State) : State :=
  if n = 0 then s else s.setTab t ((s.tab t).setUsed n)

/-- `CT.COUNT(T, cb)` (R91). -/
def readCount (t : TableId) (s : State) : Nat × State :=
  ((s.get t.countBits).1, recordCount t (s.get t.countBits).1 (s.get t.countBits).2)

/-- The single symbol of `CT.DEGEN` recorded (R92), or `E_BAD_SYMBOL`. -/
def recordShortcut (t : TableId) (x : Nat) (s : State) : Res Unit :=
  if t.size ≤ x then raiseIn .badSymbol s else .ok () (s.setTab t ((s.tab t).setShortcut x))

/-- `CT.DEGEN(T, cb)` (R92). -/
def readShortcut (t : TableId) (s : State) : Res Unit :=
  recordShortcut t (s.get t.countBits).1 (s.get t.countBits).2

/-- The unary tail of `CT.HLEN` (R93): `room` more ones are allowed before the length passes 16; the fault comes at
the 1 bit that passes it, before any further bit is read. -/
def readTail : (room l : Nat) → State → Res Nat
  | 0, _, s => raiseIn .badLength s
  | r + 1, l, s => if (s.get 1).1 = 1 then readTail r (l + 1) (s.get 1).2 else .ok l (s.get 1).2

/-- `CT.HLEN` (R93): the tail starts at 7 and may add nine ones; the tenth faults. -/
def readHlen (s : State) : Res Nat :=
  if (s.get 3).1 = 7 then readTail 10 7 (s.get 3).2 else .ok (s.get 3).1 (s.get 3).2

/-- The indices `i .. i+k-1` keep length 0 (R94, R97, R98): the new index, or `E_TABLE_OVERFLOW`. -/
def skipIndices (t : TableId) (i k : Nat) (s : State) : Res Nat :=
  if t.size < i + k then raiseIn .tableOverflow s else .ok (i + k) s

/-- `CT.HSKIP(T, i)` (R94). -/
def readSkip (t : TableId) (i : Nat) (s : State) : Res Nat := skipIndices t i (s.get 2).1 (s.get 2).2

/-- `CT.ASSIGN(T)` (R102). -/
def assignCodes (t : TableId) (s : State) : Res Unit :=
  if (s.tab t).assigned.ok then .ok () (s.setTab t (s.tab t).withCodes)
  else raiseIn .oversubscribed (s.setTab t (s.tab t).withCodes)

/-- `T.len[i] <- l` (R95, R99). -/
def storeLen (t : TableId) (i l : Nat) (s : State) : State := s.setTab t ((s.tab t).setLen i l)

/-- The loop test of the hybrid construction (R95, `HYB_COUNT_MODE`). -/
def hybMore (m : HybCountMode) (v : Scan) : Bool :=
  match m with
  | .reads => decide (v.r < v.n)
  | .index => decide (v.i < v.n)

/-- The loop test of the coded construction (R101, `COD_COUNT_MODE`). -/
def codMore (m : CodCountMode) (v : Scan) : Bool :=
  match m with
  | .nonrun => decide (v.r < v.n)
  | .all => decide (v.r < v.n)
  | .index => decide (v.i < v.n)

/-- One index described and counted (R95, R96, R99). -/
def scanEntry (v : Scan) : Scan := { v with i := v.i + 1, r := v.r + 1 }

/-- A zero run that ends at the index `i` (R97, R98): it is no counted entry, but in the mode `ALL`. -/
def scanRun (m : CodCountMode) (v : Scan) (i : Nat) : Scan :=
  { v with i := i, r := if m = .all then v.r + 1 else v.r }

/-- The run-skip is due at this index (R95). -/
def skipDue (skip : Option Nat) (v : Scan) : Bool := decide (skip = some v.i)

/-- The skip of R95, if it is due. -/
def hybSkip (t : TableId) (skip : Option Nat) (v : Scan) (s : State) : Res Scan :=
  if skipDue skip v then (readSkip t v.i s).andThen fun i s => .ok { v with i := i } s else .ok v s

/-- The loop of `CT.INIT_HYBRID` (R95). Each pass raises the index, and one that finds it at `N` faults, so `fuel = N`
passes suffice: with none left the index has reached `N` (R103; log 19). -/
def hybLoop (m : HybCountMode) (t : TableId) (skip : Option Nat) : (fuel : Nat) → Scan → State → Res Unit
  | 0, v, s => if hybMore m v then raiseIn .tableOverflow s else .ok () s
  | f + 1, v, s =>
    if hybMore m v then
      if t.size ≤ v.i then raiseIn .tableOverflow s
      else
        (readHlen s).andThen fun l s =>
          (hybSkip t skip (scanEntry v) (storeLen t v.i l s)).andThen fun v s => hybLoop m t skip f v s
    else .ok () s

/-- `CT.INIT_HYBRID(T, cb, skip)` (R95). -/
def initHybrid (m : HybCountMode) (t : TableId) (skip : Option Nat) (s : State) : Res Unit :=
  let (n, s) := readCount t (clearTable t s)
  if n = 0 then readShortcut t s
  else (hybLoop m t skip t.size ⟨n, 0, 0⟩ s).andThen fun _ s => assignCodes t s

/-- The bits of a code word tried one after the other (R100): lengths `l`, `l + 1`, ... of which `k` are left; `acc`
holds the bits so far. -/
def decodeLoop (t : TableId) : (k l acc : Nat) → State → Res Nat
  | 0, _, _, s => raiseIn .decode s
  | k + 1, l, acc, s =>
    match (s.tab t).lookup l (2 * acc + (s.get 1).1) with
    | some x => .ok x (s.get 1).2
    | none => decodeLoop t k (l + 1) (2 * acc + (s.get 1).1) (s.get 1).2

/-- `CT.DECODE(T)`, written `decode(T)` (R100). -/
def decodeSymbol (t : TableId) (s : State) : Res Nat :=
  if (s.tab t).sv then .ok (s.tab t).ss.toNat s else decodeLoop t Config.maxLen 1 0 s

/-- `CL.ZERO` (R96). -/
def clZeroEntry (t : TableId) (v : Scan) (s : State) : Res Scan :=
  if t.size ≤ v.i then raiseIn .tableOverflow s else .ok (scanEntry v) s

/-- `CL.ZRUN4` and `CL.ZRUN9` (R97, R98) with the run `k`. -/
def clRunEntry (m : CodCountMode) (t : TableId) (v : Scan) (k : Nat) (s : State) : Res Scan :=
  (skipIndices t v.i k s).andThen fun i s => .ok (scanRun m v i) s

/-- `CL.LEN` (R99) of the value `x`. -/
def clLenEntry (t : TableId) (v : Scan) (x : Nat) (s : State) : Res Scan :=
  if t.size ≤ v.i then raiseIn .tableOverflow s else .ok (scanEntry v) (storeLen t v.i (codeLength x) s)

/-- The entry of the value `x` that the length decoder returned (R101): the extra bits of a run are read first. -/
def codEntry (m : CodCountMode) (t : TableId) (v : Scan) (x : Nat) (s : State) : Res Scan :=
  match x with
  | 0 => clZeroEntry t v s
  | 1 => clRunEntry m t v (zeroRun4 (s.get 4).1) (s.get 4).2
  | 2 => clRunEntry m t v (zeroRun9 (s.get 9).1) (s.get 9).2
  | x + 3 => clLenEntry t v (x + 3) s

/-- The loop of `CT.INIT_CODED` (R101). Each pass raises the index or faults, so `fuel = N + 1` passes suffice (R103;
log 19). -/
def codLoop (m : CodCountMode) (t d : TableId) : (fuel : Nat) → Scan → State → Res Unit
  | 0, _, s => raiseIn .tableOverflow s
  | f + 1, v, s =>
    if codMore m v then
      (decodeSymbol d s).andThen fun x s => (codEntry m t v x s).andThen fun v s => codLoop m t d f v s
    else .ok () s

/-- `CT.INIT_CODED(T, cb, D)` (R101). -/
def initCoded (m : CodCountMode) (t d : TableId) (s : State) : Res Unit :=
  let (n, s) := readCount t (clearTable t s)
  if n = 0 then readShortcut t s
  else (codLoop m t d (t.size + 1) ⟨n, 0, 0⟩ s).andThen fun _ s => assignCodes t s

end Sys2Proof.Machine
end

