-- ==== Sys2Proof/Machine/Copy.lean ====
section
/-! DEFINITION. The LZ77 copy engine (43_lz77_copy.md). -/

namespace Sys2Proof.Machine

/-- `LZ.EMIT(b)` (R130). An OUT address at or past `OUT_SIZE` does not exist: the model stops (R8, R31; log 5). -/
def emit (b : Byte) (s : State) : Res Unit :=
  if s.produced.toNat < s.outSize.toNat then .ok () (s.pushByte b) else .stop .outAddress

/-- The byte moves of a copy (R131), in forward order; the source address moves with `BD.produced`. A byte of OUT that
nothing has written has no value: the model stops (R29; log 4). -/
def copyLoop (dist : Nat) : (n : Nat) → State → Res Unit
  | 0, s => .ok () s
  | n + 1, s =>
    match s.readOut (s.produced.toNat - dist) with
    | some b => (emit b s).andThen fun _ s => copyLoop dist n s
    | none => .stop .unwrittenByte

/-- `LZ.COPY(runLength, distance)` (R131): both checks come before the first byte. -/
def copy (n dist : Nat) (s : State) : Res Unit :=
  if s.produced.toNat < dist then raiseIn .badDistance s
  else if s.outSize.toNat < s.produced.toNat + n then raiseIn .outputOverrun s
  else copyLoop dist n s

end Sys2Proof.Machine
end

