-- ==== Sys2Proof/Machine/BlockDecoder.lean ====
section
/-! DEFINITION. The block decompressor's operations (42_blockdecoder.md), the commands' loop over units
(44_host_commands.md R143) and START's effect (R141). -/

namespace Sys2Proof.Machine

/-- `BD.INIT_SUBBLOCK` (R111). It takes what its pseudocode and that of R91, R95 and R101 read, which can be fewer bits
than the 52 that R111's corner case and R201 call the least: vectors F1b and F11 take 43 (log 25, DEDUCED). -/
def initSubblock (s : State) : Res Unit :=
  let (c, s) := s.get Config.subw
  if c = 0 then raiseIn .emptySubblock s
  else
    (initHybrid Config.hybCountMode .tLen (TableId.skip .tLen) (s.setRemaining (BitVec.ofNat 16 c))).andThen fun _ s =>
      (initCoded Config.codCountMode .tLit .tLen s).andThen fun _ s =>
        initHybrid Config.hybCountMode .tOff (TableId.skip .tOff) s

/-- `BD.LITERAL(c)` (R113): the bytes produced. -/
def literal (c : Byte) (s : State) : Res Nat := (emit c s).andThen fun _ s => .ok 1 s

/-- The distance of an offset class, its delta bits read (R116, R117). -/
def readDelta (p : Nat) (s : State) : Nat × State :=
  (distance p (s.get (extraBits p)).1, (s.get (extraBits p)).2)

/-- `BD.OFFSET` (R116, R117): the distance. -/
def readOffset (s : State) : Res Nat :=
  (decodeSymbol .tOff s).andThen fun p s => .ok (readDelta p s).1 (readDelta p s).2

/-- `BD.MATCH(c)` (R114): the bytes produced. -/
def matchUnit (c : Nat) (s : State) : Res Nat :=
  (readOffset s).andThen fun d s => (copy (runLength c) d s).andThen fun _ s => .ok (runLength c) s

/-- The unit of a decoded symbol (R112). -/
def unitOfSymbol (c : Nat) (s : State) : Res Nat :=
  if c ≤ Config.litMax then literal (BitVec.ofNat 8 c) s else matchUnit c s

/-- The tables are rebuilt if the sub-block is used up (R112). -/
def ensureSubblock (s : State) : Res Unit := if s.remaining = 0 then initSubblock s else .ok () s

/-- The unit proper: it is counted before its symbol is decoded (R112). -/
def decodeUnit (s : State) : Res Unit :=
  (decodeSymbol .tLit (s.setRemaining (s.remaining - 1))).andThen fun c s =>
    (unitOfSymbol c s).andThen fun n s => .ok () (s.finishUnit n)

/-- `BD.UNIT` (R112). -/
def bdUnit (s : State) : Res Unit := (ensureSubblock s).andThen fun _ s => decodeUnit s

/-- The loop of RUN (R143): units while the state is AWAIT or DECODING. A unit that does not fault produces at least
one byte, so `OUT_SIZE - BD.produced` units suffice (R123; log 19). -/
def runUnits : (fuel : Nat) → State → Res Unit
  | 0, s => .ok () s
  | f + 1, s => if s.isActive then (bdUnit s).andThen fun _ s => runUnits f s else .ok () s

/-- What RUN does in AWAIT or DECODING (R143). -/
def runBlock (s : State) : Res Unit := runUnits (s.outSize.toNat - s.produced.toNat + 1) s

/-- START (R141): a block is bound, the bit reader primed, a fault cleared; tables and WIN are left as they were. -/
def startBlock (inSize outSize : Word) (s : State) : State :=
  let b := State.brInit { s with inSize := inSize, outSize := outSize, err := 0 }
  { b with
    remaining := 0
    produced := 0
    lastN := 0
    st := if outSize = 0 then .done else .await
    site := if outSize = 0 then .pad else .none }

end Sys2Proof.Machine
end

