-- ==== Sys2Proof/Machine/Commands.lean ====
section
/-! DEFINITION. The meanings of the host commands (44_host_commands.md R141 to R148), of the register read (R144), of
hardware reset (70_reset_and_hazards.md R190) and of the container header (44_host_commands.md R150). -/

namespace Sys2Proof.Machine

/-- What the last status read returned (R144; log 16). -/
def State.setReadData (s : State) (w : Word) : State := { s with readData := w }

/-- `CMD = 00` (R148): `E_PROTOCOL`, but in FAULT nothing. -/
def execCmdReserved (s : State) : Host.Outcome State Fault Refusal :=
  if s.isFault then .next s else .next (s.raise .protocol)

/-- `START(inSize, outSize)` (R141), legal in every state. -/
def execStart (inSize outSize : Word) (s : State) : Host.Outcome State Fault Refusal :=
  .next (startBlock inSize outSize s)

/-- `STEP` (R142, R147). -/
def execStep (s : State) : Host.Outcome State Fault Refusal :=
  if s.isFault then .next s
  else if s.isActive then (bdUnit s).outcome
  else .next (s.raise .protocol)

/-- RUN as an operation (R143, R147). -/
def runCommand (s : State) : Res Unit :=
  if s.isFault ∨ s.isDone then .ok () s
  else if s.isActive then runBlock s
  else raiseIn .protocol s

/-- `RUN` (R143). -/
def execRun (s : State) : Host.Outcome State Fault Refusal := (runCommand s).outcome

/-- `READ` of a register (R25, R144): its value goes to the HOST, nothing of the engine changes. The CMD register
cannot be read (log 16). -/
def execRead (no : BitVec 3) (s : State) : Host.Outcome State Fault Refusal :=
  match s.register no with
  | some w => .next (s.setReadData w)
  | none => .refused .writeOnly

/-- `RESET` (R190). -/
def execReset (s : State) : Host.Outcome State Fault Refusal := .next s.hardReset

/-- The container is malformed (R150, R170): no partial output is salvaged. -/
def HostSide.fail (h : HostSide) : HostSide := { h with malformed := true, output := [] }

/-- The HOST places a block's bytes in IN and gives a fresh OUT, no byte of which has a value (R150, R152; log 15). -/
def State.placeBlock (s : State) (payload : List Byte) : State :=
  { s with inp := Mem.ofBytes .inp 0 payload, out := [] }

/-- The HOST reports a failed block (R150): where its header stands, and its code. -/
def HostSide.report (h : HostSide) (code : BitVec 4) : HostSide :=
  { h with reports := h.reports ++ [(h.cursor, code)] }

/-- The HOST appends a block's output and moves on to the next header (R150). -/
def HostSide.append (h : HostSide) (bytes : List Byte) (size : Nat) : HostSide :=
  { h with output := h.output ++ bytes, cursor := h.cursor + 12 + size }

/-- The last two lines of R150's loop: `OUT[0 .. outSize-1]` is appended and the cursor moves on. -/
def State.appendBlock (s : State) (outSize inSize : Word) : State :=
  s.setHost (s.host.append (s.collected outSize.toNat) inSize.toNat)

/-- What follows the report of a failed block is the HOST's policy (R153; log 14, DESIGN CHOICE): it stops, or goes on
with R150's loop, which appends OUT after a failure too. -/
def State.afterFailure (s : State) (outSize inSize : Word) : State :=
  match s.host.policy with
  | .stopAtFailure => s.setHost { s.host with halted := true }
  | .nextBlock => (s.appendBlock outSize inSize).nextFree

/-- What the HOST does when RUN has completed (R150). -/
def collectBlock (outSize inSize : Word) (s : State) : State :=
  if s.isFault then (s.setHost (s.host.report s.err)).afterFailure outSize inSize else s.appendBlock outSize inSize

/-- A command completes, faulted or not, and the HOST goes on (R171). -/
def Res.completed (r : Res Unit) (k : State → State) : Res Unit :=
  match r with
  | .ok _ s => .ok () (k s)
  | .raised s => .ok () (k s)
  | .stop f => .stop f

/-- One pass of the container reader's loop, the header having been read (R150). It runs also while a block is bound: IN
and OUT are then rewritten and that block is abandoned by START (R141). R197 forbids the HOST such a write and leaves its
result outside the spec (log 26, DESIGN CHOICE). -/
def containerBlock (outSize inSize : Word) (s : State) : Res Unit :=
  let rest := s.host.file.drop (s.host.cursor + 12)
  if rest.length < inSize.toNat then .ok () (s.setHost s.host.fail)
  else
    (runCommand (startBlock inSize outSize (s.placeBlock (rest.take inSize.toNat)))).completed
      (collectBlock outSize inSize)

/-- `CONTAINER.HEADER` (R66, R150). Whether the HOST still reads blocks is tested by `stepContainer` alone: a readable
header delivered as a request of its own is handled, and its output appended, also after the container was found
malformed or the HOST halted (log 24, DESIGN CHOICE). -/
def execContainerHeader (outSize inSize : Word) (s : State) : Host.Outcome State Fault Refusal :=
  (containerBlock outSize inSize s).outcome

end Sys2Proof.Machine
end

