-- ==== Sys2Proof/Machine/Parse.lean ====
section
/-! DEFINITION. The stream elements as steps of the parser (30_encoding.md R50, R51): what each does after its bits
have been consumed, and where the parser then stands. They call the same operations as the constructions of
41_codetable.md and the unit decode of 42_blockdecoder.md. -/

namespace Sys2Proof.Machine

/-- A table description begins: the table is cleared (R90) and its `COUNT` is due (R51). -/
def enterTable (t : TableId) (s : State) : State := (clearTable t s).setSite (.count t)

/-- A unit begins: it is counted (R112) and its `LIT` or `MATCH` is due (R51). -/
def beginUnit (s : State) : State := (s.setRemaining (s.remaining - 1)).setSite .unit

/-- What follows a table description (R51, R111): `tlen tlit toff`, then the units. -/
def afterTable : TableId → State → State
  | .tLen, s => enterTable .tLit s
  | .tLit, s => enterTable .tOff s
  | .tOff, s => beginUnit s

/-- The description has been read: the codes are assigned (R95, R101). -/
def closeTable (t : TableId) (s : State) : Res Unit :=
  (assignCodes t s).andThen fun _ s => .ok () (afterTable t s)

/-- The loop test of a hybrid description and, if a length is due, its range check, made before the `HLEN` is read
(R95, R163). -/
def nextHybrid (t : TableId) (v : Scan) (s : State) : Res Unit :=
  if hybMore Config.hybCountMode v then
    if t.size ≤ v.i then raiseIn .tableOverflow s else .ok () (s.setSite (.hlen t v))
  else closeTable t s

/-- The loop test of a coded description (R101). -/
def nextCoded (v : Scan) (s : State) : Res Unit :=
  if codMore Config.codCountMode v then .ok () (s.setSite (.cl v)) else closeTable .tLit s

/-- The first loop test after a count that is not 0: `T_LIT` is described by `CL` entries, the others by `HLEN` (R51). -/
def firstEntry (t : TableId) (n : Nat) (s : State) : Res Unit :=
  if t = .tLit then nextCoded ⟨n, 0, 0⟩ s else nextHybrid t ⟨n, 0, 0⟩ s

/-- `SUBHDR` (R52, R111). -/
def subhdrElement (c : BitVec 16) (s : State) : Res Unit :=
  if c = 0 then raiseIn .emptySubblock s else .ok () (enterTable .tLen (s.setRemaining c))

/-- `COUNT` (R53, R91). -/
def countElement (t : TableId) (n : Nat) (s : State) : Res Unit :=
  if n = 0 then .ok () ((recordCount t n s).setSite (.degen t)) else firstEntry t n (recordCount t n s)

/-- `DEGEN` (R54, R92). -/
def degenElement (t : TableId) (x : Nat) (s : State) : Res Unit :=
  (recordShortcut t x s).andThen fun _ s => .ok () (afterTable t s)

/-- `HLEN` of the length `l` (R55, R56, R95). -/
def hlenElement (l : Nat) (t : TableId) (v : Scan) (s : State) : Res Unit :=
  if skipDue t.skip (scanEntry v) then .ok () ((storeLen t v.i l s).setSite (.hskip t (scanEntry v)))
  else nextHybrid t (scanEntry v) (storeLen t v.i l s)

/-- `HSKIP` (R57, R94). -/
def hskipElement (k : Nat) (t : TableId) (v : Scan) (s : State) : Res Unit :=
  (skipIndices t v.i k s).andThen fun i s => nextHybrid t { v with i := i } s

/-- A `CL` entry whose effect is `e` (R58). -/
def clElement (e : State → Res Scan) (s : State) : Res Unit := (e s).andThen fun v s => nextCoded v s

/-- `LIT` (R63, R112, R113). -/
def litElement (c : Byte) (s : State) : Res Unit := (literal c s).andThen fun n s => .ok () (s.finishUnit n)

/-- `OFF` of a distance, which completes the `MATCH` of the symbol `c` (R64, R65, R114). -/
def offElement (c : Nat) (dist : Nat) (s : State) : Res Unit :=
  (copy (runLength c) dist s).andThen fun _ s => .ok () (s.finishUnit (runLength c))

/-- The rest of a `MATCH` unit whose `T_LIT` symbol has been read (R112, R114): `BD.MATCH` and the end of the unit. It
is run whole for an offset class that no `OFF` spells (R119: no table a construction built answers one). -/
def finishMatch (s : State) : Res Unit :=
  match s.site with
  | .off c => (matchUnit c.toNat s).andThen fun n s => .ok () (s.finishUnit n)
  | _ => .ok () s

/-- The width of a symbol's code word (R68): 0 in a degenerate table. -/
def State.codeWidth (s : State) (t : TableId) (x : Nat) : Nat :=
  if (s.tab t).sv then 0 else (s.tab t).lenAt x

/-- A STEP, to be run element by element (R112, R142; log 11): the parser is put at the unit's first element. -/
def beginByElements (s : State) : State :=
  if s.isFault then s
  else if s.isActive then if s.remaining = 0 then s.setSite .subhdr else beginUnit s
  else s.raise .protocol

end Sys2Proof.Machine
end

