-- ==== Sys2Proof/Machine/Elements.lean ====
section
/-! DEFINITION. The meanings of the stream elements (30_encoding.md R52 to R65, R70). Each consumes its bits and has
its effect where the grammar allows it (R50, R51); elsewhere it is refused by name (log 11). -/

namespace Sys2Proof.Machine

/-- An element of the table description's `COUNT` (R53). -/
def onCount (t : TableId) (n : Nat) (s : State) : Host.Outcome State Fault Refusal :=
  if s.site = .count t then (countElement t n (s.consume t.countBits)).outcome else .refused .outOfPlace

/-- An element of the table description's `DEGEN` (R54). -/
def onDegen (t : TableId) (x : Nat) (s : State) : Host.Outcome State Fault Refusal :=
  if s.site = .degen t then (degenElement t x (s.consume t.countBits)).outcome else .refused .outOfPlace

/-- An `HLEN` of `k` bits (R55, R56). -/
def onHlen (k : Nat) (e : TableId → Scan → State → Res Unit) (s : State) : Host.Outcome State Fault Refusal :=
  match s.site with
  | .hlen t v => (e t v (s.consume k)).outcome
  | _ => .refused .outOfPlace

/-- The escape form of an `HLEN` of the length `l`, 7 to 16 (R56): `l - 3` bits. -/
def onEscape (l : Nat) (s : State) : Host.Outcome State Fault Refusal := onHlen (l - 3) (hlenElement l) s

/-- A `CL` entry of the value `x` (R58): its code word, then `k` extra bits, then its effect. -/
def onCl (x k : Nat) (e : Scan → State → Res Scan) (s : State) : Host.Outcome State Fault Refusal :=
  match s.site with
  | .cl v => (clElement (e v) ((s.consume (s.codeWidth .tLen x)).consume k)).outcome
  | _ => .refused .outOfPlace

/-- An `OFF` of class `p` with the delta `d` (R65): its code word, then the delta bits, then the copy. -/
def onOff (p d : Nat) (s : State) : Host.Outcome State Fault Refusal :=
  match s.site with
  | .off c =>
    (offElement c.toNat (distance p d) ((s.consume (s.codeWidth .tOff p)).consume (extraBits p))).outcome
  | _ => .refused .outOfPlace

/-- `SUBHDR` (R52, R111). -/
def execSubhdr (c : BitVec 16) (s : State) : Host.Outcome State Fault Refusal :=
  if s.site = .subhdr then (subhdrElement c (s.consume Config.subw)).outcome else .refused .outOfPlace

/-- `COUNT.5` (R53, R91). -/
def execCount5 (n : BitVec 5) (s : State) : Host.Outcome State Fault Refusal := onCount .tLen n.toNat s

/-- `COUNT.9` (R53, R91). -/
def execCount9 (n : BitVec 9) (s : State) : Host.Outcome State Fault Refusal := onCount .tLit n.toNat s

/-- `COUNT.4` (R53, R91). -/
def execCount4 (n : BitVec 4) (s : State) : Host.Outcome State Fault Refusal := onCount .tOff n.toNat s

/-- `DEGEN.5` (R54, R92). -/
def execDegen5 (x : BitVec 5) (s : State) : Host.Outcome State Fault Refusal := onDegen .tLen x.toNat s

/-- `DEGEN.9` (R54, R92). -/
def execDegen9 (x : BitVec 9) (s : State) : Host.Outcome State Fault Refusal := onDegen .tLit x.toNat s

/-- `DEGEN.4` (R54, R92). -/
def execDegen4 (x : BitVec 4) (s : State) : Host.Outcome State Fault Refusal := onDegen .tOff x.toNat s

/-- `HLEN.DIRECT` (R55, R93). -/
def execHlenDirect (l : BitVec 3) (s : State) : Host.Outcome State Fault Refusal := onHlen 3 (hlenElement l.toNat) s

/-- `HLEN.ESC7` (R56, R93). -/
def execHlenEsc7 (s : State) : Host.Outcome State Fault Refusal := onEscape 7 s

/-- `HLEN.ESC8` (R56, R93). -/
def execHlenEsc8 (s : State) : Host.Outcome State Fault Refusal := onEscape 8 s

/-- `HLEN.ESC9` (R56, R93). -/
def execHlenEsc9 (s : State) : Host.Outcome State Fault Refusal := onEscape 9 s

/-- `HLEN.ESC10` (R56, R93). -/
def execHlenEsc10 (s : State) : Host.Outcome State Fault Refusal := onEscape 10 s

/-- `HLEN.ESC11` (R56, R93). -/
def execHlenEsc11 (s : State) : Host.Outcome State Fault Refusal := onEscape 11 s

/-- `HLEN.ESC12` (R56, R93). -/
def execHlenEsc12 (s : State) : Host.Outcome State Fault Refusal := onEscape 12 s

/-- `HLEN.ESC13` (R56, R93). -/
def execHlenEsc13 (s : State) : Host.Outcome State Fault Refusal := onEscape 13 s

/-- `HLEN.ESC14` (R56, R93). -/
def execHlenEsc14 (s : State) : Host.Outcome State Fault Refusal := onEscape 14 s

/-- `HLEN.ESC15` (R56, R93). -/
def execHlenEsc15 (s : State) : Host.Outcome State Fault Refusal := onEscape 15 s

/-- `HLEN.ESC16` (R56, R93). -/
def execHlenEsc16 (s : State) : Host.Outcome State Fault Refusal := onEscape 16 s

/-- `HLEN.ILLEGAL` (R72, R164): the fault comes at the tenth 1 of the tail, 13 bits consumed. -/
def execHlenIllegal (s : State) : Host.Outcome State Fault Refusal :=
  onHlen 13 (fun _ _ s => raiseIn .badLength s) s

/-- `HSKIP` (R57, R94). -/
def execHskip (k : BitVec 2) (s : State) : Host.Outcome State Fault Refusal :=
  match s.site with
  | .hskip t v => (hskipElement k.toNat t v (s.consume 2)).outcome
  | _ => .refused .outOfPlace

/-- `CL.ZERO` (R59, R96). -/
def execClZero (s : State) : Host.Outcome State Fault Refusal := onCl 0 0 (clZeroEntry .tLit) s

/-- `CL.ZRUN4` (R60, R97). -/
def execClZrun4 (x : BitVec 4) (s : State) : Host.Outcome State Fault Refusal :=
  onCl 1 4 (fun v => clRunEntry Config.codCountMode .tLit v (zeroRun4 x.toNat)) s

/-- `CL.ZRUN9` (R61, R98). -/
def execClZrun9 (x : BitVec 9) (s : State) : Host.Outcome State Fault Refusal :=
  onCl 2 9 (fun v => clRunEntry Config.codCountMode .tLit v (zeroRun9 x.toNat)) s

/-- `CL.LEN` (R62, R99). -/
def execClLen (x : BitVec 5) (s : State) : Host.Outcome State Fault Refusal :=
  onCl x.toNat 0 (fun v => clLenEntry .tLit v x.toNat) s

/-- `LIT` (R63, R113). -/
def execLit (c : Byte) (s : State) : Host.Outcome State Fault Refusal :=
  if s.site = .unit then (litElement c (s.consume (s.codeWidth .tLit c.toNat))).outcome else .refused .outOfPlace

/-- `MATCH` (R64, R114): its code word; the `OFF` element that follows completes it. -/
def execMatch (c : BitVec 9) (s : State) : Host.Outcome State Fault Refusal :=
  if s.site = .unit then .next ((s.consume (s.codeWidth .tLit c.toNat)).setSite (.off c)) else .refused .outOfPlace

/-- `OFF.0` (R65, R116). -/
def execOff0 (s : State) : Host.Outcome State Fault Refusal := onOff 0 0 s

/-- `OFF.1` (R65, R117): no delta bits, delta 0. -/
def execOff1 (s : State) : Host.Outcome State Fault Refusal := onOff 1 0 s

/-- `OFF.2` (R65, R117). -/
def execOff2 (d : BitVec 1) (s : State) : Host.Outcome State Fault Refusal := onOff 2 d.toNat s

/-- `OFF.3` (R65, R117). -/
def execOff3 (d : BitVec 2) (s : State) : Host.Outcome State Fault Refusal := onOff 3 d.toNat s

/-- `OFF.4` (R65, R117). -/
def execOff4 (d : BitVec 3) (s : State) : Host.Outcome State Fault Refusal := onOff 4 d.toNat s

/-- `OFF.5` (R65, R117). -/
def execOff5 (d : BitVec 4) (s : State) : Host.Outcome State Fault Refusal := onOff 5 d.toNat s

/-- `OFF.6` (R65, R117). -/
def execOff6 (d : BitVec 5) (s : State) : Host.Outcome State Fault Refusal := onOff 6 d.toNat s

/-- `OFF.7` (R65, R117). -/
def execOff7 (d : BitVec 6) (s : State) : Host.Outcome State Fault Refusal := onOff 7 d.toNat s

/-- `OFF.8` (R65, R117). -/
def execOff8 (d : BitVec 7) (s : State) : Host.Outcome State Fault Refusal := onOff 8 d.toNat s

/-- `OFF.9` (R65, R117). -/
def execOff9 (d : BitVec 8) (s : State) : Host.Outcome State Fault Refusal := onOff 9 d.toNat s

/-- `OFF.10` (R65, R117). -/
def execOff10 (d : BitVec 9) (s : State) : Host.Outcome State Fault Refusal := onOff 10 d.toNat s

/-- `OFF.11` (R65, R117). -/
def execOff11 (d : BitVec 10) (s : State) : Host.Outcome State Fault Refusal := onOff 11 d.toNat s

/-- `OFF.12` (R65, R117). -/
def execOff12 (d : BitVec 11) (s : State) : Host.Outcome State Fault Refusal := onOff 12 d.toNat s

/-- `OFF.13` (R65, R117). -/
def execOff13 (d : BitVec 12) (s : State) : Host.Outcome State Fault Refusal := onOff 13 d.toNat s

/-- `PAD` (R70): never parsed, never checked; nothing changes. -/
def execPad (s : State) : Host.Outcome State Fault Refusal := .next s

end Sys2Proof.Machine
end

