-- ==== Sys2Proof/Machine/UnitOperations.lean ====
section
/-! DEFINITION. The meanings of the unit operations invoked by name (log 12): the operation's effect, and, where it
returns a value, that value in the model's field `ret`. It runs wherever it is requested, also out of the place where its
rule has it run (log 23). -/

namespace Sys2Proof.Machine

/-- `BR.INIT` (R80). -/
def execBrInit (s : State) : Host.Outcome State Fault Refusal := .next s.brInit

/-- `BR.INGEST(n)` (R81, R82). -/
def execBrIngest (n : Fin 33) (s : State) : Host.Outcome State Fault Refusal := .next (s.ingest n.val)

/-- `BR.GET(n)` (R84, R85, R86). -/
def execBrGet (n : Fin 33) (s : State) : Host.Outcome State Fault Refusal :=
  .next ((s.get n.val).2.setRet (s.get n.val).1)

/-- `CT.CLEAR(T)` (R90). -/
def execCtClear (t : TableId) (s : State) : Host.Outcome State Fault Refusal := .next (clearTable t s)

/-- `CT.COUNT(T, cb)` (R91). -/
def execCtCount (t : TableId) (s : State) : Host.Outcome State Fault Refusal :=
  .next ((readCount t s).2.setRet (readCount t s).1)

/-- `CT.DEGEN(T, cb)` (R92). -/
def execCtDegen (t : TableId) (s : State) : Host.Outcome State Fault Refusal := (readShortcut t s).outcome

/-- `CT.HLEN` (R93). -/
def execCtHlen (s : State) : Host.Outcome State Fault Refusal := (readHlen s).outcomeRet

/-- `CT.HSKIP(T, i)` (R94). -/
def execCtHskip (t : TableId) (i : Nat) (s : State) : Host.Outcome State Fault Refusal := (readSkip t i s).outcomeRet

/-- `CT.INIT_HYBRID(T, cb, skip)` (R95). -/
def execCtInitHybrid (t : TableId) (skip : Option Nat) (s : State) : Host.Outcome State Fault Refusal :=
  (initHybrid Config.hybCountMode t skip s).outcome

/-- `CT.INIT_CODED(T, cb, D)` (R101). -/
def execCtInitCoded (t d : TableId) (s : State) : Host.Outcome State Fault Refusal :=
  (initCoded Config.codCountMode t d s).outcome

/-- `CT.ASSIGN(T)` (R102). -/
def execCtAssign (t : TableId) (s : State) : Host.Outcome State Fault Refusal := (assignCodes t s).outcome

/-- `CT.DECODE(T)` (R100). -/
def execCtDecode (t : TableId) (s : State) : Host.Outcome State Fault Refusal := (decodeSymbol t s).outcomeRet

/-- `BD.INIT_SUBBLOCK` (R111). R111 runs it only when a unit is due and `BD.remaining = 0`; requested by name it runs in
every state, also with units left, and reloads the counter (log 23, DESIGN CHOICE). -/
def execBdInitSubblock (s : State) : Host.Outcome State Fault Refusal := (initSubblock s).outcome

/-- `BD.UNIT` (R112); outside its precondition it is refused (log 13). -/
def execBdUnit (s : State) : Host.Outcome State Fault Refusal :=
  if s.isActive then (bdUnit s).outcome else .refused .precondition

/-- `BD.LITERAL(c)` (R113). -/
def execBdLiteral (c : Byte) (s : State) : Host.Outcome State Fault Refusal := (literal c s).outcomeRet

/-- `BD.MATCH(c)` (R114). -/
def execBdMatch (c : BitVec 9) (s : State) : Host.Outcome State Fault Refusal := (matchUnit c.toNat s).outcomeRet

/-- `BD.OFFSET` (R116, R117). -/
def execBdOffset (s : State) : Host.Outcome State Fault Refusal := (readOffset s).outcomeRet

/-- `LZ.EMIT(b)` (R130). -/
def execLzEmit (b : Byte) (s : State) : Host.Outcome State Fault Refusal := (emit b s).outcome

/-- `LZ.COPY(runLength, distance)` (R131). -/
def execLzCopy (n : BitVec 9) (d : BitVec 14) (s : State) : Host.Outcome State Fault Refusal :=
  (copy n.toNat d.toNat s).outcome

/-- `raise E` (R171). -/
def execRaise (e : ErrCode) (s : State) : Host.Outcome State Fault Refusal := .next (s.raise e)

end Sys2Proof.Machine
end

