-- ==== Sys2Proof/Machine/Dispatch.lean ====
section
/-! DEFINITION. The dispatch: one arm per instruction, each one direct call of its meaning. -/

namespace Sys2Proof.Machine

def exec (i : Instr) (s : State) : Host.Outcome State Fault Refusal :=
  match i with
  | .cmdReserved => Sys2Proof.Machine.execCmdReserved s
  | .start inSize outSize => Sys2Proof.Machine.execStart inSize outSize s
  | .step => Sys2Proof.Machine.execStep s
  | .run => Sys2Proof.Machine.execRun s
  | .read no => Sys2Proof.Machine.execRead no s
  | .reset => Sys2Proof.Machine.execReset s
  | .containerHeader outSize inSize => Sys2Proof.Machine.execContainerHeader outSize inSize s
  | .subhdr c => Sys2Proof.Machine.execSubhdr c s
  | .count5 n => Sys2Proof.Machine.execCount5 n s
  | .count9 n => Sys2Proof.Machine.execCount9 n s
  | .count4 n => Sys2Proof.Machine.execCount4 n s
  | .degen5 x => Sys2Proof.Machine.execDegen5 x s
  | .degen9 x => Sys2Proof.Machine.execDegen9 x s
  | .degen4 x => Sys2Proof.Machine.execDegen4 x s
  | .hlenDirect l => Sys2Proof.Machine.execHlenDirect l s
  | .hlenEsc7 => Sys2Proof.Machine.execHlenEsc7 s
  | .hlenEsc8 => Sys2Proof.Machine.execHlenEsc8 s
  | .hlenEsc9 => Sys2Proof.Machine.execHlenEsc9 s
  | .hlenEsc10 => Sys2Proof.Machine.execHlenEsc10 s
  | .hlenEsc11 => Sys2Proof.Machine.execHlenEsc11 s
  | .hlenEsc12 => Sys2Proof.Machine.execHlenEsc12 s
  | .hlenEsc13 => Sys2Proof.Machine.execHlenEsc13 s
  | .hlenEsc14 => Sys2Proof.Machine.execHlenEsc14 s
  | .hlenEsc15 => Sys2Proof.Machine.execHlenEsc15 s
  | .hlenEsc16 => Sys2Proof.Machine.execHlenEsc16 s
  | .hlenIllegal => Sys2Proof.Machine.execHlenIllegal s
  | .hskip k => Sys2Proof.Machine.execHskip k s
  | .clZero => Sys2Proof.Machine.execClZero s
  | .clZrun4 x => Sys2Proof.Machine.execClZrun4 x s
  | .clZrun9 x => Sys2Proof.Machine.execClZrun9 x s
  | .clLen v => Sys2Proof.Machine.execClLen v s
  | .lit c => Sys2Proof.Machine.execLit c s
  | .matchSym c => Sys2Proof.Machine.execMatch c s
  | .off0 => Sys2Proof.Machine.execOff0 s
  | .off1 => Sys2Proof.Machine.execOff1 s
  | .off2 d => Sys2Proof.Machine.execOff2 d s
  | .off3 d => Sys2Proof.Machine.execOff3 d s
  | .off4 d => Sys2Proof.Machine.execOff4 d s
  | .off5 d => Sys2Proof.Machine.execOff5 d s
  | .off6 d => Sys2Proof.Machine.execOff6 d s
  | .off7 d => Sys2Proof.Machine.execOff7 d s
  | .off8 d => Sys2Proof.Machine.execOff8 d s
  | .off9 d => Sys2Proof.Machine.execOff9 d s
  | .off10 d => Sys2Proof.Machine.execOff10 d s
  | .off11 d => Sys2Proof.Machine.execOff11 d s
  | .off12 d => Sys2Proof.Machine.execOff12 d s
  | .off13 d => Sys2Proof.Machine.execOff13 d s
  | .pad => Sys2Proof.Machine.execPad s
  | .brInit => Sys2Proof.Machine.execBrInit s
  | .brIngest n => Sys2Proof.Machine.execBrIngest n s
  | .brGet n => Sys2Proof.Machine.execBrGet n s
  | .ctClear t => Sys2Proof.Machine.execCtClear t s
  | .ctCount t => Sys2Proof.Machine.execCtCount t s
  | .ctDegen t => Sys2Proof.Machine.execCtDegen t s
  | .ctHlen => Sys2Proof.Machine.execCtHlen s
  | .ctHskip t k => Sys2Proof.Machine.execCtHskip t k s
  | .ctInitHybrid t skip => Sys2Proof.Machine.execCtInitHybrid t skip s
  | .ctInitCoded t d => Sys2Proof.Machine.execCtInitCoded t d s
  | .ctAssign t => Sys2Proof.Machine.execCtAssign t s
  | .ctDecode t => Sys2Proof.Machine.execCtDecode t s
  | .bdInitSubblock => Sys2Proof.Machine.execBdInitSubblock s
  | .bdUnit => Sys2Proof.Machine.execBdUnit s
  | .bdLiteral c => Sys2Proof.Machine.execBdLiteral c s
  | .bdMatch c => Sys2Proof.Machine.execBdMatch c s
  | .bdOffset => Sys2Proof.Machine.execBdOffset s
  | .lzEmit b => Sys2Proof.Machine.execLzEmit b s
  | .lzCopy runLength distance => Sys2Proof.Machine.execLzCopy runLength distance s
  | .raise e => Sys2Proof.Machine.execRaise e s

end Sys2Proof.Machine
end

