-- ==== Sys2Proof/Machine/Fetch.lean ====
section
/-! DEFINITION. Fetching: the stream element the look-ahead register shows at the parser's place (10_state.md R14,
30_encoding.md R50), what follows when the decoder reads no instruction, the header at the HOST's cursor (R150), and
how a table word is laid where the next step finds it (log 9). -/

namespace Sys2Proof.Machine

/-- An element is being parsed: the engine is inside a STEP run element by element (log 11). -/
def State.parsing (s : State) : Bool :=
  match s.site with
  | .none => false
  | .pad => false
  | _ => true

/-- The next request is a hardware reset, which is taken in any state, also inside a block (R190). -/
def State.resetPending (s : State) : Bool :=
  match s.port with
  | .deliver .reset :: _ => true
  | _ => false

/-- The stream element at `BR.pos`, read from the look-ahead register (R14, R50). -/
def State.fetchElement (s : State) : Except Reject Instr := decodeElement s.site s.tabs s.br.reg

/-- 16 bits match no code word of the table in force (R72, R161): they are consumed and `E_DECODE` is raised. -/
def State.noCodeWord (s : State) : State := (s.consume Config.maxLen).raise .decode

/-- The header at the HOST's cursor (R150): the decoder is given the next twelve bytes, or as many as are left. -/
def State.fetchHeader (s : State) : Except Reject Instr :=
  decodeHeader ((s.host.file.drop s.host.cursor).take 12)

/-- What follows when the decoder reads no instruction. A header it cannot read makes the container malformed (R72,
R150, R170); 16 bits that match no code word raise `E_DECODE` (R72, R161); a class past `T_OFF`'s alphabet is handled
inside `BD.MATCH` (R114); stream bits where no element is being parsed are not read, so nothing happens (R140; log 11,
DESIGN CHOICE). An operand out of its rule's range has no effect in the spec and is refused by name (log 12). -/
def State.rejected (s : State) : Reject → Host.Outcome State Fault Refusal
  | .shortHeader => .next (s.setHost s.host.fail)
  | .badMarker => .next (s.setHost s.host.fail)
  | .noCodeWord => .next s.noCodeWord
  | .classOutside => (finishMatch s).outcome
  | .nothingParsed => .next s
  | .operandRange => .refused .operandRange

/-- The HOST has no further block to read (R150, R153, R170). -/
def HostSide.finished (h : HostSide) : Bool :=
  h.malformed || h.halted || decide (h.file.length ≤ h.cursor)

/-- Stream bits laid into IN from address 0 on, the bit reader primed on them, the parser at the place of their
element, no request before it (log 9). -/
def State.placeElement (s : State) (site : Site) (bits : List Bool) : State :=
  ((State.brInit
    { s with
      inp := Mem.ofBytes .inp 0 (bytesOfBits bits)
      inSize := BitVec.ofNat 32 (bytesOfBits bits).length }).setSite site).setPort []

/-- A file with one container header, the HOST's cursor on it, and a request to handle it (log 9). -/
def State.placeHeader (s : State) (bytes : List Byte) : State :=
  (s.setHost { s.host with file := bytes, cursor := 0, malformed := false, halted := false }).setPort
    (.container :: s.port)

/-- A form delivered as the next request; a parse in progress is dropped, since the engine would finish it first. -/
def State.placeForm (s : State) (f : Form) : State :=
  (if s.parsing then s.setSite .none else s).setPort (.deliver f :: s.port)

/-- A table word laid where the next step finds it (log 9). -/
def State.placeTableWord (s : State) (nbits w : Nat) : State :=
  match tableForm nbits w with
  | some (site, .bits bits) => s.placeElement site bits
  | some (_, .header bytes) => (if s.parsing then s.setSite .none else s).placeHeader bytes
  | some (_, f) => s.placeForm f
  | none => s

end Sys2Proof.Machine
end

