-- ==== Sys2Proof/Machine/Step.lean ====
section
/-! DEFINITION. The machine's step (log 8). Between commands the engine serves the next request, a whole command in one
step (00_scope.md R4, 70_reset_and_hazards.md R201); inside a STEP run element by element it parses the next stream
element (30_encoding.md R50). -/

namespace Sys2Proof.Machine

/-- A form that reached the engine is decoded and run, in every state: also a unit operation requested by name in
FAULT, where R175 has no operation running and knows no such request (log 22, DESIGN CHOICE), and a header delivered on
its own after the HOST has ended its loop (log 24, DESIGN CHOICE). -/
def stepForm (f : Form) (s : State) : Host.Outcome State Fault Refusal :=
  match decode s.site s.tabs f with
  | .ok i => exec i s
  | .error r => s.rejected r

/-- The HOST handles the next block of its file (R150): a header it cannot read makes the container malformed (R170). -/
def stepContainer (s : State) : Host.Outcome State Fault Refusal :=
  if s.host.finished then .next s
  else
    match s.fetchHeader with
    | .ok i => exec i s
    | .error r => s.rejected r

/-- The next request is served; without one nothing happens (R140, R181). -/
def stepRequest (s : State) : Host.Outcome State Fault Refusal :=
  match s.port with
  | [] => .next s
  | .deliver f :: rest => stepForm f (s.setPort rest)
  | .container :: rest => stepContainer (s.setPort rest)
  | .byElements :: rest => .next (beginByElements (s.setPort rest))

/-- The stream element at `BR.pos` is decoded and run (R50); 16 bits that match no code word raise `E_DECODE` (R72). -/
def stepElement (s : State) : Host.Outcome State Fault Refusal :=
  match s.fetchElement with
  | .ok i => exec i s
  | .error r => s.rejected r

/-- One step of the machine. -/
def step (s : State) : Host.Outcome State Fault Refusal :=
  if s.parsing && !s.resetPending then stepElement s else stepRequest s

/-- A table word stored where `step` fetches its next instruction (log 9). -/
def State.withFetchWord (s : State) (nbits w : Nat) : State := s.placeTableWord nbits w

end Sys2Proof.Machine
end

