-- ==== Sys2Proof/Safety.lean ====
section
/-! DEFINITION. The terms the claims are stated in: the padded stream (20_memory.md R36, R37), the bit reader's
invariant (40_bitreader.md R83), what a sound code table is (10_state.md R19, 41_codetable.md R104, R108), what holds
of a block in progress (43_lz77_copy.md R133, R134), which requests come from the HOST, and what a safe run is. -/

namespace Sys2Proof.Machine

/-- Stream bit `S(j)` (R36). -/
def State.streamBit (s : State) (j : Nat) : Bool :=
  if j / 8 < s.inSize.toNat then (s.readIn (j / 8)).toNat.testBit (7 - j % 8) else false

/-- The value of the field of `n` bits from stream bit `p` on (R37). -/
def State.streamField (s : State) (p n : Nat) : Nat :=
  natOfBits 0 ((List.range n).map fun k => s.streamBit (p + k))

/-- The stream at `BR.pos` begins with these bits. -/
def State.spells (s : State) (bits : List Bool) : Prop :=
  ∀ k, k < bits.length → s.streamBit (s.br.pos + k) = bits.getD k false

/-- The bit reader's invariant (R83). -/
structure State.readerOk (s : State) : Prop where
  reg : ∀ k, k < 32 → s.br.reg.getLsbD (31 - k) = s.streamBit (s.br.pos + k)
  ptr : s.br.ptr.toNat = min s.inSize.toNat ((s.br.pos + 32) / 8)
  rem : s.br.rem.toNat = s.inSize.toNat - s.br.ptr.toNat
  used : s.br.used.toNat = (s.br.pos + 32) % 8

/-- No code word is a prefix of another's, and each fits its length (R19, R104). -/
def Table.prefixFree {n cb : Nat} (t : Table n cb) : Prop :=
  (∀ a, t.lenAt a ≠ 0 → t.codeAt a < 2 ^ t.lenAt a) ∧
    ∀ a b, a ≠ b → t.lenAt a ≠ 0 → t.lenAt a ≤ t.lenAt b → t.codeAt b / 2 ^ (t.lenAt b - t.lenAt a) ≠ t.codeAt a

/-- Codes of one length rise strictly with the symbol (R19, R104). -/
def Table.rising {n cb : Nat} (t : Table n cb) : Prop :=
  ∀ a b, a < b → b < n → t.lenAt a ≠ 0 → t.lenAt a = t.lenAt b → t.codeAt a < t.codeAt b

/-- Every length is at most `MAXLEN` (R108). -/
def Table.lensOk {n cb : Nat} (t : Table n cb) : Prop := ∀ a, t.lenAt a ≤ Config.maxLen

/-- A table that a construction without a fault leaves: degenerate with a symbol of the alphabet (R92), or of lengths
up to 16 with a prefix-free code (R19, R108). -/
def Table.sound {n cb : Nat} (t : Table n cb) : Prop :=
  if t.sv then t.ss.toNat < n else t.lensOk ∧ t.prefixFree

/-- The code space a list of lengths takes, in units of `2^-16` (R104 (d)): the Kraft sum times `2^16`. -/
def kraft : List Nat → Nat
  | [] => 0
  | l :: ls => (if l = 0 then 0 else 2 ^ (16 - l)) + kraft ls

/-- The lengths of a table's symbols, in order. -/
def Table.lens {n cb : Nat} (t : Table n cb) : List Nat := (List.range n).map t.lenAt

/-- The code space handed out before the symbol `s`: to shorter codes, and to smaller symbols of its length (R102). -/
def Table.spaceBefore {n cb : Nat} (t : Table n cb) (s : Nat) : Nat :=
  kraft ((List.range n).map fun a =>
    if t.lenAt a < t.lenAt s ∨ t.lenAt a = t.lenAt s ∧ a < s then t.lenAt a else 0)

/-- The canonical assignment (R102): the code of a symbol of length `l` is the top `l` bits of the 16-bit counter that
stands at the code space handed out before it. -/
def Table.canonical {n cb : Nat} (t : Table n cb) : Prop :=
  ∀ s, t.lenAt s ≠ 0 → t.codeAt s = t.spaceBefore s / 2 ^ (16 - t.lenAt s)

/-- The bits of an `HLEN` of the length `l` (R55, R56). -/
def hlenBits (l : Nat) : List Bool := if l < 7 then bitsOf 3 l else escapeBits l

/-- What holds of the output while a block is in progress or done (R22, R31, R42, R133, R134): `BD.produced` is in
range and says when the block is over, every byte below it has been written, and WIN holds the last 8192 of them. -/
structure State.blockOk (s : State) : Prop where
  inRange : s.produced.toNat ≤ s.outSize.toNat
  activeBelow : s.isActive = true → s.produced.toNat < s.outSize.toNat
  doneAt : s.isDone = true → s.produced = s.outSize
  written : ∀ a, a < s.produced.toNat → s.readOut a ≠ none
  window : ∀ a, a < s.produced.toNat → s.produced.toNat ≤ a + Config.wsize → s.readWin (a % Config.wsize) = s.readOut a

/-- The request is one the HOST makes: a command, a register read, a reset, a block of its file, or a STEP run element
by element; not a unit operation invoked by name. -/
def Request.fromHost : Request → Bool
  | .deliver (.operation _) => false
  | _ => true

/-- The request is a command, a register read, a reset or a block of the HOST's file. -/
def Request.isCommand : Request → Bool
  | .deliver (.operation _) => false
  | .byElements => false
  | _ => true

/-- Memory in its canonical form. -/
def State.memoryOk (s : State) : Prop :=
  Mem.wf .inp s.inp = true ∧ Mem.wf .out s.out = true ∧ Mem.wf .win s.win = true

/-- The fault code and the control state agree (R11, R160): a code other than 0 exactly in FAULT, at most 9; elements
are parsed only inside a unit, and only at DONE is the rest padding. -/
def State.controlOk (s : State) : Prop :=
  (s.st = .fault ↔ s.err ≠ 0) ∧ s.err.toNat ≤ 9 ∧ (s.parsing = true → s.isActive = true) ∧
    (s.site = .pad → s.st = .done)

/-- Only the HOST makes requests, and while a block is in progress or done the output is as `blockOk` says. -/
def State.outputOk (s : State) : Prop :=
  (∀ r, r ∈ s.port → r.fromHost = true) ∧ (s.parsing = true → s.isActive = true) ∧
    (s.isActive = true ∨ s.isDone = true → s.blockOk)

/-- Only the HOST makes requests, and while a block is in progress or done the bit reader is as R83 says. -/
def State.streamOk (s : State) : Prop :=
  (∀ r, r ∈ s.port → r.fromHost = true) ∧ (s.parsing = true → s.isActive = true) ∧
    (s.isActive = true ∨ s.isDone = true → s.readerOk)

/-- Between commands AWAIT and DECODING say whether units of the sub-block are left (R11), and while some are its three
tables are sound (R20, R29). -/
def State.tablesOk (s : State) : Prop :=
  (∀ r, r ∈ s.port → r.isCommand = true) ∧ s.parsing = false ∧ (s.st = .await → s.remaining = 0) ∧
    (s.st = .decoding → s.remaining ≠ 0 ∧ s.tabs.tLen.sound ∧ s.tabs.tLit.sound ∧ s.tabs.tOff.sound)

/-- `t` stands `k` stream bits further, its bit reader as R83 says: with IN and IN_SIZE unchanged that fixes every
register of it (R17). -/
def State.advanced (s t : State) (k : Nat) : Prop := t.br.pos = s.br.pos + k ∧ t.readerOk

/-- Every table but `T` is as it was. -/
def State.othersKept (s t : State) (T : TableId) : Prop := ∀ u, u ≠ T → t.tab u = s.tab u

/-- The table `T` has `l` as the length of symbol `i`, and is otherwise as it was (R95, R99). -/
def State.lenStored (s t : State) (T : TableId) (i l : Nat) : Prop :=
  (∀ a, (t.tab T).lenAt a = if a = i then l else (s.tab T).lenAt a) ∧ (t.tab T).sv = (s.tab T).sv ∧
    (t.tab T).ss = (s.tab T).ss ∧ (t.tab T).used = (s.tab T).used ∧ (t.tab T).code = (s.tab T).code

/-- The description of the table `T` is over and what follows it is due (R51, R111): the next table, cleared (R90), or
the first unit, which has been counted (R112). -/
def State.movedOn (s t : State) : TableId → Prop
  | .tLen => t.tab .tLit = (s.tab .tLit).clear ∧ t.tab .tOff = s.tab .tOff ∧ t.site = .count .tLit ∧
      t.remaining = s.remaining
  | .tLit => t.tab .tLen = s.tab .tLen ∧ t.tab .tOff = (s.tab .tOff).clear ∧ t.site = .count .tOff ∧
      t.remaining = s.remaining
  | .tOff => t.tab .tLen = s.tab .tLen ∧ t.tab .tLit = s.tab .tLit ∧ t.site = .unit ∧
      t.remaining = s.remaining - 1

/-- The code of the table `T` has been assigned from the lengths `lens` (R102), which for the rest of it is as it
was. -/
def State.assignedFrom (s t : State) (T : TableId) (lens : Nat → Nat) : Prop :=
  (∀ a, (t.tab T).lenAt a = lens a) ∧ (t.tab T).canonical ∧ (t.tab T).sv = (s.tab T).sv ∧
    (t.tab T).ss = (s.tab T).ss ∧ (t.tab T).used = (s.tab T).used

/-- `t` is `s` with `n` bytes appended that repeat what stands `d` bytes back (R131, R132): in OUT at the addresses from
BD.produced on, in WIN at the same addresses modulo its size, and nowhere else. -/
structure State.copied (s t : State) (n d : Nat) : Prop where
  produced : t.produced.toNat = s.produced.toNat + n
  outStored : ∀ i, i < n → t.readOut (s.produced.toNat + i) = s.readOut (s.produced.toNat - d + i % d)
  outKept : ∀ a, a < s.produced.toNat ∨ s.produced.toNat + n ≤ a → t.readOut a = s.readOut a
  winStored : ∀ i, i < n → t.readWin ((s.produced.toNat + i) % 8192) = s.readOut (s.produced.toNat - d + i % d)
  winKept : ∀ a, (∀ i, i < n → (s.produced.toNat + i) % 8192 ≠ a) → t.readWin a = s.readWin a

/-- `t` is `s` with the byte `b` appended (R130): in OUT at BD.produced, in WIN at BD.produced modulo its size, and
nowhere else. -/
structure State.appended (s t : State) (b : Byte) : Prop where
  produced : t.produced = s.produced + 1
  out : ∀ a, t.readOut a = if a = s.produced.toNat then some b else s.readOut a
  win : ∀ a, t.readWin a = if a = s.produced.toNat % 8192 then some b else s.readWin a

/-- `t` records a unit of `n` bytes and the state that follows it (R112, R120, R70). -/
def State.unitDone (t : State) (n : Nat) : Prop :=
  t.lastN = BitVec.ofNat 9 n ∧
    t.st = (if t.produced = t.outSize then .done else if t.remaining = 0 then .await else .decoding) ∧
    t.site = if t.produced = t.outSize then .pad else .none

/-- Every byte of the block so far has a value (R42). -/
def State.writtenBelow (s : State) : Prop := ∀ a, a < s.produced.toNat → s.readOut a ≠ none

/-- The bits of a stream element under the tables in force; none for another instruction. -/
def elementBits (x : Tables) (i : Instr) : List Bool :=
  match encode x i with
  | .bits bits => bits
  | _ => []

/-- A hybrid description (R51, R95): the count, then the lengths, and after the length that brings the index to the skip
position the two bits of the skip `k`. -/
def hybridBits (cb : Nat) (skip : Option Nat) (lens : List Nat) (k : Nat) : List Bool :=
  bitsOf cb lens.length ++
    match skip with
    | none => lens.flatMap hlenBits
    | some p =>
      if 0 < p ∧ p ≤ lens.length then
        (lens.take p).flatMap hlenBits ++ bitsOf 2 k ++ (lens.drop p).flatMap hlenBits
      else lens.flatMap hlenBits

/-- The lengths a hybrid description gives the symbols from 0 on (R95): those listed, with `k` zeros at the skip. -/
def hybridLens (skip : Option Nat) (lens : List Nat) (k : Nat) : List Nat :=
  match skip with
  | none => lens
  | some p => if 0 < p ∧ p ≤ lens.length then lens.take p ++ List.replicate k 0 ++ lens.drop p else lens

/-- The lengths a `CL` entry gives to the next symbols (R59 to R62). -/
def clLens : Instr → List Nat
  | .clZero => [0]
  | .clZrun4 x => List.replicate (3 + x.toNat) 0
  | .clZrun9 x => List.replicate (20 + x.toNat) 0
  | .clLen v => [v.toNat - 2]
  | _ => []

/-- The `CL` entry counts toward the used-symbol count (R96 to R99: it is no zero run). -/
def clCounts : Instr → Bool
  | .clZero => true
  | .clLen _ => true
  | _ => false

/-- The instruction is a `CL` entry (R58). -/
def isCl : Instr → Bool
  | .clZero => true
  | .clZrun4 _ => true
  | .clZrun9 _ => true
  | .clLen _ => true
  | _ => false

/-- The table and the value of a `COUNT` (R53). -/
def countField : Instr → Option (TableId × Nat)
  | .count5 n => some (.tLen, n.toNat)
  | .count9 n => some (.tLit, n.toNat)
  | .count4 n => some (.tOff, n.toNat)
  | _ => none

/-- The table and the symbol of a `DEGEN` (R54). -/
def degenField : Instr → Option (TableId × Nat)
  | .degen5 x => some (.tLen, x.toNat)
  | .degen9 x => some (.tLit, x.toNat)
  | .degen4 x => some (.tOff, x.toNat)
  | _ => none

/-- The length of an `HLEN` (R55, R56). -/
def hlenField : Instr → Option Nat
  | .hlenDirect l => some l.toNat
  | .hlenEsc7 => some 7
  | .hlenEsc8 => some 8
  | .hlenEsc9 => some 9
  | .hlenEsc10 => some 10
  | .hlenEsc11 => some 11
  | .hlenEsc12 => some 12
  | .hlenEsc13 => some 13
  | .hlenEsc14 => some 14
  | .hlenEsc15 => some 15
  | .hlenEsc16 => some 16
  | _ => none

/-- The class and the delta of an `OFF` (R65). -/
def offField : Instr → Option (Nat × Nat)
  | .off0 => some (0, 0)
  | .off1 => some (1, 0)
  | .off2 d => some (2, d.toNat)
  | .off3 d => some (3, d.toNat)
  | .off4 d => some (4, d.toNat)
  | .off5 d => some (5, d.toNat)
  | .off6 d => some (6, d.toNat)
  | .off7 d => some (7, d.toNat)
  | .off8 d => some (8, d.toNat)
  | .off9 d => some (9, d.toNat)
  | .off10 d => some (10, d.toNat)
  | .off11 d => some (11, d.toNat)
  | .off12 d => some (12, d.toNat)
  | .off13 d => some (13, d.toNat)
  | _ => none

/-- `k` STEP commands, one after the other. -/
def repeatStep : (k : Nat) → State → Host.Outcome State Fault Refusal
  | 0, s => .next s
  | k + 1, s =>
    match exec .step s with
    | .next s' => repeatStep k s'
    | .fault f => .fault f
    | .refused r => .refused r

/-- The table gives the symbol a code word (R68): the table is sound, and the symbol is its shortcut symbol or has a
length that is not 0. -/
def Table.spells {n cb : Nat} (t : Table n cb) (s : Nat) : Prop :=
  t.sound ∧ if t.sv then t.ss.toNat = s else t.lenAt s ≠ 0

/-- The grammar allows the stream element at this place, and the tables in force give it a code word if it needs one
(R50, R51, R68). -/
def fits (x : Tables) (site : Site) : Instr → Prop
  | .subhdr _ => site = .subhdr
  | .count5 _ => site = .count .tLen
  | .count9 _ => site = .count .tLit
  | .count4 _ => site = .count .tOff
  | .degen5 _ => site = .degen .tLen
  | .degen9 _ => site = .degen .tLit
  | .degen4 _ => site = .degen .tOff
  | .hlenDirect _ | .hlenEsc7 | .hlenEsc8 | .hlenEsc9 | .hlenEsc10 | .hlenEsc11 | .hlenEsc12 | .hlenEsc13
  | .hlenEsc14 | .hlenEsc15 | .hlenEsc16 | .hlenIllegal => ∃ t v, site = .hlen t v
  | .hskip _ => ∃ t v, site = .hskip t v
  | .clZero => (∃ v, site = .cl v) ∧ x.tLen.spells 0
  | .clZrun4 _ => (∃ v, site = .cl v) ∧ x.tLen.spells 1
  | .clZrun9 _ => (∃ v, site = .cl v) ∧ x.tLen.spells 2
  | .clLen v => (∃ v, site = .cl v) ∧ x.tLen.spells v.toNat
  | .lit c => site = .unit ∧ x.tLit.spells c.toNat
  | .matchSym c => site = .unit ∧ x.tLit.spells c.toNat
  | .off0 => (∃ c, site = .off c) ∧ x.tOff.spells 0
  | .off1 => (∃ c, site = .off c) ∧ x.tOff.spells 1
  | .off2 _ => (∃ c, site = .off c) ∧ x.tOff.spells 2
  | .off3 _ => (∃ c, site = .off c) ∧ x.tOff.spells 3
  | .off4 _ => (∃ c, site = .off c) ∧ x.tOff.spells 4
  | .off5 _ => (∃ c, site = .off c) ∧ x.tOff.spells 5
  | .off6 _ => (∃ c, site = .off c) ∧ x.tOff.spells 6
  | .off7 _ => (∃ c, site = .off c) ∧ x.tOff.spells 7
  | .off8 _ => (∃ c, site = .off c) ∧ x.tOff.spells 8
  | .off9 _ => (∃ c, site = .off c) ∧ x.tOff.spells 9
  | .off10 _ => (∃ c, site = .off c) ∧ x.tOff.spells 10
  | .off11 _ => (∃ c, site = .off c) ∧ x.tOff.spells 11
  | .off12 _ => (∃ c, site = .off c) ∧ x.tOff.spells 12
  | .off13 _ => (∃ c, site = .off c) ∧ x.tOff.spells 13
  | .pad => site = .pad
  | _ => False

/-- A safe step: the model does not stop on an access the spec says does not occur (R29, R49). -/
def Safe (o : Host.Outcome State Fault Refusal) : Prop := ∀ f, o ≠ .fault f

end Sys2Proof.Machine
end

