-- ==== Sys2Proof/Certificates/Slice0/Obligations.lean ====
section
/-! DEFINITION. The statements for the provers. Each is about the machine and holds for every state and operand that
meets its hypotheses; the docstring names the rules it rests on. A fault's entry is written `u.raise e` (60_exceptions.md
R171; `Obligations.RaiseRecords` says what that is), `u` being the state in which the operation raised it. -/

open Sys2Proof Sys2Proof.Machine

/-! ## Reset, commands, the container -/

/-- R27, R190, R192: after reset the control state is IDLE and the fault code 0; the invariants below hold there. -/
def Obligations.ResetState : Prop :=
  State.reset.st = .idle ∧ State.reset.err = 0 ∧ State.reset.register 0#3 = some 0 ∧
    State.reset.register 1#3 = some 0 ∧ State.reset.memoryOk ∧ State.reset.controlOk ∧ State.reset.outputOk ∧
    State.reset.streamOk ∧ State.reset.tablesOk

/-- R190: a hardware reset, taken in any state and also inside a block, leaves IDLE and no fault, and does not touch IN
and OUT. Of the registers it leaves unspecified nothing is said. -/
def Obligations.ResetEvent : Prop :=
  ∀ s : State,
    (∃ t, exec .reset s = .next t ∧ t.st = .idle ∧ t.err = 0 ∧ t.inp = s.inp ∧ t.out = s.out ∧ t.site = .none ∧
      t.host = s.host ∧ t.port = s.port ∧ t.readData = s.readData ∧ t.ret = s.ret) ∧
    ∀ rest, s.port = .deliver .reset :: rest → step s = exec .reset (s.setPort rest)

/-- R141, R80: START in any state binds the block, primes the bit reader, clears a fault and the counters; the tables,
IN, OUT and WIN are as they were. -/
def Obligations.StartBinds : Prop :=
  ∀ (a b : Word) (s : State), ∃ t, exec (.start a b) s = .next t ∧ t.br.pos = 0 ∧ t.readerOk ∧
    t = { s with
      inSize := a, outSize := b, err := 0, br := t.br, remaining := 0, produced := 0, lastN := 0
      st := if b = 0 then .done else .await
      site := if b = 0 then .pad else .none }

/-- R147, R148: STEP in IDLE and DONE, RUN in IDLE and the reserved command in every state but FAULT raise E_PROTOCOL and
change nothing else; in FAULT each of them does nothing, and RUN in DONE does nothing. -/
def Obligations.CommandsOutOfPlace : Prop :=
  ∀ s : State,
    (s.st ≠ .fault → exec .cmdReserved s = .next { s with err := 9, st := .fault, site := .none }) ∧
    (s.st = .idle ∨ s.st = .done → exec .step s = .next { s with err := 9, st := .fault, site := .none }) ∧
    (s.st = .idle → exec .run s = .next { s with err := 9, st := .fault, site := .none }) ∧
    (s.st = .done → exec .run s = .next s) ∧
    (s.st = .fault → exec .cmdReserved s = .next s ∧ exec .step s = .next s ∧ exec .run s = .next s)

/-- R25, R144: what the HOST reads of each register, nothing else changing; register 7 is write-only (log 16). -/
def Obligations.ReadRegister : Prop :=
  ∀ s : State,
    exec (.read 0#3) s = .next { s with
      readData := match s.st with
        | .idle => 0
        | .await => 1
        | .decoding => 2
        | .done => 11
        | .fault => 20 } ∧
    exec (.read 1#3) s = .next { s with readData := BitVec.ofNat 32 s.err.toNat } ∧
    exec (.read 2#3) s = .next { s with readData := s.inSize } ∧
    exec (.read 3#3) s = .next { s with readData := s.outSize } ∧
    exec (.read 4#3) s = .next { s with readData := s.produced } ∧
    exec (.read 5#3) s = .next { s with readData := BitVec.ofNat 32 s.lastN.toNat } ∧
    exec (.read 6#3) s = .next { s with readData := BitVec.ofNat 32 s.remaining.toNat } ∧
    exec (.read 7#3) s = .refused .writeOnly

/-- R143, R123, R202: RUN in AWAIT or DECODING ends in DONE or FAULT, and is exactly the STEPs issued while the state is
AWAIT or DECODING, at most one for each byte that is missing. -/
def Obligations.RunIsSteps : Prop :=
  ∀ s : State, s.isActive = true → s.memoryOk → s.blockOk →
    ∃ k t, 1 ≤ k ∧ k ≤ s.outSize.toNat - s.produced.toNat ∧ exec .run s = .next t ∧ repeatStep k s = .next t ∧
      (t.st = .done ∨ t.st = .fault) ∧ ∀ j, j < k → ∃ u, repeatStep j s = .next u ∧ u.isActive = true

/-- R143, R109, R120: RUN with a degenerate literal table and enough units left fills the block with that byte, reads no
stream bit and ends in DONE. -/
def Obligations.RunFills : Prop :=
  ∀ (s : State) (c : Byte), s.isActive = true → s.memoryOk → s.produced.toNat < s.outSize.toNat →
    s.outSize.toNat - s.produced.toNat ≤ s.remaining.toNat → s.tabs.tLit.sv = true →
    s.tabs.tLit.ss.toNat = c.toNat →
    ∃ t, exec .run s = .next t ∧
      (∀ a, t.readOut a = if s.produced.toNat ≤ a ∧ a < s.outSize.toNat then some c else s.readOut a) ∧
      (∀ a, s.produced.toNat ≤ a → a < s.outSize.toNat → t.readWin (a % 8192) = some c) ∧
      (∀ w, (∀ a, s.produced.toNat ≤ a → a < s.outSize.toNat → a % 8192 ≠ w) → t.readWin w = s.readWin w) ∧
      t = { s with
        out := t.out, win := t.win, produced := s.outSize, lastN := 1, st := .done, site := .pad
        remaining := BitVec.ofNat 16 (s.remaining.toNat - (s.outSize.toNat - s.produced.toNat)) }

/-- R150, R151, R153: the HOST handles a block whose bytes all follow its header: it places them in IN, gives a fresh
OUT, issues START and RUN, and then appends OUT[0 .. outSize-1] to its output and moves on to the next header. A failure
it reports first, with its code. With fewer bytes than the header declares the container is malformed and nothing of the
file's output is kept (R170). The model's choices: what follows a report is the HOST's policy, of which R153 says only
that it is the HOST's (log 14): stopAtFailure appends nothing and reads no further block; nextBlock goes on with the loop
as R150 writes it, a byte of the fresh OUT that was not written being a free value. That the pass is one step, and that
no byte of a fresh OUT has a value, is log 15; that a header is handled also after the HOST ended its loop is log 24,
and while a block is bound, which its START abandons, log 26. -/
def Obligations.ContainerBlock : Prop :=
  ∀ (s : State) (o n : Word),
    (((s.host.file.drop (s.host.cursor + 12)).length < n.toNat →
      exec (.containerHeader o n) s = .next { s with host := { s.host with malformed := true, output := [] } })) ∧
    (n.toNat ≤ (s.host.file.drop (s.host.cursor + 12)).length →
      ∃ b v u t, (∀ k, k < n.toNat → b.readIn k = s.host.file.getD (s.host.cursor + 12 + k) 0) ∧
        b = { s with inp := b.inp, out := [] } ∧
        exec (.start n o) b = .next v ∧ exec .run v = .next u ∧ exec (.containerHeader o n) s = .next t ∧
        (u.st = .done ∨ u.st = .fault) ∧
        (u.st = .done → ∃ bytes, bytes.length = o.toNat ∧ (∀ k, k < o.toNat → u.readOut k = bytes[k]?) ∧
          t = { u with host := { s.host with
            output := s.host.output ++ bytes, cursor := s.host.cursor + 12 + n.toNat } }) ∧
        (u.st = .fault → s.host.policy = .stopAtFailure →
          t = { u with host := { s.host with
            reports := s.host.reports ++ [(s.host.cursor, u.err)], halted := true } }) ∧
        (u.st = .fault → s.host.policy = .nextBlock →
          ∃ bytes, bytes.length = o.toNat ∧ (∀ k c, k < o.toNat → u.readOut k = some c → bytes[k]? = some c) ∧
            t = { u with
              freeCount := u.freeCount + 1
              host := { s.host with
                reports := s.host.reports ++ [(s.host.cursor, u.err)]
                output := s.host.output ++ bytes, cursor := s.host.cursor + 12 + n.toNat } }))

/-- R28, R29, R136, R151: a block decodes to the same result whatever state the engine was in and whatever the tables,
WIN and OUT held; it depends on the bytes of IN below IN_SIZE and on the two sizes alone. -/
def Obligations.BlocksIndependent : Prop :=
  ∀ (s s' : State) (a b : Word), s.memoryOk → s'.memoryOk → (∀ j, j < a.toNat → s.readIn j = s'.readIn j) →
    ∃ v v' u u', exec (.start a b) s = .next v ∧ exec (.start a b) s' = .next v' ∧ exec .run v = .next u ∧
      exec .run v' = .next u' ∧ u.st = u'.st ∧ u.err = u'.err ∧ u.produced = u'.produced ∧ u.lastN = u'.lastN ∧
      u.remaining = u'.remaining ∧ u.br = u'.br ∧ ∀ j, j < u.produced.toNat → u.readOut j = u'.readOut j

/-! ## The bit reader -/

/-- R80, R83: BR.INIT in any state leaves the bit reader at stream bit 0 with R83's invariant. -/
def Obligations.BrInitPrimes : Prop :=
  ∀ s : State, ∃ t, exec .brInit s = .next t ∧ t.br.pos = 0 ∧ t.readerOk ∧ t = { s with br := t.br }

/-- R81, R82: BR.INGEST(n) shifts the next n stream bits into the low end of the register and moves the byte cursor over
the bytes it absorbs whole; BR.pos stays. -/
def Obligations.BrIngestShifts : Prop :=
  ∀ (s : State) (n : Fin 33), s.readerOk → ∃ t, exec (.brIngest n) s = .next t ∧
    t.br.reg.toNat = (s.br.reg.toNat * 2 ^ n.val + s.streamField (s.br.pos + 32) n.val) % 2 ^ 32 ∧
    t.br.pos = s.br.pos ∧ t.br.ptr.toNat = min s.inSize.toNat ((s.br.pos + 32 + n.val) / 8) ∧
    t.br.rem.toNat = s.inSize.toNat - t.br.ptr.toNat ∧ t.br.used.toNat = (s.br.pos + 32 + n.val) % 8 ∧
    t = { s with br := t.br }

/-- R84, R83, R86: BR.GET(n) returns the next n stream bits as a number, moves n bits on and keeps R83's invariant; past
the end of the input it returns 0. -/
def Obligations.BrGetReads : Prop :=
  ∀ (s : State) (n : Fin 33), s.readerOk → ∃ t, exec (.brGet n) s = .next t ∧
    t.ret = s.streamField s.br.pos n.val ∧ s.advanced t n.val ∧ t = { s with br := t.br, ret := t.ret } ∧
    (8 * s.inSize.toNat ≤ s.br.pos → t.ret = 0)

/-- R85: get(0) returns 0 (in the model's field `ret`) and changes no state of the engine at all. -/
def Obligations.BrGetZero : Prop := ∀ s : State, exec (.brGet 0) s = .next { s with ret := 0 }

/-! ## The code tables -/

/-- R90: CT.CLEAR clears the shortcut flag and every length; codes, shortcut symbol and count stay, and so do the other
tables. -/
def Obligations.CtClearForgets : Prop :=
  ∀ (T : TableId) (s : State), ∃ t, exec (.ctClear T) s = .next t ∧ (t.tab T).sv = false ∧
    (∀ a, (t.tab T).lenAt a = 0) ∧ (t.tab T).ss = (s.tab T).ss ∧ (t.tab T).used = (s.tab T).used ∧
    (t.tab T).code = (s.tab T).code ∧ s.othersKept t T ∧ t = { s with tabs := t.tabs }

/-- R91, R92, R165: CT.COUNT reads the count field and records it unless it is 0; CT.DEGEN reads the single symbol and
records it as the shortcut, or raises E_BAD_SYMBOL, both fields' bits consumed, if it is outside the alphabet. -/
def Obligations.CtCountAndDegen : Prop :=
  ∀ (T : TableId) (s : State), s.readerOk →
    (∃ t, exec (.ctCount T) s = .next t ∧ t.ret = s.streamField s.br.pos T.countBits ∧ s.advanced t T.countBits ∧
      t.tab T = { s.tab T with
        used := if t.ret = 0 then (s.tab T).used else BitVec.ofNat T.countBits t.ret } ∧
      s.othersKept t T ∧ t = { s with br := t.br, tabs := t.tabs, ret := t.ret }) ∧
    (s.streamField s.br.pos T.countBits < T.size →
      ∃ t, exec (.ctDegen T) s = .next t ∧ s.advanced t T.countBits ∧
        t.tab T = { s.tab T with
          sv := true
          ss := BitVec.ofNat T.countBits (s.streamField s.br.pos T.countBits)
          used := BitVec.ofNat T.countBits 1 } ∧
        s.othersKept t T ∧ t = { s with br := t.br, tabs := t.tabs }) ∧
    (T.size ≤ s.streamField s.br.pos T.countBits →
      ∃ u, exec (.ctDegen T) s = .next (u.raise .badSymbol) ∧ s.advanced u T.countBits ∧ u = { s with br := u.br })

/-- R93, R55, R56, R164: CT.HLEN returns the length its bits spell, 0 to 16, and consumes them; on 111 and ten more 1
bits it raises E_BAD_LENGTH, 13 bits consumed. -/
def Obligations.CtHlenReads : Prop :=
  ∀ s : State, s.readerOk →
    (∀ l, l ≤ 16 → s.spells (hlenBits l) →
      ∃ t, exec .ctHlen s = .next t ∧ t.ret = l ∧ s.advanced t (hlenBits l).length ∧
        t = { s with br := t.br, ret := t.ret }) ∧
    (s.spells (List.replicate 13 true) →
      ∃ u, exec .ctHlen s = .next (u.raise .badLength) ∧ s.advanced u 13 ∧ u = { s with br := u.br })

/-- R94, R163: CT.HSKIP returns the index moved by the two bits it reads, or raises E_TABLE_OVERFLOW if that passes the
alphabet; no table changes. -/
def Obligations.CtHskipMoves : Prop :=
  ∀ (T : TableId) (i : Nat) (s : State), s.readerOk →
    (i + s.streamField s.br.pos 2 ≤ T.size →
      ∃ t, exec (.ctHskip T i) s = .next t ∧ t.ret = i + s.streamField s.br.pos 2 ∧ s.advanced t 2 ∧
        t = { s with br := t.br, ret := t.ret }) ∧
    (T.size < i + s.streamField s.br.pos 2 →
      ∃ u, exec (.ctHskip T i) s = .next (u.raise .tableOverflow) ∧ s.advanced u 2 ∧ u = { s with br := u.br })

/-- R102: if the lengths take at most the whole code space, CT.ASSIGN gives every used symbol its canonical code and
changes nothing else; a symbol of length 0 keeps the code entry it had. -/
def Obligations.AssignCanonical : Prop :=
  ∀ (T : TableId) (s : State), (s.tab T).lensOk → kraft (s.tab T).lens ≤ 2 ^ 16 →
    ∃ t, exec (.ctAssign T) s = .next t ∧ s.assignedFrom t T (s.tab T).lenAt ∧
      (∀ a, (s.tab T).lenAt a = 0 → (t.tab T).codeAt a = (s.tab T).codeAt a) ∧ s.othersKept t T ∧
      t = { s with tabs := t.tabs }

/-- R166, R102: if the lengths take more than the whole code space, CT.ASSIGN raises E_OVERSUBSCRIBED; no stream bit is
consumed and no length changes. -/
def Obligations.AssignOversubscribed : Prop :=
  ∀ (T : TableId) (s : State), (s.tab T).lensOk → 2 ^ 16 < kraft (s.tab T).lens →
    ∃ u, exec (.ctAssign T) s = .next (u.raise .oversubscribed) ∧ (u.tab T).len = (s.tab T).len ∧
      s.othersKept u T ∧ u = { s with tabs := u.tabs }

/-- R104, R19: the code that CT.ASSIGN leaves without a fault is prefix-free, fits its lengths, and rises with the symbol
within a length. -/
def Obligations.AssignPrefixFree : Prop :=
  ∀ (T : TableId) (s t : State), (s.tab T).lensOk → exec (.ctAssign T) s = .next t → t.st ≠ .fault →
    (t.tab T).prefixFree ∧ (t.tab T).rising

/-- R100, R69, R161: CT.DECODE on a table that is not degenerate returns the symbol whose code word stands in the stream
and consumes that word; if none stands there it raises E_DECODE, 16 bits consumed. -/
def Obligations.DecodeFinds : Prop :=
  ∀ (T : TableId) (s : State), s.readerOk → (s.tab T).sv = false →
    (∀ x, (s.tab T).prefixFree → 1 ≤ (s.tab T).lenAt x → (s.tab T).lenAt x ≤ 16 → s.spells (codeBits (s.tab T) x) →
      ∃ t, exec (.ctDecode T) s = .next t ∧ t.ret = x ∧ s.advanced t ((s.tab T).lenAt x) ∧
        t = { s with br := t.br, ret := t.ret }) ∧
    ((∀ x, 1 ≤ (s.tab T).lenAt x → (s.tab T).lenAt x ≤ 16 → ¬ s.spells (codeBits (s.tab T) x)) →
      ∃ u, exec (.ctDecode T) s = .next (u.raise .decode) ∧ s.advanced u 16 ∧ u = { s with br := u.br })

/-- R106, R199, R109: the decoder's look-ahead at 16 bits returns the symbol that CT.DECODE returns bit by bit and
consumes the bits it consumes; for a degenerate table that is the shortcut symbol and no bit. -/
def Obligations.DecodeLookAhead : Prop :=
  ∀ (T : TableId) (s : State),
    ((s.tab T).sv = true → exec (.ctDecode T) s = .next { s with ret := (s.tab T).ss.toNat }) ∧
    (∀ x k, codeWordAt (s.tab T) s.br.reg = some (x, k) → exec (.ctDecode T) s = .next ((s.consume k).setRet x)) ∧
    (codeWordAt (s.tab T) s.br.reg = none → exec (.ctDecode T) s = .next ((s.consume 16).raise .decode))

/-- R161: a complete code matches every 16-bit string: after CT.ASSIGN of lengths that take the whole code space,
CT.DECODE answers a used symbol, whatever the stream. -/
def Obligations.CompleteCodeDecodes : Prop :=
  ∀ (T : TableId) (s t : State), (s.tab T).lensOk → (s.tab T).sv = false → kraft (s.tab T).lens = 2 ^ 16 →
    exec (.ctAssign T) s = .next t →
    ∃ u, exec (.ctDecode T) t = .next u ∧ u.ret < T.size ∧ (t.tab T).lenAt u.ret ≠ 0 ∧
      t.br.pos + (t.tab T).lenAt u.ret = u.br.pos ∧ u = { t with br := u.br, ret := u.ret }

/-- R92, R95, R101, R165: both constructions, on a count of 0: the table is cleared and holds the single symbol that
follows, both fields' bits consumed; E_BAD_SYMBOL if it is outside the alphabet. -/
def Obligations.InitDegenerate : Prop :=
  ∀ (T : TableId) (skip : Option Nat) (i : Instr) (s : State) (x : Nat),
    i = .ctInitHybrid T skip ∨ T = .tLit ∧ i = .ctInitCoded .tLit .tLen → s.readerOk → x < 2 ^ T.countBits →
    s.spells (bitsOf T.countBits 0 ++ bitsOf T.countBits x) →
    (x < T.size →
      ∃ t, exec i s = .next t ∧ s.advanced t (2 * T.countBits) ∧
        t.tab T = { (s.tab T).clear with
          sv := true, ss := BitVec.ofNat T.countBits x, used := BitVec.ofNat T.countBits 1 } ∧
        s.othersKept t T ∧ t = { s with br := t.br, tabs := t.tabs }) ∧
    (T.size ≤ x →
      ∃ u, exec i s = .next (u.raise .badSymbol) ∧ s.advanced u (2 * T.countBits) ∧ u.tab T = (s.tab T).clear ∧
        s.othersKept u T ∧ u = { s with br := u.br, tabs := u.tabs })

/-- R95, R93, R94, R102: CT.INIT_HYBRID on a description that lists lengths of up to 16 for at most the whole alphabet,
with the run-skip where it is due, and takes at most the whole code space: the symbols have those lengths, every other
symbol 0, and their canonical codes; exactly the description is consumed. -/
def Obligations.InitHybridBuilds : Prop :=
  ∀ (T : TableId) (skip : Option Nat) (s : State) (lens : List Nat) (k : Nat),
    s.readerOk → lens ≠ [] → (∀ l, l ∈ lens → l ≤ 16) → k < 4 → (hybridLens skip lens k).length ≤ T.size →
    kraft lens ≤ 2 ^ 16 → s.spells (hybridBits T.countBits skip lens k) →
    ∃ t, exec (.ctInitHybrid T skip) s = .next t ∧ s.advanced t (hybridBits T.countBits skip lens k).length ∧
      (∀ a, (t.tab T).lenAt a = (hybridLens skip lens k).getD a 0) ∧ (t.tab T).canonical ∧ (t.tab T).sv = false ∧
      (t.tab T).used.toNat = lens.length ∧ (t.tab T).ss = (s.tab T).ss ∧ s.othersKept t T ∧
      t = { s with br := t.br, tabs := t.tabs }

/-- R101, R96 to R99, R102: CT.INIT_CODED on a description of CL entries, the last of them no zero run, that a sound
T_LEN spells, that covers at most the whole alphabet and takes at most the whole code space: the symbols have the
lengths the entries say, every other symbol 0, and their canonical codes; exactly the description is consumed. -/
def Obligations.InitCodedBuilds : Prop :=
  ∀ (s : State) (v : Scan) (es : List Instr) (e : Instr),
    s.readerOk → (∀ i, i ∈ es ++ [e] → i.wf = true ∧ isCl i = true ∧ fits s.tabs (.cl v) i) → clCounts e = true →
    ((es ++ [e]).filter clCounts).length < 2 ^ 9 → ((es ++ [e]).flatMap clLens).length ≤ 510 →
    kraft ((es ++ [e]).flatMap clLens) ≤ 2 ^ 16 →
    s.spells (bitsOf 9 ((es ++ [e]).filter clCounts).length ++ (es ++ [e]).flatMap (elementBits s.tabs)) →
    ∃ t, exec (.ctInitCoded .tLit .tLen) s = .next t ∧
      s.advanced t (9 + ((es ++ [e]).flatMap (elementBits s.tabs)).length) ∧
      (∀ a, (t.tab .tLit).lenAt a = ((es ++ [e]).flatMap clLens).getD a 0) ∧ (t.tab .tLit).canonical ∧
      (t.tab .tLit).sv = false ∧ (t.tab .tLit).used.toNat = ((es ++ [e]).filter clCounts).length ∧
      (t.tab .tLit).ss = (s.tab .tLit).ss ∧ s.othersKept t .tLit ∧ t = { s with br := t.br, tabs := t.tabs }

/-- R103, R101: a degenerate length decoder that only ever returns a zero run ends in E_TABLE_OVERFLOW. -/
def Obligations.RunsOnlyOverflow : Prop :=
  ∀ s : State, s.readerOk → s.tabs.tLen.sv = true → s.tabs.tLen.ss = 1 ∨ s.tabs.tLen.ss = 2 →
    s.streamField s.br.pos 9 ≠ 0 →
    ∃ u, exec (.ctInitCoded .tLit .tLen) s = .next (u.raise .tableOverflow) ∧ s.br.pos < u.br.pos ∧ u.readerOk ∧
      (∀ a, (u.tab .tLit).lenAt a = 0) ∧ s.othersKept u .tLit ∧ u = { s with br := u.br, tabs := u.tabs }

/-! ## The block decoder and the copy engine -/

/-- R111, R167: BD.INIT_SUBBLOCK on three degenerate tables, 52 bits; and on a count of 0, which raises E_EMPTY_SUBBLOCK,
the 16 bits consumed and no table touched. It is not said that no description is shorter, as R111 and R201 have it: the
model follows the pseudocode and vectors F1b and F11 (log 25). That it runs also with units left is the model's choice
(log 23). -/
def Obligations.SubblockDegenerate : Prop :=
  ∀ s : State, s.readerOk →
    (∀ (c : BitVec 16) (x y z : Nat), c ≠ 0 → x < 19 → y < 510 → z < 14 →
      s.spells (bitsOf 16 c.toNat ++ bitsOf 5 0 ++ bitsOf 5 x ++ bitsOf 9 0 ++ bitsOf 9 y ++ bitsOf 4 0 ++ bitsOf 4 z) →
      ∃ t, exec .bdInitSubblock s = .next t ∧ s.advanced t 52 ∧
        t.tabs.tLen = { s.tabs.tLen.clear with sv := true, ss := BitVec.ofNat 5 x, used := 1 } ∧
        t.tabs.tLit = { s.tabs.tLit.clear with sv := true, ss := BitVec.ofNat 9 y, used := 1 } ∧
        t.tabs.tOff = { s.tabs.tOff.clear with sv := true, ss := BitVec.ofNat 4 z, used := 1 } ∧
        t = { s with br := t.br, tabs := t.tabs, remaining := c }) ∧
    (s.streamField s.br.pos 16 = 0 →
      ∃ u, exec .bdInitSubblock s = .next (u.raise .emptySubblock) ∧ s.advanced u 16 ∧ u = { s with br := u.br })

/-- R111, R19, R92, R108: if BD.INIT_SUBBLOCK does not fault, units are left and its three tables are sound, whatever
they held before. That it runs also with units left is the model's choice (log 23). -/
def Obligations.SubblockSound : Prop :=
  ∀ s t : State, exec .bdInitSubblock s = .next t → t.st ≠ .fault →
    t.remaining ≠ 0 ∧ t.tabs.tLen.sound ∧ t.tabs.tLit.sound ∧ t.tabs.tOff.sound ∧
      t = { s with br := t.br, tabs := t.tabs, remaining := t.remaining }

/-- R130, R113: LZ.EMIT appends one byte to OUT and WIN; BD.LITERAL does so and returns 1. -/
def Obligations.EmitAppends : Prop :=
  ∀ (s : State) (b : Byte), s.memoryOk → s.produced.toNat < s.outSize.toNat →
    (∃ t, exec (.lzEmit b) s = .next t ∧ s.appended t b ∧
      t = { s with out := t.out, win := t.win, produced := t.produced }) ∧
    ∃ t, exec (.bdLiteral b) s = .next t ∧ s.appended t b ∧ t.ret = 1 ∧
      t = { s with out := t.out, win := t.win, produced := t.produced, ret := t.ret }

/-- R116, R117: BD.OFFSET returns 1 for class 0 and 2^(p-1) + delta + 1 for class p, the class word and the p - 1 delta
bits consumed. -/
def Obligations.OffsetReads : Prop :=
  ∀ (s : State) (p d : Nat), s.readerOk → s.tabs.tOff.spells p → p ≤ 13 → d < 2 ^ (p - 1) →
    s.spells (offBits s.tabs p d) →
    ∃ t, exec .bdOffset s = .next t ∧ t.ret = (if p = 0 then 1 else 2 ^ (p - 1) + d + 1) ∧
      s.advanced t (offBits s.tabs p d).length ∧ t = { s with br := t.br, ret := t.ret }

/-- R118: the distance table: class 0 spells 1, class p the distances from 2^(p-1) + 1 to 2^p, and every distance from 1
to 8192 has exactly one spelling. -/
def Obligations.DistanceTable : Prop :=
  distance 0 0 = 1 ∧
    (∀ p, 1 ≤ p → p ≤ 13 → ∀ x, (∃ d, d < 2 ^ (p - 1) ∧ distance p d = x) ↔ 2 ^ (p - 1) + 1 ≤ x ∧ x ≤ 2 ^ p) ∧
    ∀ x, 1 ≤ x → x ≤ 8192 → ∃ p d, (p ≤ 13 ∧ d < 2 ^ (p - 1) ∧ distance p d = x) ∧
      ∀ p' d', p' ≤ 13 → d' < 2 ^ (p' - 1) → distance p' d' = x → p' = p ∧ d' = d

/-- R130, R131, R132, R44: LZ.COPY within the block appends the last `distance` bytes of output repeated cyclically, to OUT and
to WIN, and nothing else changes. -/
def Obligations.CopyRepeats : Prop :=
  ∀ (s : State) (n : BitVec 9) (d : BitVec 14), (Instr.lzCopy n d).wf = true → s.memoryOk → s.writtenBelow →
    d.toNat ≤ s.produced.toNat → s.produced.toNat + n.toNat ≤ s.outSize.toNat →
    ∃ t, exec (.lzCopy n d) s = .next t ∧ s.copied t n.toNat d.toNat ∧
      t = { s with out := t.out, win := t.win, produced := t.produced }

/-- R162, R168, R173 (b): LZ.COPY raises E_BAD_DISTANCE if the distance reaches before the block, else E_OUTPUT_OVERRUN
if the run passes OUT_SIZE; either way before any byte moves. -/
def Obligations.CopyFaults : Prop :=
  ∀ (s : State) (n : BitVec 9) (d : BitVec 14),
    (s.produced.toNat < d.toNat → exec (.lzCopy n d) s = .next (s.raise .badDistance)) ∧
    (d.toNat ≤ s.produced.toNat → s.outSize.toNat < s.produced.toNat + n.toNat →
      exec (.lzCopy n d) s = .next (s.raise .outputOverrun))

/-- R114, R115, R117, R131: BD.MATCH(c) reads the offset the stream spells, copies c - 253 bytes from that distance and
returns how many. -/
def Obligations.MatchCopies : Prop :=
  ∀ (s : State) (c : BitVec 9) (p d : Nat), (Instr.bdMatch c).wf = true → s.readerOk → s.memoryOk → s.writtenBelow →
    s.tabs.tOff.spells p → p ≤ 13 → d < 2 ^ (p - 1) → s.spells (offBits s.tabs p d) →
    distance p d ≤ s.produced.toNat → s.produced.toNat + (c.toNat - 253) ≤ s.outSize.toNat →
    ∃ t, exec (.bdMatch c) s = .next t ∧ t.ret = c.toNat - 253 ∧ s.advanced t (offBits s.tabs p d).length ∧
      s.copied t (c.toNat - 253) (distance p d) ∧
      t = { s with br := t.br, out := t.out, win := t.win, produced := t.produced, ret := t.ret }

/-- R112, R113, R120, R142: STEP and BD.UNIT, units of the sub-block being left, on a literal: the unit is counted, its
code word consumed, the byte appended, one byte reported, and the next state set. -/
def Obligations.UnitLiteral : Prop :=
  ∀ (s : State) (i : Instr) (c : Byte), i = .step ∨ i = .bdUnit → s.isActive = true → s.remaining ≠ 0 →
    s.readerOk → s.memoryOk → s.produced.toNat < s.outSize.toNat → s.tabs.tLit.spells c.toNat →
    s.spells (codeBits s.tabs.tLit c.toNat) →
    ∃ t, exec i s = .next t ∧ s.advanced t (codeBits s.tabs.tLit c.toNat).length ∧ s.appended t c ∧ t.unitDone 1 ∧
      t = { s with
        br := t.br, out := t.out, win := t.win, produced := t.produced, remaining := s.remaining - 1
        lastN := t.lastN, st := t.st, site := t.site }

/-- R112, R114, R120, R142: STEP and BD.UNIT on a match: the unit is counted, its code word and its offset consumed, the
run copied, its length reported, and the next state set. -/
def Obligations.UnitMatch : Prop :=
  ∀ (s : State) (i : Instr) (c p d : Nat), i = .step ∨ i = .bdUnit → s.isActive = true → s.remaining ≠ 0 →
    s.readerOk → s.memoryOk → s.writtenBelow → 256 ≤ c → c ≤ 509 → s.tabs.tLit.spells c → s.tabs.tOff.spells p →
    p ≤ 13 → d < 2 ^ (p - 1) → s.spells (codeBits s.tabs.tLit c ++ offBits s.tabs p d) →
    distance p d ≤ s.produced.toNat → s.produced.toNat + (c - 253) ≤ s.outSize.toNat →
    ∃ t, exec i s = .next t ∧ s.advanced t (codeBits s.tabs.tLit c ++ offBits s.tabs p d).length ∧
      s.copied t (c - 253) (distance p d) ∧ t.unitDone (c - 253) ∧
      t = { s with
        br := t.br, out := t.out, win := t.win, produced := t.produced, remaining := s.remaining - 1
        lastN := t.lastN, st := t.st, site := t.site }

/-- R112, R142: a unit that finds no unit of the sub-block left first runs BD.INIT_SUBBLOCK, and is that sub-block's
first unit unless that faulted. -/
def Obligations.UnitInitialises : Prop :=
  ∀ (s : State) (i : Instr), i = .step ∨ i = .bdUnit → s.isActive = true → s.remaining = 0 →
    ∃ u, exec .bdInitSubblock s = .next u ∧
      (u.st = .fault → exec i s = .next u) ∧ (u.st ≠ .fault → u.remaining ≠ 0 ∧ exec i s = exec i u)

/-- R172: a unit that faults writes no output: OUT, WIN, BD.produced and BD.last_n are as they were; the code it leaves
is one of 1 to 8. -/
def Obligations.UnitPrecise : Prop :=
  ∀ (s t : State) (i : Instr), i = .step ∨ i = .bdUnit → s.isActive = true → exec i s = .next t → t.st = .fault →
    t.out = s.out ∧ t.win = s.win ∧ t.produced = s.produced ∧ t.lastN = s.lastN ∧ 1 ≤ t.err.toNat ∧ t.err.toNat ≤ 8

/-- R120, R121: after a unit that did not fault the state is DONE if the block is complete, else AWAIT if no unit of the
sub-block is left, else DECODING; BD.produced grew by BD.last_n, which is 1 or 3 to 256; one unit was counted. -/
def Obligations.UnitNextState : Prop :=
  ∀ (s t : State) (i : Instr), i = .step ∨ i = .bdUnit → s.isActive = true → exec i s = .next t → t.st ≠ .fault →
    t.st = (if t.produced = t.outSize then .done else if t.remaining = 0 then .await else .decoding) ∧
    t.produced.toNat = s.produced.toNat + t.lastN.toNat ∧ 1 ≤ t.lastN.toNat ∧ t.produced.toNat ≤ t.outSize.toNat ∧
    (s.remaining ≠ 0 → t.remaining = s.remaining - 1) ∧
    (s.remaining = 0 ∨ s.tabs.tLit.sound → t.lastN = 1 ∨ 3 ≤ t.lastN.toNat ∧ t.lastN.toNat ≤ 256)

/-- R171, R160, R175: raise records the code and enters FAULT, nothing else of the engine changing; in FAULT the first
code stays (log 18). -/
def Obligations.RaiseRecords : Prop :=
  ∀ (s : State) (e : ErrCode),
    exec (.raise e) s = .next (s.raise e) ∧
    (s.st ≠ .fault → s.raise e = { s with
      st := .fault
      site := .none
      err := match e with
        | .decode => 1
        | .badDistance => 2
        | .tableOverflow => 3
        | .badLength => 4
        | .badSymbol => 5
        | .oversubscribed => 6
        | .emptySubblock => 7
        | .outputOverrun => 8
        | .protocol => 9 }) ∧
    (s.st = .fault → s.raise e = { s with site := .none })

/-! ## The stream elements, one at a time -/

/-- R52, R111, R90, R167: SUBHDR sets BD.remaining and clears T_LEN, whose count is due; a count of 0 raises
E_EMPTY_SUBBLOCK. -/
def Obligations.ElementSubhdr : Prop :=
  ∀ (s : State) (c : BitVec 16), s.readerOk → s.site = .subhdr →
    (c ≠ 0 → ∃ t, exec (.subhdr c) s = .next t ∧ s.advanced t 16 ∧ t.tab .tLen = (s.tab .tLen).clear ∧
      s.othersKept t .tLen ∧
      t = { s with br := t.br, tabs := t.tabs, remaining := c, site := .count .tLen }) ∧
    (c = 0 → ∃ u, exec (.subhdr c) s = .next (u.raise .emptySubblock) ∧ s.advanced u 16 ∧ u = { s with br := u.br })

/-- R53, R91, R51: COUNT records a count that is not 0, and the first length is due, a CL entry for T_LIT and an HLEN for
the others; after a count of 0 the DEGEN is due. -/
def Obligations.ElementCount : Prop :=
  ∀ (s : State) (i : Instr) (T : TableId) (n : Nat), s.readerOk → countField i = some (T, n) → s.site = .count T →
    (n ≠ 0 → ∃ t, exec i s = .next t ∧ s.advanced t T.countBits ∧
      t.tab T = { s.tab T with used := BitVec.ofNat T.countBits n } ∧ s.othersKept t T ∧
      t.site = (if T = .tLit then .cl ⟨n, 0, 0⟩ else .hlen T ⟨n, 0, 0⟩) ∧
      t = { s with br := t.br, tabs := t.tabs, site := t.site }) ∧
    (n = 0 → ∃ t, exec i s = .next t ∧ s.advanced t T.countBits ∧ t = { s with br := t.br, site := .degen T })

/-- R54, R92, R51, R165: DEGEN makes the table degenerate and what follows its description is due; a symbol outside the
alphabet raises E_BAD_SYMBOL. -/
def Obligations.ElementDegen : Prop :=
  ∀ (s : State) (i : Instr) (T : TableId) (x : Nat), s.readerOk → degenField i = some (T, x) → s.site = .degen T →
    (x < T.size → ∃ t, exec i s = .next t ∧ s.advanced t T.countBits ∧
      t.tab T = { s.tab T with
        sv := true, ss := BitVec.ofNat T.countBits x, used := BitVec.ofNat T.countBits 1 } ∧
      s.movedOn t T ∧ t = { s with br := t.br, tabs := t.tabs, remaining := t.remaining, site := t.site }) ∧
    (T.size ≤ x → ∃ u, exec i s = .next (u.raise .badSymbol) ∧ s.advanced u T.countBits ∧ u = { s with br := u.br })

/-- R55, R56, R95, R102, R163, R164, R166: HLEN stores its length at the running index. Then, in this order: the run-skip
is due at index 3 of T_LEN; or a further length is due; or, the index having reached the alphabet's end,
E_TABLE_OVERFLOW; or, the count being reached, the codes are assigned and what follows is due, or E_OVERSUBSCRIBED. The
illegal escape raises E_BAD_LENGTH, 13 bits consumed. -/
def Obligations.ElementHlen : Prop :=
  ∀ (s : State) (T : TableId) (v : Scan), s.readerOk → s.site = .hlen T v →
    (∃ u, exec .hlenIllegal s = .next (u.raise .badLength) ∧ s.advanced u 13 ∧ u = { s with br := u.br }) ∧
    ∀ (i : Instr) (l : Nat), i.wf = true → hlenField i = some l → v.i < T.size →
      (T = .tLen ∧ v.i + 1 = 3 →
        ∃ t, exec i s = .next t ∧ s.advanced t (hlenBits l).length ∧ s.lenStored t T v.i l ∧ s.othersKept t T ∧
          t = { s with br := t.br, tabs := t.tabs, site := .hskip T ⟨v.n, v.i + 1, v.r + 1⟩ }) ∧
      (¬(T = .tLen ∧ v.i + 1 = 3) → v.r + 1 < v.n → v.i + 1 < T.size →
        ∃ t, exec i s = .next t ∧ s.advanced t (hlenBits l).length ∧ s.lenStored t T v.i l ∧ s.othersKept t T ∧
          t = { s with br := t.br, tabs := t.tabs, site := .hlen T ⟨v.n, v.i + 1, v.r + 1⟩ }) ∧
      (¬(T = .tLen ∧ v.i + 1 = 3) → v.r + 1 < v.n → T.size ≤ v.i + 1 →
        ∃ u, exec i s = .next (u.raise .tableOverflow) ∧ s.advanced u (hlenBits l).length ∧ s.lenStored u T v.i l ∧
          s.othersKept u T ∧ u = { s with br := u.br, tabs := u.tabs }) ∧
      (¬(T = .tLen ∧ v.i + 1 = 3) → v.n ≤ v.r + 1 → (s.tab T).lensOk →
        (kraft ((List.range T.size).map fun a => if a = v.i then l else (s.tab T).lenAt a) ≤ 2 ^ 16 →
          ∃ t, exec i s = .next t ∧ s.advanced t (hlenBits l).length ∧
            s.assignedFrom t T (fun a => if a = v.i then l else (s.tab T).lenAt a) ∧ s.movedOn t T ∧
            t = { s with br := t.br, tabs := t.tabs, remaining := t.remaining, site := t.site }) ∧
        (2 ^ 16 < kraft ((List.range T.size).map fun a => if a = v.i then l else (s.tab T).lenAt a) →
          ∃ u, exec i s = .next (u.raise .oversubscribed) ∧ s.advanced u (hlenBits l).length ∧ s.othersKept u T ∧
            u = { s with br := u.br, tabs := u.tabs }))

/-- R57, R94, R95, R102, R163, R166, R173 (e): HSKIP moves the index past k symbols, whose lengths stay as they are. Then
a further length is due; or, the count being reached, the codes are assigned and what follows is due if the lengths take
at most the whole code space, and E_OVERSUBSCRIBED is raised if they take more; or E_TABLE_OVERFLOW if the index would
pass the alphabet, or has reached its end with a length still due. In every case 2 bits are consumed. -/
def Obligations.ElementHskip : Prop :=
  ∀ (s : State) (k : BitVec 2) (T : TableId) (v : Scan), s.readerOk → s.site = .hskip T v →
    (v.i + k.toNat < T.size → v.r < v.n →
      ∃ t, exec (.hskip k) s = .next t ∧ s.advanced t 2 ∧
        t = { s with br := t.br, site := .hlen T ⟨v.n, v.i + k.toNat, v.r⟩ }) ∧
    (v.i + k.toNat ≤ T.size → v.n ≤ v.r → (s.tab T).lensOk → kraft (s.tab T).lens ≤ 2 ^ 16 →
      ∃ t, exec (.hskip k) s = .next t ∧ s.advanced t 2 ∧ s.assignedFrom t T (s.tab T).lenAt ∧ s.movedOn t T ∧
        t = { s with br := t.br, tabs := t.tabs, remaining := t.remaining, site := t.site }) ∧
    (v.i + k.toNat ≤ T.size → v.n ≤ v.r → (s.tab T).lensOk → 2 ^ 16 < kraft (s.tab T).lens →
      ∃ u, exec (.hskip k) s = .next (u.raise .oversubscribed) ∧ s.advanced u 2 ∧ (u.tab T).len = (s.tab T).len ∧
        s.othersKept u T ∧ u = { s with br := u.br, tabs := u.tabs }) ∧
    (T.size < v.i + k.toNat ∨ v.i + k.toNat = T.size ∧ v.r < v.n →
      ∃ u, exec (.hskip k) s = .next (u.raise .tableOverflow) ∧ s.advanced u 2 ∧ u = { s with br := u.br })

/-- R58 to R62, R96 to R99, R101, R102, R163, R166: a CL entry, its code word and extra bits consumed, covers one symbol
or a run of them; CL.LEN alone stores a length, v - 2. Then a further entry is due; or, the count being reached, the
codes are assigned and T_OFF's description is due if the lengths take at most the whole code space, and E_OVERSUBSCRIBED
is raised, the length stored, if they take more. An entry that passes the alphabet raises E_TABLE_OVERFLOW and stores
nothing. -/
def Obligations.ElementCl : Prop :=
  ∀ (s : State) (i : Instr) (v : Scan), s.readerOk → s.site = .cl v → i.wf = true → isCl i = true →
    (v.i + (clLens i).length ≤ 510 → v.r + (clCounts i).toNat < v.n →
      ∃ t, exec i s = .next t ∧ s.advanced t (elementBits s.tabs i).length ∧
        (∀ x, i = .clLen x → s.lenStored t .tLit v.i (x.toNat - 2)) ∧
        ((∀ x, i ≠ .clLen x) → t.tab .tLit = s.tab .tLit) ∧ s.othersKept t .tLit ∧
        t = { s with
          br := t.br, tabs := t.tabs
          site := .cl ⟨v.n, v.i + (clLens i).length, v.r + (clCounts i).toNat⟩ }) ∧
    (v.i + (clLens i).length ≤ 510 → v.n ≤ v.r + (clCounts i).toNat → (s.tab .tLit).lensOk →
      ∀ lens : Nat → Nat,
        (∀ a, lens a = match i with
          | .clLen x => if a = v.i then x.toNat - 2 else (s.tab .tLit).lenAt a
          | _ => (s.tab .tLit).lenAt a) →
        (kraft ((List.range 510).map lens) ≤ 2 ^ 16 →
          ∃ t, exec i s = .next t ∧ s.advanced t (elementBits s.tabs i).length ∧ s.assignedFrom t .tLit lens ∧
            s.movedOn t .tLit ∧ t = { s with br := t.br, tabs := t.tabs, remaining := t.remaining, site := t.site }) ∧
        (2 ^ 16 < kraft ((List.range 510).map lens) →
          ∃ u, exec i s = .next (u.raise .oversubscribed) ∧ s.advanced u (elementBits s.tabs i).length ∧
            (∀ a, (u.tab .tLit).lenAt a = lens a) ∧ s.othersKept u .tLit ∧
            u = { s with br := u.br, tabs := u.tabs })) ∧
    (510 < v.i + (clLens i).length →
      ∃ u, exec i s = .next (u.raise .tableOverflow) ∧ s.advanced u (elementBits s.tabs i).length ∧
        u = { s with br := u.br })

/-- R63, R64, R70, R113, R120: LIT, its code word consumed, appends its byte and completes the unit; MATCH consumes its
code word and its OFF is due; PAD changes nothing. -/
def Obligations.ElementUnit : Prop :=
  ∀ s : State,
    exec .pad s = .next s ∧
    (s.readerOk → s.site = .unit →
      (∀ c : BitVec 9, ∃ t, exec (.matchSym c) s = .next t ∧ s.advanced t (elementBits s.tabs (.matchSym c)).length ∧
        t = { s with br := t.br, site := .off c }) ∧
      ∀ c : Byte, s.memoryOk → s.produced.toNat < s.outSize.toNat →
        ∃ t, exec (.lit c) s = .next t ∧ s.advanced t (elementBits s.tabs (.lit c)).length ∧ s.appended t c ∧
          t.unitDone 1 ∧
          t = { s with
            br := t.br, out := t.out, win := t.win, produced := t.produced, lastN := t.lastN, st := t.st
            site := t.site })

/-- R65, R114, R116, R117, R131, R120: OFF, its code word and delta bits consumed, completes the match of the symbol c:
it copies c - 253 bytes from its distance and completes the unit; or, its bits consumed, it raises E_BAD_DISTANCE, else
E_OUTPUT_OVERRUN, and no byte moves. -/
def Obligations.ElementOff : Prop :=
  ∀ (s : State) (i : Instr) (c : BitVec 9) (p d : Nat), s.readerOk → s.site = .off c → 256 ≤ c.toNat →
    offField i = some (p, d) →
    (s.memoryOk → s.writtenBelow → distance p d ≤ s.produced.toNat →
      s.produced.toNat + (c.toNat - 253) ≤ s.outSize.toNat →
      ∃ t, exec i s = .next t ∧ s.advanced t (offBits s.tabs p d).length ∧
        s.copied t (c.toNat - 253) (distance p d) ∧ t.unitDone (c.toNat - 253) ∧
        t = { s with
          br := t.br, out := t.out, win := t.win, produced := t.produced, lastN := t.lastN, st := t.st
          site := t.site }) ∧
    (s.produced.toNat < distance p d →
      ∃ u, exec i s = .next (u.raise .badDistance) ∧ s.advanced u (offBits s.tabs p d).length ∧ u = { s with br := u.br }) ∧
    (distance p d ≤ s.produced.toNat → s.outSize.toNat < s.produced.toNat + (c.toNat - 253) →
      ∃ u, exec i s = .next (u.raise .outputOverrun) ∧ s.advanced u (offBits s.tabs p d).length ∧
        u = { s with br := u.br })

/-- R50, R51, R112, R142: a unit parsed and run element by element, from its first element to its last, is a STEP: the
same outcome, also where it faults. The tables of a sub-block in progress are sound; no reset is asked for. That a STEP
can be run element by element at all is the model's choice (log 11). -/
def Obligations.ElementsAreStep : Prop :=
  ∀ (s : State) (p : List Request), s.isActive = true → s.site = .none →
    (s.remaining ≠ 0 → s.tabs.tLit.sound ∧ s.tabs.tOff.sound) → p.head? ≠ some (.deliver .reset) →
    ∃ n, Host.Core.run core n { s with port := .byElements :: p } = exec .step { s with port := p }

/-! ## Decoding and encoding, the step -/

/-- R50 to R72, R66, R68: decode of encode is the instruction: for every well-formed instruction that is no stream
element, in any place; for every stream element, wherever the grammar allows it and sound tables give it a code word,
whatever bits follow it. -/
def Obligations.DecodeEncode : Prop :=
  (∀ (x : Tables) (p : Site) (i : Instr), i.wf = true → (∀ bits, encode x i ≠ .bits bits) →
    decode p x (encode x i) = .ok i) ∧
  ∀ (x : Tables) (p : Site) (i : Instr) (bits more : List Bool), i.wf = true → fits x p i →
    encode x i = .bits bits → decode p x (.bits (bits ++ more)) = .ok i

/-- R52, R55, R56, R57, R66, R71: words written out from the spec's encodings decode to the instructions they stand for.
In the five clauses on decodeTableWord the numbering of the word's bits and the operands 0 of START are the model's
choice (log 9). -/
def Obligations.WordsDecode : Prop :=
  decodeTableWord 2 0 = some .cmdReserved ∧ decodeTableWord 2 1 = some (.start 0 0) ∧
  decodeTableWord 2 2 = some .step ∧ decodeTableWord 2 3 = some .run ∧
  decodeTableWord 8 254 = some .hlenEsc11 ∧
  decode .subhdr noTables (.bits [false, false, false, false, false, false, false, false,
    false, false, false, false, false, true, false, true]) = .ok (.subhdr 5) ∧
  decode (.hlen .tOff ⟨1, 0, 0⟩) noTables (.bits [true, true, true, true, false]) = .ok .hlenEsc8 ∧
  decode (.hlen .tOff ⟨1, 0, 0⟩) noTables (.bits [true, true, false]) = .ok (.hlenDirect 6) ∧
  decode (.hskip .tLen ⟨3, 3, 3⟩) noTables (.bits [true, false]) = .ok (.hskip 2) ∧
  decode .none noTables (.header [0x4C, 0x5A, 0x32, 0x4B, 0x05, 0, 0, 0, 0x0C, 0, 0, 0]) =
    .ok (.containerHeader 5 12)

/-- R4, R140, R150, R170, R50, R72: a step runs the decoded instruction. Between commands it takes the next request: the
form delivered is decoded and run; a delivered header that cannot be read makes the container malformed; delivered stream
bits, none being parsed, do nothing; an instruction named with an operand out of its rule's range is refused; the HOST
reads the header at its cursor and handles the block, finds the container malformed, or has no block left; a STEP to be
run element by element puts the parser at the unit's first element. Inside such a STEP it runs the element at BR.pos, or
raises E_DECODE where 16 bits match no code word, or, on an offset class outside the alphabet, runs the rest of the MATCH
whole. The model's choices: the list of requests, its idle step and the requests that are no commands (log 8, log 12),
the STEP run element by element and bits delivered outside it (log 11), the container's pass in one step (log 15), that a
unit operation requested by name runs in FAULT too, where R175 has no operation running (log 22), and a header delivered
on its own after the HOST ended its loop (log 24) or served while a block is bound (log 26). -/
def Obligations.StepRunsDecoded : Prop :=
  ∀ s : State,
    (s.parsing = true → s.resetPending = false →
      (∀ i, decodeElement s.site s.tabs s.br.reg = .ok i → step s = exec i s) ∧
      (decodeElement s.site s.tabs s.br.reg = .error .noCodeWord → step s = .next ((s.consume 16).raise .decode)) ∧
      (decodeElement s.site s.tabs s.br.reg = .error .classOutside → step s = (finishMatch s).outcome)) ∧
    (s.parsing = false →
      (s.port = [] → step s = .next s) ∧
      (∀ f rest, s.port = .deliver f :: rest →
        (∀ i, decode s.site s.tabs f = .ok i → step s = exec i { s with port := rest }) ∧
        (decode s.site s.tabs f = .error .shortHeader ∨ decode s.site s.tabs f = .error .badMarker →
          step s = .next { s with port := rest, host := { s.host with malformed := true, output := [] } }) ∧
        (decode s.site s.tabs f = .error .nothingParsed → step s = .next { s with port := rest }) ∧
        (decode s.site s.tabs f = .error .operandRange → step s = .refused .operandRange)) ∧
      (∀ rest, s.port = .byElements :: rest → s.isActive = true →
        (s.remaining = 0 → step s = .next { s with port := rest, site := .subhdr }) ∧
        (s.remaining ≠ 0 → step s = .next { s with port := rest, site := .unit, remaining := s.remaining - 1 })) ∧
      ∀ rest, s.port = .container :: rest →
        (s.host.finished = true → step s = .next { s with port := rest }) ∧
        (s.host.finished = false →
          (∀ i, decodeHeader ((s.host.file.drop s.host.cursor).take 12) = .ok i →
            step s = exec i { s with port := rest }) ∧
          ∀ r, decodeHeader ((s.host.file.drop s.host.cursor).take 12) = .error r →
            step s = .next { s with port := rest, host := { s.host with malformed := true, output := [] } }))

/-! ## What every step keeps, and rules over all instructions -/

/-- Every step keeps the three memories in their canonical form. -/
def Obligations.MemoryKept : Prop := ∀ s t : State, s.memoryOk → step s = .next t → t.memoryOk

/-- R11, R160, R171: every step keeps the fault code other than 0 exactly in FAULT and at most 9, and parses elements
only inside a unit. -/
def Obligations.ControlKept : Prop := ∀ s t : State, s.controlOk → step s = .next t → t.controlOk

/-- R22, R42, R49, R133, R134: with requests of the HOST alone, no step stops on an access that does not exist, and every
step keeps what holds of the output: BD.produced at most OUT_SIZE, every byte below it written, WIN the last 8192 of
them. -/
def Obligations.OutputKept : Prop :=
  ∀ s : State, s.memoryOk → s.outputOk → Safe (step s) ∧ ∀ t, step s = .next t → t.outputOk

/-- R83: with requests of the HOST alone, every step keeps the bit reader's invariant while a block is in progress or
done. -/
def Obligations.StreamKept : Prop := ∀ s t : State, s.streamOk → step s = .next t → t.streamOk

/-- R11, R19, R20, R29: between commands every step keeps that in AWAIT no unit of the sub-block is left, and in DECODING
some are and its three tables are sound. -/
def Obligations.TablesKept : Prop := ∀ s t : State, s.tablesOk → step s = .next t → t.tablesOk

/-- R174, R175: FAULT is left only by START, by the container reader's START, or by hardware reset; every other
instruction leaves the state and the first code as they are. -/
def Obligations.FaultSticky : Prop :=
  ∀ (i : Instr) (s t : State), s.controlOk → s.st = .fault → exec i s = .next t →
    t.st = .fault ∧ t.err = s.err ∨ (∃ a b, i = .start a b) ∨ i = .reset ∨ ∃ a b, i = .containerHeader a b

/-- R42, R43, R47, R130: but for START, reset and the container reader, no instruction lowers BD.produced or changes a
byte of OUT below it or at or above what it becomes: OUT is written in ascending order, without a rewrite; and none
changes IN. -/
def Obligations.OutputAscends : Prop :=
  ∀ (i : Instr) (s t : State), s.memoryOk → exec i s = .next t → (∀ a b, i ≠ .start a b) → i ≠ .reset →
    (∀ a b, i ≠ .containerHeader a b) →
    s.produced.toNat ≤ t.produced.toNat ∧ t.inp = s.inp ∧
      ∀ a, a < s.produced.toNat ∨ t.produced.toNat ≤ a → t.readOut a = s.readOut a
end

