-- ==== Sys2Proof/Laws/State.lean ====
section
/-! SUPPORT. The small lemmas of the state's updates: one per field per update, each true by rfl, so that no proof
unfolds a record update; and reading a table after a table has been replaced. -/

namespace Sys2Proof.Machine

set_option Elab.async false

variable (s : State)

@[simp] theorem State.setBr_st (b : BitReader) : (s.setBr b).st = s.st := rfl
@[simp] theorem State.setBr_err (b : BitReader) : (s.setBr b).err = s.err := rfl
@[simp] theorem State.setBr_inSize (b : BitReader) : (s.setBr b).inSize = s.inSize := rfl
@[simp] theorem State.setBr_outSize (b : BitReader) : (s.setBr b).outSize = s.outSize := rfl
@[simp] theorem State.setBr_br (b : BitReader) : (s.setBr b).br = b := rfl
@[simp] theorem State.setBr_tabs (b : BitReader) : (s.setBr b).tabs = s.tabs := rfl
@[simp] theorem State.setBr_remaining (b : BitReader) : (s.setBr b).remaining = s.remaining := rfl
@[simp] theorem State.setBr_produced (b : BitReader) : (s.setBr b).produced = s.produced := rfl
@[simp] theorem State.setBr_lastN (b : BitReader) : (s.setBr b).lastN = s.lastN := rfl
@[simp] theorem State.setBr_inp (b : BitReader) : (s.setBr b).inp = s.inp := rfl
@[simp] theorem State.setBr_out (b : BitReader) : (s.setBr b).out = s.out := rfl
@[simp] theorem State.setBr_win (b : BitReader) : (s.setBr b).win = s.win := rfl
@[simp] theorem State.setBr_readData (b : BitReader) : (s.setBr b).readData = s.readData := rfl
@[simp] theorem State.setBr_ret (b : BitReader) : (s.setBr b).ret = s.ret := rfl
@[simp] theorem State.setBr_site (b : BitReader) : (s.setBr b).site = s.site := rfl
@[simp] theorem State.setBr_port (b : BitReader) : (s.setBr b).port = s.port := rfl
@[simp] theorem State.setBr_freeCount (b : BitReader) : (s.setBr b).freeCount = s.freeCount := rfl
@[simp] theorem State.setBr_host (b : BitReader) : (s.setBr b).host = s.host := rfl

@[simp] theorem State.setTab_st (t : TableId) (x : Table t.size t.countBits) : (s.setTab t x).st = s.st := rfl
@[simp] theorem State.setTab_err (t : TableId) (x : Table t.size t.countBits) : (s.setTab t x).err = s.err := rfl
@[simp] theorem State.setTab_inSize (t : TableId) (x : Table t.size t.countBits) : (s.setTab t x).inSize = s.inSize := rfl
@[simp] theorem State.setTab_outSize (t : TableId) (x : Table t.size t.countBits) : (s.setTab t x).outSize = s.outSize := rfl
@[simp] theorem State.setTab_br (t : TableId) (x : Table t.size t.countBits) : (s.setTab t x).br = s.br := rfl
@[simp] theorem State.setTab_tabs (t : TableId) (x : Table t.size t.countBits) : (s.setTab t x).tabs = s.tabs.set t x := rfl
@[simp] theorem State.setTab_remaining (t : TableId) (x : Table t.size t.countBits) : (s.setTab t x).remaining = s.remaining := rfl
@[simp] theorem State.setTab_produced (t : TableId) (x : Table t.size t.countBits) : (s.setTab t x).produced = s.produced := rfl
@[simp] theorem State.setTab_lastN (t : TableId) (x : Table t.size t.countBits) : (s.setTab t x).lastN = s.lastN := rfl
@[simp] theorem State.setTab_inp (t : TableId) (x : Table t.size t.countBits) : (s.setTab t x).inp = s.inp := rfl
@[simp] theorem State.setTab_out (t : TableId) (x : Table t.size t.countBits) : (s.setTab t x).out = s.out := rfl
@[simp] theorem State.setTab_win (t : TableId) (x : Table t.size t.countBits) : (s.setTab t x).win = s.win := rfl
@[simp] theorem State.setTab_readData (t : TableId) (x : Table t.size t.countBits) : (s.setTab t x).readData = s.readData := rfl
@[simp] theorem State.setTab_ret (t : TableId) (x : Table t.size t.countBits) : (s.setTab t x).ret = s.ret := rfl
@[simp] theorem State.setTab_site (t : TableId) (x : Table t.size t.countBits) : (s.setTab t x).site = s.site := rfl
@[simp] theorem State.setTab_port (t : TableId) (x : Table t.size t.countBits) : (s.setTab t x).port = s.port := rfl
@[simp] theorem State.setTab_freeCount (t : TableId) (x : Table t.size t.countBits) : (s.setTab t x).freeCount = s.freeCount := rfl
@[simp] theorem State.setTab_host (t : TableId) (x : Table t.size t.countBits) : (s.setTab t x).host = s.host := rfl

@[simp] theorem State.setRemaining_st (c : BitVec 16) : (s.setRemaining c).st = s.st := rfl
@[simp] theorem State.setRemaining_err (c : BitVec 16) : (s.setRemaining c).err = s.err := rfl
@[simp] theorem State.setRemaining_inSize (c : BitVec 16) : (s.setRemaining c).inSize = s.inSize := rfl
@[simp] theorem State.setRemaining_outSize (c : BitVec 16) : (s.setRemaining c).outSize = s.outSize := rfl
@[simp] theorem State.setRemaining_br (c : BitVec 16) : (s.setRemaining c).br = s.br := rfl
@[simp] theorem State.setRemaining_tabs (c : BitVec 16) : (s.setRemaining c).tabs = s.tabs := rfl
@[simp] theorem State.setRemaining_remaining (c : BitVec 16) : (s.setRemaining c).remaining = c := rfl
@[simp] theorem State.setRemaining_produced (c : BitVec 16) : (s.setRemaining c).produced = s.produced := rfl
@[simp] theorem State.setRemaining_lastN (c : BitVec 16) : (s.setRemaining c).lastN = s.lastN := rfl
@[simp] theorem State.setRemaining_inp (c : BitVec 16) : (s.setRemaining c).inp = s.inp := rfl
@[simp] theorem State.setRemaining_out (c : BitVec 16) : (s.setRemaining c).out = s.out := rfl
@[simp] theorem State.setRemaining_win (c : BitVec 16) : (s.setRemaining c).win = s.win := rfl
@[simp] theorem State.setRemaining_readData (c : BitVec 16) : (s.setRemaining c).readData = s.readData := rfl
@[simp] theorem State.setRemaining_ret (c : BitVec 16) : (s.setRemaining c).ret = s.ret := rfl
@[simp] theorem State.setRemaining_site (c : BitVec 16) : (s.setRemaining c).site = s.site := rfl
@[simp] theorem State.setRemaining_port (c : BitVec 16) : (s.setRemaining c).port = s.port := rfl
@[simp] theorem State.setRemaining_freeCount (c : BitVec 16) : (s.setRemaining c).freeCount = s.freeCount := rfl
@[simp] theorem State.setRemaining_host (c : BitVec 16) : (s.setRemaining c).host = s.host := rfl

@[simp] theorem State.setSite_st (p : Site) : (s.setSite p).st = s.st := rfl
@[simp] theorem State.setSite_err (p : Site) : (s.setSite p).err = s.err := rfl
@[simp] theorem State.setSite_inSize (p : Site) : (s.setSite p).inSize = s.inSize := rfl
@[simp] theorem State.setSite_outSize (p : Site) : (s.setSite p).outSize = s.outSize := rfl
@[simp] theorem State.setSite_br (p : Site) : (s.setSite p).br = s.br := rfl
@[simp] theorem State.setSite_tabs (p : Site) : (s.setSite p).tabs = s.tabs := rfl
@[simp] theorem State.setSite_remaining (p : Site) : (s.setSite p).remaining = s.remaining := rfl
@[simp] theorem State.setSite_produced (p : Site) : (s.setSite p).produced = s.produced := rfl
@[simp] theorem State.setSite_lastN (p : Site) : (s.setSite p).lastN = s.lastN := rfl
@[simp] theorem State.setSite_inp (p : Site) : (s.setSite p).inp = s.inp := rfl
@[simp] theorem State.setSite_out (p : Site) : (s.setSite p).out = s.out := rfl
@[simp] theorem State.setSite_win (p : Site) : (s.setSite p).win = s.win := rfl
@[simp] theorem State.setSite_readData (p : Site) : (s.setSite p).readData = s.readData := rfl
@[simp] theorem State.setSite_ret (p : Site) : (s.setSite p).ret = s.ret := rfl
@[simp] theorem State.setSite_site (p : Site) : (s.setSite p).site = p := rfl
@[simp] theorem State.setSite_port (p : Site) : (s.setSite p).port = s.port := rfl
@[simp] theorem State.setSite_freeCount (p : Site) : (s.setSite p).freeCount = s.freeCount := rfl
@[simp] theorem State.setSite_host (p : Site) : (s.setSite p).host = s.host := rfl

@[simp] theorem State.setRet_st (v : Nat) : (s.setRet v).st = s.st := rfl
@[simp] theorem State.setRet_err (v : Nat) : (s.setRet v).err = s.err := rfl
@[simp] theorem State.setRet_inSize (v : Nat) : (s.setRet v).inSize = s.inSize := rfl
@[simp] theorem State.setRet_outSize (v : Nat) : (s.setRet v).outSize = s.outSize := rfl
@[simp] theorem State.setRet_br (v : Nat) : (s.setRet v).br = s.br := rfl
@[simp] theorem State.setRet_tabs (v : Nat) : (s.setRet v).tabs = s.tabs := rfl
@[simp] theorem State.setRet_remaining (v : Nat) : (s.setRet v).remaining = s.remaining := rfl
@[simp] theorem State.setRet_produced (v : Nat) : (s.setRet v).produced = s.produced := rfl
@[simp] theorem State.setRet_lastN (v : Nat) : (s.setRet v).lastN = s.lastN := rfl
@[simp] theorem State.setRet_inp (v : Nat) : (s.setRet v).inp = s.inp := rfl
@[simp] theorem State.setRet_out (v : Nat) : (s.setRet v).out = s.out := rfl
@[simp] theorem State.setRet_win (v : Nat) : (s.setRet v).win = s.win := rfl
@[simp] theorem State.setRet_readData (v : Nat) : (s.setRet v).readData = s.readData := rfl
@[simp] theorem State.setRet_ret (v : Nat) : (s.setRet v).ret = v := rfl
@[simp] theorem State.setRet_site (v : Nat) : (s.setRet v).site = s.site := rfl
@[simp] theorem State.setRet_port (v : Nat) : (s.setRet v).port = s.port := rfl
@[simp] theorem State.setRet_freeCount (v : Nat) : (s.setRet v).freeCount = s.freeCount := rfl
@[simp] theorem State.setRet_host (v : Nat) : (s.setRet v).host = s.host := rfl

@[simp] theorem State.setPort_st (p : List Request) : (s.setPort p).st = s.st := rfl
@[simp] theorem State.setPort_err (p : List Request) : (s.setPort p).err = s.err := rfl
@[simp] theorem State.setPort_inSize (p : List Request) : (s.setPort p).inSize = s.inSize := rfl
@[simp] theorem State.setPort_outSize (p : List Request) : (s.setPort p).outSize = s.outSize := rfl
@[simp] theorem State.setPort_br (p : List Request) : (s.setPort p).br = s.br := rfl
@[simp] theorem State.setPort_tabs (p : List Request) : (s.setPort p).tabs = s.tabs := rfl
@[simp] theorem State.setPort_remaining (p : List Request) : (s.setPort p).remaining = s.remaining := rfl
@[simp] theorem State.setPort_produced (p : List Request) : (s.setPort p).produced = s.produced := rfl
@[simp] theorem State.setPort_lastN (p : List Request) : (s.setPort p).lastN = s.lastN := rfl
@[simp] theorem State.setPort_inp (p : List Request) : (s.setPort p).inp = s.inp := rfl
@[simp] theorem State.setPort_out (p : List Request) : (s.setPort p).out = s.out := rfl
@[simp] theorem State.setPort_win (p : List Request) : (s.setPort p).win = s.win := rfl
@[simp] theorem State.setPort_readData (p : List Request) : (s.setPort p).readData = s.readData := rfl
@[simp] theorem State.setPort_ret (p : List Request) : (s.setPort p).ret = s.ret := rfl
@[simp] theorem State.setPort_site (p : List Request) : (s.setPort p).site = s.site := rfl
@[simp] theorem State.setPort_port (p : List Request) : (s.setPort p).port = p := rfl
@[simp] theorem State.setPort_freeCount (p : List Request) : (s.setPort p).freeCount = s.freeCount := rfl
@[simp] theorem State.setPort_host (p : List Request) : (s.setPort p).host = s.host := rfl

@[simp] theorem State.setHost_st (h : HostSide) : (s.setHost h).st = s.st := rfl
@[simp] theorem State.setHost_err (h : HostSide) : (s.setHost h).err = s.err := rfl
@[simp] theorem State.setHost_inSize (h : HostSide) : (s.setHost h).inSize = s.inSize := rfl
@[simp] theorem State.setHost_outSize (h : HostSide) : (s.setHost h).outSize = s.outSize := rfl
@[simp] theorem State.setHost_br (h : HostSide) : (s.setHost h).br = s.br := rfl
@[simp] theorem State.setHost_tabs (h : HostSide) : (s.setHost h).tabs = s.tabs := rfl
@[simp] theorem State.setHost_remaining (h : HostSide) : (s.setHost h).remaining = s.remaining := rfl
@[simp] theorem State.setHost_produced (h : HostSide) : (s.setHost h).produced = s.produced := rfl
@[simp] theorem State.setHost_lastN (h : HostSide) : (s.setHost h).lastN = s.lastN := rfl
@[simp] theorem State.setHost_inp (h : HostSide) : (s.setHost h).inp = s.inp := rfl
@[simp] theorem State.setHost_out (h : HostSide) : (s.setHost h).out = s.out := rfl
@[simp] theorem State.setHost_win (h : HostSide) : (s.setHost h).win = s.win := rfl
@[simp] theorem State.setHost_readData (h : HostSide) : (s.setHost h).readData = s.readData := rfl
@[simp] theorem State.setHost_ret (h : HostSide) : (s.setHost h).ret = s.ret := rfl
@[simp] theorem State.setHost_site (h : HostSide) : (s.setHost h).site = s.site := rfl
@[simp] theorem State.setHost_port (h : HostSide) : (s.setHost h).port = s.port := rfl
@[simp] theorem State.setHost_freeCount (h : HostSide) : (s.setHost h).freeCount = s.freeCount := rfl
@[simp] theorem State.setHost_host (h : HostSide) : (s.setHost h).host = h := rfl

@[simp] theorem State.setReadData_st (w : Word) : (s.setReadData w).st = s.st := rfl
@[simp] theorem State.setReadData_err (w : Word) : (s.setReadData w).err = s.err := rfl
@[simp] theorem State.setReadData_inSize (w : Word) : (s.setReadData w).inSize = s.inSize := rfl
@[simp] theorem State.setReadData_outSize (w : Word) : (s.setReadData w).outSize = s.outSize := rfl
@[simp] theorem State.setReadData_br (w : Word) : (s.setReadData w).br = s.br := rfl
@[simp] theorem State.setReadData_tabs (w : Word) : (s.setReadData w).tabs = s.tabs := rfl
@[simp] theorem State.setReadData_remaining (w : Word) : (s.setReadData w).remaining = s.remaining := rfl
@[simp] theorem State.setReadData_produced (w : Word) : (s.setReadData w).produced = s.produced := rfl
@[simp] theorem State.setReadData_lastN (w : Word) : (s.setReadData w).lastN = s.lastN := rfl
@[simp] theorem State.setReadData_inp (w : Word) : (s.setReadData w).inp = s.inp := rfl
@[simp] theorem State.setReadData_out (w : Word) : (s.setReadData w).out = s.out := rfl
@[simp] theorem State.setReadData_win (w : Word) : (s.setReadData w).win = s.win := rfl
@[simp] theorem State.setReadData_readData (w : Word) : (s.setReadData w).readData = w := rfl
@[simp] theorem State.setReadData_ret (w : Word) : (s.setReadData w).ret = s.ret := rfl
@[simp] theorem State.setReadData_site (w : Word) : (s.setReadData w).site = s.site := rfl
@[simp] theorem State.setReadData_port (w : Word) : (s.setReadData w).port = s.port := rfl
@[simp] theorem State.setReadData_freeCount (w : Word) : (s.setReadData w).freeCount = s.freeCount := rfl
@[simp] theorem State.setReadData_host (w : Word) : (s.setReadData w).host = s.host := rfl

@[simp] theorem State.placeBlock_st (p : List Byte) : (s.placeBlock p).st = s.st := rfl
@[simp] theorem State.placeBlock_err (p : List Byte) : (s.placeBlock p).err = s.err := rfl
@[simp] theorem State.placeBlock_inSize (p : List Byte) : (s.placeBlock p).inSize = s.inSize := rfl
@[simp] theorem State.placeBlock_outSize (p : List Byte) : (s.placeBlock p).outSize = s.outSize := rfl
@[simp] theorem State.placeBlock_br (p : List Byte) : (s.placeBlock p).br = s.br := rfl
@[simp] theorem State.placeBlock_tabs (p : List Byte) : (s.placeBlock p).tabs = s.tabs := rfl
@[simp] theorem State.placeBlock_remaining (p : List Byte) : (s.placeBlock p).remaining = s.remaining := rfl
@[simp] theorem State.placeBlock_produced (p : List Byte) : (s.placeBlock p).produced = s.produced := rfl
@[simp] theorem State.placeBlock_lastN (p : List Byte) : (s.placeBlock p).lastN = s.lastN := rfl
@[simp] theorem State.placeBlock_inp (p : List Byte) : (s.placeBlock p).inp = Mem.ofBytes .inp 0 p := rfl
@[simp] theorem State.placeBlock_out (p : List Byte) : (s.placeBlock p).out = [] := rfl
@[simp] theorem State.placeBlock_win (p : List Byte) : (s.placeBlock p).win = s.win := rfl
@[simp] theorem State.placeBlock_readData (p : List Byte) : (s.placeBlock p).readData = s.readData := rfl
@[simp] theorem State.placeBlock_ret (p : List Byte) : (s.placeBlock p).ret = s.ret := rfl
@[simp] theorem State.placeBlock_site (p : List Byte) : (s.placeBlock p).site = s.site := rfl
@[simp] theorem State.placeBlock_port (p : List Byte) : (s.placeBlock p).port = s.port := rfl
@[simp] theorem State.placeBlock_freeCount (p : List Byte) : (s.placeBlock p).freeCount = s.freeCount := rfl
@[simp] theorem State.placeBlock_host (p : List Byte) : (s.placeBlock p).host = s.host := rfl

@[simp] theorem State.pushByte_st (b : Byte) : (s.pushByte b).st = s.st := rfl
@[simp] theorem State.pushByte_err (b : Byte) : (s.pushByte b).err = s.err := rfl
@[simp] theorem State.pushByte_inSize (b : Byte) : (s.pushByte b).inSize = s.inSize := rfl
@[simp] theorem State.pushByte_outSize (b : Byte) : (s.pushByte b).outSize = s.outSize := rfl
@[simp] theorem State.pushByte_br (b : Byte) : (s.pushByte b).br = s.br := rfl
@[simp] theorem State.pushByte_tabs (b : Byte) : (s.pushByte b).tabs = s.tabs := rfl
@[simp] theorem State.pushByte_remaining (b : Byte) : (s.pushByte b).remaining = s.remaining := rfl
@[simp] theorem State.pushByte_produced (b : Byte) : (s.pushByte b).produced = s.produced + 1 := rfl
@[simp] theorem State.pushByte_lastN (b : Byte) : (s.pushByte b).lastN = s.lastN := rfl
@[simp] theorem State.pushByte_inp (b : Byte) : (s.pushByte b).inp = s.inp := rfl
@[simp] theorem State.pushByte_out (b : Byte) : (s.pushByte b).out = Mem.write .out s.out s.produced.toNat b := rfl
@[simp] theorem State.pushByte_win (b : Byte) : (s.pushByte b).win = Mem.write .win s.win (s.produced.toNat % Config.wsize) b := rfl
@[simp] theorem State.pushByte_readData (b : Byte) : (s.pushByte b).readData = s.readData := rfl
@[simp] theorem State.pushByte_ret (b : Byte) : (s.pushByte b).ret = s.ret := rfl
@[simp] theorem State.pushByte_site (b : Byte) : (s.pushByte b).site = s.site := rfl
@[simp] theorem State.pushByte_port (b : Byte) : (s.pushByte b).port = s.port := rfl
@[simp] theorem State.pushByte_freeCount (b : Byte) : (s.pushByte b).freeCount = s.freeCount := rfl
@[simp] theorem State.pushByte_host (b : Byte) : (s.pushByte b).host = s.host := rfl

@[simp] theorem State.finishUnit_st (n : Nat) : (s.finishUnit n).st = s.nextPhase := rfl
@[simp] theorem State.finishUnit_err (n : Nat) : (s.finishUnit n).err = s.err := rfl
@[simp] theorem State.finishUnit_inSize (n : Nat) : (s.finishUnit n).inSize = s.inSize := rfl
@[simp] theorem State.finishUnit_outSize (n : Nat) : (s.finishUnit n).outSize = s.outSize := rfl
@[simp] theorem State.finishUnit_br (n : Nat) : (s.finishUnit n).br = s.br := rfl
@[simp] theorem State.finishUnit_tabs (n : Nat) : (s.finishUnit n).tabs = s.tabs := rfl
@[simp] theorem State.finishUnit_remaining (n : Nat) : (s.finishUnit n).remaining = s.remaining := rfl
@[simp] theorem State.finishUnit_produced (n : Nat) : (s.finishUnit n).produced = s.produced := rfl
@[simp] theorem State.finishUnit_lastN (n : Nat) : (s.finishUnit n).lastN = BitVec.ofNat 9 n := rfl
@[simp] theorem State.finishUnit_inp (n : Nat) : (s.finishUnit n).inp = s.inp := rfl
@[simp] theorem State.finishUnit_out (n : Nat) : (s.finishUnit n).out = s.out := rfl
@[simp] theorem State.finishUnit_win (n : Nat) : (s.finishUnit n).win = s.win := rfl
@[simp] theorem State.finishUnit_readData (n : Nat) : (s.finishUnit n).readData = s.readData := rfl
@[simp] theorem State.finishUnit_ret (n : Nat) : (s.finishUnit n).ret = s.ret := rfl
@[simp] theorem State.finishUnit_site (n : Nat) : (s.finishUnit n).site = if s.nextPhase = .done then .pad else .none := rfl
@[simp] theorem State.finishUnit_port (n : Nat) : (s.finishUnit n).port = s.port := rfl
@[simp] theorem State.finishUnit_freeCount (n : Nat) : (s.finishUnit n).freeCount = s.freeCount := rfl
@[simp] theorem State.finishUnit_host (n : Nat) : (s.finishUnit n).host = s.host := rfl

@[simp] theorem State.raise_st (e : ErrCode) : (s.raise e).st = .fault := rfl
@[simp] theorem State.raise_err (e : ErrCode) : (s.raise e).err = if s.st = .fault then s.err else errCode e := rfl
@[simp] theorem State.raise_inSize (e : ErrCode) : (s.raise e).inSize = s.inSize := rfl
@[simp] theorem State.raise_outSize (e : ErrCode) : (s.raise e).outSize = s.outSize := rfl
@[simp] theorem State.raise_br (e : ErrCode) : (s.raise e).br = s.br := rfl
@[simp] theorem State.raise_tabs (e : ErrCode) : (s.raise e).tabs = s.tabs := rfl
@[simp] theorem State.raise_remaining (e : ErrCode) : (s.raise e).remaining = s.remaining := rfl
@[simp] theorem State.raise_produced (e : ErrCode) : (s.raise e).produced = s.produced := rfl
@[simp] theorem State.raise_lastN (e : ErrCode) : (s.raise e).lastN = s.lastN := rfl
@[simp] theorem State.raise_inp (e : ErrCode) : (s.raise e).inp = s.inp := rfl
@[simp] theorem State.raise_out (e : ErrCode) : (s.raise e).out = s.out := rfl
@[simp] theorem State.raise_win (e : ErrCode) : (s.raise e).win = s.win := rfl
@[simp] theorem State.raise_readData (e : ErrCode) : (s.raise e).readData = s.readData := rfl
@[simp] theorem State.raise_ret (e : ErrCode) : (s.raise e).ret = s.ret := rfl
@[simp] theorem State.raise_site (e : ErrCode) : (s.raise e).site = .none := rfl
@[simp] theorem State.raise_port (e : ErrCode) : (s.raise e).port = s.port := rfl
@[simp] theorem State.raise_freeCount (e : ErrCode) : (s.raise e).freeCount = s.freeCount := rfl
@[simp] theorem State.raise_host (e : ErrCode) : (s.raise e).host = s.host := rfl

@[simp] theorem State.hardReset_st : s.hardReset.st = .idle := rfl
@[simp] theorem State.hardReset_err : s.hardReset.err = 0 := rfl
@[simp] theorem State.hardReset_inp : s.hardReset.inp = s.inp := rfl
@[simp] theorem State.hardReset_out : s.hardReset.out = s.out := rfl
@[simp] theorem State.hardReset_win : s.hardReset.win = [] := rfl
@[simp] theorem State.hardReset_readData : s.hardReset.readData = s.readData := rfl
@[simp] theorem State.hardReset_ret : s.hardReset.ret = s.ret := rfl
@[simp] theorem State.hardReset_site : s.hardReset.site = .none := rfl
@[simp] theorem State.hardReset_port : s.hardReset.port = s.port := rfl
@[simp] theorem State.hardReset_freeCount : s.hardReset.freeCount = s.freeCount + 1 := rfl
@[simp] theorem State.hardReset_host : s.hardReset.host = s.host := rfl

@[simp] theorem State.nextFree_st : s.nextFree.st = s.st := rfl
@[simp] theorem State.nextFree_err : s.nextFree.err = s.err := rfl
@[simp] theorem State.nextFree_inSize : s.nextFree.inSize = s.inSize := rfl
@[simp] theorem State.nextFree_outSize : s.nextFree.outSize = s.outSize := rfl
@[simp] theorem State.nextFree_br : s.nextFree.br = s.br := rfl
@[simp] theorem State.nextFree_tabs : s.nextFree.tabs = s.tabs := rfl
@[simp] theorem State.nextFree_remaining : s.nextFree.remaining = s.remaining := rfl
@[simp] theorem State.nextFree_produced : s.nextFree.produced = s.produced := rfl
@[simp] theorem State.nextFree_lastN : s.nextFree.lastN = s.lastN := rfl
@[simp] theorem State.nextFree_inp : s.nextFree.inp = s.inp := rfl
@[simp] theorem State.nextFree_out : s.nextFree.out = s.out := rfl
@[simp] theorem State.nextFree_win : s.nextFree.win = s.win := rfl
@[simp] theorem State.nextFree_readData : s.nextFree.readData = s.readData := rfl
@[simp] theorem State.nextFree_ret : s.nextFree.ret = s.ret := rfl
@[simp] theorem State.nextFree_site : s.nextFree.site = s.site := rfl
@[simp] theorem State.nextFree_port : s.nextFree.port = s.port := rfl
@[simp] theorem State.nextFree_host : s.nextFree.host = s.host := rfl
@[simp] theorem State.nextFree_freeCount : s.nextFree.freeCount = s.freeCount + 1 := rfl

@[simp] theorem State.collected_length (n : Nat) : (s.collected n).length = n := by simp [State.collected]

/-- What the HOST reads of OUT is what was written there (R150). -/
theorem State.collected_get {n a : Nat} {b : Byte} (ha : a < n) (hb : s.readOut a = some b) :
    (s.collected n)[a]? = some b := by
  simp [State.collected, ha, hb]

@[simp] theorem Tables.get_set_same (x : Tables) (t : TableId) (v : Table t.size t.countBits) :
    (x.set t v).get t = v := by
  cases t <;> rfl

@[simp] theorem Tables.get_set_other (x : Tables) (t u : TableId) (v : Table t.size t.countBits) (h : u ≠ t) :
    (x.set t v).get u = x.get u := by
  cases t <;> cases u <;> first | rfl | exact absurd rfl h

theorem State.tab_eq (t : TableId) : s.tab t = s.tabs.get t := rfl

@[simp] theorem State.tab_setTab_same (t : TableId) (v : Table t.size t.countBits) : (s.setTab t v).tab t = v := by
  simp [State.tab_eq]

@[simp] theorem State.tab_setTab_other (t u : TableId) (v : Table t.size t.countBits) (h : u ≠ t) :
    (s.setTab t v).tab u = s.tab u := by
  simp [State.tab_eq, h]

@[simp] theorem State.tab_setBr (t : TableId) (b : BitReader) : (s.setBr b).tab t = s.tab t := rfl

@[simp] theorem State.tab_setRemaining (t : TableId) (c : BitVec 16) : (s.setRemaining c).tab t = s.tab t := rfl

@[simp] theorem State.tab_setSite (t : TableId) (p : Site) : (s.setSite p).tab t = s.tab t := rfl

@[simp] theorem State.tab_pushByte (t : TableId) (b : Byte) : (s.pushByte b).tab t = s.tab t := rfl

@[simp] theorem State.tab_raise (t : TableId) (e : ErrCode) : (s.raise e).tab t = s.tab t := rfl

/-- An update of the bit reader by the registers it has is none. -/
@[simp] theorem State.setBr_self : s.setBr s.br = s := rfl

@[simp] theorem State.setBr_setBr (a b : BitReader) : (s.setBr a).setBr b = s.setBr b := rfl

end Sys2Proof.Machine
end

