-- ==== Sys2Proof/Laws/Result.lean ====
section
/-! SUPPORT. The laws of an operation's result, and `Res.leaves`, the form in which the laws of the shared operations
say once everything an operation can do: what holds of its value and state if it answers, which fault it can raise in
which state, and where the model stops. -/

namespace Sys2Proof.Machine

set_option Elab.async false

variable {α β : Type}

@[simp] theorem Res.andThen_ok (a : α) (s : State) (k : α → State → Res β) : (Res.ok a s).andThen k = k a s := rfl

@[simp] theorem Res.andThen_raised (s : State) (k : α → State → Res β) :
    (Res.raised s : Res α).andThen k = .raised s := rfl

@[simp] theorem Res.andThen_stop (f : Fault) (k : α → State → Res β) :
    (Res.stop f : Res α).andThen k = .stop f := rfl

@[simp] theorem Res.outcome_ok (a : Unit) (s : State) : (Res.ok a s).outcome = .next s := rfl

@[simp] theorem Res.outcome_raised (s : State) : (Res.raised s : Res Unit).outcome = .next s := rfl

@[simp] theorem Res.outcome_stop (f : Fault) : (Res.stop f : Res Unit).outcome = .fault f := rfl

@[simp] theorem Res.outcomeRet_ok (v : Nat) (s : State) : (Res.ok v s).outcomeRet = .next (s.setRet v) := rfl

@[simp] theorem Res.outcomeRet_raised (s : State) : (Res.raised s : Res Nat).outcomeRet = .next s := rfl

@[simp] theorem Res.outcomeRet_stop (f : Fault) : (Res.stop f : Res Nat).outcomeRet = .fault f := rfl

@[simp] theorem Res.completed_ok (a : Unit) (s : State) (k : State → State) :
    (Res.ok a s).completed k = .ok () (k s) := rfl

@[simp] theorem Res.completed_raised (s : State) (k : State → State) :
    (Res.raised s : Res Unit).completed k = .ok () (k s) := rfl

@[simp] theorem Res.completed_stop (f : Fault) (k : State → State) :
    (Res.stop f : Res Unit).completed k = .stop f := rfl

@[simp] theorem raiseIn_eq (e : ErrCode) (s : State) : (raiseIn e s : Res α) = .raised (s.raise e) := rfl

/-- What an operation leaves: if it answers `a` in the state `u`, then `ok a u`; if it raised a fault, then it did so
as `e` in a state `u` with `bad e u`; and the model stops only with an `f` for which `stop f`. -/
def Res.leaves (r : Res α) (ok : α → State → Prop) (bad : ErrCode → State → Prop) (stop : Fault → Prop) : Prop :=
  match r with
  | .ok a u => ok a u
  | .raised v => ∃ e u, v = u.raise e ∧ bad e u
  | .stop f => stop f

@[simp] theorem Res.leaves_ok {a : α} {u : State} {ok : α → State → Prop} {bad : ErrCode → State → Prop}
    {stop : Fault → Prop} : (Res.ok a u).leaves ok bad stop ↔ ok a u := Iff.rfl

@[simp] theorem Res.leaves_stop {f : Fault} {ok : α → State → Prop} {bad : ErrCode → State → Prop}
    {stop : Fault → Prop} : (Res.stop f : Res α).leaves ok bad stop ↔ stop f := Iff.rfl

theorem Res.leaves_raise {e : ErrCode} {u : State} {ok : α → State → Prop} {bad : ErrCode → State → Prop}
    {stop : Fault → Prop} (h : bad e u) : (Res.raised (u.raise e) : Res α).leaves ok bad stop := ⟨e, u, rfl, h⟩

/-- A weaker account of the same operation. -/
theorem Res.leaves.mono {r : Res α} {ok ok' : α → State → Prop} {bad bad' : ErrCode → State → Prop}
    {stop stop' : Fault → Prop} (h : r.leaves ok bad stop) (hok : ∀ a u, ok a u → ok' a u)
    (hbad : ∀ e u, bad e u → bad' e u) (hstop : ∀ f, stop f → stop' f) : r.leaves ok' bad' stop' := by
  cases r with
  | ok a u => exact hok a u h
  | raised v =>
    obtain ⟨e, u, hv, hb⟩ := h
    exact ⟨e, u, hv, hbad e u hb⟩
  | stop f => exact hstop f h

/-- Two operations, one after the other. -/
theorem Res.leaves.andThen {r : Res α} {k : α → State → Res β} {ok : α → State → Prop} {ok' : β → State → Prop}
    {bad : ErrCode → State → Prop} {stop : Fault → Prop} (h : r.leaves ok bad stop)
    (hk : ∀ a u, ok a u → (k a u).leaves ok' bad stop) : (r.andThen k).leaves ok' bad stop := by
  cases r with
  | ok a u => exact hk a u h
  | raised v => exact h
  | stop f => exact h

/-- What an operation that returns nothing can answer as a step: a next state it left or raised a fault in. -/
theorem Res.leaves.next {r : Res Unit} {ok : Unit → State → Prop} {bad : ErrCode → State → Prop} {stop : Fault → Prop}
    (h : r.leaves ok bad stop) {t : State} (ht : r.outcome = .next t) : ok () t ∨ ∃ e u, t = u.raise e ∧ bad e u := by
  cases r with
  | ok a u =>
    obtain rfl : u = t := by simpa using ht
    exact .inl h
  | raised v =>
    obtain rfl : v = t := by simpa using ht
    exact .inr h
  | stop f => exact absurd ht (by simp)

/-- What an operation that returns a value can answer as a step. -/
theorem Res.leaves.nextRet {r : Res Nat} {ok : Nat → State → Prop} {bad : ErrCode → State → Prop} {stop : Fault → Prop}
    (h : r.leaves ok bad stop) {t : State} (ht : r.outcomeRet = .next t) :
    (∃ v u, t = u.setRet v ∧ ok v u) ∨ ∃ e u, t = u.raise e ∧ bad e u := by
  cases r with
  | ok a u =>
    obtain rfl : u.setRet a = t := by simpa using ht
    exact .inl ⟨a, u, rfl, h⟩
  | raised v =>
    obtain rfl : v = t := by simpa using ht
    exact .inr h
  | stop f => exact absurd ht (by simp)

/-- An operation that returns nothing stops the model only as its account says. -/
theorem Res.leaves.fault {r : Res Unit} {ok : Unit → State → Prop} {bad : ErrCode → State → Prop} {stop : Fault → Prop}
    (h : r.leaves ok bad stop) {f : Fault} (hf : r.outcome = .fault f) : stop f := by
  cases r with
  | ok a u => exact absurd hf (by simp)
  | raised v => exact absurd hf (by simp)
  | stop g =>
    obtain rfl : g = f := by simpa using hf
    exact h

end Sys2Proof.Machine
end

