-- ==== Sys2Proof/Laws/BitReader.lean ====
section
/-! SUPPORT. The laws of the bit reader: what BR.INGEST and BR.GET change (the bit reader's registers alone), how far
BR.pos moves, and that consuming in two parts is consuming at once. -/

namespace Sys2Proof.Machine

set_option Elab.async false

/-- `u` differs from `s` at most in the bit reader's registers. -/
def State.readsOnly (s u : State) : Prop := ∃ b, u = s.setBr b

theorem State.readsOnly_refl (s : State) : s.readsOnly s := ⟨s.br, rfl⟩

theorem State.readsOnly.trans {s u v : State} (h : s.readsOnly u) (h' : u.readsOnly v) : s.readsOnly v := by
  obtain ⟨b, rfl⟩ := h
  obtain ⟨c, rfl⟩ := h'
  exact ⟨c, rfl⟩

/-- A state that differs only in the bit reader's registers is `s` with those registers. -/
theorem State.readsOnly.eq {s u : State} (h : s.readsOnly u) : u = s.setBr u.br := by
  obtain ⟨b, rfl⟩ := h
  rfl

theorem State.absorb_readsOnly (s : State) (k : Nat) : s.readsOnly (s.absorb k) := ⟨_, rfl⟩

@[simp] theorem State.absorb_pos (s : State) (k : Nat) : (s.absorb k).br.pos = s.br.pos := rfl

theorem ingestLoop_readsOnly (f n : Nat) (s : State) : s.readsOnly (ingestLoop f n s) := by
  induction f generalizing n s with
  | zero => exact s.readsOnly_refl
  | succ f ih =>
    simp only [ingestLoop]
    split
    · exact s.readsOnly_refl
    · exact (s.absorb_readsOnly _).trans (ih ..)

@[simp] theorem ingestLoop_pos (f n : Nat) (s : State) : (ingestLoop f n s).br.pos = s.br.pos := by
  induction f generalizing n s with
  | zero => rfl
  | succ f ih =>
    simp only [ingestLoop]
    split
    · rfl
    · rw [ih, State.absorb_pos]

/-- BR.INGEST changes the bit reader's registers alone (R81). -/
theorem State.ingest_readsOnly (s : State) (n : Nat) : s.readsOnly (s.ingest n) := ingestLoop_readsOnly ..

/-- BR.INGEST does not change BR.pos (R81). -/
@[simp] theorem State.ingest_pos (s : State) (n : Nat) : (s.ingest n).br.pos = s.br.pos := ingestLoop_pos ..

@[simp] theorem State.ingest_zero (s : State) : s.ingest 0 = s := rfl

@[simp] theorem State.consume_zero (s : State) : s.consume 0 = s := rfl

@[simp] theorem State.peek_zero (s : State) : s.peek 0 = 0 := rfl

@[simp] theorem State.get_fst (s : State) (n : Nat) : (s.get n).1 = s.peek n := rfl

@[simp] theorem State.get_snd (s : State) (n : Nat) : (s.get n).2 = s.consume n := rfl

/-- BR.GET changes the bit reader's registers alone (R84). -/
theorem State.consume_readsOnly (s : State) (n : Nat) : s.readsOnly (s.consume n) := by
  unfold State.consume
  split
  · exact s.readsOnly_refl
  · exact (s.ingest_readsOnly n).trans ⟨_, rfl⟩

/-- BR.GET moves BR.pos by the number of bits read (R84). -/
@[simp] theorem State.consume_pos (s : State) (n : Nat) : (s.consume n).br.pos = s.br.pos + n := by
  unfold State.consume
  split
  · simp [*]
  · rfl

/-- BR.INIT changes the bit reader's registers alone (R80). -/
theorem State.brInit_readsOnly (s : State) : s.readsOnly s.brInit :=
  State.readsOnly.trans ⟨_, rfl⟩ (State.ingest_readsOnly _ _)

@[simp] theorem State.brInit_pos (s : State) : s.brInit.br.pos = 0 := by simp [State.brInit]

/-- What BR.GET returns fits its width (R84). -/
theorem State.peek_lt (s : State) (n : Nat) (hn : n ≤ 32) : s.peek n < 2 ^ n := by
  unfold State.peek topBits
  split
  · simp [*]
  · rw [Nat.div_lt_iff_lt_mul (Nat.two_pow_pos _), ← Nat.pow_add]
    calc s.br.reg.toNat < 2 ^ 32 := s.br.reg.isLt
      _ = 2 ^ (n + (32 - n)) := by congr 1; omega

/-- Enough fuel is enough. -/
theorem ingestLoop_fuel (f n : Nat) (s : State) (h : n ≤ f) : ingestLoop f n s = ingestLoop n n s := by
  suffices H : ∀ f g n (s : State), n ≤ f → n ≤ g → ingestLoop f n s = ingestLoop g n s from H f n n s h (Nat.le_refl n)
  intro f
  induction f with
  | zero =>
    intro g n s hf _
    obtain rfl : n = 0 := by omega
    cases g <;> rfl
  | succ f ih =>
    intro g n s hf hg
    cases g with
    | zero =>
      obtain rfl : n = 0 := by omega
      rfl
    | succ g =>
      simp only [ingestLoop]
      split
      · rfl
      · have : s.br.used.toNat < 8 := s.br.used.isLt
        exact ih _ _ _ (by omega) (by omega)

/-- One pass of BR.INGEST, and the rest (R82). -/
theorem State.ingest_step (s : State) (n : Nat) (h : n ≠ 0) :
    s.ingest n = (s.absorb (min n (8 - s.br.used.toNat))).ingest (n - min n (8 - s.br.used.toNat)) := by
  have hu : s.br.used.toNat < 8 := s.br.used.isLt
  cases n with
  | zero => exact absurd rfl h
  | succ n =>
    show ingestLoop (n + 1) (n + 1) s = _
    simp only [ingestLoop, if_neg h]
    exact ingestLoop_fuel _ _ _ (by omega)

/-- The bits a step of BR.INGEST takes, in two parts: within one byte the parts join. -/
theorem chunk_join (x u a b : Nat) (h : u + a + b ≤ 8) :
    (x >>> (8 - u - (a + b))) % 2 ^ (a + b) =
      ((x >>> (8 - u - a)) % 2 ^ a) * 2 ^ b + (x >>> (8 - (u + a) - b)) % 2 ^ b := by
  have e1 : 8 - u - a = (8 - u - (a + b)) + b := by omega
  have e2 : 8 - (u + a) - b = 8 - u - (a + b) := by omega
  rw [e1, e2, Nat.shiftRight_add]
  generalize x >>> (8 - u - (a + b)) = y
  rw [Nat.shiftRight_eq_div_pow, Nat.pow_add, Nat.mul_comm (2 ^ a) (2 ^ b), Nat.mod_mul]
  ring

/-- Two shifts with bits put in are one (R82). -/
theorem reg_join (r : Word) (a b c d : Nat) (hd : d < 2 ^ b) (hb : b ≤ 32) :
    (r <<< a ||| BitVec.ofNat 32 c) <<< b ||| BitVec.ofNat 32 d = r <<< (a + b) ||| BitVec.ofNat 32 (c * 2 ^ b + d) := by
  apply BitVec.eq_of_getLsbD_eq
  intro i hi
  have hcd : (c * 2 ^ b + d).testBit i = if i < b then d.testBit i else c.testBit (i - b) := by
    rw [Nat.mul_comm, Nat.testBit_two_pow_mul_add _ hd]
  simp only [BitVec.getLsbD_or, BitVec.getLsbD_shiftLeft, BitVec.getLsbD_ofNat, hcd, hi, decide_true, Bool.true_and]
  by_cases h : i < b
  · have h2 : i < a + b := by omega
    simp [h, h2]
  · have hdb : d.testBit i = false := Nat.testBit_lt_two_pow (Nat.lt_of_lt_of_le hd (Nat.pow_le_pow_right (by omega) (by omega)))
    have h3 : i - b < 32 := by omega
    by_cases h2 : i < a + b
    · have h4 : i - b < a := by omega
      simp [h, h2, h4, hdb, h3]
    · have h4 : ¬ i - b < a := by omega
      have h5 : i - b - a = i - (a + b) := by omega
      simp [h, h2, h4, h5, hdb, h3]

/-- Two steps of BR.INGEST within one byte are one (R82). -/
theorem State.absorb_absorb (s : State) (a b : Nat) (ha : 0 < b) (h : s.br.used.toNat + a + b ≤ 8) :
    (s.absorb a).absorb b = s.absorb (a + b) := by
  have hu : s.br.used.toNat + a < 8 := by omega
  have hne : ¬ s.br.used.toNat + a = 8 := by omega
  have hused : (BitVec.ofNat 3 (s.br.used.toNat + a)).toNat = s.br.used.toNat + a := by
    simp only [BitVec.toNat_ofNat]
    exact Nat.mod_eq_of_lt (by omega)
  have hbyte : (s.absorb a).currentByte = s.currentByte := by
    simp [State.currentByte, State.absorb, hne, State.readIn]
  have hw : (s.br.used.toNat + a + b = 8) = (s.br.used.toNat + (a + b) = 8) := by rw [Nat.add_assoc]
  unfold State.absorb
  rw [show (s.setBr _).currentByte = s.currentByte from hbyte]
  simp only [State.setBr_br, hused, hne, false_and, if_false, State.setBr_setBr, hw]
  congr 1
  simp only [BitReader.mk.injEq, true_and]
  refine ⟨?_, ?_⟩
  · rw [reg_join _ _ _ _ _ (Nat.mod_lt _ (Nat.two_pow_pos b)) (by omega), ← chunk_join _ _ _ _ h]
  · simp [Nat.add_assoc]

/-- After a step that does not end the byte, `BR.used` has advanced; after one that does, it is 0 (R82). -/
theorem State.absorb_used (s : State) (k : Nat) (h : s.br.used.toNat + k ≤ 8) :
    (s.absorb k).br.used.toNat = if s.br.used.toNat + k = 8 then 0 else s.br.used.toNat + k := by
  have : (s.absorb k).br.used.toNat = (s.br.used.toNat + k) % 8 := by simp [State.absorb]
  rw [this]
  split <;> omega

/-- BR.INGEST in two parts is BR.INGEST at once (R81, R82). -/
theorem State.ingest_ingest (s : State) (m n : Nat) : (s.ingest m).ingest n = s.ingest (m + n) := by
  induction m using Nat.strongRecOn generalizing s n with
  | _ m ih =>
    have hu : s.br.used.toNat < 8 := s.br.used.isLt
    by_cases hm : m = 0
    · subst hm
      simp
    by_cases hn : n = 0
    · subst hn
      simp
    rw [State.ingest_step s m hm]
    by_cases hfit : m ≤ 8 - s.br.used.toNat
    · rw [Nat.min_eq_left hfit, Nat.sub_self, State.ingest_zero]
      by_cases hfull : m = 8 - s.br.used.toNat
      · rw [State.ingest_step s (m + n) (by omega), Nat.min_eq_right (by omega), ← hfull, Nat.add_sub_cancel_left]
      · have hused := s.absorb_used m (by omega)
        rw [if_neg (by omega)] at hused
        rw [State.ingest_step (s.absorb m) n hn, State.ingest_step s (m + n) (by omega), hused,
          State.absorb_absorb s m _ (by omega) (by omega)]
        congr 1
        · congr 1
          omega
        · omega
    · rw [Nat.min_eq_right (by omega), ih _ (by omega), State.ingest_step s (m + n) (by omega),
        Nat.min_eq_right (by omega)]
      congr 1
      omega

/-- BR.GET of two fields leaves what BR.GET of both at once leaves (R84). -/
theorem State.consume_consume (s : State) (m n : Nat) : (s.consume m).consume n = s.consume (m + n) := by
  by_cases hm : m = 0
  · subst hm
    simp
  by_cases hn : n = 0
  · subst hn
    simp
  have hmn : m + n ≠ 0 := by omega
  have hset : ∀ (u : State) (p k : Nat), ((u.setBr { u.br with pos := p }).ingest k) =
      (u.ingest k).setBr { (u.ingest k).br with pos := p } := by
    intro u p k
    have habs : ∀ (u : State) (j : Nat), (u.setBr { u.br with pos := p }).absorb j =
        (u.absorb j).setBr { (u.absorb j).br with pos := p } := fun u j => rfl
    have hloop : ∀ (f j : Nat) (u : State), ingestLoop f j (u.setBr { u.br with pos := p }) =
        (ingestLoop f j u).setBr { (ingestLoop f j u).br with pos := p } := by
      intro f
      induction f with
      | zero => intro j u; rfl
      | succ f ih =>
        intro j u
        simp only [ingestLoop]
        split
        · rfl
        · simp only [State.setBr_br]
          rw [habs, ih]
    exact hloop k k u
  simp only [State.consume, hm, hn, hmn, if_false, hset, State.ingest_ingest, State.setBr_br, State.setBr_setBr,
    Nat.add_assoc]

end Sys2Proof.Machine
end

