-- ==== Sys2Proof/Laws/CodeTable.lean ====
section
/-! SUPPORT. The laws of the code-table operations: for each, once, everything it can do. What they change is the bit
reader's registers and the tables (`buildsOnly`), or the registers alone (`readsOnly`); none of them stops the model. -/

namespace Sys2Proof.Machine

set_option Elab.async false

/-- `u` differs from `s` at most in the bit reader's registers and the tables. -/
def State.buildsOnly (s u : State) : Prop := ∃ b x, u = { s with br := b, tabs := x }

theorem State.buildsOnly_refl (s : State) : s.buildsOnly s := ⟨s.br, s.tabs, rfl⟩

theorem State.buildsOnly.trans {s u v : State} (h : s.buildsOnly u) (h' : u.buildsOnly v) : s.buildsOnly v := by
  obtain ⟨b, x, rfl⟩ := h
  obtain ⟨c, y, rfl⟩ := h'
  exact ⟨c, y, rfl⟩

theorem State.readsOnly.builds {s u : State} (h : s.readsOnly u) : s.buildsOnly u := by
  obtain ⟨b, rfl⟩ := h
  exact ⟨b, s.tabs, rfl⟩

theorem State.setTab_buildsOnly (s : State) (t : TableId) (x : Table t.size t.countBits) :
    s.buildsOnly (s.setTab t x) := ⟨s.br, s.tabs.set t x, rfl⟩

theorem State.consume_buildsOnly (s : State) (n : Nat) : s.buildsOnly (s.consume n) := (s.consume_readsOnly n).builds

/-- Reading bits leaves every table as it was. -/
@[simp] theorem State.tab_consume (s : State) (n : Nat) (t : TableId) : (s.consume n).tab t = s.tab t := by
  rw [(s.consume_readsOnly n).eq, State.tab_setBr]

/-- CT.CLEAR (R90). -/
theorem clearTable_buildsOnly (t : TableId) (s : State) : s.buildsOnly (clearTable t s) := s.setTab_buildsOnly t _

theorem recordCount_buildsOnly (t : TableId) (n : Nat) (s : State) : s.buildsOnly (recordCount t n s) := by
  unfold recordCount
  split
  · exact s.buildsOnly_refl
  · exact s.setTab_buildsOnly t _

/-- CT.COUNT (R91): the count fits its field; registers and table alone change. -/
theorem readCount_spec (t : TableId) (s : State) :
    (readCount t s).1 = s.peek t.countBits ∧ s.buildsOnly (readCount t s).2 :=
  ⟨rfl, (s.consume_buildsOnly _).trans (recordCount_buildsOnly ..)⟩

/-- CT.DEGEN (R92) after its field has been read. -/
theorem recordShortcut_leaves (t : TableId) (x : Nat) (s : State) :
    (recordShortcut t x s).leaves (fun _ u => x < t.size ∧ u = s.setTab t ((s.tab t).setShortcut x))
      (fun e u => e = .badSymbol ∧ t.size ≤ x ∧ u = s) (fun _ => False) := by
  unfold recordShortcut
  split
  · exact Res.leaves_raise ⟨rfl, ‹_›, rfl⟩
  · exact ⟨by omega, rfl⟩

/-- CT.DEGEN (R92). -/
theorem readShortcut_leaves (t : TableId) (s : State) :
    (readShortcut t s).leaves (fun _ u => s.buildsOnly u ∧ s.peek t.countBits < t.size)
      (fun e u => e = .badSymbol ∧ s.buildsOnly u) (fun _ => False) := by
  refine (recordShortcut_leaves t _ _).mono ?_ ?_ (fun _ h => h)
  · rintro _ u ⟨h, rfl⟩
    exact ⟨(s.consume_buildsOnly _).trans (State.setTab_buildsOnly ..), h⟩
  · rintro e u ⟨he, _, rfl⟩
    exact ⟨he, s.consume_buildsOnly _⟩

/-- The unary tail (R93): the length grows by at most the room there is, less one. -/
theorem readTail_leaves (room l : Nat) (s : State) :
    (readTail room l s).leaves (fun k u => s.readsOnly u ∧ l ≤ k ∧ k < l + room)
      (fun e u => e = .badLength ∧ s.readsOnly u) (fun _ => False) := by
  induction room generalizing l s with
  | zero => exact Res.leaves_raise ⟨rfl, s.readsOnly_refl⟩
  | succ r ih =>
    simp only [readTail]
    split
    · refine (ih (l + 1) (s.get 1).2).mono ?_ ?_ (fun _ h => h)
      · rintro k u ⟨h, h1, h2⟩
        exact ⟨(s.consume_readsOnly 1).trans h, by omega, by omega⟩
      · rintro e u ⟨he, h⟩
        exact ⟨he, (s.consume_readsOnly 1).trans h⟩
    · exact ⟨s.consume_readsOnly 1, Nat.le_refl l, by omega⟩

/-- CT.HLEN (R93): a length of at most 16, or E_BAD_LENGTH. -/
theorem readHlen_leaves (s : State) :
    (readHlen s).leaves (fun l u => s.readsOnly u ∧ l ≤ 16) (fun e u => e = .badLength ∧ s.readsOnly u)
      (fun _ => False) := by
  unfold readHlen
  split
  · refine (readTail_leaves 10 7 (s.get 3).2).mono ?_ ?_ (fun _ h => h)
    · rintro k u ⟨h, _, h2⟩
      exact ⟨(s.consume_readsOnly 3).trans h, by omega⟩
    · rintro e u ⟨he, h⟩
      exact ⟨he, (s.consume_readsOnly 3).trans h⟩
  · have := s.peek_lt 3 (by omega)
    exact ⟨s.consume_readsOnly 3, by simp only [State.get_fst]; omega⟩

/-- The skipped indices (R94, R97, R98). -/
theorem skipIndices_leaves (t : TableId) (i k : Nat) (s : State) :
    (skipIndices t i k s).leaves (fun j u => j = i + k ∧ j ≤ t.size ∧ u = s)
      (fun e u => e = .tableOverflow ∧ t.size < i + k ∧ u = s) (fun _ => False) := by
  unfold skipIndices
  split
  · exact Res.leaves_raise ⟨rfl, ‹_›, rfl⟩
  · exact ⟨rfl, by omega, rfl⟩

/-- CT.ASSIGN (R102): the codes are written; E_OVERSUBSCRIBED if the code space ran out. -/
theorem assignCodes_leaves (t : TableId) (s : State) :
    (assignCodes t s).leaves
      (fun _ u => (s.tab t).assigned.ok = true ∧ u = s.setTab t (s.tab t).withCodes)
      (fun e u => e = .oversubscribed ∧ (s.tab t).assigned.ok = false ∧ u = s.setTab t (s.tab t).withCodes)
      (fun _ => False) := by
  unfold assignCodes
  split
  · exact ⟨‹_›, rfl⟩
  · exact Res.leaves_raise ⟨rfl, Bool.eq_false_iff.2 ‹_›, rfl⟩

/-- The run-skip of a hybrid description, if it is due (R95). -/
theorem hybSkip_leaves (t : TableId) (skip : Option Nat) (v : Scan) (s : State) :
    (hybSkip t skip v s).leaves (fun w u => s.readsOnly u ∧ v.i ≤ w.i ∧ w.n = v.n ∧ w.r = v.r)
      (fun e u => e = .tableOverflow ∧ s.readsOnly u) (fun _ => False) := by
  unfold hybSkip
  split
  · have hs : (readSkip t v.i s).leaves (fun j u => v.i ≤ j ∧ s.readsOnly u)
        (fun e u => e = .tableOverflow ∧ s.readsOnly u) (fun _ => False) := by
      refine (skipIndices_leaves t v.i _ _).mono ?_ ?_ (fun _ h => h)
      · rintro j u ⟨rfl, _, rfl⟩
        exact ⟨Nat.le_add_right .., s.consume_readsOnly 2⟩
      · rintro e u ⟨he, _, rfl⟩
        exact ⟨he, s.consume_readsOnly 2⟩
    exact hs.andThen fun j u h => ⟨h.2, h.1, rfl, rfl⟩
  · exact ⟨s.readsOnly_refl, Nat.le_refl _, rfl, rfl⟩

/-- The loop of CT.INIT_HYBRID (R95): registers and tables alone change; it faults with E_TABLE_OVERFLOW or
E_BAD_LENGTH. -/
theorem hybLoop_leaves (m : HybCountMode) (t : TableId) (skip : Option Nat) (f : Nat) (v : Scan) (s : State) :
    (hybLoop m t skip f v s).leaves (fun _ u => s.buildsOnly u)
      (fun e u => (e = .tableOverflow ∨ e = .badLength) ∧ s.buildsOnly u) (fun _ => False) := by
  induction f generalizing v s with
  | zero =>
    simp only [hybLoop]
    split
    · exact Res.leaves_raise ⟨.inl rfl, s.buildsOnly_refl⟩
    · exact s.buildsOnly_refl
  | succ f ih =>
    simp only [hybLoop]
    split
    · split
      · exact Res.leaves_raise ⟨.inl rfl, s.buildsOnly_refl⟩
      · refine Res.leaves.andThen (ok := fun _ u => s.buildsOnly u)
          ((readHlen_leaves s).mono (fun _ _ h => h.1.builds) (fun _ _ h => ⟨.inr h.1, h.2.builds⟩) (fun _ h => h)) ?_
        intro l u hu
        refine Res.leaves.andThen (ok := fun _ u => s.buildsOnly u) ?_ ?_
        · refine (hybSkip_leaves t skip (scanEntry v) (storeLen t v.i l u)).mono ?_ ?_ (fun _ h => h)
          · intro w x h
            exact (hu.trans (State.setTab_buildsOnly ..)).trans h.1.builds
          · intro e x h
            exact ⟨.inl h.1, (hu.trans (State.setTab_buildsOnly ..)).trans h.2.builds⟩
        · intro w x hx
          exact (ih w x).mono (fun _ _ h => hx.trans h) (fun _ _ h => ⟨h.1, hx.trans h.2⟩) (fun _ h => h)
    · exact s.buildsOnly_refl

/-- CT.INIT_HYBRID (R95): registers and tables alone change; the faults are those R95 lists. -/
theorem initHybrid_leaves (m : HybCountMode) (t : TableId) (skip : Option Nat) (s : State) :
    (initHybrid m t skip s).leaves (fun _ u => s.buildsOnly u)
      (fun e u => (e = .badSymbol ∨ e = .badLength ∨ e = .tableOverflow ∨ e = .oversubscribed) ∧ s.buildsOnly u)
      (fun _ => False) := by
  have h0 : s.buildsOnly (readCount t (clearTable t s)).2 :=
    (clearTable_buildsOnly t s).trans (readCount_spec t _).2
  simp only [initHybrid]
  split
  · exact (readShortcut_leaves t _).mono (fun _ _ h => h0.trans h.1) (fun _ _ h => ⟨.inl h.1, h0.trans h.2⟩)
      (fun _ h => h)
  · refine Res.leaves.andThen (ok := fun _ u => s.buildsOnly u) ?_ ?_
    · refine (hybLoop_leaves m t skip _ _ _).mono (fun _ _ h => h0.trans h) ?_ (fun _ h => h)
      rintro e u ⟨h1 | h1, h⟩
      · exact ⟨.inr (.inr (.inl h1)), h0.trans h⟩
      · exact ⟨.inr (.inl h1), h0.trans h⟩
    · intro _ u hu
      refine (assignCodes_leaves t u).mono ?_ ?_ (fun _ h => h)
      · rintro _ x ⟨_, rfl⟩
        exact hu.trans (State.setTab_buildsOnly ..)
      · rintro e x ⟨he, _, rfl⟩
        exact ⟨.inr (.inr (.inr he)), hu.trans (State.setTab_buildsOnly ..)⟩

/-- A symbol the lookup answers has the length and the code looked for, and is in the alphabet (R100). -/
theorem findCode_eq_some {l c : Nat} {xs : List (BitVec 5)} {ys : List (BitVec 16)} {s k : Nat}
    (h : findCode l c xs ys s = some k) :
    s ≤ k ∧ k < s + xs.length ∧ k < s + ys.length ∧ (xs.getD (k - s) 0).toNat = l ∧ (ys.getD (k - s) 0).toNat = c := by
  induction xs generalizing ys s with
  | nil => simp [findCode] at h
  | cons x xs ih =>
    cases ys with
    | nil => simp [findCode] at h
    | cons y ys =>
      simp only [findCode] at h
      split at h
      · rename_i hxy
        obtain rfl : s = k := by simpa using h
        simp [hxy.1, hxy.2]
      · obtain ⟨h1, h2, h3, h4, h5⟩ := ih h
        have e : k - s = (k - (s + 1)) + 1 := by omega
        refine ⟨by omega, by simp only [List.length_cons]; omega, by simp only [List.length_cons]; omega, ?_, ?_⟩
        · simpa [e] using h4
        · simpa [e] using h5

theorem Table.lenAt_eq {n cb : Nat} (t : Table n cb) (s : Nat) : t.lenAt s = (t.len.toList.getD s 0).toNat := by
  unfold Table.lenAt
  congr 1
  by_cases h : s < n <;> simp [Vector.getD, Array.getD, h]

theorem Table.codeAt_eq {n cb : Nat} (t : Table n cb) (s : Nat) : t.codeAt s = (t.code.toList.getD s 0).toNat := by
  unfold Table.codeAt
  congr 1
  by_cases h : s < n <;> simp [Vector.getD, Array.getD, h]

/-- The lookup (R100): the symbol is in the alphabet and has that length and that code. -/
theorem Table.lookup_eq_some {n cb : Nat} {t : Table n cb} {l c k : Nat} (h : t.lookup l c = some k) :
    k < n ∧ t.lenAt k = l ∧ t.codeAt k = c := by
  obtain ⟨_, h2, _, h4, h5⟩ := findCode_eq_some h
  refine ⟨by simpa using h2, ?_, ?_⟩
  · rw [Table.lenAt_eq]
    simpa using h4
  · rw [Table.codeAt_eq]
    simpa using h5

/-- The bit-by-bit decode (R100): a symbol of the alphabet whose length is among those tried, or E_DECODE. -/
theorem decodeLoop_leaves (t : TableId) (k l acc : Nat) (s : State) :
    (decodeLoop t k l acc s).leaves
      (fun x u => s.readsOnly u ∧ x < t.size ∧ l ≤ (s.tab t).lenAt x ∧ (s.tab t).lenAt x < l + k ∧
        u = s.consume ((s.tab t).lenAt x + 1 - l))
      (fun e u => e = .decode ∧ u = s.consume k) (fun _ => False) := by
  induction k generalizing l acc s with
  | zero => exact Res.leaves_raise ⟨rfl, by simp⟩
  | succ k ih =>
    simp only [decodeLoop]
    split
    · rename_i x hx
      obtain ⟨h1, h2, _⟩ := Table.lookup_eq_some hx
      refine ⟨s.consume_readsOnly 1, h1, by omega, by omega, ?_⟩
      simp [h2]
    · refine (ih (l + 1) _ (s.get 1).2).mono ?_ ?_ (fun _ h => h)
      · rintro x u ⟨hr, h1, h2, h3, rfl⟩
        simp only [State.get_snd, State.tab_consume] at h2 h3 ⊢
        refine ⟨?_, h1, by omega, by omega, ?_⟩
        · exact (s.consume_readsOnly 1).trans hr
        · rw [State.consume_consume]
          congr 1
          omega
      · rintro e u ⟨he, rfl⟩
        refine ⟨he, ?_⟩
        rw [State.get_snd, State.consume_consume]
        congr 1
        omega

/-- CT.DECODE (R100): the shortcut symbol and no bit read; or a symbol of the alphabet, its length 1 to 16, exactly
that many bits read; or E_DECODE after 16 bits. No table changes. -/
theorem decodeSymbol_leaves (t : TableId) (s : State) :
    (decodeSymbol t s).leaves
      (fun x u => ((s.tab t).sv = true ∧ x = (s.tab t).ss.toNat ∧ u = s) ∨
        ((s.tab t).sv = false ∧ x < t.size ∧ 1 ≤ (s.tab t).lenAt x ∧ (s.tab t).lenAt x ≤ 16 ∧
          u = s.consume ((s.tab t).lenAt x)))
      (fun e u => e = .decode ∧ (s.tab t).sv = false ∧ u = s.consume 16) (fun _ => False) := by
  unfold decodeSymbol
  split
  · exact .inl ⟨‹_›, rfl, rfl⟩
  · have hsv : (s.tab t).sv = false := Bool.eq_false_iff.2 ‹_›
    refine (decodeLoop_leaves t _ 1 0 s).mono ?_ ?_ (fun _ h => h)
    · rintro x u ⟨_, h1, h2, h3, h4⟩
      exact .inr ⟨hsv, h1, h2, by simp only [Config.maxLen] at h3; omega, by simpa using h4⟩
    · rintro e u ⟨he, hu⟩
      exact ⟨he, hsv, hu⟩

/-- CT.DECODE changes the bit reader's registers alone (R100). -/
theorem decodeSymbol_readsOnly (t : TableId) (s : State) :
    (decodeSymbol t s).leaves (fun _ u => s.readsOnly u) (fun e u => e = .decode ∧ s.readsOnly u) (fun _ => False) := by
  refine (decodeSymbol_leaves t s).mono ?_ ?_ (fun _ h => h)
  · rintro x u (⟨_, _, rfl⟩ | ⟨_, _, _, _, rfl⟩)
    · exact u.readsOnly_refl
    · exact s.consume_readsOnly _
  · rintro e u ⟨he, _, rfl⟩
    exact ⟨he, s.consume_readsOnly _⟩

/-- An entry of a coded description (R96 to R99): the index rises, and never passes the alphabet. -/
theorem codEntry_leaves (m : CodCountMode) (t : TableId) (v : Scan) (x : Nat) (s : State) :
    (codEntry m t v x s).leaves (fun w u => s.buildsOnly u ∧ v.i < w.i ∧ w.i ≤ t.size ∧ w.n = v.n)
      (fun e u => e = .tableOverflow ∧ s.buildsOnly u) (fun _ => False) := by
  have hrun : ∀ (k j : Nat), 0 < k → (clRunEntry m t v k (s.consume j)).leaves
      (fun w u => s.buildsOnly u ∧ v.i < w.i ∧ w.i ≤ t.size ∧ w.n = v.n)
      (fun e u => e = .tableOverflow ∧ s.buildsOnly u) (fun _ => False) := by
    intro k j hk
    unfold clRunEntry
    refine Res.leaves.andThen (ok := fun i u => i = v.i + k ∧ i ≤ t.size ∧ u = s.consume j) ?_ ?_
    · refine (skipIndices_leaves t v.i k _).mono (fun _ _ h => h) ?_ (fun _ h => h)
      rintro e u ⟨he, _, rfl⟩
      exact ⟨he, s.consume_buildsOnly j⟩
    · rintro i u ⟨rfl, h2, rfl⟩
      exact ⟨s.consume_buildsOnly j, by simp only [scanRun]; omega, h2, rfl⟩
  match x with
  | 0 =>
    simp only [codEntry, clZeroEntry]
    split
    · exact Res.leaves_raise ⟨rfl, s.buildsOnly_refl⟩
    · exact ⟨s.buildsOnly_refl, Nat.lt_succ_self _, by simp only [scanEntry]; omega, rfl⟩
  | 1 => exact hrun _ 4 (by simp [zeroRun4])
  | 2 => exact hrun _ 9 (by simp [zeroRun9])
  | x + 3 =>
    simp only [codEntry, clLenEntry]
    split
    · exact Res.leaves_raise ⟨rfl, s.buildsOnly_refl⟩
    · exact ⟨s.setTab_buildsOnly t _, Nat.lt_succ_self _, by simp only [scanEntry]; omega, rfl⟩

/-- The loop of CT.INIT_CODED (R101): registers and tables alone change; it faults with E_TABLE_OVERFLOW or
E_DECODE. -/
theorem codLoop_leaves (m : CodCountMode) (t d : TableId) (f : Nat) (v : Scan) (s : State) :
    (codLoop m t d f v s).leaves (fun _ u => s.buildsOnly u)
      (fun e u => (e = .tableOverflow ∨ e = .decode) ∧ s.buildsOnly u) (fun _ => False) := by
  induction f generalizing v s with
  | zero => exact Res.leaves_raise ⟨.inl rfl, s.buildsOnly_refl⟩
  | succ f ih =>
    simp only [codLoop]
    split
    · refine Res.leaves.andThen (ok := fun _ u => s.buildsOnly u)
        ((decodeSymbol_readsOnly d s).mono (fun _ _ h => h.builds) (fun _ _ h => ⟨.inr h.1, h.2.builds⟩) (fun _ h => h)) ?_
      intro x u hu
      refine Res.leaves.andThen (ok := fun _ u => s.buildsOnly u)
        ((codEntry_leaves m t v x u).mono (fun _ _ h => hu.trans h.1) (fun _ _ h => ⟨.inl h.1, hu.trans h.2⟩)
          (fun _ h => h)) ?_
      intro w y hy
      exact (ih w y).mono (fun _ _ h => hy.trans h) (fun _ _ h => ⟨h.1, hy.trans h.2⟩) (fun _ h => h)
    · exact s.buildsOnly_refl

/-- CT.INIT_CODED (R101): registers and tables alone change; the faults are those R101 lists. -/
theorem initCoded_leaves (m : CodCountMode) (t d : TableId) (s : State) :
    (initCoded m t d s).leaves (fun _ u => s.buildsOnly u)
      (fun e u => (e = .badSymbol ∨ e = .decode ∨ e = .tableOverflow ∨ e = .oversubscribed) ∧ s.buildsOnly u)
      (fun _ => False) := by
  have h0 : s.buildsOnly (readCount t (clearTable t s)).2 :=
    (clearTable_buildsOnly t s).trans (readCount_spec t _).2
  simp only [initCoded]
  split
  · exact (readShortcut_leaves t _).mono (fun _ _ h => h0.trans h.1) (fun _ _ h => ⟨.inl h.1, h0.trans h.2⟩)
      (fun _ h => h)
  · refine Res.leaves.andThen (ok := fun _ u => s.buildsOnly u) ?_ ?_
    · refine (codLoop_leaves m t d _ _ _).mono (fun _ _ h => h0.trans h) ?_ (fun _ h => h)
      rintro e u ⟨h1 | h1, h⟩
      · exact ⟨.inr (.inr (.inl h1)), h0.trans h⟩
      · exact ⟨.inr (.inl h1), h0.trans h⟩
    · intro _ u hu
      refine (assignCodes_leaves t u).mono ?_ ?_ (fun _ h => h)
      · rintro _ x ⟨_, rfl⟩
        exact hu.trans (State.setTab_buildsOnly ..)
      · rintro e x ⟨he, _, rfl⟩
        exact ⟨.inr (.inr (.inr he)), hu.trans (State.setTab_buildsOnly ..)⟩

/-- Past the alphabet the length is 0. -/
theorem Table.lenAt_past {n cb : Nat} (t : Table n cb) {a : Nat} (h : n ≤ a) : t.lenAt a = 0 := by
  simp [Table.lenAt, Vector.getD, Nat.not_lt.2 h]

/-- Storing a length changes that entry alone (R95, R99). -/
theorem Table.lenAt_setLen {n cb : Nat} (t : Table n cb) {i l : Nat} (hi : i < n) (hl : l < 32) (a : Nat) :
    (t.setLen i l).lenAt a = if a = i then l else t.lenAt a := by
  by_cases ha : a < n
  · by_cases h : a = i
    · subst h
      simp [Table.lenAt, Table.setLen, Vector.getD, ha, Nat.mod_eq_of_lt hl]
    · simp [Table.lenAt, Table.setLen, Vector.getD, ha, h, Ne.symm h]
  · rw [Table.lenAt_past _ (by omega), Table.lenAt_past _ (by omega), if_neg (by omega)]

/-- The assignment changes no length (R102). -/
@[simp] theorem Table.lenAt_withCodes {n cb : Nat} (t : Table n cb) (a : Nat) : t.withCodes.lenAt a = t.lenAt a := rfl

/-- A table of zeros has no length. -/
@[simp] theorem Table.lenAt_zero (n cb a : Nat) : (Table.zero n cb).lenAt a = 0 := by
  by_cases h : a < n <;> simp [Table.lenAt, Table.zero, Vector.getD, h]

end Sys2Proof.Machine
end

