-- ==== Sys2Proof/Laws/Memory.lean ====
section
/-! SUPPORT. The laws of the byte memories: a read after a write, the frame of a write, and that every memory
operation keeps the canonical form. -/

namespace Sys2Proof.Machine

set_option Elab.async false

theorem Mem.risingFrom_mono {lo lo' : Nat} {m : Mem} (h : Mem.risingFrom lo m = true) (hl : lo' ≤ lo) :
    Mem.risingFrom lo' m = true := by
  cases m with
  | nil => rfl
  | cons c m =>
    simp only [Mem.risingFrom, Bool.and_eq_true, decide_eq_true_eq] at h ⊢
    exact ⟨by omega, h.2⟩

theorem Mem.listed_below {lo a : Nat} {m : Mem} (h : Mem.risingFrom lo m = true) (ha : a < lo) :
    m.listed a = none := by
  induction m generalizing lo with
  | nil => rfl
  | cons c m ih =>
    simp only [Mem.risingFrom, Bool.and_eq_true, decide_eq_true_eq] at h
    have hne : c.1 ≠ a := by omega
    simp [Mem.listed, hne, ih h.2 (by omega)]

theorem Mem.listed_insert {lo a : Nat} {v : Byte} {m : Mem} (h : Mem.risingFrom lo m = true) (x : Nat) :
    (Mem.insert m a v).listed x = if a = x then some v else m.listed x := by
  induction m generalizing lo with
  | nil => simp [Mem.insert, Mem.listed]
  | cons c m ih =>
    obtain ⟨k, b⟩ := c
    simp only [Mem.risingFrom, Bool.and_eq_true, decide_eq_true_eq] at h
    simp only [Mem.insert]
    split
    · simp [Mem.listed]
    · split
      · subst_vars
        by_cases hx : k = x <;> simp [Mem.listed, hx]
      · by_cases hk : k = x
        · have : a ≠ x := by omega
          simp [Mem.listed, hk, this]
        · simp [Mem.listed, hk, ih h.2]

theorem Mem.listed_erase {lo a : Nat} {m : Mem} (h : Mem.risingFrom lo m = true) (x : Nat) :
    (Mem.erase m a).listed x = if a = x then none else m.listed x := by
  induction m generalizing lo with
  | nil => simp [Mem.erase, Mem.listed]
  | cons c m ih =>
    obtain ⟨k, b⟩ := c
    simp only [Mem.risingFrom, Bool.and_eq_true, decide_eq_true_eq] at h
    simp only [Mem.erase]
    split
    · subst_vars
      by_cases hx : k = x
      · subst hx
        simp [Mem.listed_below h.2 (Nat.lt_succ_self k)]
      · simp [Mem.listed, hx]
    · by_cases hk : k = x
      · have : a ≠ x := by omega
        simp [Mem.listed, hk, this]
      · simp [Mem.listed, hk, ih h.2]

theorem Mem.wf_rising {sp : Space} {m : Mem} (h : Mem.wf sp m = true) : Mem.risingFrom 0 m = true := by
  simp only [Mem.wf, Bool.and_eq_true] at h
  exact h.1

/-- A byte read after a write: the byte written at its address, and elsewhere what was there before. -/
theorem Mem.read_write {sp : Space} {m : Mem} (h : Mem.wf sp m = true) (a x : Nat) (v : Byte) :
    (Mem.write sp m a v).read sp x = if a = x then some v else m.read sp x := by
  have hr := Mem.wf_rising h
  unfold Mem.write
  split
  · rename_i hu
    by_cases hx : a = x <;> simp [Mem.read, Mem.listed_erase hr, hx, hu]
  · by_cases hx : a = x <;> simp [Mem.read, Mem.listed_insert hr, hx]

theorem Mem.read_write_same {sp : Space} {m : Mem} (h : Mem.wf sp m = true) (a : Nat) (v : Byte) :
    (Mem.write sp m a v).read sp a = some v := by simp [Mem.read_write h]

theorem Mem.read_write_other {sp : Space} {m : Mem} (h : Mem.wf sp m = true) {a x : Nat} (v : Byte) (hx : a ≠ x) :
    (Mem.write sp m a v).read sp x = m.read sp x := by simp [Mem.read_write h, hx]

theorem Mem.risingFrom_insert {lo a : Nat} {v : Byte} {m : Mem} (h : Mem.risingFrom lo m = true) (ha : lo ≤ a) :
    Mem.risingFrom lo (Mem.insert m a v) = true := by
  induction m generalizing lo with
  | nil => simp [Mem.insert, Mem.risingFrom, ha]
  | cons c m ih =>
    obtain ⟨k, b⟩ := c
    simp only [Mem.risingFrom, Bool.and_eq_true, decide_eq_true_eq] at h
    simp only [Mem.insert]
    split
    · simp only [Mem.risingFrom, Bool.and_eq_true, decide_eq_true_eq]
      exact ⟨ha, by omega, h.2⟩
    · split
      · subst_vars
        simp only [Mem.risingFrom, Bool.and_eq_true, decide_eq_true_eq]
        exact ⟨ha, h.2⟩
      · simp only [Mem.risingFrom, Bool.and_eq_true, decide_eq_true_eq]
        exact ⟨h.1, ih h.2 (by omega)⟩

theorem Mem.risingFrom_erase {lo a : Nat} {m : Mem} (h : Mem.risingFrom lo m = true) :
    Mem.risingFrom lo (Mem.erase m a) = true := by
  induction m generalizing lo with
  | nil => rfl
  | cons c m ih =>
    obtain ⟨k, b⟩ := c
    simp only [Mem.risingFrom, Bool.and_eq_true, decide_eq_true_eq] at h
    simp only [Mem.erase]
    split
    · exact Mem.risingFrom_mono h.2 (by omega)
    · simp only [Mem.risingFrom, Bool.and_eq_true, decide_eq_true_eq]
      exact ⟨h.1, ih h.2⟩

theorem Mem.all_insert {p : Host.Cell → Bool} {a : Nat} {v : Byte} {m : Mem} (h : m.all p = true)
    (hv : p (a, v) = true) : (Mem.insert m a v).all p = true := by
  induction m with
  | nil => simp [Mem.insert, hv]
  | cons c m ih =>
    obtain ⟨k, b⟩ := c
    simp only [List.all_cons, Bool.and_eq_true] at h
    simp only [Mem.insert]
    split
    · simp [hv, h.1, h.2]
    · split
      · simp [hv, h.2]
      · simp [h.1, ih h.2]

theorem Mem.all_erase {p : Host.Cell → Bool} {a : Nat} {m : Mem} (h : m.all p = true) :
    (Mem.erase m a).all p = true := by
  induction m with
  | nil => rfl
  | cons c m ih =>
    obtain ⟨k, b⟩ := c
    simp only [List.all_cons, Bool.and_eq_true] at h
    simp only [Mem.erase]
    split
    · exact h.2
    · simp [h.1, ih h.2]

/-- A write keeps the canonical form. -/
theorem Mem.wf_write {sp : Space} {m : Mem} (h : Mem.wf sp m = true) (a : Nat) (v : Byte) :
    Mem.wf sp (Mem.write sp m a v) = true := by
  simp only [Mem.wf, Bool.and_eq_true] at h ⊢
  unfold Mem.write
  split
  · exact ⟨Mem.risingFrom_erase h.1, Mem.all_erase h.2⟩
  · rename_i hu
    exact ⟨Mem.risingFrom_insert h.1 (Nat.zero_le a), Mem.all_insert h.2 (by simpa using hu)⟩

theorem Mem.risingFrom_ofBytes (sp : Space) (a lo : Nat) (bs : List Byte) (h : lo ≤ a) :
    Mem.risingFrom lo (Mem.ofBytes sp a bs) = true := by
  induction bs generalizing a lo with
  | nil => rfl
  | cons b bs ih =>
    simp only [Mem.ofBytes]
    split
    · exact ih (a + 1) lo (by omega)
    · simp only [Mem.risingFrom, Bool.and_eq_true, decide_eq_true_eq]
      exact ⟨h, ih (a + 1) (a + 1) (Nat.le_refl _)⟩

/-- A byte string laid into a memory is in the canonical form. -/
theorem Mem.wf_ofBytes (sp : Space) (a : Nat) (bs : List Byte) : Mem.wf sp (Mem.ofBytes sp a bs) = true := by
  simp only [Mem.wf, Bool.and_eq_true]
  refine ⟨Mem.risingFrom_ofBytes sp a 0 bs (Nat.zero_le a), ?_⟩
  induction bs generalizing a with
  | nil => rfl
  | cons b bs ih =>
    simp only [Mem.ofBytes]
    split
    · exact ih (a + 1)
    · rename_i hu
      simp only [List.all_cons, Bool.and_eq_true]
      exact ⟨by simpa using hu, ih (a + 1)⟩

/-- The byte string laid into a memory is what it reads as. -/
theorem Mem.read_ofBytes (sp : Space) (a : Nat) (bs : List Byte) (k : Nat) :
    (Mem.ofBytes sp a bs).read sp (a + k) = if h : k < bs.length then some bs[k] else sp.unlisted := by
  induction bs generalizing a k with
  | nil => simp [Mem.ofBytes, Mem.read, Mem.listed]
  | cons b bs ih =>
    simp only [Mem.ofBytes]
    cases k with
    | zero =>
      split
      · rename_i hu
        have := Mem.risingFrom_ofBytes sp (a + 1) (a + 1) bs (Nat.le_refl _)
        simp [Mem.read, Mem.listed_below this (Nat.lt_succ_self a), hu]
      · simp [Mem.read, Mem.listed]
    | succ k =>
      have := ih (a + 1) k
      rw [show a + 1 + k = a + (k + 1) by omega] at this
      split
      · simp [this]
      · have hne : a ≠ a + (k + 1) := by omega
        simp only [Mem.read, Mem.listed, hne, if_false]
        simp only [Mem.read] at this
        simp [this]

@[simp] theorem Mem.wf_nil (sp : Space) : Mem.wf sp [] = true := rfl

end Sys2Proof.Machine
end

