-- ==== Sys2Proof/Laws/Block.lean ====
section
/-! SUPPORT. The laws of the copy engine and of the block decoder: for each operation, once, what it can do. A copy
changes OUT, WIN and BD.produced alone (`writesOnly`); a unit that faults has written none of them
(60_exceptions.md R172). -/

namespace Sys2Proof.Machine

set_option Elab.async false

/-- `u` differs from `s` at most in OUT, WIN and BD.produced. -/
def State.writesOnly (s u : State) : Prop := ∃ o w p, u = { s with out := o, win := w, produced := p }

theorem State.writesOnly_refl (s : State) : s.writesOnly s := ⟨s.out, s.win, s.produced, rfl⟩

theorem State.writesOnly.trans {s u v : State} (h : s.writesOnly u) (h' : u.writesOnly v) : s.writesOnly v := by
  obtain ⟨o, w, p, rfl⟩ := h
  obtain ⟨o', w', p', rfl⟩ := h'
  exact ⟨o', w', p', rfl⟩

theorem State.pushByte_writesOnly (s : State) (b : Byte) : s.writesOnly (s.pushByte b) := ⟨_, _, _, rfl⟩

/-- LZ.EMIT (R130): the byte is pushed where it fits; the model stops where OUT has no such address. -/
theorem emit_leaves (b : Byte) (s : State) :
    (emit b s).leaves (fun _ u => s.produced.toNat < s.outSize.toNat ∧ u = s.pushByte b) (fun _ _ => False)
      (fun f => f = .outAddress ∧ s.outSize.toNat ≤ s.produced.toNat) := by
  unfold emit
  split
  · exact ⟨‹_›, rfl⟩
  · exact ⟨rfl, by omega⟩

/-- The byte moves of a copy (R131): they raise no fault and change OUT, WIN and BD.produced alone. -/
theorem copyLoop_leaves (dist n : Nat) (s : State) :
    (copyLoop dist n s).leaves (fun _ u => s.writesOnly u) (fun _ _ => False) (fun _ => True) := by
  induction n generalizing s with
  | zero => exact s.writesOnly_refl
  | succ n ih =>
    simp only [copyLoop]
    split
    · rename_i b _
      refine Res.leaves.andThen (ok := fun _ u => s.writesOnly u)
        ((emit_leaves b s).mono ?_ (fun _ _ h => h) (fun _ _ => trivial)) ?_
      · rintro _ u ⟨_, rfl⟩
        exact s.pushByte_writesOnly b
      · intro _ u hu
        exact (ih u).mono (fun _ _ h => hu.trans h) (fun _ _ h => h) (fun _ h => h)
    · exact trivial

/-- LZ.COPY (R131): the distance is checked, then the size, and nothing has changed when either faults; else the bytes
are moved. -/
theorem copy_leaves (n dist : Nat) (s : State) :
    (copy n dist s).leaves
      (fun _ u => dist ≤ s.produced.toNat ∧ s.produced.toNat + n ≤ s.outSize.toNat ∧ s.writesOnly u)
      (fun e u => u = s ∧ (e = .badDistance ∧ s.produced.toNat < dist ∨
        e = .outputOverrun ∧ dist ≤ s.produced.toNat ∧ s.outSize.toNat < s.produced.toNat + n))
      (fun _ => True) := by
  unfold copy
  split
  · exact Res.leaves_raise ⟨rfl, .inl ⟨rfl, ‹_›⟩⟩
  · split
    · exact Res.leaves_raise ⟨rfl, .inr ⟨rfl, by omega, ‹_›⟩⟩
    · exact (copyLoop_leaves dist n s).mono (fun _ _ h => ⟨by omega, by omega, h⟩) (fun _ _ h => h.elim) (fun _ h => h)

/-- `u` differs from `s` at most in the bit reader's registers, the tables and BD.remaining. -/
def State.decodesOnly (s u : State) : Prop := ∃ b x c, u = { s with br := b, tabs := x, remaining := c }

theorem State.decodesOnly_refl (s : State) : s.decodesOnly s := ⟨s.br, s.tabs, s.remaining, rfl⟩

theorem State.decodesOnly.trans {s u v : State} (h : s.decodesOnly u) (h' : u.decodesOnly v) : s.decodesOnly v := by
  obtain ⟨b, x, c, rfl⟩ := h
  obtain ⟨b', x', c', rfl⟩ := h'
  exact ⟨b', x', c', rfl⟩

theorem State.buildsOnly.decodes {s u : State} (h : s.buildsOnly u) : s.decodesOnly u := by
  obtain ⟨b, x, rfl⟩ := h
  exact ⟨b, x, s.remaining, rfl⟩

theorem State.readsOnly.decodes {s u : State} (h : s.readsOnly u) : s.decodesOnly u := h.builds.decodes

theorem State.setRemaining_decodesOnly (s : State) (c : BitVec 16) : s.decodesOnly (s.setRemaining c) :=
  ⟨s.br, s.tabs, c, rfl⟩

theorem State.consume_decodesOnly (s : State) (n : Nat) : s.decodesOnly (s.consume n) := (s.consume_readsOnly n).decodes

/-- The faults of BD.INIT_SUBBLOCK (R111). -/
def subblockFault (e : ErrCode) : Prop :=
  e = .emptySubblock ∨ e = .badSymbol ∨ e = .badLength ∨ e = .tableOverflow ∨ e = .oversubscribed ∨ e = .decode

/-- BD.INIT_SUBBLOCK (R111): registers, tables and BD.remaining alone change. -/
theorem initSubblock_leaves (s : State) :
    (initSubblock s).leaves (fun _ u => s.decodesOnly u) (fun e u => subblockFault e ∧ s.decodesOnly u)
      (fun _ => False) := by
  have hyb : ∀ (t : TableId) (k : Option Nat) (u : State), s.decodesOnly u →
      (initHybrid Config.hybCountMode t k u).leaves (fun _ v => s.decodesOnly v)
        (fun e v => subblockFault e ∧ s.decodesOnly v) (fun _ => False) := by
    intro t k u hu
    refine (initHybrid_leaves _ t k u).mono (fun _ _ h => hu.trans h.decodes) ?_ (fun _ h => h)
    rintro e v ⟨he, h⟩
    refine ⟨?_, hu.trans h.decodes⟩
    unfold subblockFault
    tauto
  simp only [initSubblock]
  split
  · exact Res.leaves_raise ⟨.inl rfl, s.consume_decodesOnly Config.subw⟩
  · refine (hyb .tLen _ _ ((s.consume_decodesOnly Config.subw).trans (State.setRemaining_decodesOnly ..))).andThen ?_
    intro _ u hu
    refine Res.leaves.andThen (ok := fun _ u => s.decodesOnly u) ?_ (fun _ v hv => hyb .tOff _ v hv)
    refine (initCoded_leaves _ .tLit .tLen u).mono (fun _ _ h => hu.trans h.decodes) ?_ (fun _ h => h)
    rintro e v ⟨he, h⟩
    refine ⟨?_, hu.trans h.decodes⟩
    unfold subblockFault
    tauto

/-- BD.LITERAL (R113): one byte, one produced; no fault. -/
theorem literal_leaves (c : Byte) (s : State) :
    (literal c s).leaves (fun n u => n = 1 ∧ s.produced.toNat < s.outSize.toNat ∧ u = s.pushByte c)
      (fun _ _ => False) (fun f => f = .outAddress ∧ s.outSize.toNat ≤ s.produced.toNat) := by
  refine Res.leaves.andThen (emit_leaves c s) ?_
  rintro _ u ⟨h, rfl⟩
  exact ⟨rfl, h, rfl⟩

/-- BD.OFFSET (R116, R117): a distance of at least 1; E_DECODE its only
fault; registers alone change. -/
theorem readOffset_leaves (s : State) :
    (readOffset s).leaves (fun d u => 1 ≤ d ∧ s.readsOnly u) (fun e u => e = .decode ∧ s.readsOnly u)
      (fun _ => False) := by
  refine Res.leaves.andThen (decodeSymbol_readsOnly .tOff s) ?_
  intro p u hu
  refine ⟨?_, hu.trans (u.consume_readsOnly _)⟩
  simp only [readDelta, distance]
  split
  · exact Nat.le_refl 1
  · exact Nat.le_add_left 1 _

/-- BD.MATCH (R114): the run length is what it produces; a fault leaves OUT, WIN and BD.produced as they were. -/
theorem matchUnit_leaves (c : Nat) (s : State) :
    (matchUnit c s).leaves (fun n u => n = runLength c ∧ ∃ v, s.readsOnly v ∧ v.writesOnly u)
      (fun e u => (e = .decode ∨ e = .badDistance ∨ e = .outputOverrun) ∧ s.readsOnly u) (fun _ => True) := by
  refine Res.leaves.andThen (ok := fun _ u => s.readsOnly u)
    ((readOffset_leaves s).mono (fun _ _ h => h.2) (fun _ _ h => ⟨.inl h.1, h.2⟩) (fun _ h => h.elim)) ?_
  intro d u hu
  refine Res.leaves.andThen (ok := fun _ w => u.writesOnly w)
    ((copy_leaves (runLength c) d u).mono (fun _ _ h => h.2.2) ?_ (fun _ h => h)) ?_
  · rintro e w ⟨rfl, ⟨he, _⟩ | ⟨he, _⟩⟩
    · exact ⟨.inr (.inl he), hu⟩
    · exact ⟨.inr (.inr he), hu⟩
  · intro _ w hw
    exact ⟨rfl, u, hu, hw⟩

/-- The unit of a decoded symbol (R112): 1 byte for a literal, the run length for a match. -/
theorem unitOfSymbol_leaves (c : Nat) (s : State) :
    (unitOfSymbol c s).leaves
      (fun n u => n = (if c ≤ Config.litMax then 1 else runLength c) ∧ ∃ v, s.readsOnly v ∧ v.writesOnly u)
      (fun e u => (e = .decode ∨ e = .badDistance ∨ e = .outputOverrun) ∧ s.readsOnly u) (fun _ => True) := by
  unfold unitOfSymbol
  split
  · refine (literal_leaves _ s).mono ?_ (fun _ _ h => h.elim) (fun _ _ => trivial)
    rintro n u ⟨rfl, _, rfl⟩
    exact ⟨rfl, s, s.readsOnly_refl, s.pushByte_writesOnly _⟩
  · exact matchUnit_leaves c s

/-- The faults of a unit (R112). -/
def unitFault (e : ErrCode) : Prop := subblockFault e ∨ e = .badDistance ∨ e = .outputOverrun

/-- BD.UNIT (R112): it decodes, then writes, then records its count and the next state; a fault leaves OUT, WIN,
BD.produced and BD.last_n as they were. -/
theorem bdUnit_leaves (s : State) :
    (bdUnit s).leaves (fun _ u => ∃ v w n, s.decodesOnly v ∧ v.writesOnly w ∧ u = w.finishUnit n)
      (fun e u => unitFault e ∧ s.decodesOnly u) (fun _ => True) := by
  refine Res.leaves.andThen (ok := fun _ u => s.decodesOnly u) ?_ ?_
  · unfold ensureSubblock
    split
    · exact (initSubblock_leaves s).mono (fun _ _ h => h) (fun _ _ h => ⟨.inl h.1, h.2⟩) (fun _ h => h.elim)
    · exact s.decodesOnly_refl
  · intro _ u hu
    have hu' : s.decodesOnly (u.setRemaining (u.remaining - 1)) := hu.trans (State.setRemaining_decodesOnly ..)
    refine Res.leaves.andThen (ok := fun _ v => s.decodesOnly v) ?_ ?_
    · refine (decodeSymbol_readsOnly .tLit _).mono (fun _ _ h => hu'.trans h.decodes) ?_ (fun _ h => h.elim)
      rintro e v ⟨he, h⟩
      exact ⟨.inl (by unfold subblockFault; tauto), hu'.trans h.decodes⟩
    · intro c v hv
      refine Res.leaves.andThen (ok := fun n w => ∃ y, s.decodesOnly y ∧ y.writesOnly w)
        ((unitOfSymbol_leaves c v).mono ?_ ?_ (fun _ h => h)) ?_
      · rintro n w ⟨_, y, hy, hw⟩
        exact ⟨y, hv.trans hy.decodes, hw⟩
      · rintro e w ⟨he, h⟩
        refine ⟨?_, hv.trans h.decodes⟩
        unfold unitFault subblockFault
        tauto
      · rintro n w ⟨y, hy, hw⟩
        exact ⟨y, w, n, hy, hw, rfl⟩

end Sys2Proof.Machine
end

