-- ==== Sys2Proof/Laws/PerInstr.lean ====
section
/-! SUPPORT. What is stated of every instruction as syntax: a unit operation is its own form, and a stream element under
tables of lengths up to 16 has at most 28 bits, so that the 32-bit look-ahead register shows it whole. -/

namespace Sys2Proof.Laws

set_option Elab.async false

open Sys2Proof.Machine

@[simp] theorem bitsOf_length (n v : Nat) : (bitsOf n v).length = n := by
  induction n with
  | zero => rfl
  | succ n ih => simp [bitsOf, ih]

theorem codeBits_length {n cb : Nat} (t : Table n cb) (h : t.lensOk) (s : Nat) : (codeBits t s).length ≤ 16 := by
  unfold codeBits
  split
  · exact Nat.zero_le _
  · simpa using h s

theorem codeBits_short {n cb : Nat} (t : Table n cb) (h : t.lensOk) (s : Nat) : (codeBits t s).length ≤ 28 :=
  (codeBits_length t h s).trans (by omega)

theorem word_field_short {n cb : Nat} (t : Table n cb) (h : t.lensOk) (s k v : Nat) (hk : k ≤ 12) :
    (codeBits t s ++ bitsOf k v).length ≤ 28 := by
  have := codeBits_length t h s
  simp only [List.length_append, bitsOf_length]
  omega

/-- A unit operation is its own form (30_encoding.md, opening); a stream element has at most 28 bits (R50, R67, R68). -/
def EncodingForm.Statement (i : Instr) : Prop :=
  (i.isOperation = true → ∀ x, encode x i = .operation i) ∧
    ∀ x : Tables, x.tLen.lensOk → x.tLit.lensOk → x.tOff.lensOk →
      ∀ bits, encode x i = .bits bits → bits.length ≤ 28

theorem of_operation {i : Instr} (h : ∀ x, encode x i = .operation i) : EncodingForm.Statement i :=
  ⟨fun _ => h, fun x _ _ _ bits hb => by rw [h x] at hb; cases hb⟩

theorem of_command {i : Instr} (hi : i.isOperation = false) (he : ∀ x bits, encode x i ≠ .bits bits) :
    EncodingForm.Statement i :=
  ⟨fun h => absurd h (by simp [hi]), fun x _ _ _ bits hb => absurd hb (he x bits)⟩

theorem of_bits {i : Instr} {f : Tables → List Bool} (hi : i.isOperation = false)
    (hf : ∀ x : Tables, x.tLen.lensOk → x.tLit.lensOk → x.tOff.lensOk → (f x).length ≤ 28)
    (he : ∀ x, encode x i = .bits (f x) := by intro _; rfl) : EncodingForm.Statement i :=
  ⟨fun h => absurd h (by simp [hi]), fun x h1 h2 h3 bits hb => by
    rw [he x] at hb
    cases hb
    exact hf x h1 h2 h3⟩

theorem EncodingForm.cmdReserved : EncodingForm.Statement .cmdReserved :=
  of_command rfl (fun _ _ h => nomatch h)

theorem EncodingForm.start (inSize outSize : Word) : EncodingForm.Statement (.start inSize outSize) :=
  of_command rfl (fun _ _ h => nomatch h)

theorem EncodingForm.step : EncodingForm.Statement .step :=
  of_command rfl (fun _ _ h => nomatch h)

theorem EncodingForm.run : EncodingForm.Statement .run :=
  of_command rfl (fun _ _ h => nomatch h)

theorem EncodingForm.read (no : BitVec 3) : EncodingForm.Statement (.read no) :=
  of_command rfl (fun _ _ h => nomatch h)

theorem EncodingForm.reset : EncodingForm.Statement .reset :=
  of_command rfl (fun _ _ h => nomatch h)

theorem EncodingForm.containerHeader (outSize inSize : Word) :
    EncodingForm.Statement (.containerHeader outSize inSize) :=
  of_command rfl (fun _ _ h => nomatch h)

theorem EncodingForm.subhdr (c : BitVec 16) : EncodingForm.Statement (.subhdr c) :=
  of_bits (f := fun _ => (bitsOf 16 c.toNat)) rfl
    fun _ _ _ _ => by simp [bitsOf_length]

theorem EncodingForm.count5 (n : BitVec 5) : EncodingForm.Statement (.count5 n) :=
  of_bits (f := fun _ => (bitsOf 5 n.toNat)) rfl
    fun _ _ _ _ => by simp [bitsOf_length]

theorem EncodingForm.count9 (n : BitVec 9) : EncodingForm.Statement (.count9 n) :=
  of_bits (f := fun _ => (bitsOf 9 n.toNat)) rfl
    fun _ _ _ _ => by simp [bitsOf_length]

theorem EncodingForm.count4 (n : BitVec 4) : EncodingForm.Statement (.count4 n) :=
  of_bits (f := fun _ => (bitsOf 4 n.toNat)) rfl
    fun _ _ _ _ => by simp [bitsOf_length]

theorem EncodingForm.degen5 (s : BitVec 5) : EncodingForm.Statement (.degen5 s) :=
  of_bits (f := fun _ => (bitsOf 5 s.toNat)) rfl
    fun _ _ _ _ => by simp [bitsOf_length]

theorem EncodingForm.degen9 (s : BitVec 9) : EncodingForm.Statement (.degen9 s) :=
  of_bits (f := fun _ => (bitsOf 9 s.toNat)) rfl
    fun _ _ _ _ => by simp [bitsOf_length]

theorem EncodingForm.degen4 (s : BitVec 4) : EncodingForm.Statement (.degen4 s) :=
  of_bits (f := fun _ => (bitsOf 4 s.toNat)) rfl
    fun _ _ _ _ => by simp [bitsOf_length]

theorem EncodingForm.hlenDirect (l : BitVec 3) : EncodingForm.Statement (.hlenDirect l) :=
  of_bits (f := fun _ => (bitsOf 3 l.toNat)) rfl
    fun _ _ _ _ => by simp [bitsOf_length]

theorem EncodingForm.hlenEsc7 : EncodingForm.Statement .hlenEsc7 :=
  of_bits (f := fun _ => (escapeBits 7)) rfl
    fun _ _ _ _ => by decide

theorem EncodingForm.hlenEsc8 : EncodingForm.Statement .hlenEsc8 :=
  of_bits (f := fun _ => (escapeBits 8)) rfl
    fun _ _ _ _ => by decide

theorem EncodingForm.hlenEsc9 : EncodingForm.Statement .hlenEsc9 :=
  of_bits (f := fun _ => (escapeBits 9)) rfl
    fun _ _ _ _ => by decide

theorem EncodingForm.hlenEsc10 : EncodingForm.Statement .hlenEsc10 :=
  of_bits (f := fun _ => (escapeBits 10)) rfl
    fun _ _ _ _ => by decide

theorem EncodingForm.hlenEsc11 : EncodingForm.Statement .hlenEsc11 :=
  of_bits (f := fun _ => (escapeBits 11)) rfl
    fun _ _ _ _ => by decide

theorem EncodingForm.hlenEsc12 : EncodingForm.Statement .hlenEsc12 :=
  of_bits (f := fun _ => (escapeBits 12)) rfl
    fun _ _ _ _ => by decide

theorem EncodingForm.hlenEsc13 : EncodingForm.Statement .hlenEsc13 :=
  of_bits (f := fun _ => (escapeBits 13)) rfl
    fun _ _ _ _ => by decide

theorem EncodingForm.hlenEsc14 : EncodingForm.Statement .hlenEsc14 :=
  of_bits (f := fun _ => (escapeBits 14)) rfl
    fun _ _ _ _ => by decide

theorem EncodingForm.hlenEsc15 : EncodingForm.Statement .hlenEsc15 :=
  of_bits (f := fun _ => (escapeBits 15)) rfl
    fun _ _ _ _ => by decide

theorem EncodingForm.hlenEsc16 : EncodingForm.Statement .hlenEsc16 :=
  of_bits (f := fun _ => (escapeBits 16)) rfl
    fun _ _ _ _ => by decide

theorem EncodingForm.hlenIllegal : EncodingForm.Statement .hlenIllegal :=
  of_bits (f := fun _ => (List.replicate 13 true)) rfl
    fun _ _ _ _ => by decide

theorem EncodingForm.hskip (k : BitVec 2) : EncodingForm.Statement (.hskip k) :=
  of_bits (f := fun _ => (bitsOf 2 k.toNat)) rfl
    fun _ _ _ _ => by simp [bitsOf_length]

theorem EncodingForm.clZero : EncodingForm.Statement .clZero :=
  of_bits (f := fun y => (codeBits y.tLen 0)) rfl
    fun y h _ _ => codeBits_short y.tLen h _

theorem EncodingForm.clZrun4 (x : BitVec 4) : EncodingForm.Statement (.clZrun4 x) :=
  of_bits (f := fun y => (codeBits y.tLen 1 ++ bitsOf 4 x.toNat)) rfl
    fun y h _ _ => word_field_short y.tLen h _ 4 _ (by omega)

theorem EncodingForm.clZrun9 (x : BitVec 9) : EncodingForm.Statement (.clZrun9 x) :=
  of_bits (f := fun y => (codeBits y.tLen 2 ++ bitsOf 9 x.toNat)) rfl
    fun y h _ _ => word_field_short y.tLen h _ 9 _ (by omega)

theorem EncodingForm.clLen (v : BitVec 5) : EncodingForm.Statement (.clLen v) :=
  of_bits (f := fun y => (codeBits y.tLen v.toNat)) rfl
    fun y h _ _ => codeBits_short y.tLen h _

theorem EncodingForm.lit (c : Byte) : EncodingForm.Statement (.lit c) :=
  of_bits (f := fun y => (codeBits y.tLit c.toNat)) rfl
    fun y _ h _ => codeBits_short y.tLit h _

theorem EncodingForm.matchSym (c : BitVec 9) : EncodingForm.Statement (.matchSym c) :=
  of_bits (f := fun y => (codeBits y.tLit c.toNat)) rfl
    fun y _ h _ => codeBits_short y.tLit h _

theorem EncodingForm.off0 : EncodingForm.Statement .off0 :=
  of_bits (f := fun y => (offBits y 0 0)) rfl
    fun y _ _ h => word_field_short y.tOff h _ 0 _ (by omega)

theorem EncodingForm.off1 : EncodingForm.Statement .off1 :=
  of_bits (f := fun y => (offBits y 1 0)) rfl
    fun y _ _ h => word_field_short y.tOff h _ 0 _ (by omega)

theorem EncodingForm.off2 (d : BitVec 1) : EncodingForm.Statement (.off2 d) :=
  of_bits (f := fun y => (offBits y 2 d.toNat)) rfl
    fun y _ _ h => word_field_short y.tOff h _ 1 _ (by omega)

theorem EncodingForm.off3 (d : BitVec 2) : EncodingForm.Statement (.off3 d) :=
  of_bits (f := fun y => (offBits y 3 d.toNat)) rfl
    fun y _ _ h => word_field_short y.tOff h _ 2 _ (by omega)

theorem EncodingForm.off4 (d : BitVec 3) : EncodingForm.Statement (.off4 d) :=
  of_bits (f := fun y => (offBits y 4 d.toNat)) rfl
    fun y _ _ h => word_field_short y.tOff h _ 3 _ (by omega)

theorem EncodingForm.off5 (d : BitVec 4) : EncodingForm.Statement (.off5 d) :=
  of_bits (f := fun y => (offBits y 5 d.toNat)) rfl
    fun y _ _ h => word_field_short y.tOff h _ 4 _ (by omega)

theorem EncodingForm.off6 (d : BitVec 5) : EncodingForm.Statement (.off6 d) :=
  of_bits (f := fun y => (offBits y 6 d.toNat)) rfl
    fun y _ _ h => word_field_short y.tOff h _ 5 _ (by omega)

theorem EncodingForm.off7 (d : BitVec 6) : EncodingForm.Statement (.off7 d) :=
  of_bits (f := fun y => (offBits y 7 d.toNat)) rfl
    fun y _ _ h => word_field_short y.tOff h _ 6 _ (by omega)

theorem EncodingForm.off8 (d : BitVec 7) : EncodingForm.Statement (.off8 d) :=
  of_bits (f := fun y => (offBits y 8 d.toNat)) rfl
    fun y _ _ h => word_field_short y.tOff h _ 7 _ (by omega)

theorem EncodingForm.off9 (d : BitVec 8) : EncodingForm.Statement (.off9 d) :=
  of_bits (f := fun y => (offBits y 9 d.toNat)) rfl
    fun y _ _ h => word_field_short y.tOff h _ 8 _ (by omega)

theorem EncodingForm.off10 (d : BitVec 9) : EncodingForm.Statement (.off10 d) :=
  of_bits (f := fun y => (offBits y 10 d.toNat)) rfl
    fun y _ _ h => word_field_short y.tOff h _ 9 _ (by omega)

theorem EncodingForm.off11 (d : BitVec 10) : EncodingForm.Statement (.off11 d) :=
  of_bits (f := fun y => (offBits y 11 d.toNat)) rfl
    fun y _ _ h => word_field_short y.tOff h _ 10 _ (by omega)

theorem EncodingForm.off12 (d : BitVec 11) : EncodingForm.Statement (.off12 d) :=
  of_bits (f := fun y => (offBits y 12 d.toNat)) rfl
    fun y _ _ h => word_field_short y.tOff h _ 11 _ (by omega)

theorem EncodingForm.off13 (d : BitVec 12) : EncodingForm.Statement (.off13 d) :=
  of_bits (f := fun y => (offBits y 13 d.toNat)) rfl
    fun y _ _ h => word_field_short y.tOff h _ 12 _ (by omega)

theorem EncodingForm.pad : EncodingForm.Statement .pad :=
  of_bits (f := fun _ => []) rfl
    fun _ _ _ _ => by decide

theorem EncodingForm.brInit : EncodingForm.Statement .brInit :=
  of_operation fun _ => rfl

theorem EncodingForm.brIngest (n : Fin 33) : EncodingForm.Statement (.brIngest n) :=
  of_operation fun _ => rfl

theorem EncodingForm.brGet (n : Fin 33) : EncodingForm.Statement (.brGet n) :=
  of_operation fun _ => rfl

theorem EncodingForm.ctClear (t : TableId) : EncodingForm.Statement (.ctClear t) :=
  of_operation fun _ => rfl

theorem EncodingForm.ctCount (t : TableId) : EncodingForm.Statement (.ctCount t) :=
  of_operation fun _ => rfl

theorem EncodingForm.ctDegen (t : TableId) : EncodingForm.Statement (.ctDegen t) :=
  of_operation fun _ => rfl

theorem EncodingForm.ctHlen : EncodingForm.Statement .ctHlen :=
  of_operation fun _ => rfl

theorem EncodingForm.ctHskip (t : TableId) (i : Nat) : EncodingForm.Statement (.ctHskip t i) :=
  of_operation fun _ => rfl

theorem EncodingForm.ctInitHybrid (t : TableId) (skip : Option Nat) : EncodingForm.Statement (.ctInitHybrid t skip) :=
  of_operation fun _ => rfl

theorem EncodingForm.ctInitCoded (t d : TableId) : EncodingForm.Statement (.ctInitCoded t d) :=
  of_operation fun _ => rfl

theorem EncodingForm.ctAssign (t : TableId) : EncodingForm.Statement (.ctAssign t) :=
  of_operation fun _ => rfl

theorem EncodingForm.ctDecode (t : TableId) : EncodingForm.Statement (.ctDecode t) :=
  of_operation fun _ => rfl

theorem EncodingForm.bdInitSubblock : EncodingForm.Statement .bdInitSubblock :=
  of_operation fun _ => rfl

theorem EncodingForm.bdUnit : EncodingForm.Statement .bdUnit :=
  of_operation fun _ => rfl

theorem EncodingForm.bdLiteral (c : Byte) : EncodingForm.Statement (.bdLiteral c) :=
  of_operation fun _ => rfl

theorem EncodingForm.bdMatch (c : BitVec 9) : EncodingForm.Statement (.bdMatch c) :=
  of_operation fun _ => rfl

theorem EncodingForm.bdOffset : EncodingForm.Statement .bdOffset :=
  of_operation fun _ => rfl

theorem EncodingForm.lzEmit (b : Byte) : EncodingForm.Statement (.lzEmit b) :=
  of_operation fun _ => rfl

theorem EncodingForm.lzCopy (runLength : BitVec 9) (distance : BitVec 14) :
    EncodingForm.Statement (.lzCopy runLength distance) :=
  of_operation fun _ => rfl

theorem EncodingForm.raise (e : ErrCode) : EncodingForm.Statement (.raise e) :=
  of_operation fun _ => rfl

end Sys2Proof.Laws
end

