-- ==== Sys2Proof/Laws/Soundness.lean ====
section
/-! SUPPORT. How a concrete table is shown sound (Safety.lean): its finitely many entries are checked. -/

namespace Sys2Proof.Machine

set_option Elab.async false

variable {n cb : Nat}

/-- Every length is at most 16 if those of the alphabet are. -/
theorem Table.lensOk_of_entries (t : Table n cb) (h : ∀ a, a < n → t.lenAt a ≤ 16) : t.lensOk := by
  intro a
  by_cases ha : a < n
  · exact h a ha
  · rw [t.lenAt_past (by omega)]
    exact Nat.zero_le _

/-- The code is prefix-free if the words of the alphabet's symbols are. -/
theorem Table.prefixFree_of_entries (t : Table n cb)
    (h1 : ∀ a, a < n → t.lenAt a ≠ 0 → t.codeAt a < 2 ^ t.lenAt a)
    (h2 : ∀ a, a < n → ∀ b, b < n → ¬(a ≠ b ∧ t.lenAt a ≠ 0 ∧ t.lenAt a ≤ t.lenAt b ∧
      t.codeAt b / 2 ^ (t.lenAt b - t.lenAt a) = t.codeAt a)) : t.prefixFree := by
  have past : ∀ a, t.lenAt a ≠ 0 → a < n := by
    intro a h
    by_contra hn
    exact h (t.lenAt_past (by omega))
  refine ⟨fun a h => h1 a (past a h) h, fun a b hne h hl he => h2 a (past a h) b (past b ?_) ⟨hne, h, hl, he⟩⟩
  omega

/-- A degenerate table spells its shortcut symbol. -/
theorem Table.spells_shortcut (t : Table n cb) (s : Nat) (h : t.sv = true) (hs : t.ss.toNat = s) (hn : s < n) :
    t.spells s := by
  unfold Table.spells Table.sound
  rw [if_pos h, if_pos h]
  exact ⟨by omega, hs⟩

/-- A table with a code is sound if its lengths and its code are. -/
theorem Table.sound_of_code (t : Table n cb) (h : t.sv = false) (hl : t.lensOk) (hp : t.prefixFree) : t.sound := by
  unfold Table.sound
  rw [if_neg (by simp [h])]
  exact ⟨hl, hp⟩

/-- A sound table with a code spells a symbol that has a length. -/
theorem Table.spells_word (t : Table n cb) (s : Nat) (h : t.sv = false) (ht : t.sound) (hs : t.lenAt s ≠ 0) :
    t.spells s := by
  refine ⟨ht, ?_⟩
  rw [if_neg (by simp [h])]
  exact hs

end Sys2Proof.Machine
end

