-- ==== Sys2Proof/Tests/Slice0.lean ====
section
/-! SUPPORT. Tests: what the well-formedness check refuses; the words of every instruction, written out from the spec's
encodings, decoded; single steps with the results of 95_test_vectors.md; and for every statement of
Sys2Proof/Certificates/Slice0/Obligations.lean that has hypotheses a state and operands that meet them. -/

namespace Sys2Proof.Tests

-- One theorem after the other: each check by `decide` holds a thread of Lean's.
set_option Elab.async false

open Sys2Proof.Machine

/-! ## Helpers -/

/-- The engine after START on a block of these bytes (44_host_commands.md R141). -/
def started (bytes : List Byte) (outSize : Nat) : State :=
  startBlock (BitVec.ofNat 32 bytes.length) (BitVec.ofNat 32 outSize)
    { State.reset with inp := Mem.ofBytes .inp 0 bytes }

/-- The engine after START on a block whose stream begins with these bits. -/
def onBits (bits : List Bool) (outSize : Nat) : State := started (bytesOfBits bits) outSize

/-- A property of the next state, which there is. -/
def gives (o : Host.Outcome State Fault Refusal) (p : State → Bool) : Bool :=
  match o with
  | .next t => p t
  | _ => false

/-- The code table in which these symbols have these lengths, and every other symbol 0 (41_codetable.md R102). -/
def codeOf (n cb : Nat) (lens : List (Nat × Nat)) : Table n cb :=
  (lens.foldl (fun t p => t.setLen p.1 p.2) (Table.zero n cb)).withCodes

/-- The degenerate table of this symbol (R92). -/
def onlySymbol (n cb : Nat) (s : Nat) : Table n cb := (Table.zero n cb).setShortcut s

/-- `T_LEN` of vector V20: codes `0:00, 1:01, 2:10, 4:11`. -/
def lenV20 : Table 19 5 := codeOf 19 5 [(0, 2), (1, 2), (2, 2), (4, 2)]

/-- `T_LIT` of program P2: codes `65:0, 258:1`. -/
def litP2 : Table 510 9 := codeOf 510 9 [(65, 1), (258, 1)]

/-- `T_OFF` of vector V11: the code of class p is p ones and a zero; 13 ones for class 13. -/
def offV11 : Table 14 4 := codeOf 14 4 [(0, 1), (1, 2), (2, 3), (3, 4), (4, 5), (5, 6), (6, 7), (7, 8), (8, 9), (9, 10), (10, 11),
  (11, 12), (12, 13), (13, 13)]

/-- The tables in force in the tests below. -/
def tables : Tables := ⟨lenV20, litP2, offV11⟩

/-! ## What the well-formedness check refuses -/

theorem test_wf_refuses_read_cmd : (Instr.read 7#3).wf = false := by decide

theorem test_wf_refuses_hlen_direct_7 : (Instr.hlenDirect 7#3).wf = false := by decide

theorem test_wf_refuses_cl_len_2 : (Instr.clLen 2#5).wf = false := by decide

theorem test_wf_refuses_cl_len_19 : (Instr.clLen 19#5).wf = false := by decide

theorem test_wf_refuses_match_of_literal : (Instr.matchSym 255#9).wf = false := by decide

theorem test_wf_refuses_match_past_alphabet : (Instr.matchSym 510#9).wf = false := by decide

theorem test_wf_refuses_hskip_past : (Instr.ctHskip .tLen 20).wf = false := by decide

theorem test_wf_refuses_hybrid_skip_past : (Instr.ctInitHybrid .tOff (some 14)).wf = false := by decide

theorem test_wf_refuses_coded_by_itself : (Instr.ctInitCoded .tLen .tLen).wf = false := by decide

theorem test_wf_refuses_coded_decoder : (Instr.ctInitCoded .tOff .tLit).wf = false := by decide

theorem test_wf_refuses_bd_match_of_literal : (Instr.bdMatch 255#9).wf = false := by decide

theorem test_wf_refuses_bd_match_past_alphabet : (Instr.bdMatch 510#9).wf = false := by decide

theorem test_wf_refuses_copy_run_2 : (Instr.lzCopy 2#9 1#14).wf = false := by decide

theorem test_wf_refuses_copy_run_257 : (Instr.lzCopy 257#9 1#14).wf = false := by decide

theorem test_wf_refuses_copy_distance_0 : (Instr.lzCopy 3#9 0#14).wf = false := by decide

theorem test_wf_refuses_copy_distance_8193 : (Instr.lzCopy 3#9 8193#14).wf = false := by decide

theorem test_decode_refuses_ill_formed :
    decode .none noTables (.operation (.lzCopy 2#9 1#14)) = .error .operandRange := by
  decide

/-- K4 as a delivered header: the container is malformed, no output is kept, the engine is not started. -/
theorem test_step_bad_marker :
    gives (step (State.reset.setHost { State.reset.host with output := [1] } |>.setPort
        [.deliver (.header [0x4C, 0x5A, 0x32, 0x6B, 5, 0, 0, 0, 12, 0, 0, 0])]))
      (fun t => t.host.malformed && t.host.output == [] && t.st == .idle && t.port == []) = true := by decide +kernel

/-- Stream bits delivered where no element is parsed (R140). -/
theorem test_step_bits_between_commands :
    step (State.reset.setPort [.deliver (.bits [true])]) = .next State.reset := rfl

/-- K4: the fourth byte is a lower-case k. -/
theorem test_decode_refuses_marker :
    decodeHeader [0x4C, 0x5A, 0x32, 0x6B, 5, 0, 0, 0, 12, 0, 0, 0] = .error .badMarker := by decide

/-- K3: eleven bytes. -/
theorem test_decode_refuses_short : decodeHeader [0x4C, 0x5A, 0x32, 0x4B, 5, 0, 0, 0, 12, 0, 0] = .error .shortHeader := by
  decide

/-! ## Every instruction's word, from 30_encoding.md -/

/-- R71: the four command codes. -/
theorem test_decode_commands :
    decode .none tables (.command 0#2 7 9) = .ok .cmdReserved ∧ decode .none tables (.command 1#2 7 9) = .ok (.start 7 9) ∧
      decode .none tables (.command 2#2 7 9) = .ok .step ∧ decode .none tables (.command 3#2 7 9) = .ok .run := ⟨rfl, rfl, rfl, rfl⟩

/-- R25, R190. -/
theorem test_decode_read_reset :
    decode .none tables (.read 4#3) = .ok (.read 4) ∧ decode .none tables .reset = .ok .reset := ⟨rfl, rfl⟩

/-- K2's second header (R66): outputSize 6, inputSize 10. -/
theorem test_decode_header :
    decode .none tables (.header [0x4C, 0x5A, 0x32, 0x4B, 6, 0, 0, 0, 0x0A, 0, 0, 0]) = .ok (.containerHeader 6 10) := by
  decide

/-- The sizes are little-endian (R38). -/
theorem test_decode_header_bytes :
    decode .none tables (.header [0x4C, 0x5A, 0x32, 0x4B, 1, 2, 3, 4, 5, 6, 7, 8]) =
      .ok (.containerHeader 0x04030201 0x08070605) := by
  decide

/-- P2: `SUBHDR 2` (R52). -/
theorem test_decode_subhdr :
    decode (.subhdr) tables (.bits [false, false, false, false, false, false, false, false, false, false, false, false, false, false, true, false]) =
      .ok (.subhdr 2) := by decide +kernel

/-- V10: `COUNT = 5` (R53). -/
theorem test_decode_count5 :
    decode (.count .tLen) tables (.bits [false, false, true, false, true]) =
      .ok (.count5 5) := by decide +kernel

/-- V20: `COUNT = 8` (R53). -/
theorem test_decode_count9 :
    decode (.count .tLit) tables (.bits [false, false, false, false, false, true, false, false, false]) =
      .ok (.count9 8) := by decide +kernel

/-- V11: `COUNT = 14` (R53). -/
theorem test_decode_count4 :
    decode (.count .tOff) tables (.bits [true, true, true, false]) =
      .ok (.count4 14) := by decide +kernel

/-- V14: `DEGEN = 18` (R54). -/
theorem test_decode_degen5 :
    decode (.degen .tLen) tables (.bits [true, false, false, true, false]) =
      .ok (.degen5 18) := by decide +kernel

/-- P5: `DEGEN.9 90` (R54). -/
theorem test_decode_degen9 :
    decode (.degen .tLit) tables (.bits [false, false, true, false, true, true, false, true, false]) =
      .ok (.degen9 90) := by decide +kernel

/-- V14: `DEGEN = 13` (R54). -/
theorem test_decode_degen4 :
    decode (.degen .tOff) tables (.bits [true, true, false, true]) =
      .ok (.degen4 13) := by decide +kernel

/-- R55: `110` is length 6. -/
theorem test_decode_hlen_direct :
    decode (.hlen .tLen ⟨1, 0, 0⟩) tables (.bits [true, true, false]) =
      .ok (.hlenDirect 6) := by decide +kernel

/-- R56's table. -/
theorem test_decode_hlen_esc7 :
    decode (.hlen .tOff ⟨1, 0, 0⟩) tables (.bits [true, true, true, false]) =
      .ok (.hlenEsc7) := by decide +kernel

/-- R56's table. -/
theorem test_decode_hlen_esc8 :
    decode (.hlen .tOff ⟨1, 0, 0⟩) tables (.bits [true, true, true, true, false]) =
      .ok (.hlenEsc8) := by decide +kernel

/-- R56's table. -/
theorem test_decode_hlen_esc9 :
    decode (.hlen .tOff ⟨1, 0, 0⟩) tables (.bits [true, true, true, true, true, false]) =
      .ok (.hlenEsc9) := by decide +kernel

/-- R56's table. -/
theorem test_decode_hlen_esc10 :
    decode (.hlen .tOff ⟨1, 0, 0⟩) tables (.bits [true, true, true, true, true, true, false]) =
      .ok (.hlenEsc10) := by decide +kernel

/-- R56's table. -/
theorem test_decode_hlen_esc11 :
    decode (.hlen .tOff ⟨1, 0, 0⟩) tables (.bits [true, true, true, true, true, true, true, false]) =
      .ok (.hlenEsc11) := by decide +kernel

/-- R56's table. -/
theorem test_decode_hlen_esc12 :
    decode (.hlen .tOff ⟨1, 0, 0⟩) tables (.bits [true, true, true, true, true, true, true, true, false]) =
      .ok (.hlenEsc12) := by decide +kernel

/-- R56's table. -/
theorem test_decode_hlen_esc13 :
    decode (.hlen .tOff ⟨1, 0, 0⟩) tables (.bits [true, true, true, true, true, true, true, true, true, false]) =
      .ok (.hlenEsc13) := by decide +kernel

/-- R56's table. -/
theorem test_decode_hlen_esc14 :
    decode (.hlen .tOff ⟨1, 0, 0⟩) tables (.bits [true, true, true, true, true, true, true, true, true, true, false]) =
      .ok (.hlenEsc14) := by decide +kernel

/-- R56's table. -/
theorem test_decode_hlen_esc15 :
    decode (.hlen .tOff ⟨1, 0, 0⟩) tables (.bits [true, true, true, true, true, true, true, true, true, true, true, false]) =
      .ok (.hlenEsc15) := by decide +kernel

/-- R56's table. -/
theorem test_decode_hlen_esc16 :
    decode (.hlen .tOff ⟨1, 0, 0⟩) tables (.bits [true, true, true, true, true, true, true, true, true, true, true, true, false]) =
      .ok (.hlenEsc16) := by decide +kernel

/-- R72: ten ones after `111`. -/
theorem test_decode_hlen_illegal :
    decode (.hlen .tOff ⟨1, 0, 0⟩) tables (.bits [true, true, true, true, true, true, true, true, true, true, true, true, true]) =
      .ok (.hlenIllegal) := by decide +kernel

/-- V19: `10` (R57). -/
theorem test_decode_hskip :
    decode (.hskip .tLen ⟨3, 3, 3⟩) tables (.bits [true, false]) =
      .ok (.hskip 2) := by decide +kernel

/-- V20: `00` (R59). -/
theorem test_decode_cl_zero :
    decode (.cl ⟨8, 70, 1⟩) tables (.bits [false, false]) =
      .ok (.clZero) := by decide +kernel

/-- V20: `01` and extra `0000`; here extra `0101` (R60). -/
theorem test_decode_cl_zrun4 :
    decode (.cl ⟨8, 73, 4⟩) tables (.bits [false, true, false, true, false, true]) =
      .ok (.clZrun4 5) := by decide +kernel

/-- V20: `10` and extra `000110001` (R61). -/
theorem test_decode_cl_zrun9 :
    decode (.cl ⟨8, 0, 0⟩) tables (.bits [true, false, false, false, false, true, true, false, false, false, true]) =
      .ok (.clZrun9 49) := by decide +kernel

/-- V20: `11`, v = 4 (R62). -/
theorem test_decode_cl_len :
    decode (.cl ⟨8, 69, 0⟩) tables (.bits [true, true]) =
      .ok (.clLen 4) := by decide +kernel

/-- P2: `0` is symbol 65 (R63). -/
theorem test_decode_lit :
    decode (.unit) tables (.bits [false]) =
      .ok (.lit 0x41) := by decide +kernel

/-- P2: `1` is symbol 258 (R64). -/
theorem test_decode_match :
    decode (.unit) tables (.bits [true]) =
      .ok (.matchSym 258) := by decide +kernel

/-- R65 with V11's code for class 0. -/
theorem test_decode_off0 :
    decode (.off 258) tables (.bits [false]) =
      .ok (.off0) := by decide +kernel

/-- R65 with V11's code for class 1. -/
theorem test_decode_off1 :
    decode (.off 258) tables (.bits [true, false]) =
      .ok (.off1) := by decide +kernel

/-- R65 with V11's code for class 2. -/
theorem test_decode_off2 :
    decode (.off 258) tables (.bits [true, true, false, true]) =
      .ok (.off2 1) := by decide +kernel

/-- R65 with V11's code for class 3. -/
theorem test_decode_off3 :
    decode (.off 258) tables (.bits [true, true, true, false, false, true]) =
      .ok (.off3 1) := by decide +kernel

/-- R65 with V11's code for class 4. -/
theorem test_decode_off4 :
    decode (.off 258) tables (.bits [true, true, true, true, false, false, false, true]) =
      .ok (.off4 1) := by decide +kernel

/-- R65 with V11's code for class 5. -/
theorem test_decode_off5 :
    decode (.off 258) tables (.bits [true, true, true, true, true, false, false, false, false, true]) =
      .ok (.off5 1) := by decide +kernel

/-- R65 with V11's code for class 6. -/
theorem test_decode_off6 :
    decode (.off 258) tables (.bits [true, true, true, true, true, true, false, false, false, false, false, true]) =
      .ok (.off6 1) := by decide +kernel

/-- R65 with V11's code for class 7. -/
theorem test_decode_off7 :
    decode (.off 258) tables (.bits [true, true, true, true, true, true, true, false, false, false, false, false, false, true]) =
      .ok (.off7 1) := by decide +kernel

/-- R65 with V11's code for class 8. -/
theorem test_decode_off8 :
    decode (.off 258) tables (.bits [true, true, true, true, true, true, true, true, false, false, false, false, false, false, false, true]) =
      .ok (.off8 1) := by decide +kernel

/-- R65 with V11's code for class 9. -/
theorem test_decode_off9 :
    decode (.off 258) tables (.bits [true, true, true, true, true, true, true, true, true, false, false, false, false, false, false, false, false, true]) =
      .ok (.off9 1) := by decide +kernel

/-- R65 with V11's code for class 10. -/
theorem test_decode_off10 :
    decode (.off 258) tables (.bits [true, true, true, true, true, true, true, true, true, true, false, false, false, false, false, false, false, false, false, true]) =
      .ok (.off10 1) := by decide +kernel

/-- R65 with V11's code for class 11. -/
theorem test_decode_off11 :
    decode (.off 258) tables (.bits [true, true, true, true, true, true, true, true, true, true, true, false, false, false, false, false, false, false, false, false, false, true]) =
      .ok (.off11 1) := by decide +kernel

/-- R65 with V11's code for class 12. -/
theorem test_decode_off12 :
    decode (.off 258) tables (.bits [true, true, true, true, true, true, true, true, true, true, true, true, false, false, false, false, false, false, false, false, false, false, false, true]) =
      .ok (.off12 1) := by decide +kernel

/-- R65 with V11's code for class 13. -/
theorem test_decode_off13 :
    decode (.off 258) tables (.bits [true, true, true, true, true, true, true, true, true, true, true, true, true, true, false, false, false, false, false, false, false, false, false, true, true]) =
      .ok (.off13 2051) := by decide +kernel

/-- R70: padding has no bits of its own. -/
theorem test_decode_pad : decode .pad tables (.bits [true, false]) = .ok .pad := rfl

/-- The unit operations have no encoding and are invoked by name (30_encoding.md, opening). -/
theorem test_decode_operations :
    ∀ i, i ∈ ([.brInit, .brIngest 7, .brGet 32, .ctClear .tLen, .ctCount .tLit, .ctDegen .tOff, .ctHlen, .ctHskip .tLen 3,
      .ctInitHybrid .tLen (some 3), .ctInitCoded .tLit .tLen, .ctAssign .tOff, .ctDecode .tLit, .bdInitSubblock, .bdUnit,
      .bdLiteral 0x48, .bdMatch 258, .bdOffset, .lzEmit 0x7A, .lzCopy 6 3, .raise .decode] : List Instr) →
      decode .none tables (.operation i) = .ok i := by decide

/-- The fixed words of the opcode table. -/
theorem test_table_words :
    decodeTableWord 2 0 = some .cmdReserved ∧ decodeTableWord 2 1 = some (.start 0 0) ∧ decodeTableWord 2 2 = some .step ∧
      decodeTableWord 2 3 = some .run ∧ decodeTableWord 8 254 = some .hlenEsc11 := by decide +kernel

/-- R72: no code word of this table begins so. -/
theorem test_decode_no_code_word :
    decode (.cl ⟨1, 0, 0⟩) ⟨codeOf 19 5 [(0, 1)], litP2, offV11⟩ (.bits [true]) =
      .error .noCodeWord := by decide +kernel
/-! ## Single steps, with the results of 95_test_vectors.md -/

/-- The bytes of program P1, P2, P4. -/
def bytesP1 : List Byte := [0x00, 0x05, 0x22, 0x49, 0x40, 0x88, 0x63, 0x86, 0x86, 0x18, 0x02, 0x56]
def bytesP2 : List Byte := [0x00, 0x02, 0x20, 0x04, 0x20, 0x20, 0xB6, 0x56, 0x40, 0x10]
def bytesP4 : List Byte := [0x00, 0x03]

/-- The bytes of OUT from address 0 on. -/
def outBytes (s : State) (n : Nat) : List (Option Byte) := (List.range n).map s.readOut

/-- What a bit reader shows: its register, cursor, bytes left, bits used, position. -/
def reader (s : State) : Nat × Nat × Nat × Nat × Nat :=
  (s.br.reg.toNat, s.br.ptr.toNat, s.br.rem.toNat, s.br.used.toNat, s.br.pos)

/-- The bytes of OUT that hold a string from address 0 on, with WIN alike and BD.produced behind it. -/
def withOutput (s : State) (bytes : List Byte) : State :=
  { s with out := Mem.ofBytes .out 0 bytes, win := Mem.ofBytes .win 0 bytes, produced := BitVec.ofNat 32 bytes.length }

/-- 95, commands after reset: `CMD = 00` faults with code 9. -/
theorem test_cmd_reserved :
    gives (exec (.cmdReserved) (State.reset)) (fun t => t.st == .fault && t.err == 9) = true := by decide +kernel

/-- In FAULT with code 2 it changes nothing (R148). -/
theorem test_cmd_reserved_in_fault :
    gives (exec (.cmdReserved) ({ State.reset with st := .fault, err := 2 })) (fun t => t.st == .fault && t.err == 2) = true := by decide +kernel

/-- P2's start state: AWAIT, reg 00022004, ptr 4, rem 6. -/
theorem test_start :
    gives (exec (.start 10 6) ({ State.reset with inp := Mem.ofBytes .inp 0 bytesP2, st := .fault, err := 3, remaining := 7 })) (fun t => t.st == .await && t.err == 0 && reader t == (0x00022004, 4, 6, 0, 0) && t.remaining == 0) = true := by decide +kernel

/-- `START(0, 0)` is DONE at once. -/
theorem test_start_empty :
    gives (exec (.start 0 0) (State.reset)) (fun t => t.st == .done && t.produced == 0) = true := by decide +kernel

/-- P2, first STEP. -/
theorem test_step_first :
    gives (exec (.step) (started bytesP2 6)) (fun t => t.st == .decoding && t.produced == 1 && t.lastN == 1 && t.remaining == 1 && reader t == (0x80000000, 10, 0, 3, 75)) = true := by decide +kernel

/-- F9: a STEP in DONE is E_PROTOCOL. -/
theorem test_step_done :
    gives (exec (.step) ({ State.reset with st := .done })) (fun t => t.st == .fault && t.err == 9) = true := by decide +kernel

/-- P1: five literals. -/
theorem test_run_P1 :
    gives (exec (.run) (started bytesP1 5)) (fun t => t.st == .done && outBytes t 5 == [some 0x48, some 0x45, some 0x4C, some 0x4C, some 0x4F] && t.br.pos == 95) = true := by decide +kernel

/-- P4: zero padding only. -/
theorem test_run_P4 :
    gives (exec (.run) (started bytesP4 3)) (fun t => t.st == .done && outBytes t 3 == [some 0, some 0, some 0] && t.br.pos == 52) = true := by decide +kernel

/-- STATUS in DONE: state 3 and the done bit (R25). -/
theorem test_read_status :
    gives (exec (.read 0) ({ State.reset with st := .done })) (fun t => t.readData == 11) = true := by decide +kernel

/-- LAST_N reads bits 8..0 (R25). -/
theorem test_read_last_n :
    gives (exec (.read 5) ({ State.reset with lastN := 256 })) (fun t => t.readData == 256) = true := by decide +kernel

/-- R190: IDLE, no fault, OUT untouched. -/
theorem test_reset :
    gives (exec (.reset) (withOutput { State.reset with st := .fault, err := 4 } [0x61])) (fun t => t.st == .idle && t.err == 0 && t.readOut 0 == some 0x61 && t.readWin 0 == none) = true := by decide +kernel

/-- K1: the source's end-to-end scenario. -/
theorem test_container_K1 :
    gives (exec (.containerHeader 5 12) (State.reset.setHost { State.reset.host with file := [0x4C, 0x5A, 0x32, 0x4B, 5, 0, 0, 0, 12, 0, 0, 0] ++ bytesP1 })) (fun t => t.host.output == [0x48, 0x45, 0x4C, 0x4C, 0x4F] && t.host.cursor == 24 && t.host.reports == []) = true := by decide +kernel

/-- K5: a byte is missing; no output is salvaged. -/
theorem test_container_K5 :
    gives (exec (.containerHeader 5 12) (State.reset.setHost { State.reset.host with file := [0x4C, 0x5A, 0x32, 0x4B, 5, 0, 0, 0, 12, 0, 0, 0] ++ bytesP1.take 11, output := [0x48] })) (fun t => t.host.malformed && t.host.output == [] && t.st == .idle) = true := by decide +kernel

/-- P2: `SUBHDR 2`. -/
theorem test_subhdr :
    gives (exec (.subhdr 2) ({ onBits [false, false, false, false, false, false, false, false, false, false, false, false, false, false, true, false] 6 with site := .subhdr, tabs := tables })) (fun t => t.remaining == 2 && t.br.pos == 16 && t.site == .count .tLen && t.tabs.tLen.lenAt 0 == 0) = true := by decide +kernel

/-- F7: a count of 0. -/
theorem test_subhdr_empty :
    gives (exec (.subhdr 0) ({ onBits [false, false, false, false, false, false, false, false, false, false, false, false, false, false, false, false] 6 with site := .subhdr, tabs := tables })) (fun t => t.st == .fault && t.err == 7 && t.br.pos == 16) = true := by decide +kernel

/-- V10: `COUNT = 5`. -/
theorem test_count5 :
    gives (exec (.count5 5) ({ onBits [false, false, true, false, true] 6 with site := .count .tLen, tabs := tables })) (fun t => t.tabs.tLen.used == 5 && t.br.pos == 5 && t.site == .hlen .tLen ⟨5, 0, 0⟩) = true := by decide +kernel

/-- V20: `COUNT = 8`. -/
theorem test_count9 :
    gives (exec (.count9 8) ({ onBits [false, false, false, false, false, true, false, false, false] 6 with site := .count .tLit, tabs := tables })) (fun t => t.tabs.tLit.used == 8 && t.br.pos == 9 && t.site == .cl ⟨8, 0, 0⟩) = true := by decide +kernel

/-- P2: `COUNT.4 0`. -/
theorem test_count4 :
    gives (exec (.count4 0) ({ onBits [false, false, false, false] 6 with site := .count .tOff, tabs := tables })) (fun t => t.br.pos == 4 && t.site == .degen .tOff) = true := by decide +kernel

/-- V14: the largest legal symbol. -/
theorem test_degen5 :
    gives (exec (.degen5 18) ({ onBits [true, false, false, true, false] 6 with site := .degen .tLen, tabs := tables })) (fun t => t.tabs.tLen.sv && t.tabs.tLen.ss == 18 && t.tabs.tLen.used == 1 && t.site == .count .tLit) = true := by decide +kernel

/-- P5: `DEGEN.9 90`. -/
theorem test_degen9 :
    gives (exec (.degen9 90) ({ onBits [false, false, true, false, true, true, false, true, false] 6 with site := .degen .tLit, tabs := tables })) (fun t => t.tabs.tLit.sv && t.tabs.tLit.ss == 90 && t.site == .count .tOff) = true := by decide +kernel

/-- V15: `DEGEN = 14` is E_BAD_SYMBOL. -/
theorem test_degen4 :
    gives (exec (.degen4 14) ({ onBits [true, true, true, false] 6 with site := .degen .tOff, tabs := tables })) (fun t => t.st == .fault && t.err == 5 && t.br.pos == 4) = true := by decide +kernel

/-- V14: 13 is legal; the first unit is counted and due. -/
theorem test_degen4_legal :
    gives (exec (.degen4 13) ({ onBits [true, true, false, true] 6 with site := .degen .tOff, tabs := tables, remaining := 2 })) (fun t => t.tabs.tOff.sv && t.tabs.tOff.ss == 13 && t.remaining == 1 && t.site == .unit) = true := by decide +kernel

/-- P2: `HLEN 1`, the third: the skip is due. -/
theorem test_hlen_direct :
    gives (exec (.hlenDirect 1) ({ onBits [false, false, true] 6 with site := .hlen .tLen ⟨4, 2, 2⟩, tabs := tables })) (fun t => t.tabs.tLen.lenAt 2 == 1 && t.br.pos == 3 && t.site == .hskip .tLen ⟨4, 3, 3⟩) = true := by decide +kernel

/-- R56: length 7. -/
theorem test_hlen_esc7 :
    gives (exec (.hlenEsc7) ({ onBits [true, true, true, false] 6 with site := .hlen .tOff ⟨2, 0, 0⟩, tabs := tables })) (fun t => t.tabs.tOff.lenAt 0 == 7 && t.br.pos == 4 && t.site == .hlen .tOff ⟨2, 1, 1⟩) = true := by decide +kernel

/-- R56: length 8. -/
theorem test_hlen_esc8 :
    gives (exec (.hlenEsc8) ({ onBits [true, true, true, true, false] 6 with site := .hlen .tOff ⟨2, 0, 0⟩, tabs := tables })) (fun t => t.tabs.tOff.lenAt 0 == 8 && t.br.pos == 5 && t.site == .hlen .tOff ⟨2, 1, 1⟩) = true := by decide +kernel

/-- R56: length 9. -/
theorem test_hlen_esc9 :
    gives (exec (.hlenEsc9) ({ onBits [true, true, true, true, true, false] 6 with site := .hlen .tOff ⟨2, 0, 0⟩, tabs := tables })) (fun t => t.tabs.tOff.lenAt 0 == 9 && t.br.pos == 6 && t.site == .hlen .tOff ⟨2, 1, 1⟩) = true := by decide +kernel

/-- R56: length 10. -/
theorem test_hlen_esc10 :
    gives (exec (.hlenEsc10) ({ onBits [true, true, true, true, true, true, false] 6 with site := .hlen .tOff ⟨2, 0, 0⟩, tabs := tables })) (fun t => t.tabs.tOff.lenAt 0 == 10 && t.br.pos == 7 && t.site == .hlen .tOff ⟨2, 1, 1⟩) = true := by decide +kernel

/-- R56: length 11. -/
theorem test_hlen_esc11 :
    gives (exec (.hlenEsc11) ({ onBits [true, true, true, true, true, true, true, false] 6 with site := .hlen .tOff ⟨2, 0, 0⟩, tabs := tables })) (fun t => t.tabs.tOff.lenAt 0 == 11 && t.br.pos == 8 && t.site == .hlen .tOff ⟨2, 1, 1⟩) = true := by decide +kernel

/-- R56: length 12. -/
theorem test_hlen_esc12 :
    gives (exec (.hlenEsc12) ({ onBits [true, true, true, true, true, true, true, true, false] 6 with site := .hlen .tOff ⟨2, 0, 0⟩, tabs := tables })) (fun t => t.tabs.tOff.lenAt 0 == 12 && t.br.pos == 9 && t.site == .hlen .tOff ⟨2, 1, 1⟩) = true := by decide +kernel

/-- R56: length 13. -/
theorem test_hlen_esc13 :
    gives (exec (.hlenEsc13) ({ onBits [true, true, true, true, true, true, true, true, true, false] 6 with site := .hlen .tOff ⟨2, 0, 0⟩, tabs := tables })) (fun t => t.tabs.tOff.lenAt 0 == 13 && t.br.pos == 10 && t.site == .hlen .tOff ⟨2, 1, 1⟩) = true := by decide +kernel

/-- R56: length 14. -/
theorem test_hlen_esc14 :
    gives (exec (.hlenEsc14) ({ onBits [true, true, true, true, true, true, true, true, true, true, false] 6 with site := .hlen .tOff ⟨2, 0, 0⟩, tabs := tables })) (fun t => t.tabs.tOff.lenAt 0 == 14 && t.br.pos == 11 && t.site == .hlen .tOff ⟨2, 1, 1⟩) = true := by decide +kernel

/-- R56: length 15. -/
theorem test_hlen_esc15 :
    gives (exec (.hlenEsc15) ({ onBits [true, true, true, true, true, true, true, true, true, true, true, false] 6 with site := .hlen .tOff ⟨2, 0, 0⟩, tabs := tables })) (fun t => t.tabs.tOff.lenAt 0 == 15 && t.br.pos == 12 && t.site == .hlen .tOff ⟨2, 1, 1⟩) = true := by decide +kernel

/-- R56: length 16. -/
theorem test_hlen_esc16 :
    gives (exec (.hlenEsc16) ({ onBits [true, true, true, true, true, true, true, true, true, true, true, true, false] 6 with site := .hlen .tOff ⟨2, 0, 0⟩, tabs := tables })) (fun t => t.tabs.tOff.lenAt 0 == 16 && t.br.pos == 13 && t.site == .hlen .tOff ⟨2, 1, 1⟩) = true := by decide +kernel

/-- V18: E_BAD_LENGTH at the 13th bit. -/
theorem test_hlen_illegal :
    gives (exec (.hlenIllegal) ({ onBits [true, true, true, true, true, true, true, true, true, true, true, true, true] 6 with site := .hlen .tOff ⟨2, 0, 0⟩, tabs := tables })) (fun t => t.st == .fault && t.err == 4 && t.br.pos == 13) = true := by decide +kernel

/-- V10: `HSKIP = 3`, index becomes 6. -/
theorem test_hskip :
    gives (exec (.hskip 3) ({ onBits [true, true] 6 with site := .hskip .tLen ⟨5, 3, 3⟩, tabs := tables })) (fun t => t.br.pos == 2 && t.site == .hlen .tLen ⟨5, 6, 3⟩) = true := by decide +kernel

/-- V20 at position 22. -/
theorem test_cl_zero :
    gives (exec (.clZero) ({ onBits [false, false] 6 with site := .cl ⟨8, 70, 1⟩, tabs := tables })) (fun t => t.br.pos == 2 && t.site == .cl ⟨8, 71, 2⟩) = true := by decide +kernel

/-- V20 at position 28. -/
theorem test_cl_zrun4 :
    gives (exec (.clZrun4 0) ({ onBits [false, true, false, false, false, false] 6 with site := .cl ⟨8, 73, 4⟩, tabs := tables })) (fun t => t.br.pos == 6 && t.site == .cl ⟨8, 76, 4⟩) = true := by decide +kernel

/-- V20 at position 9. -/
theorem test_cl_zrun9 :
    gives (exec (.clZrun9 49) ({ onBits [true, false, false, false, false, true, true, false, false, false, true] 6 with site := .cl ⟨8, 0, 0⟩, tabs := tables })) (fun t => t.br.pos == 11 && t.site == .cl ⟨8, 69, 0⟩) = true := by decide +kernel

/-- V20 at position 20. -/
theorem test_cl_len :
    gives (exec (.clLen 4) ({ onBits [true, true] 6 with site := .cl ⟨8, 69, 0⟩, tabs := tables })) (fun t => t.tabs.tLit.lenAt 69 == 2 && t.br.pos == 2 && t.site == .cl ⟨8, 70, 1⟩) = true := by decide +kernel

/-- V28: the 511th entry. -/
theorem test_cl_len_past :
    gives (exec (.clLen 4) ({ onBits [true, true] 6 with site := .cl ⟨511, 510, 510⟩, tabs := tables })) (fun t => t.st == .fault && t.err == 3 && t.br.pos == 2) = true := by decide +kernel

/-- P2: `LIT 0x41`. -/
theorem test_lit :
    gives (exec (.lit 0x41) ({ onBits [false, true] 6 with site := .unit, tabs := tables, remaining := 1 })) (fun t => outBytes t 1 == [some 0x41] && t.produced == 1 && t.lastN == 1 && t.br.pos == 1 && t.st == .decoding && t.site == .none) = true := by decide +kernel

/-- P2: symbol 258. -/
theorem test_match :
    gives (exec (.matchSym 258) ({ onBits [true] 6 with site := .unit, tabs := tables })) (fun t => t.br.pos == 1 && t.site == .off 258 && t.produced == 0) = true := by decide +kernel

/-- R118: class 0 spells 1; a run of 3 (R115). -/
theorem test_off0 :
    gives (exec (.off0) (withOutput { onBits [false] 60 with site := .off 256, tabs := tables } [0x60])) (fun t => outBytes t 4 == [0x60].map some ++ [some 0x60, some 0x60, some 0x60] && t.lastN == 3 && t.br.pos == 1) = true := by decide +kernel

/-- R118: class 1 spells 2; a run of 3 (R115). -/
theorem test_off1 :
    gives (exec (.off1) (withOutput { onBits [true, false] 60 with site := .off 256, tabs := tables } [0x60, 0x61])) (fun t => outBytes t 5 == [0x60, 0x61].map some ++ [some 0x60, some 0x61, some 0x60] && t.lastN == 3 && t.br.pos == 2) = true := by decide +kernel

/-- R118: class 2 spells 3; a run of 3 (R115). -/
theorem test_off2 :
    gives (exec (.off2 0) (withOutput { onBits [true, true, false, false] 60 with site := .off 256, tabs := tables } [0x60, 0x61, 0x62])) (fun t => outBytes t 6 == [0x60, 0x61, 0x62].map some ++ [some 0x60, some 0x61, some 0x62] && t.lastN == 3 && t.br.pos == 4) = true := by decide +kernel

/-- R118: class 3 spells 5; a run of 3 (R115). -/
theorem test_off3 :
    gives (exec (.off3 0) (withOutput { onBits [true, true, true, false, false, false] 60 with site := .off 256, tabs := tables } [0x60, 0x61, 0x62, 0x63, 0x64])) (fun t => outBytes t 8 == [0x60, 0x61, 0x62, 0x63, 0x64].map some ++ [some 0x60, some 0x61, some 0x62] && t.lastN == 3 && t.br.pos == 6) = true := by decide +kernel

/-- R118: class 4 spells 9; a run of 3 (R115). -/
theorem test_off4 :
    gives (exec (.off4 0) (withOutput { onBits [true, true, true, true, false, false, false, false] 60 with site := .off 256, tabs := tables } [0x60, 0x61, 0x62, 0x63, 0x64, 0x65, 0x66, 0x67, 0x68])) (fun t => outBytes t 12 == [0x60, 0x61, 0x62, 0x63, 0x64, 0x65, 0x66, 0x67, 0x68].map some ++ [some 0x60, some 0x61, some 0x62] && t.lastN == 3 && t.br.pos == 8) = true := by decide +kernel

/-- R118: class 5 spells 17; before the block, E_BAD_DISTANCE after 10 bits. -/
theorem test_off5 :
    gives (exec (.off5 0) (withOutput { onBits [true, true, true, true, true, false, false, false, false, false] 60 with site := .off 256, tabs := tables } [0x60])) (fun t => t.st == .fault && t.err == 2 && t.produced == 1 && t.br.pos == 10) = true := by decide +kernel

/-- R118: class 6 spells 33; before the block, E_BAD_DISTANCE after 12 bits. -/
theorem test_off6 :
    gives (exec (.off6 0) (withOutput { onBits [true, true, true, true, true, true, false, false, false, false, false, false] 60 with site := .off 256, tabs := tables } [0x60])) (fun t => t.st == .fault && t.err == 2 && t.produced == 1 && t.br.pos == 12) = true := by decide +kernel

/-- R118: class 7 spells 65; before the block, E_BAD_DISTANCE after 14 bits. -/
theorem test_off7 :
    gives (exec (.off7 0) (withOutput { onBits [true, true, true, true, true, true, true, false, false, false, false, false, false, false] 60 with site := .off 256, tabs := tables } [0x60])) (fun t => t.st == .fault && t.err == 2 && t.produced == 1 && t.br.pos == 14) = true := by decide +kernel

/-- R118: class 8 spells 129; before the block, E_BAD_DISTANCE after 16 bits. -/
theorem test_off8 :
    gives (exec (.off8 0) (withOutput { onBits [true, true, true, true, true, true, true, true, false, false, false, false, false, false, false, false] 60 with site := .off 256, tabs := tables } [0x60])) (fun t => t.st == .fault && t.err == 2 && t.produced == 1 && t.br.pos == 16) = true := by decide +kernel

/-- R118: class 9 spells 257; before the block, E_BAD_DISTANCE after 18 bits. -/
theorem test_off9 :
    gives (exec (.off9 0) (withOutput { onBits [true, true, true, true, true, true, true, true, true, false, false, false, false, false, false, false, false, false] 60 with site := .off 256, tabs := tables } [0x60])) (fun t => t.st == .fault && t.err == 2 && t.produced == 1 && t.br.pos == 18) = true := by decide +kernel

/-- R118: class 10 spells 513; before the block, E_BAD_DISTANCE after 20 bits. -/
theorem test_off10 :
    gives (exec (.off10 0) (withOutput { onBits [true, true, true, true, true, true, true, true, true, true, false, false, false, false, false, false, false, false, false, false] 60 with site := .off 256, tabs := tables } [0x60])) (fun t => t.st == .fault && t.err == 2 && t.produced == 1 && t.br.pos == 20) = true := by decide +kernel

/-- R118: class 11 spells 1025; before the block, E_BAD_DISTANCE after 22 bits. -/
theorem test_off11 :
    gives (exec (.off11 0) (withOutput { onBits [true, true, true, true, true, true, true, true, true, true, true, false, false, false, false, false, false, false, false, false, false, false] 60 with site := .off 256, tabs := tables } [0x60])) (fun t => t.st == .fault && t.err == 2 && t.produced == 1 && t.br.pos == 22) = true := by decide +kernel

/-- R118: class 12 spells 2049; before the block, E_BAD_DISTANCE after 24 bits. -/
theorem test_off12 :
    gives (exec (.off12 0) (withOutput { onBits [true, true, true, true, true, true, true, true, true, true, true, true, false, false, false, false, false, false, false, false, false, false, false, false] 60 with site := .off 256, tabs := tables } [0x60])) (fun t => t.st == .fault && t.err == 2 && t.produced == 1 && t.br.pos == 24) = true := by decide +kernel

/-- R118: class 13 spells 4097; before the block, E_BAD_DISTANCE after 25 bits. -/
theorem test_off13 :
    gives (exec (.off13 0) (withOutput { onBits [true, true, true, true, true, true, true, true, true, true, true, true, true, false, false, false, false, false, false, false, false, false, false, false, false] 60 with site := .off 256, tabs := tables } [0x60])) (fun t => t.st == .fault && t.err == 2 && t.produced == 1 && t.br.pos == 25) = true := by decide +kernel

/-- R118: class 13, delta 4095 spells 8192. -/
theorem test_off13_far :
    gives (exec (.off13 4095) ({ onBits [true, true, true, true, true, true, true, true, true, true, true, true, true, true, true, true, true, true, true, true, true, true, true, true, true] 9000 with site := .off 256, tabs := tables, produced := 8192, out := Mem.ofBytes .out 0 [7, 8, 9], outSize := 9000 })) (fun t => [8192, 8193, 8194].map t.readOut == [some 7, some 8, some 9] && t.readWin 0 == some 7 && t.br.pos == 25) = true := by decide +kernel

/-- R70. -/
theorem test_pad :
    gives (exec (.pad) ({ State.reset with site := .pad, st := .done })) (fun t => t.st == .done && t.br.pos == 0) = true := by decide +kernel

/-- V1. -/
theorem test_br_init :
    gives (exec (.brInit) ({ State.reset with inp := Mem.ofBytes .inp 0 [0xA5, 0x3C], inSize := 2 })) (fun t => reader t == (0xA53C0000, 2, 0, 0, 0)) = true := by decide +kernel

/-- R82's example: after BR.INIT, BR.INGEST(4). -/
theorem test_br_ingest :
    gives (exec (.brIngest 4) (started [0x12, 0x34, 0x56, 0x78, 0x9A, 0xBC] 1)) (fun t => reader t == (0x23456789, 4, 2, 4, 0)) = true := by decide +kernel

/-- V2: get(4). -/
theorem test_br_get :
    gives (exec (.brGet 4) (started [0x12, 0x34, 0x56, 0x78, 0x9A, 0xBC] 1)) (fun t => t.ret == 1 && reader t == (0x23456789, 4, 2, 4, 4)) = true := by decide +kernel

/-- V1: get(18) is the real bits and two of fill. -/
theorem test_br_get_end :
    gives (exec (.brGet 18) (started [0xA5, 0x3C] 1)) (fun t => t.ret == 0xA53C * 4 && reader t == (0, 2, 0, 2, 18)) = true := by decide +kernel

/-- R90. -/
theorem test_ct_clear :
    gives (exec (.ctClear .tLen) ({ State.reset with tabs := ⟨onlySymbol 19 5 3, litP2, offV11⟩ })) (fun t => !t.tabs.tLen.sv && t.tabs.tLen.ss == 3 && t.tabs.tLit.lenAt 65 == 1) = true := by decide +kernel

/-- V10. -/
theorem test_ct_count :
    gives (exec (.ctCount .tLen) (started [0x2A, 0x4B, 0x6C] 1)) (fun t => t.ret == 5 && t.tabs.tLen.used == 5 && t.br.pos == 5) = true := by decide +kernel

/-- V15: 19 is E_BAD_SYMBOL. -/
theorem test_ct_degen :
    gives (exec (.ctDegen .tLen) (onBits [true, false, false, true, true] 1)) (fun t => t.st == .fault && t.err == 5 && t.br.pos == 5) = true := by decide +kernel

/-- V18: `11110` is 8, five bits. -/
theorem test_ct_hlen :
    gives (exec (.ctHlen) (onBits [true, true, true, true, false] 1)) (fun t => t.ret == 8 && t.br.pos == 5) = true := by decide +kernel

/-- V18: `1111111111110` is 16. -/
theorem test_ct_hlen_16 :
    gives (exec (.ctHlen) (onBits [true, true, true, true, true, true, true, true, true, true, true, true, false] 1)) (fun t => t.ret == 16 && t.br.pos == 13) = true := by decide +kernel

/-- V19: `11` at 3 returns 6. -/
theorem test_ct_hskip :
    gives (exec (.ctHskip .tLen 3) (onBits [true, true] 1)) (fun t => t.ret == 6 && t.br.pos == 2) = true := by decide +kernel

/-- V10. -/
theorem test_ct_init_hybrid :
    gives (exec (.ctInitHybrid .tLen (some 3)) (started [0x2A, 0x4B, 0x6C] 1)) (fun t => [0, 1, 2, 6, 7].map t.tabs.tLen.lenAt == [2, 2, 2, 3, 3] && [0, 1, 2, 6, 7].map t.tabs.tLen.codeAt == [0, 1, 2, 6, 7] && t.tabs.tLen.used == 5 && t.br.pos == 22) = true := by decide +kernel

/-- V12: the skip after the last length. -/
theorem test_ct_init_hybrid_corner :
    gives (exec (.ctInitHybrid .tLen (some 3)) (started [0x19, 0x4B, 0xE0] 1)) (fun t => [0, 1, 2].map t.tabs.tLen.lenAt == [1, 2, 2] && [0, 1, 2].map t.tabs.tLen.codeAt == [0, 2, 3] && t.br.pos == 16) = true := by decide +kernel

/-- V20. -/
theorem test_ct_init_coded :
    gives (exec (.ctInitCoded .tLit .tLen) ({ started [0x04, 0x43, 0x1C, 0x34, 0x30, 0xC0] 1 with tabs := ⟨lenV20, Table.zero _ _, Table.zero _ _⟩ })) (fun t => [69, 72, 76, 79].map t.tabs.tLit.lenAt == [2, 2, 2, 2] && [69, 72, 76, 79].map t.tabs.tLit.codeAt == [0, 1, 2, 3] && t.tabs.tLit.used == 8 && t.br.pos == 42) = true := by decide +kernel

/-- V10 and V20 under the other values of the count parameters (log 17). -/
theorem test_count_modes :
    gives (initHybrid .index .tLen (some 3) (started [0x2A, 0x4B, 0x6C] 1)).outcome (fun t => [0, 1, 2, 6, 7].map t.tabs.tLen.lenAt == [2, 2, 2, 0, 0] && t.br.pos == 16) = true ∧
    gives (initCoded .all .tLit .tLen ({ started [0x04, 0x43, 0x1C, 0x34, 0x30, 0xC0] 1 with tabs := ⟨lenV20, Table.zero _ _, Table.zero _ _⟩ })).outcome (fun t => [69, 72, 76, 79].map t.tabs.tLit.lenAt == [2, 2, 2, 0] && t.br.pos == 38) = true ∧
    gives (initCoded .index .tLit .tLen ({ started [0x04, 0x43, 0x1C, 0x34, 0x30, 0xC0] 1 with tabs := ⟨lenV20, Table.zero _ _, Table.zero _ _⟩ })).outcome (fun t => [69, 72, 76, 79].map t.tabs.tLit.lenAt == [0, 0, 0, 0] && t.br.pos == 20) = true := by
  refine ⟨?_, ?_, ?_⟩ <;> decide +kernel

/-- V23: five lengths of 2. -/
theorem test_ct_init_coded_oversubscribed :
    gives (exec (.ctInitCoded .tLit .tLen) ({ started [0x02, 0x80] 1 with tabs := ⟨onlySymbol 19 5 4, Table.zero _ _, Table.zero _ _⟩ })) (fun t => t.st == .fault && t.err == 6 && t.br.pos == 9) = true := by decide +kernel

/-- V31: length order, then index order. -/
theorem test_ct_assign_V31 :
    gives (exec (.ctAssign .tLen) (State.reset.setTab .tLen ((([(0, 2), (1, 1), (2, 3), (3, 3)] : List (Nat × Nat))).foldl (fun t p => t.setLen p.1 p.2) (Table.zero 19 5)))) (fun t => [0, 1, 2, 3].map t.tabs.tLen.codeAt == [2, 0, 6, 7]) = true := by decide +kernel

/-- V36: E_OVERSUBSCRIBED at symbol 2. -/
theorem test_ct_assign_V36 :
    gives (exec (.ctAssign .tLen) (State.reset.setTab .tLen ((([(0, 2), (1, 2), (2, 2), (3, 2), (4, 1)] : List (Nat × Nat))).foldl (fun t p => t.setLen p.1 p.2) (Table.zero 19 5)))) (fun t => t.st == .fault && t.err == 6 && [4, 0, 1].map t.tabs.tLen.codeAt == [0, 2, 3]) = true := by decide +kernel

/-- R100's example: `110` in V30's table. -/
theorem test_ct_decode :
    gives (exec (.ctDecode .tLen) ({ onBits [true, true, false] 1 with tabs := ⟨codeOf 19 5 [(0, 1), (1, 2), (2, 3), (3, 3)], litP2, offV11⟩ })) (fun t => t.ret == 2 && t.br.pos == 3) = true := by decide +kernel

/-- V42: `{0:1}` on FF FF. -/
theorem test_ct_decode_none :
    gives (exec (.ctDecode .tLen) ({ started [0xFF, 0xFF] 1 with tabs := ⟨codeOf 19 5 [(0, 1)], litP2, offV11⟩ })) (fun t => t.st == .fault && t.err == 1 && t.br.pos == 16) = true := by decide +kernel

/-- F11: T_LIT by two CL.ZERO of no bits; the initialisation is over at bit 43 (log 25). -/
theorem test_bd_init_subblock_short :
    gives (exec .bdInitSubblock (started [0x00, 0x01, 0x00, 0x00, 0x40, 0x00] 1))
      (fun t => t.remaining == 1 && t.br.pos == 43 && t.tabs.tLit.used == 2 && !t.tabs.tLit.sv) = true := by decide +kernel

/-- P4: 52 bits, all tables degenerate. -/
theorem test_bd_init_subblock :
    gives (exec (.bdInitSubblock) (started bytesP4 3)) (fun t => t.remaining == 3 && t.br.pos == 52 && t.tabs.tLen.sv && t.tabs.tLit.sv && t.tabs.tOff.sv) = true := by decide +kernel

/-- P2's second unit: `MATCH 5, 1`. -/
theorem test_bd_unit :
    gives (exec (.bdUnit) (withOutput { onBits [true] 6 with st := .decoding, remaining := 1, tabs := ⟨lenV20, litP2, onlySymbol 14 4 0⟩ } [0x41])) (fun t => t.st == .done && t.lastN == 5 && t.remaining == 0 && outBytes t 6 == List.replicate 6 (some 0x41)) = true := by decide +kernel

/-- R113's example: `c = 0x48`. -/
theorem test_bd_literal :
    gives (exec (.bdLiteral 0x48) (started bytesP1 5)) (fun t => outBytes t 1 == [some 0x48] && t.produced == 1 && t.ret == 1) = true := by decide +kernel

/-- R114's example: `c = 258`, class 0. -/
theorem test_bd_match :
    gives (exec (.bdMatch 258) (withOutput { started [] 6 with tabs := ⟨lenV20, litP2, onlySymbol 14 4 0⟩ } [0x41])) (fun t => t.ret == 5 && t.produced == 6) = true := by decide +kernel

/-- R117's example: `p = 4`, delta `001`. -/
theorem test_bd_offset :
    gives (exec (.bdOffset) ({ onBits [true, true, true, true, false, false, false, true] 1 with tabs := tables })) (fun t => t.ret == 10 && t.br.pos == 8) = true := by decide +kernel

/-- R130's example: at 8191 the next cell of WIN is 0. -/
theorem test_lz_emit :
    gives (exec (.lzEmit 0x7A) ({ started [] 9000 with produced := 8191 })) (fun t => t.readOut 8191 == some 0x7A && t.readWin 8191 == some 0x7A && t.produced == 8192) = true := by decide +kernel

/-- R131's example. -/
theorem test_lz_copy :
    gives (exec (.lzCopy 6 3) (withOutput (started [] 9) [0x61, 0x62, 0x63])) (fun t => outBytes t 9 == [some 0x61, some 0x62, some 0x63, some 0x61, some 0x62, some 0x63, some 0x61, some 0x62, some 0x63]) = true := by decide +kernel

/-- Both conditions hold: E_BAD_DISTANCE is reported (R131). -/
theorem test_lz_copy_both :
    gives (exec (.lzCopy 3 1) (started [] 2)) (fun t => t.st == .fault && t.err == 2 && t.produced == 0) = true := by decide +kernel

/-- R160: E_OUTPUT_OVERRUN is 8. -/
theorem test_raise :
    gives (exec (.raise .outputOverrun) (started [] 2)) (fun t => t.st == .fault && t.err == 8 && t.outSize == 2) = true := by decide +kernel

/-- R114, R117: a class 14 of a degenerate table runs as in BD.MATCH: 13 delta bits, distance 8193 + delta. -/
theorem test_step_class_outside :
    gives (step { started [0xFF, 0xFF, 0xFF] 6 with
        tabs := ⟨lenV20, litP2, onlySymbol 14 4 14⟩, st := .decoding, site := .off 256 })
      (fun t => t.st == .fault && t.err == 2 && t.br.pos == 13) = true := by decide +kernel

/-- A word of the opcode table runs as the first instruction after reset (log 9). -/
theorem test_fetch_start :
    gives (step (State.reset.withFetchWord 2 1)) (fun t => t.st == .done && t.port == []) = true := by decide +kernel

/-- `HLEN.ESC11` laid into IN is parsed by the next step: length 11, 8 bits. -/
theorem test_fetch_hlen :
    gives (step (State.reset.withFetchWord 8 254)) (fun t => t.tabs.tLen.lenAt 0 == 11 && t.br.pos == 8) = true := by
  decide +kernel
/-- A block that fails is reported, and the HOST stops as its policy says (R153): P2 declared one byte short (F8). -/
theorem test_container_failed :
    gives (exec (.containerHeader 5 10)
      (State.reset.setHost { State.reset.host with
        file := [0x4C, 0x5A, 0x32, 0x4B, 5, 0, 0, 0, 10, 0, 0, 0] ++ bytesP2 }))
      (fun t => t.host.reports == [(0, 8)] && t.host.halted && t.host.output == [] && t.produced == 1) = true := by
  decide +kernel

/-- The same block under the policy to go on: R150's loop appends the five bytes declared, the first of them decoded. -/
theorem test_container_failed_append :
    gives (exec (.containerHeader 5 10)
      (State.reset.setHost { State.reset.host with
        file := [0x4C, 0x5A, 0x32, 0x4B, 5, 0, 0, 0, 10, 0, 0, 0] ++ bytesP2, policy := .nextBlock }))
      (fun t => t.host.reports == [(0, 8)] && !t.host.halted && t.host.output.length == 5 &&
        t.host.output.head? == some 0x41 && t.host.cursor == 22) = true := by
  decide +kernel

/-! ## For every statement with hypotheses, a state and operands that meet them -/

theorem gives_next {o : Host.Outcome State Fault Refusal} {p : State → Bool} (h : gives o p = true) :
    ∃ t, o = .next t ∧ p t = true := by
  cases o with
  | next t => exact ⟨t, rfl, h⟩
  | fault f => exact absurd h (by simp [gives])
  | refused r => exact absurd h (by simp [gives])

theorem readerOk_of {s : State}
    (h : (∀ k, k < 32 → s.br.reg.getLsbD (31 - k) = s.streamBit (s.br.pos + k)) ∧
      s.br.ptr.toNat = min s.inSize.toNat ((s.br.pos + 32) / 8) ∧ s.br.rem.toNat = s.inSize.toNat - s.br.ptr.toNat ∧
      s.br.used.toNat = (s.br.pos + 32) % 8) : s.readerOk := ⟨h.1, h.2.1, h.2.2.1, h.2.2.2⟩

theorem spells_of {s : State} {bits : List Bool}
    (h : ∀ k, k < bits.length → s.streamBit (s.br.pos + k) = bits.getD k false) : s.spells bits := h

theorem memoryOk_of {s : State} (h : Mem.wf .inp s.inp && Mem.wf .out s.out && Mem.wf .win s.win) : s.memoryOk := by
  simp only [Bool.and_eq_true] at h
  exact ⟨h.1.1, h.1.2, h.2⟩

theorem writtenBelow_of {s : State} (h : ∀ a, a < s.produced.toNat → s.readOut a ≠ none) : s.writtenBelow := h

/-- A small table is sound if its entries pass. -/
theorem sound_of {n cb : Nat} (t : Table n cb) (h : t.sv = false)
    (h0 : ∀ a, a < n → t.lenAt a ≤ 16 ∧ (t.lenAt a ≠ 0 → t.codeAt a < 2 ^ t.lenAt a))
    (h2 : ∀ a, a < n → ∀ b, b < n → ¬(a ≠ b ∧ t.lenAt a ≠ 0 ∧ t.lenAt a ≤ t.lenAt b ∧
      t.codeAt b / 2 ^ (t.lenAt b - t.lenAt a) = t.codeAt a)) : t.sound :=
  t.sound_of_code h (t.lensOk_of_entries fun a ha => (h0 a ha).1)
    (t.prefixFree_of_entries (fun a ha => (h0 a ha).2) h2)

theorem lenV20_sound : lenV20.sound := sound_of _ (by decide +kernel) (by decide +kernel) (by decide +kernel)

theorem offV11_sound : offV11.sound := sound_of _ (by decide +kernel) (by decide +kernel) (by decide +kernel)

theorem litP2_lenAt (a : Nat) : litP2.lenAt a = if a = 258 then 1 else if a = 65 then 1 else 0 := by
  show (((Table.zero 510 9).setLen 65 1).setLen 258 1).withCodes.lenAt a = _
  rw [Table.lenAt_withCodes, Table.lenAt_setLen _ (by omega) (by omega), Table.lenAt_setLen _ (by omega) (by omega),
    Table.lenAt_zero]

theorem litP2_sound : litP2.sound := by
  have used : ∀ a, litP2.lenAt a ≠ 0 → a = 65 ∨ a = 258 := by
    intro a h
    rw [litP2_lenAt] at h
    split at h
    · exact .inr ‹_›
    · split at h
      · exact .inl ‹_›
      · exact absurd rfl h
  refine litP2.sound_of_code (by decide +kernel) (fun a => ?_) ?_
  · rw [litP2_lenAt]
    split
    · decide
    · split <;> decide
  refine ⟨fun a h => ?_, fun a b hne ha hl => ?_⟩
  · rcases used a h with rfl | rfl <;> decide +kernel
  · have hb : litP2.lenAt b ≠ 0 := by omega
    rcases used a ha with rfl | rfl <;> rcases used b hb with rfl | rfl
    · exact absurd rfl hne
    · decide +kernel
    · decide +kernel
    · exact absurd rfl hne

theorem witness_ResetEvent :
    ∃ (s : State) (rest : List Request), s.port = .deliver .reset :: rest ∧ s.parsing = true :=
  ⟨{ State.reset with port := [.deliver .reset], site := .unit }, [], rfl, rfl⟩

theorem witness_CommandsOutOfPlace :
    ∃ a b c : State, a.st = .idle ∧ a.st ≠ .fault ∧ b.st = .done ∧ c.st = .fault :=
  ⟨State.reset, { State.reset with st := .done }, { State.reset with st := .fault, err := 1 }, rfl, nofun, rfl, rfl⟩

theorem witness_RunIsSteps : ∃ s : State, s.isActive = true ∧ s.memoryOk ∧ s.blockOk :=
  ⟨started bytesP2 6, by decide +kernel, memoryOk_of (by decide +kernel),
    ⟨by decide +kernel, by decide +kernel, by decide +kernel, by decide +kernel, by decide +kernel⟩⟩

theorem witness_RunFills :
    ∃ (s : State) (c : Byte), s.isActive = true ∧ s.memoryOk ∧ s.produced.toNat < s.outSize.toNat ∧
      s.outSize.toNat - s.produced.toNat ≤ s.remaining.toNat ∧ s.tabs.tLit.sv = true ∧
      s.tabs.tLit.ss.toNat = c.toNat :=
  ⟨{ started [] 5 with remaining := 5, tabs := ⟨lenV20, onlySymbol 510 9 255, offV11⟩ }, 255,
    by decide +kernel, memoryOk_of (by decide +kernel), by decide +kernel, by decide +kernel, rfl, by decide +kernel⟩

/-- Exactly as many bytes as declared, and one fewer. -/
theorem witness_ContainerBlock :
    ∃ (s s' : State) (n : Word), n.toNat ≤ (s.host.file.drop (s.host.cursor + 12)).length ∧
      (s'.host.file.drop (s'.host.cursor + 12)).length < n.toNat :=
  ⟨State.reset.setHost { State.reset.host with file := List.replicate 14 0 },
    State.reset.setHost { State.reset.host with file := List.replicate 13 0 }, 2, by decide +kernel, by decide +kernel⟩

theorem witness_BlocksIndependent :
    ∃ (s s' : State) (a : Word), s.memoryOk ∧ s'.memoryOk ∧ (∀ j, j < a.toNat → s.readIn j = s'.readIn j) ∧
      s.st ≠ s'.st ∧ s.out ≠ s'.out ∧ s.inp ≠ s'.inp :=
  ⟨{ State.reset with inp := [(1, 3), (2, 9)] }, { State.reset with inp := [(1, 3)], st := .fault, err := 2, out := [(0, 7)] }, 2,
    memoryOk_of (by decide +kernel), memoryOk_of (by decide +kernel), by decide +kernel, nofun, nofun, nofun⟩

/-- V1's reader, at its start and, for the clause on the end of the input, just past its last bit. -/
theorem witness_BrGetReads :
    ∃ s t : State, s.readerOk ∧ t.readerOk ∧ 8 * t.inSize.toNat ≤ t.br.pos :=
  ⟨started [0xA5, 0x3C] 1, (started [0xA5, 0x3C] 1).consume 16, readerOk_of (by decide +kernel),
    readerOk_of (by decide +kernel), by decide +kernel⟩

theorem witness_BrIngestShifts : ∃ s : State, s.readerOk :=
  ⟨started [0x12, 0x34, 0x56, 0x78, 0x9A, 0xBC] 1, readerOk_of (by decide +kernel)⟩

/-- The last symbol of the alphabet, and the first past it. -/
theorem witness_CtCountAndDegen :
    ∃ (T : TableId) (s t : State), s.readerOk ∧ s.streamField s.br.pos T.countBits < T.size ∧
      t.readerOk ∧ T.size ≤ t.streamField t.br.pos T.countBits :=
  ⟨.tLen, started [0x90] 1, started [0x98] 1, readerOk_of (by decide +kernel), by decide +kernel,
    readerOk_of (by decide +kernel), by decide +kernel⟩

/-- The longest length, the shortest, and the illegal escape. -/
theorem witness_CtHlenReads :
    ∃ s t u : State, s.readerOk ∧ s.spells (hlenBits 16) ∧ t.readerOk ∧ t.spells (hlenBits 0) ∧ u.readerOk ∧
      u.spells (List.replicate 13 true) :=
  ⟨started [0xFF, 0xF0] 1, started [] 1, started [0xFF, 0xF8] 1, readerOk_of (by decide +kernel),
    spells_of (by decide +kernel), readerOk_of (by decide +kernel), spells_of (by decide +kernel),
    readerOk_of (by decide +kernel), spells_of (by decide +kernel)⟩

/-- A skip that ends at the alphabet's end, and one that passes it. -/
theorem witness_CtHskipMoves :
    ∃ (T : TableId) (s : State), s.readerOk ∧ 16 + s.streamField s.br.pos 2 = T.size ∧
      T.size < 17 + s.streamField s.br.pos 2 :=
  ⟨.tLen, started [0xC0] 1, readerOk_of (by decide +kernel), by decide +kernel, by decide +kernel⟩

/-- Two symbols of length 1 take the whole code space; three take more. -/
def twoOfOne : State := State.reset.setTab .tOff (((Table.zero 14 4).setLen 0 1).setLen 1 1)
def threeOfOne : State := State.reset.setTab .tOff ((((Table.zero 14 4).setLen 0 1).setLen 1 1).setLen 2 1)

theorem twoOfOne_lensOk : (twoOfOne.tab .tOff).lensOk := Table.lensOk_of_entries _ (by decide +kernel)

theorem witness_AssignCanonical :
    ∃ (T : TableId) (s : State), (s.tab T).lensOk ∧ kraft (s.tab T).lens ≤ 2 ^ 16 :=
  ⟨.tOff, twoOfOne, twoOfOne_lensOk, by decide +kernel⟩

theorem witness_AssignOversubscribed :
    ∃ (T : TableId) (s : State), (s.tab T).lensOk ∧ 2 ^ 16 < kraft (s.tab T).lens :=
  ⟨.tOff, threeOfOne, Table.lensOk_of_entries _ (by decide +kernel), by decide +kernel⟩

theorem witness_AssignPrefixFree :
    ∃ (T : TableId) (s t : State), (s.tab T).lensOk ∧ exec (.ctAssign T) s = .next t ∧ t.st ≠ .fault := by
  obtain ⟨t, h, ht⟩ := gives_next (p := fun t => t.st == .idle)
    (show gives (exec (.ctAssign .tOff) twoOfOne) _ = true by decide +kernel)
  exact ⟨.tOff, twoOfOne, t, twoOfOne_lensOk, h, by simp only [beq_iff_eq] at ht; simp [ht]⟩

theorem witness_CompleteCodeDecodes :
    ∃ (T : TableId) (s t : State), (s.tab T).lensOk ∧ (s.tab T).sv = false ∧ kraft (s.tab T).lens = 2 ^ 16 ∧
      exec (.ctAssign T) s = .next t := by
  obtain ⟨t, h, _⟩ := gives_next (p := fun _ => true)
    (show gives (exec (.ctAssign .tOff) twoOfOne) _ = true by decide +kernel)
  exact ⟨.tOff, twoOfOne, t, twoOfOne_lensOk, by decide +kernel, by decide +kernel, h⟩

/-- A word of the longest kind stands there; no word stands there. -/
theorem witness_DecodeFinds :
    ∃ (T : TableId) (s u : State) (x : Nat), s.readerOk ∧ (s.tab T).sv = false ∧ (s.tab T).prefixFree ∧
      1 ≤ (s.tab T).lenAt x ∧ (s.tab T).lenAt x ≤ 16 ∧ s.spells (codeBits (s.tab T) x) ∧ u.readerOk ∧
      (u.tab T).sv = false ∧
      ∀ x, 1 ≤ (u.tab T).lenAt x → (u.tab T).lenAt x ≤ 16 → ¬ u.spells (codeBits (u.tab T) x) :=
  ⟨.tOff, { started [0xFF, 0xF8] 1 with tabs := tables }, { started [0xFF] 1 with tabs := noTables }, 13,
    readerOk_of (by decide +kernel), by decide +kernel,
    Table.prefixFree_of_entries _ (by decide +kernel) (by decide +kernel), by decide +kernel, by decide +kernel,
    spells_of (by decide +kernel), readerOk_of (by decide +kernel), rfl, fun x h => absurd h (by
      show ¬ 1 ≤ (Table.zero 14 4).lenAt x
      simp)⟩

theorem witness_DecodeLookAhead :
    ∃ (T : TableId) (s t u : State), (s.tab T).sv = true ∧ codeWordAt (t.tab T) t.br.reg = some (12, 13) ∧
      codeWordAt (u.tab T) u.br.reg = none :=
  ⟨.tOff, { started [] 1 with tabs := ⟨lenV20, litP2, onlySymbol 14 4 3⟩ }, { started [0xFF, 0xF0] 1 with tabs := tables },
    { started [0xFF] 1 with tabs := noTables }, rfl, by decide +kernel, by decide +kernel⟩

/-- The last symbol and the first past it, for both constructions. -/
theorem witness_InitDegenerate :
    ∃ s t u v : State,
      s.readerOk ∧ s.spells (bitsOf 5 0 ++ bitsOf 5 18) ∧ t.readerOk ∧ t.spells (bitsOf 5 0 ++ bitsOf 5 19) ∧
      u.readerOk ∧ u.spells (bitsOf 9 0 ++ bitsOf 9 509) ∧ v.readerOk ∧ v.spells (bitsOf 9 0 ++ bitsOf 9 510) :=
  ⟨started [0x04, 0x80] 1, started [0x04, 0xC0] 1, onBits (bitsOf 9 0 ++ bitsOf 9 509) 1,
    onBits (bitsOf 9 0 ++ bitsOf 9 510) 1, readerOk_of (by decide +kernel), spells_of (by decide +kernel),
    readerOk_of (by decide +kernel), spells_of (by decide +kernel), readerOk_of (by decide +kernel),
    spells_of (by decide +kernel), readerOk_of (by decide +kernel), spells_of (by decide +kernel)⟩

/-- V10, its code space used up; and V11's table, its alphabet used up, without a skip. -/
theorem witness_InitHybridBuilds :
    ∃ (s t : State) (lens lens' : List Nat) (k : Nat),
      s.readerOk ∧ lens ≠ [] ∧ (∀ l, l ∈ lens → l ≤ 16) ∧ k < 4 ∧ (hybridLens (some 3) lens k).length ≤ 19 ∧
      kraft lens ≤ 2 ^ 16 ∧ s.spells (hybridBits 5 (some 3) lens k) ∧
      t.readerOk ∧ lens' ≠ [] ∧ (∀ l, l ∈ lens' → l ≤ 16) ∧ (hybridLens none lens' k).length ≤ 14 ∧
      kraft lens' ≤ 2 ^ 16 ∧ t.spells (hybridBits 4 none lens' k) :=
  ⟨started [0x2A, 0x4B, 0x6C] 1, started [0xE2, 0x9C, 0xBB, 0xBD, 0xF7, 0xEF, 0xEF, 0xF7, 0xFD, 0xFF, 0x00] 1,
    [2, 2, 2, 3, 3], [1, 2, 3, 4, 5, 6, 7, 8, 9, 10, 11, 12, 13, 13], 3,
    readerOk_of (by decide +kernel), nofun, by decide +kernel, by decide +kernel, by decide +kernel, by decide +kernel,
    spells_of (by decide +kernel), readerOk_of (by decide +kernel), nofun, by decide +kernel, by decide +kernel,
    by decide +kernel, spells_of (by decide +kernel)⟩

/-- V20. -/
theorem witness_InitCodedBuilds :
    ∃ (s : State) (v : Scan) (es : List Instr) (e : Instr),
      s.readerOk ∧ (∀ i, i ∈ es ++ [e] → i.wf = true ∧ isCl i = true ∧ fits s.tabs (.cl v) i) ∧ clCounts e = true ∧
      ((es ++ [e]).filter clCounts).length < 2 ^ 9 ∧ ((es ++ [e]).flatMap clLens).length ≤ 510 ∧
      kraft ((es ++ [e]).flatMap clLens) ≤ 2 ^ 16 ∧
      s.spells (bitsOf 9 ((es ++ [e]).filter clCounts).length ++ (es ++ [e]).flatMap (elementBits s.tabs)) := by
  have sp : ∀ x, lenV20.lenAt x ≠ 0 → lenV20.spells x := fun x h => lenV20.spells_word x (by decide +kernel) lenV20_sound h
  refine ⟨{ started [0x04, 0x43, 0x1C, 0x34, 0x30, 0xC0] 1 with tabs := tables }, ⟨8, 0, 0⟩,
    [.clZrun9 49, .clLen 4, .clZero, .clZero, .clLen 4, .clZrun4 0, .clLen 4, .clZero, .clZero], .clLen 4,
    readerOk_of (by decide +kernel), ?_, rfl, by decide +kernel, by decide +kernel, by decide +kernel,
    spells_of (by decide +kernel)⟩
  intro i hi
  simp only [List.cons_append, List.nil_append, List.mem_cons, List.not_mem_nil, or_false] at hi
  rcases hi with rfl | rfl | rfl | rfl | rfl | rfl | rfl | rfl | rfl | rfl <;>
    exact ⟨rfl, rfl, ⟨_, rfl⟩, sp _ (by decide +kernel)⟩

/-- V24, and V25's value. -/
theorem witness_RunsOnlyOverflow :
    ∃ s t : State, s.readerOk ∧ s.tabs.tLen.sv = true ∧ s.tabs.tLen.ss = 1 ∧ s.streamField s.br.pos 9 ≠ 0 ∧
      t.readerOk ∧ t.tabs.tLen.sv = true ∧ t.tabs.tLen.ss = 2 ∧ t.streamField t.br.pos 9 ≠ 0 :=
  ⟨{ started [0x00, 0x80] 1 with tabs := ⟨onlySymbol 19 5 1, litP2, offV11⟩ },
    { started [0x00, 0xFF, 0xC0] 1 with tabs := ⟨onlySymbol 19 5 2, litP2, offV11⟩ },
    readerOk_of (by decide +kernel), rfl, rfl, by decide +kernel, readerOk_of (by decide +kernel), rfl, rfl,
    by decide +kernel⟩

/-- The last symbols of the three alphabets; and an empty input. -/
theorem witness_SubblockDegenerate :
    ∃ s t : State, s.readerOk ∧
      s.spells (bitsOf 16 (65535#16).toNat ++ bitsOf 5 0 ++ bitsOf 5 18 ++ bitsOf 9 0 ++ bitsOf 9 509 ++ bitsOf 4 0 ++
        bitsOf 4 13) ∧ t.readerOk ∧ t.streamField t.br.pos 16 = 0 :=
  ⟨onBits (bitsOf 16 65535 ++ bitsOf 5 0 ++ bitsOf 5 18 ++ bitsOf 9 0 ++ bitsOf 9 509 ++ bitsOf 4 0 ++ bitsOf 4 13) 1,
    started [] 1, readerOk_of (by decide +kernel), spells_of (by decide +kernel), readerOk_of (by decide +kernel),
    by decide +kernel⟩

theorem witness_SubblockSound :
    ∃ s t : State, exec .bdInitSubblock s = .next t ∧ t.st ≠ .fault := by
  obtain ⟨t, h, ht⟩ := gives_next (p := fun t => t.st == .await)
    (show gives (exec .bdInitSubblock (started bytesP2 6)) _ = true by decide +kernel)
  exact ⟨_, t, h, by simp only [beq_iff_eq] at ht; simp [ht]⟩

theorem witness_EmitAppends : ∃ s : State, s.memoryOk ∧ s.produced.toNat + 1 = s.outSize.toNat :=
  ⟨started [] 1, memoryOk_of (by decide +kernel), by decide +kernel⟩

/-- The largest class with its largest delta, and class 0. -/
theorem witness_OffsetReads :
    ∃ s t : State, s.readerOk ∧ s.tabs.tOff.spells 13 ∧ s.spells (offBits s.tabs 13 4095) ∧ t.readerOk ∧
      t.tabs.tOff.spells 0 ∧ t.spells (offBits t.tabs 0 0) :=
  ⟨{ started [0xFF, 0xFF, 0xFF, 0x80] 1 with tabs := tables }, { started [] 1 with tabs := tables },
    readerOk_of (by decide +kernel), offV11.spells_word 13 (by decide +kernel) offV11_sound (by decide +kernel),
    spells_of (by decide +kernel), readerOk_of (by decide +kernel),
    offV11.spells_word 0 (by decide +kernel) offV11_sound (by decide +kernel), spells_of (by decide +kernel)⟩

/-- R131's example: the distance is all that is written, the run ends the block. -/
theorem witness_CopyRepeats :
    ∃ (s : State) (n : BitVec 9) (d : BitVec 14), (Instr.lzCopy n d).wf = true ∧ s.memoryOk ∧ s.writtenBelow ∧
      d.toNat ≤ s.produced.toNat ∧ s.produced.toNat + n.toNat ≤ s.outSize.toNat :=
  ⟨withOutput (started [] 9) [0x61, 0x62, 0x63], 6, 3, by decide +kernel, memoryOk_of (by decide +kernel),
    writtenBelow_of (by decide +kernel), by decide +kernel, by decide +kernel⟩

/-- One byte too far back; one byte too many. -/
theorem witness_CopyFaults :
    ∃ (s t : State) (n : BitVec 9) (d : BitVec 14), s.produced.toNat < d.toNat ∧ d.toNat ≤ t.produced.toNat ∧
      t.outSize.toNat < t.produced.toNat + n.toNat :=
  ⟨withOutput (started [] 9) [0x61, 0x62], withOutput (started [] 8) [0x61, 0x62, 0x63], 6, 3, by decide +kernel,
    by decide +kernel, by decide +kernel⟩

/-- `MATCH 3, 10` of P3 with the code of V11. -/
theorem witness_MatchCopies :
    ∃ (s : State) (c : BitVec 9) (p d : Nat), (Instr.bdMatch c).wf = true ∧ s.readerOk ∧ s.memoryOk ∧ s.writtenBelow ∧
      s.tabs.tOff.spells p ∧ p ≤ 13 ∧ d < 2 ^ (p - 1) ∧ s.spells (offBits s.tabs p d) ∧
      distance p d ≤ s.produced.toNat ∧ s.produced.toNat + (c.toNat - 253) ≤ s.outSize.toNat :=
  ⟨withOutput { started [0xF1] 13 with tabs := tables } [1, 2, 3, 4, 5, 6, 7, 8, 9, 10], 256, 4, 1, by decide +kernel,
    readerOk_of (by decide +kernel), memoryOk_of (by decide +kernel), writtenBelow_of (by decide +kernel),
    offV11.spells_word 4 (by decide +kernel) offV11_sound (by decide +kernel), by decide +kernel, by decide +kernel,
    spells_of (by decide +kernel), by decide +kernel, by decide +kernel⟩

/-- The two units of P2. -/
theorem witness_UnitLiteral :
    ∃ (s : State) (c : Byte), s.isActive = true ∧ s.remaining ≠ 0 ∧ s.readerOk ∧ s.memoryOk ∧
      s.produced.toNat < s.outSize.toNat ∧ s.tabs.tLit.spells c.toNat ∧ s.spells (codeBits s.tabs.tLit c.toNat) :=
  ⟨{ started [0x40] 6 with st := .decoding, remaining := 2, tabs := tables }, 65, by decide +kernel, by decide +kernel,
    readerOk_of (by decide +kernel), memoryOk_of (by decide +kernel), by decide +kernel,
    litP2.spells_word 65 (by decide +kernel) litP2_sound (by decide +kernel), spells_of (by decide +kernel)⟩

theorem witness_UnitMatch :
    ∃ (s : State) (c p d : Nat), s.isActive = true ∧ s.remaining ≠ 0 ∧ s.readerOk ∧ s.memoryOk ∧ s.writtenBelow ∧
      256 ≤ c ∧ c ≤ 509 ∧ s.tabs.tLit.spells c ∧ s.tabs.tOff.spells p ∧ p ≤ 13 ∧ d < 2 ^ (p - 1) ∧
      s.spells (codeBits s.tabs.tLit c ++ offBits s.tabs p d) ∧ distance p d ≤ s.produced.toNat ∧
      s.produced.toNat + (c - 253) ≤ s.outSize.toNat :=
  ⟨withOutput { started [0x80] 6 with
      st := .decoding, remaining := 1, tabs := ⟨lenV20, litP2, onlySymbol 14 4 0⟩ } [0x41], 258, 0, 0,
    by decide +kernel, by decide +kernel, readerOk_of (by decide +kernel), memoryOk_of (by decide +kernel),
    writtenBelow_of (by decide +kernel), by decide +kernel, by decide +kernel,
    litP2.spells_word 258 (by decide +kernel) litP2_sound (by decide +kernel),
    (onlySymbol 14 4 0).spells_shortcut 0 (by decide +kernel) (by decide +kernel) (by decide +kernel), by decide +kernel,
    by decide +kernel, spells_of (by decide +kernel), by decide +kernel, by decide +kernel⟩

theorem witness_UnitInitialises : ∃ s : State, s.isActive = true ∧ s.remaining = 0 :=
  ⟨started bytesP2 6, by decide +kernel, by decide +kernel⟩

/-- F7. -/
theorem witness_UnitPrecise :
    ∃ s t : State, s.isActive = true ∧ exec .step s = .next t ∧ exec .bdUnit s = .next t ∧ t.st = .fault := by
  obtain ⟨t, h, ht⟩ := gives_next (p := fun t => t.st == .fault)
    (show gives (exec .step (started [] 1)) _ = true by decide +kernel)
  refine ⟨_, t, by decide +kernel, h, ?_, by simpa using ht⟩
  rw [← h]
  simp [exec, execStep, execBdUnit, show (started [] 1).isFault = false by decide +kernel,
    show (started [] 1).isActive = true by decide +kernel]

/-- P2's first unit. -/
theorem witness_UnitNextState :
    ∃ s t : State, s.isActive = true ∧ s.remaining = 0 ∧ exec .step s = .next t ∧ t.st ≠ .fault := by
  obtain ⟨t, h, ht⟩ := gives_next (p := fun t => t.st == .decoding)
    (show gives (exec .step (started bytesP2 6)) _ = true by decide +kernel)
  exact ⟨_, t, by decide +kernel, by decide +kernel, h, by simp only [beq_iff_eq] at ht; simp [ht]⟩

theorem witness_RaiseRecords : ∃ s t : State, s.st ≠ .fault ∧ t.st = .fault :=
  ⟨State.reset, { State.reset with st := .fault, err := 1 }, nofun, rfl⟩

/-- A state whose parser stands at a place, the stream beginning with these bytes. -/
def placed (site : Site) (bytes : List Byte) : State := { started bytes 6 with site := site, tabs := tables }

theorem witness_ElementSubhdr : ∃ s : State, s.readerOk ∧ s.site = .subhdr :=
  ⟨placed .subhdr [0x00, 0x02], readerOk_of (by decide +kernel), rfl⟩

theorem witness_ElementCount :
    ∃ s t : State, s.readerOk ∧ s.site = .count .tLit ∧ countField (.count9 511) = some (.tLit, 511) ∧ t.readerOk ∧
      t.site = .count .tOff ∧ countField (.count4 0) = some (.tOff, 0) :=
  ⟨placed (.count .tLit) [0xFF, 0x80], placed (.count .tOff) [], readerOk_of (by decide +kernel), rfl, rfl,
    readerOk_of (by decide +kernel), rfl, rfl⟩

/-- The last symbol of an alphabet, and the first past it. -/
theorem witness_ElementDegen :
    ∃ s : State, s.readerOk ∧ s.site = .degen .tOff ∧ degenField (.degen4 13) = some (.tOff, 13) ∧
      13 < TableId.size .tOff ∧ degenField (.degen4 14) = some (.tOff, 14) ∧ TableId.size .tOff ≤ 14 :=
  ⟨placed (.degen .tOff) [0xD0], readerOk_of (by decide +kernel), rfl, rfl, by decide, rfl, by decide⟩

/-- F6's `T_LEN`: three lengths of 1. -/
def lenF6 : Table 19 5 := codeOf 19 5 [(0, 1), (1, 1), (2, 1)]

/-- A `T_LIT` that takes the whole code space. -/
def fullLit : Table 510 9 := codeOf 510 9 [(0, 1), (1, 1)]

/-- F6: HSKIP 0 is read, then CT.ASSIGN faults. -/
theorem test_hskip_oversubscribed :
    gives (exec (.hskip 0) { placed (.hskip .tLen ⟨3, 3, 3⟩) [] with tabs := ⟨lenF6, litP2, offV11⟩ })
      (fun t => t.st == .fault && t.err == 6 && t.br.pos == 2) = true := by decide +kernel

/-- V23's five lengths of 2, closed by a CL.ZERO of no bits: the entry is counted, then CT.ASSIGN faults. -/
theorem test_cl_zero_oversubscribed :
    gives (exec .clZero { placed (.cl ⟨6, 5, 5⟩) [] with
        tabs := ⟨onlySymbol 19 5 0, codeOf 510 9 [(0, 2), (1, 2), (2, 2), (3, 2), (4, 2)], offV11⟩ })
      (fun t => t.st == .fault && t.err == 6 && t.br.pos == 0) = true := by decide +kernel

/-- One place for each clause: the skip is due; a further length; the alphabet's end; the codes; too many. -/
theorem witness_ElementHlen :
    ∃ a b c d e : State, a.readerOk ∧ a.site = .hlen .tLen ⟨4, 2, 2⟩ ∧ b.readerOk ∧ b.site = .hlen .tOff ⟨15, 12, 12⟩ ∧
      c.readerOk ∧ c.site = .hlen .tOff ⟨15, 13, 13⟩ ∧ d.readerOk ∧ d.site = .hlen .tOff ⟨2, 1, 1⟩ ∧
      (d.tab .tOff).lensOk ∧
      kraft ((List.range 14).map fun x => if x = 1 then 1 else (d.tab .tOff).lenAt x) ≤ 2 ^ 16 ∧ e.readerOk ∧
      e.site = .hlen .tOff ⟨3, 2, 2⟩ ∧ (e.tab .tOff).lensOk ∧
      2 ^ 16 < kraft ((List.range 14).map fun x => if x = 2 then 1 else (e.tab .tOff).lenAt x) ∧
      (Instr.hlenDirect 1).wf = true ∧ hlenField (.hlenDirect 1) = some 1 ∧ hlenField .hlenEsc16 = some 16 :=
  ⟨placed (.hlen .tLen ⟨4, 2, 2⟩) [0x20], placed (.hlen .tOff ⟨15, 12, 12⟩) [0x20], placed (.hlen .tOff ⟨15, 13, 13⟩) [0x20],
    { started [0x20] 6 with site := .hlen .tOff ⟨2, 1, 1⟩, tabs := twoOfOne.tabs },
    { started [0x20] 6 with site := .hlen .tOff ⟨3, 2, 2⟩, tabs := twoOfOne.tabs },
    readerOk_of (by decide +kernel), rfl, readerOk_of (by decide +kernel), rfl, readerOk_of (by decide +kernel), rfl,
    readerOk_of (by decide +kernel), rfl, Table.lensOk_of_entries _ (by decide +kernel), by decide +kernel,
    readerOk_of (by decide +kernel), rfl, Table.lensOk_of_entries _ (by decide +kernel), by decide +kernel, rfl, rfl, rfl⟩

/-- A further length; the codes, the index at the alphabet's end; too many (F6); the end with a length due; past the end. -/
theorem witness_ElementHskip :
    ∃ a b e c d : State, a.readerOk ∧ a.site = .hskip .tLen ⟨5, 3, 3⟩ ∧ 3 + (3#2).toNat < TableId.size .tLen ∧
      b.readerOk ∧ b.site = .hskip .tLen ⟨3, 16, 3⟩ ∧ 16 + (3#2).toNat ≤ TableId.size .tLen ∧ (b.tab .tLen).lensOk ∧
      kraft (b.tab .tLen).lens ≤ 2 ^ 16 ∧ e.readerOk ∧ e.site = .hskip .tLen ⟨3, 16, 3⟩ ∧ (e.tab .tLen).lensOk ∧
      2 ^ 16 < kraft (e.tab .tLen).lens ∧ c.readerOk ∧ c.site = .hskip .tLen ⟨4, 16, 3⟩ ∧
      16 + (3#2).toNat = TableId.size .tLen ∧ d.readerOk ∧ d.site = .hskip .tLen ⟨4, 17, 3⟩ ∧
      TableId.size .tLen < 17 + (3#2).toNat :=
  ⟨placed (.hskip .tLen ⟨5, 3, 3⟩) [0xC0], placed (.hskip .tLen ⟨3, 16, 3⟩) [0xC0],
    { placed (.hskip .tLen ⟨3, 16, 3⟩) [0xC0] with tabs := ⟨lenF6, litP2, offV11⟩ }, placed (.hskip .tLen ⟨4, 16, 3⟩) [0xC0],
    placed (.hskip .tLen ⟨4, 17, 3⟩) [0xC0], readerOk_of (by decide +kernel), rfl, by decide,
    readerOk_of (by decide +kernel), rfl, by decide, Table.lensOk_of_entries _ (by decide +kernel), by decide +kernel,
    readerOk_of (by decide +kernel), rfl, Table.lensOk_of_entries _ (by decide +kernel), by decide +kernel,
    readerOk_of (by decide +kernel), rfl, by decide, readerOk_of (by decide +kernel), rfl, by decide⟩

/-- A further entry; the codes, the entry ending at the alphabet's end; too many there; an entry past it. -/
theorem witness_ElementCl :
    ∃ a b d c : State, a.readerOk ∧ a.site = .cl ⟨8, 0, 0⟩ ∧ 0 + (clLens (.clZrun9 49)).length ≤ 510 ∧
      b.readerOk ∧ b.site = .cl ⟨8, 509, 7⟩ ∧ 509 + (clLens (.clLen 4)).length ≤ 510 ∧ (b.tab .tLit).lensOk ∧
      kraft ((List.range 510).map fun x => if x = 509 then 2 else (b.tab .tLit).lenAt x) ≤ 2 ^ 16 ∧ d.readerOk ∧
      d.site = .cl ⟨8, 509, 7⟩ ∧ (d.tab .tLit).lensOk ∧
      2 ^ 16 < kraft ((List.range 510).map fun x => if x = 509 then 2 else (d.tab .tLit).lenAt x) ∧ c.readerOk ∧
      c.site = .cl ⟨8, 510, 7⟩ ∧ 510 < 510 + (clLens .clZero).length := by
  refine ⟨placed (.cl ⟨8, 0, 0⟩) [0x86, 0x20],
    { placed (.cl ⟨8, 509, 7⟩) [0xC0] with tabs := ⟨lenV20, Table.zero 510 9, offV11⟩ },
    { placed (.cl ⟨8, 509, 7⟩) [0xC0] with tabs := ⟨lenV20, fullLit, offV11⟩ },
    placed (.cl ⟨8, 510, 7⟩) [], readerOk_of (by decide +kernel), rfl, by decide +kernel, readerOk_of (by decide +kernel),
    rfl, by decide +kernel, fun a => ?_, ?_, readerOk_of (by decide +kernel), rfl,
    Table.lensOk_of_entries _ (by decide +kernel), by decide +kernel, readerOk_of (by decide +kernel), rfl, by decide +kernel⟩
  · show (Table.zero 510 9).lenAt a ≤ _
    simp
  · show kraft ((List.range 510).map fun x => if x = 509 then 2 else (Table.zero 510 9).lenAt x) ≤ _
    simp only [Table.lenAt_zero]
    decide +kernel

theorem witness_ElementUnit :
    ∃ s : State, s.readerOk ∧ s.site = .unit ∧ s.memoryOk ∧ s.produced.toNat < s.outSize.toNat :=
  ⟨placed .unit [0x40], readerOk_of (by decide +kernel), rfl, memoryOk_of (by decide +kernel), by decide +kernel⟩

/-- A copy that ends the block from its first byte on; one byte too far back; one byte too many. -/
theorem witness_ElementOff :
    ∃ a b c : State, a.readerOk ∧ a.site = .off 256 ∧ offField (.off4 1) = some (4, 1) ∧ a.memoryOk ∧ a.writtenBelow ∧
      distance 4 1 ≤ a.produced.toNat ∧ a.produced.toNat + ((256#9).toNat - 253) ≤ a.outSize.toNat ∧
      b.readerOk ∧ b.site = .off 256 ∧ b.produced.toNat < distance 4 1 ∧
      c.readerOk ∧ c.site = .off 256 ∧ distance 4 1 ≤ c.produced.toNat ∧
      c.outSize.toNat < c.produced.toNat + ((256#9).toNat - 253) :=
  ⟨withOutput { started [0xF1] 13 with tabs := tables, site := .off 256 } [1, 2, 3, 4, 5, 6, 7, 8, 9, 10],
    withOutput { started [0xF1] 13 with tabs := tables, site := .off 256 } [1, 2, 3, 4, 5, 6, 7, 8, 9],
    withOutput { started [0xF1] 12 with tabs := tables, site := .off 256 } [1, 2, 3, 4, 5, 6, 7, 8, 9, 10],
    readerOk_of (by decide +kernel), rfl, rfl, memoryOk_of (by decide +kernel), writtenBelow_of (by decide +kernel),
    by decide +kernel, by decide +kernel, readerOk_of (by decide +kernel), rfl, by decide +kernel,
    readerOk_of (by decide +kernel), rfl, by decide +kernel, by decide +kernel⟩

/-- A new sub-block, and a sub-block in progress. -/
theorem witness_ElementsAreStep :
    ∃ (s t : State) (p : List Request), s.isActive = true ∧ s.site = .none ∧ s.remaining = 0 ∧
      p.head? ≠ some (.deliver .reset) ∧ t.isActive = true ∧ t.site = .none ∧ t.remaining ≠ 0 ∧ t.tabs.tLit.sound ∧
      t.tabs.tOff.sound :=
  ⟨started bytesP2 6, { started [0x40] 6 with st := .decoding, remaining := 2, tabs := tables }, [], by decide +kernel,
    by decide +kernel, by decide +kernel, nofun, by decide +kernel, by decide +kernel, by decide +kernel, litP2_sound,
    offV11_sound⟩

theorem witness_DecodeEncode :
    ∃ (x : Tables) (p q : Site), (Instr.containerHeader 5 12).wf = true ∧
      (∀ bits, encode x (.containerHeader 5 12) ≠ .bits bits) ∧ (Instr.off13 4095).wf = true ∧
      fits x p (.off13 4095) ∧ encode x (.off13 4095) = .bits (offBits x 13 4095) ∧ (Instr.matchSym 258).wf = true ∧
      fits x q (.matchSym 258) :=
  ⟨tables, .off 258, .unit, rfl, nofun, rfl,
    ⟨⟨_, rfl⟩, offV11.spells_word 13 (by decide +kernel) offV11_sound (by decide +kernel)⟩, by decide +kernel,
    by decide +kernel, rfl, litP2.spells_word 258 (by decide +kernel) litP2_sound (by decide +kernel)⟩

/-- A place for each clause: an element, no code word, a class past the alphabet; a form, a header and a marker that
cannot be read, bits where none are parsed, an operand out of range; a STEP by elements with and without units left; no
block left, a header, no header. -/
theorem witness_StepRunsDecoded :
    ∃ a b b' c d d' d'' d''' e f g h i : State,
      (a.parsing = true ∧ a.resetPending = false ∧ decodeElement a.site a.tabs a.br.reg = .ok (.hskip 3)) ∧
      (b.parsing = true ∧ b.resetPending = false ∧ decodeElement b.site b.tabs b.br.reg = .error .noCodeWord) ∧
      (b'.parsing = true ∧ b'.resetPending = false ∧
        decodeElement b'.site b'.tabs b'.br.reg = .error .classOutside) ∧
      (c.parsing = false ∧ c.port = [.deliver (.command 2 0 0)] ∧ decode c.site c.tabs (.command 2 0 0) = .ok .step) ∧
      (d.parsing = false ∧ d.port = [.deliver (.header [])] ∧ decode d.site d.tabs (.header []) = .error .shortHeader) ∧
      (d'.parsing = false ∧ d'.port = [.deliver (.header (List.replicate 12 0))] ∧
        decode d'.site d'.tabs (.header (List.replicate 12 0)) = .error .badMarker) ∧
      (d''.parsing = false ∧ d''.port = [.deliver (.bits [true])] ∧
        decode d''.site d''.tabs (.bits [true]) = .error .nothingParsed) ∧
      (d'''.parsing = false ∧ d'''.port = [.deliver (.operation (.lzCopy 2 1))] ∧
        decode d'''.site d'''.tabs (.operation (.lzCopy 2 1)) = .error .operandRange) ∧
      (e.parsing = false ∧ e.port = [.byElements] ∧ e.isActive = true ∧ e.remaining = 0) ∧
      (f.parsing = false ∧ f.port = [.byElements] ∧ f.isActive = true ∧ f.remaining ≠ 0) ∧
      (g.parsing = false ∧ g.port = [.container] ∧ g.host.finished = true) ∧
      (h.parsing = false ∧ h.port = [.container] ∧ h.host.finished = false ∧
        decodeHeader ((h.host.file.drop h.host.cursor).take 12) = .ok (.containerHeader 0 0)) ∧
      (i.parsing = false ∧ i.port = [.container] ∧ i.host.finished = false ∧
        decodeHeader ((i.host.file.drop i.host.cursor).take 12) = .error .shortHeader) :=
  ⟨placed (.hskip .tLen ⟨5, 3, 3⟩) [0xC0], { placed (.cl ⟨1, 0, 0⟩) [0xFF] with tabs := noTables },
    { placed (.off 256) [0xFF] with tabs := ⟨lenV20, litP2, onlySymbol 14 4 14⟩ },
    { State.reset with port := [.deliver (.command 2 0 0)] }, { State.reset with port := [.deliver (.header [])] },
    { State.reset with port := [.deliver (.header (List.replicate 12 0))] },
    { State.reset with port := [.deliver (.bits [true])] },
    { State.reset with port := [.deliver (.operation (.lzCopy 2 1))] },
    { started bytesP2 6 with port := [.byElements] }, { started bytesP2 6 with port := [.byElements], remaining := 1 },
    { State.reset with port := [.container] },
    { State.reset.setHost { State.reset.host with file := [0x4C, 0x5A, 0x32, 0x4B, 0, 0, 0, 0, 0, 0, 0, 0] } with
      port := [.container] },
    { State.reset.setHost { State.reset.host with file := [0x4C, 0x5A, 0x32, 0x4B, 5, 0, 0, 0, 12, 0, 0] } with
      port := [.container] },
    ⟨rfl, rfl, by decide +kernel⟩, ⟨rfl, rfl, by decide +kernel⟩, ⟨rfl, rfl, by decide +kernel⟩, ⟨rfl, rfl, rfl⟩,
    ⟨rfl, rfl, rfl⟩, ⟨rfl, rfl, by decide +kernel⟩, ⟨rfl, rfl, rfl⟩, ⟨rfl, rfl, by decide +kernel⟩,
    ⟨by decide +kernel, rfl, by decide +kernel, by decide +kernel⟩,
    ⟨by decide +kernel, rfl, by decide +kernel, by decide +kernel⟩, ⟨rfl, rfl, by decide +kernel⟩,
    ⟨rfl, rfl, by decide +kernel, by decide +kernel⟩, ⟨rfl, rfl, by decide +kernel, by decide +kernel⟩⟩

/-- What the invariants hold of: the engine in the middle of P2's block, a STEP asked for. -/
def midBlock : State :=
  { withOutput { started [0x80] 6 with remaining := 1 } [0x41] with
    st := .decoding, tabs := ⟨lenV20, litP2, onlySymbol 14 4 0⟩, port := [.deliver (.command 2 0 0)] }

theorem midBlock_step : ∃ t, step midBlock = .next t ∧ (t.st == .done) = true :=
  gives_next (show gives (step midBlock) (fun t => t.st == .done) = true by decide +kernel)

theorem midBlock_host : ∀ r, r ∈ midBlock.port → r.isCommand = true ∧ r.fromHost = true := by decide +kernel

theorem witness_MemoryKept : ∃ s t : State, s.memoryOk ∧ step s = .next t := by
  obtain ⟨t, h, _⟩ := midBlock_step
  exact ⟨_, t, memoryOk_of (by decide +kernel), h⟩

theorem witness_ControlKept : ∃ s t : State, s.controlOk ∧ step s = .next t := by
  obtain ⟨t, h, _⟩ := midBlock_step
  exact ⟨_, t, ⟨by decide +kernel, by decide +kernel, by decide +kernel, by decide +kernel⟩, h⟩

theorem witness_OutputKept : ∃ s t : State, s.memoryOk ∧ s.outputOk ∧ step s = .next t := by
  obtain ⟨t, h, _⟩ := midBlock_step
  exact ⟨_, t, memoryOk_of (by decide +kernel), ⟨fun r hr => (midBlock_host r hr).2, by decide +kernel, fun _ =>
    ⟨by decide +kernel, by decide +kernel, by decide +kernel, by decide +kernel, by decide +kernel⟩⟩, h⟩

theorem witness_StreamKept : ∃ s t : State, s.streamOk ∧ step s = .next t := by
  obtain ⟨t, h, _⟩ := midBlock_step
  exact ⟨_, t, ⟨fun r hr => (midBlock_host r hr).2, by decide +kernel, fun _ => readerOk_of (by decide +kernel)⟩, h⟩

theorem witness_TablesKept : ∃ s t : State, s.tablesOk ∧ step s = .next t := by
  obtain ⟨t, h, _⟩ := midBlock_step
  refine ⟨_, t, ⟨fun r hr => (midBlock_host r hr).1, by decide +kernel, nofun, fun _ =>
    ⟨by decide +kernel, lenV20_sound, litP2_sound, ?_⟩⟩, h⟩
  exact ((onlySymbol 14 4 0).spells_shortcut 0 (by decide +kernel) (by decide +kernel) (by decide +kernel)).1

/-- STEP in FAULT. -/
theorem witness_FaultSticky :
    ∃ (i : Instr) (s t : State), s.controlOk ∧ s.st = .fault ∧ exec i s = .next t :=
  ⟨.step, { State.reset with st := .fault, err := 2 }, _,
    ⟨by decide +kernel, by decide +kernel, by decide +kernel, by decide +kernel⟩, rfl, rfl⟩

/-- A unit that writes. -/
theorem witness_OutputAscends :
    ∃ (i : Instr) (s t : State), s.memoryOk ∧ exec i s = .next t ∧ (∀ a b, i ≠ .start a b) ∧ i ≠ .reset ∧
      (∀ a b, i ≠ .containerHeader a b) := by
  obtain ⟨t, h, _⟩ := gives_next (p := fun t => t.produced == 6)
    (show gives (exec .step midBlock) _ = true by decide +kernel)
  exact ⟨.step, midBlock, t, memoryOk_of (by decide +kernel), h, nofun, nofun, nofun⟩

end Sys2Proof.Tests
end

section
/-! The step: what each of its branches serves, and that it runs what the decoder reads (O53). -/

namespace Sys2Proof.Machine

variable {s : State}

/-! ## What a step serves -/

/-- Inside a STEP run element by element, no reset being asked for (R50, R190). -/
theorem step_of_parsing (hp : s.parsing = true) (hr : s.resetPending = false) : step s = stepElement s := by
  simp [step, hp, hr]

/-- Between commands (R4, R140). -/
theorem step_of_not_parsing (hp : s.parsing = false) : step s = stepRequest s := by
  simp [step, hp]

theorem stepRequest_of_nil (h : s.port = []) : stepRequest s = .next s := by
  simp [stepRequest, h]

theorem stepRequest_of_deliver {f : Form} {rest : List Request} (h : s.port = .deliver f :: rest) :
    stepRequest s = stepForm f (s.setPort rest) := by
  simp [stepRequest, h]

theorem stepRequest_of_container {rest : List Request} (h : s.port = .container :: rest) :
    stepRequest s = stepContainer (s.setPort rest) := by
  simp [stepRequest, h]

theorem stepRequest_of_byElements {rest : List Request} (h : s.port = .byElements :: rest) :
    stepRequest s = .next (beginByElements (s.setPort rest)) := by
  simp [stepRequest, h]

/-! ## What the decoder reads is run, what it cannot read is `rejected` -/

theorem stepElement_of_ok (s : State) {i : Instr} (h : decodeElement s.site s.tabs s.br.reg = .ok i) :
    stepElement s = exec i s := by
  simp [stepElement, State.fetchElement, h]

theorem stepElement_of_error (s : State) {r : Reject} (h : decodeElement s.site s.tabs s.br.reg = .error r) :
    stepElement s = s.rejected r := by
  simp [stepElement, State.fetchElement, h]

theorem stepForm_of_ok (s : State) {f : Form} {i : Instr} (h : decode s.site s.tabs f = .ok i) :
    stepForm f s = exec i s := by
  simp [stepForm, h]

theorem stepForm_of_error (s : State) {f : Form} {r : Reject} (h : decode s.site s.tabs f = .error r) :
    stepForm f s = s.rejected r := by
  simp [stepForm, h]

theorem stepContainer_of_finished (s : State) (hf : s.host.finished = true) : stepContainer s = .next s := by
  simp [stepContainer, hf]

theorem stepContainer_of_ok (s : State) {i : Instr} (hf : s.host.finished = false) (h : s.fetchHeader = .ok i) :
    stepContainer s = exec i s := by
  simp [stepContainer, hf, h]

theorem stepContainer_of_error (s : State) {r : Reject} (hf : s.host.finished = false) (h : s.fetchHeader = .error r) :
    stepContainer s = s.rejected r := by
  simp [stepContainer, hf, h]

/-- A header is rejected for its size or its marker, nothing else (R66, R150). -/
theorem decodeHeader_error {bytes : List Byte} {r : Reject} (h : decodeHeader bytes = .error r) :
    r = .shortHeader ∨ r = .badMarker := by
  unfold decodeHeader at h
  split at h
  · split at h
    · cases h
    · cases h
      exact .inr rfl
  · cases h
    exact .inl rfl

/-- A header that cannot be read makes the container malformed (R150, R170). -/
theorem State.rejected_header {r : Reject} (h : r = .shortHeader ∨ r = .badMarker) :
    s.rejected r = .next (s.setHost s.host.fail) := by
  rcases h with rfl | rfl <;> rfl

/-! ## A STEP put at its unit's first element -/

theorem State.isFault_of_isActive (h : s.isActive = true) : s.isFault = false := by
  have hst : s.st = .await ∨ s.st = .decoding := of_decide_eq_true h
  rcases hst with hst | hst <;> simp [State.isFault, hst]

theorem beginByElements_of_remaining_zero (ha : s.isActive = true) (h0 : s.remaining = 0) :
    beginByElements s = s.setSite .subhdr := by
  simp [beginByElements, State.isFault_of_isActive ha, ha, h0]

theorem beginByElements_of_remaining_ne_zero (ha : s.isActive = true) (h0 : s.remaining ≠ 0) :
    beginByElements s = beginUnit s := by
  rw [beginByElements, State.isFault_of_isActive ha, ha, if_neg Bool.false_ne_true, if_pos rfl, if_neg h0]

/-! ## The step on each kind of request -/

theorem step_of_deliver {f : Form} {rest : List Request} (hp : s.parsing = false) (h : s.port = .deliver f :: rest) :
    step s = stepForm f (s.setPort rest) :=
  (step_of_not_parsing hp).trans (stepRequest_of_deliver h)

theorem step_of_container {rest : List Request} (hp : s.parsing = false) (h : s.port = .container :: rest) :
    step s = stepContainer (s.setPort rest) :=
  (step_of_not_parsing hp).trans (stepRequest_of_container h)

theorem step_of_byElements {rest : List Request} (hp : s.parsing = false) (h : s.port = .byElements :: rest) :
    step s = .next (beginByElements (s.setPort rest)) :=
  (step_of_not_parsing hp).trans (stepRequest_of_byElements h)

/-- Settles O53: `step` is followed into the branch that serves what is due, and there to `exec` if the decoder reads an
instruction, to `State.rejected` if it does not. -/
theorem stepRunsDecoded : Obligations.StepRunsDecoded := by
  unfold Obligations.StepRunsDecoded
  intro s
  refine ⟨fun hp hr => ?element, fun hp => ⟨fun hport => ?idle, fun f rest hport => ?deliver,
    fun rest hport ha => ?byElements, fun rest hport => ?container⟩⟩
  case element =>
    rw [step_of_parsing hp hr]
    exact ⟨fun _ => stepElement_of_ok s, stepElement_of_error s, stepElement_of_error s⟩
  case idle => rw [step_of_not_parsing hp, stepRequest_of_nil hport]
  case deliver =>
    rw [step_of_deliver hp hport]
    have rejects := fun r => stepForm_of_error (s.setPort rest) (f := f) (r := r)
    exact ⟨fun _ => stepForm_of_ok (s.setPort rest), fun hd => hd.elim (rejects .shortHeader) (rejects .badMarker),
      rejects .nothingParsed, rejects .operandRange⟩
  case byElements =>
    rw [step_of_byElements hp hport]
    exact ⟨fun h0 => congrArg _ (beginByElements_of_remaining_zero ha h0),
      fun h0 => congrArg _ (beginByElements_of_remaining_ne_zero ha h0)⟩
  case container =>
    rw [step_of_container hp hport]
    exact ⟨stepContainer_of_finished (s.setPort rest), fun hf =>
      ⟨fun _ => stepContainer_of_ok (s.setPort rest) hf, fun _ hd =>
        (stepContainer_of_error (s.setPort rest) hf hd).trans (State.rejected_header (decodeHeader_error hd))⟩⟩

end Sys2Proof.Machine
end

section
/-! What a step leaves, said once: a property that the commands keep (`KeptByCommands`) is kept by every step, given
what remains of it for the stream elements, the parser's start and the operations invoked by name (`step_kept`). -/

namespace Sys2Proof.Machine

variable {α : Type} {I : State → Prop} {stop : Fault → Prop} {s : State}

/-! ## Outcomes -/

/-- A next state has the property `I`; the model stops only with an `f` for which `stop f`. -/
def Kept (I : State → Prop) (stop : Fault → Prop) : Host.Outcome State Fault Refusal → Prop
  | .next t => I t
  | .fault f => stop f
  | .refused _ => True

theorem Kept.of_next {o : Host.Outcome State Fault Refusal} (h : Kept I stop o) {t : State} (ho : o = .next t) :
    I t := by
  subst ho
  exact h

theorem Kept.safe {o : Host.Outcome State Fault Refusal} (h : Kept I (fun _ => False) o) : Safe o := by
  rintro f rfl
  exact h

/-- The operation keeps `I`: in the state it answers, and in the state a raise leaves. -/
def Res.keeps (r : Res α) (I : State → Prop) (stop : Fault → Prop) : Prop :=
  r.leaves (fun _ u => I u) (fun e u => I (u.raise e)) stop

theorem Res.keeps.kept {r : Res Unit} (h : r.keeps I stop) : Kept I stop r.outcome := by
  cases r with
  | ok _ u => exact h
  | raised v =>
    obtain ⟨e, u, rfl, hu⟩ := h
    exact hu
  | stop f => exact h

theorem Res.keeps.keptRet {r : Res Nat} (h : r.keeps I stop) (hret : ∀ u v, I u → I (u.setRet v)) :
    Kept I stop r.outcomeRet := by
  cases r with
  | ok v u => exact hret u v h
  | raised v =>
    obtain ⟨e, u, rfl, hu⟩ := h
    exact hu
  | stop f => exact h

/-- What is done after a command, faulted or not, keeps `I` if the command does (R171). -/
theorem Res.keeps.completed {r : Res Unit} (h : r.keeps I stop) {k : State → State} (hk : ∀ u, I u → I (k u)) :
    (r.completed k).keeps I stop := by
  cases r with
  | ok _ u => exact hk u h
  | raised v =>
    obtain ⟨e, u, rfl, hu⟩ := h
    exact hk _ hu
  | stop f => exact h

/-- Two accounts of one operation: what it answers has both properties. -/
theorem Res.leaves.and {r : Res α} {ok ok' : α → State → Prop} {bad bad' : ErrCode → State → Prop}
    {stop stop' : Fault → Prop} (h : r.leaves ok bad stop) (h' : r.leaves ok' bad' stop') :
    r.leaves (fun a u => ok a u ∧ ok' a u) bad (fun f => stop f ∧ stop' f) := by
  cases r with
  | ok a u => exact ⟨h, h'⟩
  | raised v => exact h
  | stop f => exact ⟨h, h'⟩

/-- Two properties that one operation keeps. -/
theorem Res.keeps.and {J : State → Prop} {stop' : Fault → Prop} {r : Res α} (h : r.keeps I stop)
    (h' : r.keeps J stop') : r.keeps (fun u => I u ∧ J u) stop := by
  cases r with
  | ok a u => exact ⟨h, h'⟩
  | raised v =>
    obtain ⟨e, u, rfl, hu⟩ := h
    obtain ⟨e', u', he, hu'⟩ := h'
    exact ⟨e, u, rfl, hu, he ▸ hu'⟩
  | stop f => exact h

/-! ## START -/

/-- START (R141): what it binds and clears; of the bit reader's registers nothing is said here. -/
theorem startBlock_eq (a b : Word) (s : State) : ∃ r, startBlock a b s =
    { s with
      inSize := a, outSize := b, err := 0, br := r, remaining := 0, produced := 0, lastN := 0
      st := if b = 0 then .done else .await
      site := if b = 0 then .pad else .none } := by
  unfold startBlock
  rw [(State.brInit_readsOnly _).eq]
  exact ⟨_, rfl⟩

/-! ## The commands -/

/-- The instruction is a command, a register read, a reset or the container header. -/
def isCommand : Instr → Bool
  | .cmdReserved | .start _ _ | .step | .run | .read _ | .reset | .containerHeader _ _ => true
  | _ => false

/-- `I` is kept by each thing that a command can do; `stop` says how a unit can stop the model. -/
structure KeptByCommands (I : State → Prop) (stop : Fault → Prop) : Prop where
  raise : ∀ s e, I s → I (s.raise e)
  start : ∀ s a b, I s → I (startBlock a b s)
  place : ∀ s p a b, I s → I (startBlock a b (s.placeBlock p))
  unit : ∀ s, I s → s.isActive = true → (bdUnit s).keeps I stop
  host : ∀ s h, I s → I (s.setHost h)
  free : ∀ s, I s → I s.nextFree
  readData : ∀ s w, I s → I (s.setReadData w)
  reset : ∀ s, I s → I s.hardReset

namespace KeptByCommands

variable (h : KeptByCommands I stop)
include h

/-- The loop of RUN (R143), by induction on the units left. -/
theorem runUnits_keeps (f : Nat) (s : State) (hs : I s) : (runUnits f s).keeps I stop := by
  induction f generalizing s with
  | zero => exact hs
  | succ f ih =>
    simp only [runUnits]
    split
    · exact (h.unit s hs ‹_›).andThen fun _ u hu => ih u hu
    · exact hs

/-- RUN (R143, R147). -/
theorem runCommand_keeps (hs : I s) : (runCommand s).keeps I stop := by
  unfold runCommand
  split
  · exact hs
  · split
    · exact h.runUnits_keeps _ s hs
    · exact Res.leaves_raise (h.raise s _ hs)

/-- The end of R150's loop, under either policy (R153). -/
theorem collectBlock_keeps (a b : Word) (hs : I s) : I (collectBlock a b s) := by
  have append : ∀ u : State, I u → I (u.appendBlock a b) := fun u hu => h.host u _ hu
  unfold collectBlock
  split
  · unfold State.afterFailure
    split
    · exact h.host _ _ (h.host s _ hs)
    · exact h.free _ (append _ (h.host s _ hs))
  · exact append s hs

/-- One pass of R150's loop. -/
theorem containerBlock_keeps (a b : Word) (hs : I s) : (containerBlock a b s).keeps I stop := by
  simp only [containerBlock]
  split
  · exact h.host s _ hs
  · exact (h.runCommand_keeps (h.place s _ b a hs)).completed fun u hu => h.collectBlock_keeps a b hu

/-- Every command keeps `I`. -/
theorem exec_kept {i : Instr} (hi : isCommand i = true) (hs : I s) : Kept I stop (exec i s) := by
  cases i with
  | cmdReserved =>
    show Kept I stop (execCmdReserved s)
    unfold execCmdReserved
    split
    · exact hs
    · exact h.raise s _ hs
  | start a b => exact h.start s a b hs
  | step =>
    show Kept I stop (execStep s)
    unfold execStep
    split
    · exact hs
    · split
      · exact (h.unit s hs ‹_›).kept
      · exact h.raise s _ hs
  | run => exact (h.runCommand_keeps hs).kept
  | read no =>
    show Kept I stop (execRead no s)
    unfold execRead
    split
    · exact h.readData s _ hs
    · trivial
  | reset => exact h.reset s hs
  | containerHeader a b => exact (h.containerBlock_keeps a b hs).kept
  | _ => cases hi

end KeptByCommands

/-- Two properties that the commands keep. -/
theorem KeptByCommands.and {J : State → Prop} {stop' : Fault → Prop} (h : KeptByCommands I stop)
    (h' : KeptByCommands J stop') : KeptByCommands (fun s => I s ∧ J s) stop where
  raise s e hs := ⟨h.raise s e hs.1, h'.raise s e hs.2⟩
  start s a b hs := ⟨h.start s a b hs.1, h'.start s a b hs.2⟩
  place s p a b hs := ⟨h.place s p a b hs.1, h'.place s p a b hs.2⟩
  unit s hs ha := (h.unit s hs.1 ha).and (h'.unit s hs.2 ha)
  host s x hs := ⟨h.host s x hs.1, h'.host s x hs.2⟩
  free s hs := ⟨h.free s hs.1, h'.free s hs.2⟩
  readData s w hs := ⟨h.readData s w hs.1, h'.readData s w hs.2⟩
  reset s hs := ⟨h.reset s hs.1, h'.reset s hs.2⟩

/-! ## Which instruction a request is -/

theorem decodeCommand_isCommand (c : BitVec 2) (a b : Word) : isCommand (decodeCommand c a b) = true := by
  unfold decodeCommand
  split
  · rfl
  · split
    · rfl
    · split <;> rfl

/-- A header that can be read is a container header (R66). -/
theorem decodeHeader_isCommand {bytes : List Byte} {i : Instr} (h : decodeHeader bytes = .ok i) :
    isCommand i = true := by
  unfold decodeHeader at h
  split at h
  · split at h
    · cases h
      rfl
    · cases h
  · cases h

/-- A command delivered, other than stream bits, is decoded to a command or makes the container malformed. -/
theorem stepForm_of_command (s : State) {f : Form} (hop : ∀ i, f ≠ .operation i) (hbits : ∀ l, f ≠ .bits l) :
    stepForm f s = .next (s.setHost s.host.fail) ∨ ∃ i, isCommand i = true ∧ stepForm f s = exec i s := by
  cases f with
  | command c a b => exact .inr ⟨_, decodeCommand_isCommand c a b, rfl⟩
  | read no => exact .inr ⟨.read no, rfl, rfl⟩
  | reset => exact .inr ⟨.reset, rfl, rfl⟩
  | header bytes =>
    cases hd : decodeHeader bytes with
    | ok i => exact .inr ⟨i, decodeHeader_isCommand hd, stepForm_of_ok s hd⟩
    | error r =>
      have he : stepForm (.header bytes) s = s.rejected r := stepForm_of_error s hd
      exact .inl (he.trans (State.rejected_header (decodeHeader_error hd)))
  | bits l => exact absurd rfl (hbits l)
  | operation i => exact absurd rfl (hop i)

/-- Stream bits delivered where no element is parsed do nothing (R140; log 11). -/
theorem stepForm_bits_of_not_parsing (hp : s.parsing = false) (l : List Bool) : stepForm (.bits l) s = .next s := by
  have hsite : s.site = .none ∨ s.site = .pad := by
    unfold State.parsing at hp
    split at hp
    · exact .inl ‹_›
    · exact .inr ‹_›
    · cases hp
  rcases hsite with h | h
  · exact stepForm_of_error s (r := .nothingParsed) (by rw [h]; rfl)
  · exact stepForm_of_ok s (i := .pad) (by rw [h]; rfl)

/-- A block of the HOST's file: nothing, a container found malformed, or a header to handle (R150, R170). -/
theorem stepContainer_cases (s : State) :
    stepContainer s = .next s ∨ stepContainer s = .next (s.setHost s.host.fail) ∨
      ∃ i, isCommand i = true ∧ stepContainer s = exec i s := by
  cases hf : s.host.finished with
  | true => exact .inl (stepContainer_of_finished s hf)
  | false =>
    cases hd : s.fetchHeader with
    | ok i => exact .inr (.inr ⟨i, decodeHeader_isCommand hd, stepContainer_of_ok s hf hd⟩)
    | error r =>
      exact .inr (.inl ((stepContainer_of_error s hf hd).trans (State.rejected_header (decodeHeader_error hd))))

/-- What serving a command does: nothing, a container found malformed, or one of the commands. -/
theorem stepRequest_of_command {r : Request} {rest : List Request} (hp : s.port = r :: rest)
    (hr : r.isCommand = true) (hq : s.parsing = false ∨ s.resetPending = true) :
    stepRequest s = .next (s.setPort rest) ∨ stepRequest s = .next ((s.setPort rest).setHost s.host.fail) ∨
      ∃ i, isCommand i = true ∧ stepRequest s = exec i (s.setPort rest) := by
  cases r with
  | byElements => cases hr
  | container =>
    rw [stepRequest_of_container hp]
    exact stepContainer_cases (s.setPort rest)
  | deliver f =>
    rw [stepRequest_of_deliver hp]
    by_cases hbits : ∃ l, f = .bits l
    · obtain ⟨l, rfl⟩ := hbits
      have hn : s.parsing = false := hq.resolve_right (by simp [State.resetPending, hp])
      exact .inl (stepForm_bits_of_not_parsing (s := s.setPort rest) hn l)
    · refine .inr (stepForm_of_command (s.setPort rest) ?_ fun l hl => hbits ⟨l, hl⟩)
      rintro i rfl
      cases hr

/-- Every step keeps what the commands keep, if a request that is served may be taken off the list, and if the stream
elements, a STEP begun element by element and the operations invoked by name keep it too. -/
theorem step_kept (h : KeptByCommands I stop) (hs : I s)
    (hport : ∀ r rest, s.port = r :: rest → I (s.setPort rest))
    (helem : s.parsing = true → Kept I stop (stepElement s))
    (hby : ∀ rest, s.parsing = false → s.port = .byElements :: rest → I (beginByElements (s.setPort rest)))
    (hop : ∀ i rest, s.port = .deliver (.operation i) :: rest → Kept I stop (exec i (s.setPort rest))) :
    Kept I stop (step s) := by
  by_cases hp : s.parsing = true ∧ s.resetPending = false
  · rw [step_of_parsing hp.1 hp.2]
    exact helem hp.1
  have hq : s.parsing = false ∨ s.resetPending = true := by
    cases h1 : s.parsing <;> cases h2 : s.resetPending <;> simp_all
  have hstep : step s = stepRequest s := by rcases hq with hq | hq <;> simp [step, hq]
  rw [hstep]
  cases hpt : s.port with
  | nil =>
    rw [stepRequest_of_nil hpt]
    exact hs
  | cons r rest =>
    have hrest : I (s.setPort rest) := hport r rest hpt
    by_cases hr : r.isCommand = true
    · rcases stepRequest_of_command hpt hr hq with e | e | ⟨i, hi, e⟩
      · rw [e]
        exact hrest
      · rw [e]
        exact h.host _ _ hrest
      · rw [e]
        exact h.exec_kept hi hrest
    · cases r with
      | container => exact absurd rfl hr
      | byElements =>
        have hn : s.parsing = false := hq.resolve_right (by simp [State.resetPending, hpt])
        rw [stepRequest_of_byElements hpt]
        exact hby rest hn hpt
      | deliver f =>
        cases f with
        | operation i =>
          rw [stepRequest_of_deliver hpt]
          cases hw : i.wf with
          | true =>
            rw [stepForm_of_ok (i := i) _ (by simp [decode, hw])]
            exact hop i rest hpt
          | false =>
            rw [stepForm_of_error (r := .operandRange) _ (by simp [decode, hw])]
            trivial
        | _ => exact absurd rfl hr

end Sys2Proof.Machine
end

section
/-! The output while a block is decoded: `State.filled` says what holds of OUT, WIN and BD.produced whatever the control
state, and every unit keeps it without an access that does not exist (43_lz77_copy.md R133, R134). -/

namespace Sys2Proof.Machine

variable {s u : State}

/-- OUT below BD.produced is written and in range, and WIN holds the last 8192 bytes (R22, R42, R133). -/
structure State.filled (s : State) : Prop where
  outWf : Mem.wf .out s.out = true
  winWf : Mem.wf .win s.win = true
  inRange : s.produced.toNat ≤ s.outSize.toNat
  written : s.writtenBelow
  window : ∀ a, a < s.produced.toNat → s.produced.toNat ≤ a + Config.wsize → s.readWin (a % Config.wsize) = s.readOut a

theorem State.filled.decodes (h : s.filled) (hu : s.decodesOnly u) : u.filled := by
  obtain ⟨b, x, c, rfl⟩ := hu
  exact ⟨h.outWf, h.winWf, h.inRange, h.written, h.window⟩

theorem State.filled.reads (h : s.filled) (hu : s.readsOnly u) : u.filled := h.decodes hu.decodes

/-! ## Pushing a byte -/

/-- A byte of OUT after a push (R130). -/
theorem State.readOut_pushByte (hw : Mem.wf .out s.out = true) (b : Byte) (a : Nat) :
    (s.pushByte b).readOut a = if s.produced.toNat = a then some b else s.readOut a :=
  Mem.read_write hw s.produced.toNat a b

/-- A byte of WIN after a push (R130). -/
theorem State.readWin_pushByte (hw : Mem.wf .win s.win = true) (b : Byte) (a : Nat) :
    (s.pushByte b).readWin a = if s.produced.toNat % Config.wsize = a then some b else s.readWin a :=
  Mem.read_write hw (s.produced.toNat % Config.wsize) a b

/-- BD.produced does not wrap where the byte fits in OUT. -/
theorem State.pushByte_produced_toNat (hp : s.produced.toNat < s.outSize.toNat) (b : Byte) :
    (s.pushByte b).produced.toNat = s.produced.toNat + 1 := by
  have := s.outSize.isLt
  have hone : (1 : Word).toNat = 1 := rfl
  rw [State.pushByte_produced, BitVec.toNat_add, hone, Nat.mod_eq_of_lt (by omega)]

theorem State.filled.pushByte (h : s.filled) (hp : s.produced.toNat < s.outSize.toNat) (b : Byte) :
    (s.pushByte b).filled where
  outWf := Mem.wf_write h.outWf _ b
  winWf := Mem.wf_write h.winWf _ b
  inRange := by rw [State.pushByte_produced_toNat hp, State.pushByte_outSize]; omega
  written := by
    intro a ha
    rw [State.pushByte_produced_toNat hp] at ha
    rw [State.readOut_pushByte h.outWf]
    split
    · exact Option.some_ne_none b
    · exact h.written a (by omega)
  window := by
    intro a ha hlast
    rw [State.pushByte_produced_toNat hp] at ha hlast
    rw [State.readOut_pushByte h.outWf, State.readWin_pushByte h.winWf]
    by_cases he : s.produced.toNat = a
    · rw [if_pos (congrArg (· % Config.wsize) he), if_pos he]
    · have hne : ¬ s.produced.toNat % Config.wsize = a % Config.wsize := by
        simp only [Config.wsize] at hlast ⊢
        omega
      rw [if_neg hne, if_neg he]
      exact h.window a (by omega) (by omega)

/-! ## Copies and units -/

/-- The byte moves of a copy that has passed its two checks (R131): every byte read has been written, every byte written
is in range. -/
theorem copyLoop_fills {d : Nat} (hd : 1 ≤ d) (n : Nat) (s : State) (h : s.filled) (hdist : d ≤ s.produced.toNat)
    (hfit : s.produced.toNat + n ≤ s.outSize.toNat) :
    (copyLoop d n s).leaves (fun _ u => u.filled) (fun _ _ => True) (fun _ => False) := by
  induction n generalizing s with
  | zero => exact h
  | succ n ih =>
    have hp : s.produced.toNat < s.outSize.toNat := by omega
    have hsrc : s.readOut (s.produced.toNat - d) ≠ none := h.written _ (by omega)
    obtain ⟨b, hb⟩ := Option.ne_none_iff_exists'.1 hsrc
    have hpush := State.pushByte_produced_toNat hp b
    simp only [copyLoop, hb, emit, if_pos hp, Res.andThen_ok]
    exact ih (s.pushByte b) (h.pushByte hp b) (by omega) (by rw [State.pushByte_outSize]; omega)

/-- LZ.COPY of a distance of at least 1 (R131). -/
theorem copy_fills (n : Nat) {d : Nat} (hd : 1 ≤ d) (h : s.filled) :
    (copy n d s).leaves (fun _ u => u.filled) (fun _ _ => True) (fun _ => False) := by
  unfold copy
  split
  · exact Res.leaves_raise trivial
  · split
    · exact Res.leaves_raise trivial
    · exact copyLoop_fills hd n s h (by omega) (by omega)

/-- LZ.EMIT below OUT_SIZE (R130). -/
theorem emit_fills (b : Byte) (h : s.filled) (hp : s.produced.toNat < s.outSize.toNat) :
    (emit b s).leaves (fun _ u => u.filled) (fun _ _ => True) (fun _ => False) := by
  unfold emit
  rw [if_pos hp]
  exact h.pushByte hp b

theorem literal_fills (c : Byte) (h : s.filled) (hp : s.produced.toNat < s.outSize.toNat) :
    (literal c s).leaves (fun _ u => u.filled) (fun _ _ => True) (fun _ => False) :=
  (emit_fills c h hp).andThen fun _ _ hu => hu

theorem matchUnit_fills (c : Nat) (h : s.filled) :
    (matchUnit c s).leaves (fun _ u => u.filled) (fun _ _ => True) (fun _ => False) := by
  refine Res.leaves.andThen ((readOffset_leaves s).mono (fun _ _ h => h) (fun _ _ _ => trivial) (fun _ h => h)) ?_
  rintro d u ⟨hd, hu⟩
  exact (copy_fills _ hd (h.reads hu)).andThen fun _ _ hw => hw

theorem unitOfSymbol_fills (c : Nat) (h : s.filled) (hp : s.produced.toNat < s.outSize.toNat) :
    (unitOfSymbol c s).leaves (fun _ u => u.filled) (fun _ _ => True) (fun _ => False) := by
  unfold unitOfSymbol
  split
  · exact literal_fills _ h hp
  · exact matchUnit_fills c h

/-- What a whole unit does, whichever way it is run: it decodes, writes, and records its count and the next state
(R112); and from a filled output short of OUT_SIZE it leaves a filled output, without stopping the model. -/
structure UnitResult (s : State) (r : Res Unit) : Prop where
  leaves : r.leaves (fun _ u => ∃ v w n, s.decodesOnly v ∧ v.writesOnly w ∧ u = w.finishUnit n)
    (fun _ u => s.decodesOnly u) (fun _ => True)
  fills : s.filled → s.produced.toNat < s.outSize.toNat →
    r.leaves (fun _ u => ∃ (w : State) (n : Nat), w.filled ∧ u = w.finishUnit n) (fun _ _ => True) (fun _ => False)

/-- An operation that decodes, and after it a unit of one symbol, make a unit. -/
theorem UnitResult.of_andThen {α : Type} {r : Res α} {k : α → State → Res Nat}
    (hr : r.leaves (fun _ u => s.decodesOnly u) (fun _ u => s.decodesOnly u) (fun _ => False))
    (hk : ∀ a u, (k a u).leaves (fun _ w => ∃ v, u.readsOnly v ∧ v.writesOnly w) (fun _ w => u.readsOnly w)
      (fun _ => True))
    (hfill : ∀ a u, u.filled → u.produced.toNat < u.outSize.toNat →
      (k a u).leaves (fun _ w => w.filled) (fun _ _ => True) (fun _ => False)) :
    UnitResult s (r.andThen fun a u => (k a u).andThen fun n w => .ok () (w.finishUnit n)) where
  leaves := by
    refine Res.leaves.andThen (hr.mono (fun _ _ h => h) (fun _ _ h => h) (fun _ h => h.elim)) ?_
    intro a u hu
    refine Res.leaves.andThen ((hk a u).mono (fun _ _ h => h) (fun _ _ h => hu.trans h.decodes) (fun _ h => h)) ?_
    rintro n w ⟨v, hv, hw⟩
    exact ⟨v, w, n, hu.trans hv.decodes, hw, rfl⟩
  fills := by
    intro hs hp
    refine Res.leaves.andThen (hr.mono (fun _ _ h => h) (fun _ _ _ => trivial) (fun _ h => h)) ?_
    intro a u hu
    refine Res.leaves.andThen (hfill a u (hs.decodes hu) ?_) fun n w hw => ⟨w, n, hw, rfl⟩
    obtain ⟨b, x, c, rfl⟩ := hu
    exact hp

theorem ensureSubblock_decodesOnly (s : State) :
    (ensureSubblock s).leaves (fun _ u => s.decodesOnly u) (fun _ u => s.decodesOnly u) (fun _ => False) := by
  unfold ensureSubblock
  split
  · exact (initSubblock_leaves s).mono (fun _ _ h => h) (fun _ _ h => h.2) (fun _ h => h)
  · exact s.decodesOnly_refl

/-- What precedes the unit's symbol, and the symbol (R112). -/
theorem ensureSubblock_decodeSymbol (s : State) :
    ((ensureSubblock s).andThen fun _ u => decodeSymbol .tLit (u.setRemaining (u.remaining - 1))).leaves
      (fun _ u => s.decodesOnly u) (fun _ u => s.decodesOnly u) (fun _ => False) := by
  refine Res.leaves.andThen (ensureSubblock_decodesOnly s) ?_
  intro _ u hu
  have hc := hu.trans (State.setRemaining_decodesOnly u (u.remaining - 1))
  exact (decodeSymbol_readsOnly .tLit _).mono (fun _ _ h => hc.trans h.decodes)
    (fun _ _ h => hc.trans h.2.decodes) (fun _ h => h)

theorem unitOfSymbol_frame (c : Nat) (s : State) :
    (unitOfSymbol c s).leaves (fun _ w => ∃ v, s.readsOnly v ∧ v.writesOnly w) (fun _ w => s.readsOnly w)
      (fun _ => True) :=
  (unitOfSymbol_leaves c s).mono (fun _ _ h => h.2) (fun _ _ h => h.2) (fun _ h => h)

theorem Res.andThen_assoc {α β γ : Type} (r : Res α) (k : α → State → Res β) (l : β → State → Res γ) :
    (r.andThen k).andThen l = r.andThen fun a u => (k a u).andThen l := by
  cases r <;> rfl

/-- BD.UNIT (R112). -/
theorem bdUnit_result (s : State) : UnitResult s (bdUnit s) := by
  have h : UnitResult s _ := UnitResult.of_andThen (ensureSubblock_decodeSymbol s) unitOfSymbol_frame
    fun c _ => unitOfSymbol_fills c
  rwa [Res.andThen_assoc] at h

/-- A unit of one symbol whose bits have been read already. -/
theorem UnitResult.of_reads {v : State} {r : Res Nat} (hv : s.readsOnly v)
    (hr : r.leaves (fun _ w => ∃ y, v.readsOnly y ∧ y.writesOnly w) (fun _ w => v.readsOnly w) (fun _ => True))
    (hfill : v.filled → v.produced.toNat < v.outSize.toNat →
      r.leaves (fun _ w => w.filled) (fun _ _ => True) (fun _ => False)) :
    UnitResult s (r.andThen fun n w => .ok () (w.finishUnit n)) where
  leaves := by
    refine Res.leaves.andThen (hr.mono (fun _ _ h => h) (fun _ _ h => (hv.trans h).decodes) (fun _ h => h)) ?_
    rintro n w ⟨y, hy, hw⟩
    exact ⟨y, w, n, (hv.trans hy).decodes, hw, rfl⟩
  fills := by
    intro hs hp
    refine Res.leaves.andThen (hfill (hs.reads hv) ?_) fun n w hw => ⟨w, n, hw, rfl⟩
    obtain ⟨b, rfl⟩ := hv
    exact hp

/-- LIT after its code word (R63, R113). -/
theorem litElement_result (c : Byte) {v : State} (hv : s.readsOnly v) : UnitResult s (litElement c v) := by
  refine UnitResult.of_reads hv ((literal_leaves c v).mono ?_ (fun _ _ h => h.elim) (fun _ _ => trivial))
    (literal_fills c)
  rintro n w ⟨_, _, rfl⟩
  exact ⟨v, v.readsOnly_refl, v.pushByte_writesOnly c⟩

/-- OFF after its bits (R65, R114). -/
theorem offElement_result (c : Nat) {d : Nat} (hd : 1 ≤ d) {v : State} (hv : s.readsOnly v) :
    UnitResult s (offElement c d v) := by
  have h : UnitResult s (((copy (runLength c) d v).andThen fun _ w => .ok (runLength c) w).andThen
      fun n w => .ok () (w.finishUnit n)) := by
    refine UnitResult.of_reads hv (Res.leaves.andThen ((copy_leaves (runLength c) d v).mono
        (fun _ _ h => h.2.2) ?_ (fun _ h => h)) fun _ w hw => ⟨v, v.readsOnly_refl, hw⟩)
      fun hf _ => Res.leaves.andThen (copy_fills _ hd hf) fun _ _ hw => hw
    rintro e w ⟨rfl, _⟩
    exact w.readsOnly_refl
  rwa [Res.andThen_assoc] at h

/-- The rest of a MATCH whose class no OFF spells (R114). -/
theorem finishMatch_result {c : BitVec 9} (hs : s.site = .off c) : UnitResult s (finishMatch s) := by
  unfold finishMatch
  rw [hs]
  exact UnitResult.of_reads s.readsOnly_refl ((matchUnit_leaves c.toNat s).mono (fun _ _ h => h.2) (fun _ _ h => h.2)
    (fun _ h => h)) fun hf _ => matchUnit_fills _ hf

end Sys2Proof.Machine
end

section
/-! The stream elements: each is refused out of its place, or it moves the parser on inside a unit, or it completes the
unit (30_encoding.md R50, R51). `exec_element_cases` says so once of all of them. -/

namespace Sys2Proof.Machine

variable {s u : State}

/-- The parser has moved on inside the unit: registers, tables and BD.remaining alone have changed beside its place. -/
def State.movesTo (s u : State) : Prop := ∃ v p, s.decodesOnly v ∧ p ≠ .pad ∧ u = v.setSite p

/-- The operation moves the parser on, or raises a fault with nothing written. -/
def State.describes (s : State) (r : Res Unit) : Prop :=
  r.leaves (fun _ u => s.movesTo u) (fun _ u => s.decodesOnly u) (fun _ => False)

theorem State.decodesOnly.setTab (h : s.decodesOnly u) (t : TableId) (x : Table t.size t.countBits) :
    s.decodesOnly (u.setTab t x) := h.trans (u.setTab_buildsOnly t x).decodes

theorem State.decodesOnly.consume (h : s.decodesOnly u) (n : Nat) : s.decodesOnly (u.consume n) :=
  h.trans (u.consume_decodesOnly n)

theorem State.decodesOnly.recordCount (h : s.decodesOnly u) (t : TableId) (n : Nat) :
    s.decodesOnly (recordCount t n u) := h.trans (recordCount_buildsOnly t n u).decodes

theorem State.decodesOnly.raises (h : s.decodesOnly u) (e : ErrCode) : s.describes (raiseIn e u) := Res.leaves_raise h

/-! ## The description of a table -/

theorem enterTable_movesTo (t : TableId) (h : s.decodesOnly u) : s.movesTo (enterTable t u) :=
  ⟨clearTable t u, .count t, h.trans (clearTable_buildsOnly t u).decodes, nofun, rfl⟩

theorem afterTable_movesTo (t : TableId) (h : s.decodesOnly u) : s.movesTo (afterTable t u) := by
  cases t with
  | tLen => exact enterTable_movesTo .tLit h
  | tLit => exact enterTable_movesTo .tOff h
  | tOff => exact ⟨u.setRemaining (u.remaining - 1), .unit, h.trans (u.setRemaining_decodesOnly _), nofun, rfl⟩

theorem closeTable_describes (t : TableId) (h : s.decodesOnly u) : s.describes (closeTable t u) := by
  refine Res.leaves.andThen (ok := fun _ v => s.decodesOnly v) ((assignCodes_leaves t u).mono ?_ ?_ (fun _ h => h))
    fun _ v hv => afterTable_movesTo t hv
  · rintro _ v ⟨_, rfl⟩
    exact h.setTab t _
  · rintro _ v ⟨_, _, rfl⟩
    exact h.setTab t _

theorem nextHybrid_describes (t : TableId) (v : Scan) (h : s.decodesOnly u) : s.describes (nextHybrid t v u) := by
  unfold nextHybrid
  split
  · split
    · exact h.raises _
    · exact ⟨u, .hlen t v, h, nofun, rfl⟩
  · exact closeTable_describes t h

theorem nextCoded_describes (v : Scan) (h : s.decodesOnly u) : s.describes (nextCoded v u) := by
  unfold nextCoded
  split
  · exact ⟨u, .cl v, h, nofun, rfl⟩
  · exact closeTable_describes .tLit h

theorem subhdrElement_describes (c : BitVec 16) (h : s.decodesOnly u) : s.describes (subhdrElement c u) := by
  unfold subhdrElement
  split
  · exact h.raises _
  · exact enterTable_movesTo .tLen (h.trans (u.setRemaining_decodesOnly c))

theorem countElement_describes (t : TableId) (n : Nat) (h : s.decodesOnly u) : s.describes (countElement t n u) := by
  have hr : s.decodesOnly (recordCount t n u) := h.recordCount t n
  unfold countElement
  split
  · exact ⟨_, .degen t, hr, nofun, rfl⟩
  · unfold firstEntry
    split
    · exact nextCoded_describes _ hr
    · exact nextHybrid_describes t _ hr

theorem degenElement_describes (t : TableId) (x : Nat) (h : s.decodesOnly u) : s.describes (degenElement t x u) := by
  refine Res.leaves.andThen (ok := fun _ v => s.decodesOnly v) ((recordShortcut_leaves t x u).mono ?_ ?_ (fun _ h => h))
    fun _ v hv => afterTable_movesTo t hv
  · rintro _ v ⟨_, rfl⟩
    exact h.setTab t _
  · rintro _ v ⟨_, _, rfl⟩
    exact h

theorem hlenElement_describes (l : Nat) (t : TableId) (v : Scan) (h : s.decodesOnly u) :
    s.describes (hlenElement l t v u) := by
  have hl : s.decodesOnly (storeLen t v.i l u) := h.setTab t _
  unfold hlenElement
  split
  · exact ⟨_, .hskip t (scanEntry v), hl, nofun, rfl⟩
  · exact nextHybrid_describes t _ hl

theorem skipIndices_decodesOnly (t : TableId) (i k : Nat) (h : s.decodesOnly u) :
    (skipIndices t i k u).leaves (fun _ v => s.decodesOnly v) (fun _ v => s.decodesOnly v) (fun _ => False) := by
  refine (skipIndices_leaves t i k u).mono ?_ ?_ (fun _ h => h)
  · rintro j v ⟨_, _, rfl⟩
    exact h
  · rintro e v ⟨_, _, rfl⟩
    exact h

theorem hskipElement_describes (k : Nat) (t : TableId) (v : Scan) (h : s.decodesOnly u) :
    s.describes (hskipElement k t v u) :=
  (skipIndices_decodesOnly t v.i k h).andThen fun _ _ hw => nextHybrid_describes t _ hw

/-- A CL entry whose effect changes registers and tables alone (R58). -/
theorem clElement_describes {e : State → Res Scan}
    (he : (e u).leaves (fun _ v => s.decodesOnly v) (fun _ v => s.decodesOnly v) (fun _ => False)) :
    s.describes (clElement e u) := Res.leaves.andThen he fun v _ hw => nextCoded_describes v hw

theorem clZeroEntry_decodesOnly (t : TableId) (v : Scan) (h : s.decodesOnly u) :
    (clZeroEntry t v u).leaves (fun _ w => s.decodesOnly w) (fun _ w => s.decodesOnly w) (fun _ => False) := by
  unfold clZeroEntry
  split
  · exact Res.leaves_raise h
  · exact h

theorem clRunEntry_decodesOnly (m : CodCountMode) (t : TableId) (v : Scan) (k : Nat) (h : s.decodesOnly u) :
    (clRunEntry m t v k u).leaves (fun _ w => s.decodesOnly w) (fun _ w => s.decodesOnly w) (fun _ => False) :=
  (skipIndices_decodesOnly t v.i k h).andThen fun _ _ hw => hw

theorem clLenEntry_decodesOnly (t : TableId) (v : Scan) (x : Nat) (h : s.decodesOnly u) :
    (clLenEntry t v x u).leaves (fun _ w => s.decodesOnly w) (fun _ w => s.decodesOnly w) (fun _ => False) := by
  unfold clLenEntry
  split
  · exact Res.leaves_raise h
  · exact h.setTab t _

/-! ## The elements -/

/-- Everything a stream element can do: it is refused out of its place; it is padding; it moves the parser on; it
completes the unit. -/
def State.elementOutcome (s : State) (o : Host.Outcome State Fault Refusal) : Prop :=
  o = .refused .outOfPlace ∨ o = .next s ∨
    s.parsing = true ∧ ∃ r : Res Unit, o = r.outcome ∧ (s.describes r ∨ UnitResult s r)

theorem State.describes.element {r : Res Unit} (h : s.describes r) (hp : s.parsing = true) :
    s.elementOutcome r.outcome := .inr (.inr ⟨hp, r, rfl, .inl h⟩)

theorem UnitResult.element {r : Res Unit} (h : UnitResult s r) (hp : s.parsing = true) : s.elementOutcome r.outcome :=
  .inr (.inr ⟨hp, r, rfl, .inr h⟩)

theorem State.parsing_of_site {p : Site} (h : s.site = p) (h0 : p ≠ .none) (hpad : p ≠ .pad) : s.parsing = true := by
  subst h
  unfold State.parsing
  split
  · exact absurd ‹_› h0
  · exact absurd ‹_› hpad
  · rfl

theorem onCount_outcome (t : TableId) (n : Nat) (s : State) : s.elementOutcome (onCount t n s) := by
  unfold onCount
  split
  · rename_i hsite
    exact (countElement_describes t n (s.consume_decodesOnly _)).element (State.parsing_of_site hsite nofun nofun)
  · exact .inl rfl

theorem onDegen_outcome (t : TableId) (x : Nat) (s : State) : s.elementOutcome (onDegen t x s) := by
  unfold onDegen
  split
  · rename_i hsite
    exact (degenElement_describes t x (s.consume_decodesOnly _)).element (State.parsing_of_site hsite nofun nofun)
  · exact .inl rfl

theorem onHlen_outcome (k : Nat) {e : TableId → Scan → State → Res Unit} (s : State)
    (he : ∀ t v u, s.decodesOnly u → s.describes (e t v u)) : s.elementOutcome (onHlen k e s) := by
  unfold onHlen
  split
  · rename_i hsite
    exact (he _ _ _ (s.consume_decodesOnly k)).element (State.parsing_of_site hsite nofun nofun)
  · exact .inl rfl

theorem onEscape_outcome (l : Nat) (s : State) : s.elementOutcome (onEscape l s) :=
  onHlen_outcome _ s fun t v _ h => hlenElement_describes l t v h

theorem onCl_outcome (x k : Nat) {e : Scan → State → Res Scan} (s : State)
    (he : ∀ v u, s.decodesOnly u →
      (e v u).leaves (fun _ w => s.decodesOnly w) (fun _ w => s.decodesOnly w) (fun _ => False)) :
    s.elementOutcome (onCl x k e s) := by
  unfold onCl
  split
  · rename_i hsite
    exact (clElement_describes (he _ _ ((s.consume_decodesOnly _).consume k))).element
      (State.parsing_of_site hsite nofun nofun)
  · exact .inl rfl

/-- A distance is at least 1 (R116, R117). -/
theorem one_le_distance (p d : Nat) : 1 ≤ distance p d := by
  unfold distance
  split
  · exact Nat.le_refl 1
  · exact Nat.le_add_left 1 _

theorem onOff_outcome (p d : Nat) (s : State) : s.elementOutcome (onOff p d s) := by
  unfold onOff
  split
  · rename_i hsite
    have hread := (s.consume_readsOnly (s.codeWidth .tOff p)).trans (State.consume_readsOnly _ (extraBits p))
    exact (offElement_result _ (one_le_distance p d) hread).element (State.parsing_of_site hsite nofun nofun)
  · exact .inl rfl

theorem execSubhdr_outcome (c : BitVec 16) (s : State) : s.elementOutcome (execSubhdr c s) := by
  unfold execSubhdr
  split
  · rename_i hsite
    exact (subhdrElement_describes c (s.consume_decodesOnly _)).element (State.parsing_of_site hsite nofun nofun)
  · exact .inl rfl

theorem execHskip_outcome (k : BitVec 2) (s : State) : s.elementOutcome (execHskip k s) := by
  unfold execHskip
  split
  · rename_i hsite
    exact (hskipElement_describes _ _ _ (s.consume_decodesOnly 2)).element (State.parsing_of_site hsite nofun nofun)
  · exact .inl rfl

theorem execLit_outcome (c : Byte) (s : State) : s.elementOutcome (execLit c s) := by
  unfold execLit
  split
  · rename_i hsite
    exact (litElement_result c (s.consume_readsOnly _)).element (State.parsing_of_site hsite nofun nofun)
  · exact .inl rfl

theorem execMatch_outcome (c : BitVec 9) (s : State) : s.elementOutcome (execMatch c s) := by
  unfold execMatch
  split
  · rename_i hsite
    have h : s.describes (.ok () ((s.consume (s.codeWidth .tLit c.toNat)).setSite (.off c))) :=
      ⟨_, .off c, s.consume_decodesOnly _, nofun, rfl⟩
    exact h.element (State.parsing_of_site hsite nofun nofun)
  · exact .inl rfl

/-- The instruction is a stream element: no command and no unit operation (30_encoding.md, opening). -/
def isElement (i : Instr) : Bool := !isCommand i && !i.isOperation

/-- Everything a stream element can do. -/
theorem exec_element_cases {i : Instr} (hi : isElement i = true) (s : State) : s.elementOutcome (exec i s) := by
  cases i with
  | subhdr c => exact execSubhdr_outcome c s
  | count5 n => exact onCount_outcome .tLen n.toNat s
  | count9 n => exact onCount_outcome .tLit n.toNat s
  | count4 n => exact onCount_outcome .tOff n.toNat s
  | degen5 x => exact onDegen_outcome .tLen x.toNat s
  | degen9 x => exact onDegen_outcome .tLit x.toNat s
  | degen4 x => exact onDegen_outcome .tOff x.toNat s
  | hlenDirect l => exact onHlen_outcome 3 s fun t v _ h => hlenElement_describes l.toNat t v h
  | hlenEsc7 => exact onEscape_outcome 7 s
  | hlenEsc8 => exact onEscape_outcome 8 s
  | hlenEsc9 => exact onEscape_outcome 9 s
  | hlenEsc10 => exact onEscape_outcome 10 s
  | hlenEsc11 => exact onEscape_outcome 11 s
  | hlenEsc12 => exact onEscape_outcome 12 s
  | hlenEsc13 => exact onEscape_outcome 13 s
  | hlenEsc14 => exact onEscape_outcome 14 s
  | hlenEsc15 => exact onEscape_outcome 15 s
  | hlenEsc16 => exact onEscape_outcome 16 s
  | hlenIllegal => exact onHlen_outcome 13 s fun _ _ _ h => h.raises .badLength
  | hskip k => exact execHskip_outcome k s
  | clZero => exact onCl_outcome 0 0 s fun v _ h => clZeroEntry_decodesOnly .tLit v h
  | clZrun4 x => exact onCl_outcome 1 4 s fun v _ h => clRunEntry_decodesOnly _ .tLit v _ h
  | clZrun9 x => exact onCl_outcome 2 9 s fun v _ h => clRunEntry_decodesOnly _ .tLit v _ h
  | clLen x => exact onCl_outcome x.toNat 0 s fun v _ h => clLenEntry_decodesOnly .tLit v x.toNat h
  | lit c => exact execLit_outcome c s
  | matchSym c => exact execMatch_outcome c s
  | off0 => exact onOff_outcome 0 0 s
  | off1 => exact onOff_outcome 1 0 s
  | off2 d => exact onOff_outcome 2 d.toNat s
  | off3 d => exact onOff_outcome 3 d.toNat s
  | off4 d => exact onOff_outcome 4 d.toNat s
  | off5 d => exact onOff_outcome 5 d.toNat s
  | off6 d => exact onOff_outcome 6 d.toNat s
  | off7 d => exact onOff_outcome 7 d.toNat s
  | off8 d => exact onOff_outcome 8 d.toNat s
  | off9 d => exact onOff_outcome 9 d.toNat s
  | off10 d => exact onOff_outcome 10 d.toNat s
  | off11 d => exact onOff_outcome 11 d.toNat s
  | off12 d => exact onOff_outcome 12 d.toNat s
  | off13 d => exact onOff_outcome 13 d.toNat s
  | pad => exact .inr (.inl rfl)
  | _ => cases hi

/-! ## What the parser fetches -/

theorem hlenEscape_isElement (k : Nat) : isElement (hlenEscape k) = true := by
  unfold hlenEscape
  split <;> rfl

theorem offOf_isElement {w : Word} {k p : Nat} {i : Instr} (h : offOf w k p = .ok i) : isElement i = true := by
  unfold offOf at h
  split at h <;> cases h <;> rfl

/-- What the decoder reads at the parser's place is a stream element (R50); it rejects nothing but 16 bits without a
code word, a class past the alphabet, and bits where nothing is parsed (R72, R140). -/
theorem decodeElement_cases (p : Site) (x : Tables) (w : Word) :
    (∃ i, isElement i = true ∧ decodeElement p x w = .ok i) ∨ decodeElement p x w = .error .noCodeWord ∨
      (∃ c, p = .off c) ∧ decodeElement p x w = .error .classOutside ∨ decodeElement p x w = .error .nothingParsed := by
  cases p with
  | none => exact .inr (.inr (.inr rfl))
  | pad => exact .inl ⟨.pad, rfl, rfl⟩
  | subhdr => exact .inl ⟨_, rfl, rfl⟩
  | count t => exact .inl ⟨countOf t (topBits w t.countBits), by cases t <;> rfl, rfl⟩
  | degen t => exact .inl ⟨degenOf t (topBits w t.countBits), by cases t <;> rfl, rfl⟩
  | hlen t v =>
    by_cases h : topBits w 3 = 7
    · exact .inl ⟨_, hlenEscape_isElement _, if_pos h⟩
    · exact .inl ⟨.hlenDirect _, rfl, if_neg h⟩
  | hskip t v => exact .inl ⟨.hskip _, rfl, rfl⟩
  | cl v =>
    cases h : codeWordAt x.tLen w with
    | none => exact .inr (.inl (by simp [decodeElement, h]))
    | some r =>
      have hcl : isElement (clOf w r.2 r.1) = true := by
        unfold clOf
        split <;> rfl
      exact .inl ⟨_, hcl, by simp [decodeElement, h]⟩
  | unit =>
    cases h : codeWordAt x.tLit w with
    | none => exact .inr (.inl (by simp [decodeElement, h]))
    | some r =>
      have hu : isElement (unitOf r.1) = true := by
        unfold unitOf
        split <;> rfl
      exact .inl ⟨_, hu, by simp [decodeElement, h]⟩
  | off c =>
    cases h : codeWordAt x.tOff w with
    | none => exact .inr (.inl (by simp [decodeElement, h]))
    | some r =>
      have he : decodeElement (.off c) x w = offOf w r.2 r.1 := by simp [decodeElement, h]
      rw [he]
      cases ho : offOf w r.2 r.1 with
      | ok i => exact .inl ⟨i, offOf_isElement ho, rfl⟩
      | error e =>
        have : e = .classOutside := by
          unfold offOf at ho
          split at ho <;> cases ho
          rfl
        exact .inr (.inr (.inl ⟨⟨c, rfl⟩, by rw [this]⟩))

/-- Everything a step of the parser can do: what a stream element can, or it raises E_DECODE after 16 bits (R72). -/
theorem stepElement_cases (s : State) :
    s.elementOutcome (stepElement s) ∨ ∃ u, s.readsOnly u ∧ stepElement s = .next (u.raise .decode) := by
  rcases decodeElement_cases s.site s.tabs s.br.reg with ⟨i, hi, h⟩ | h | ⟨⟨c, hc⟩, h⟩ | h
  · rw [stepElement_of_ok s h]
    exact .inl (exec_element_cases hi s)
  · exact .inr ⟨s.consume Config.maxLen, s.consume_readsOnly _, stepElement_of_error s h⟩
  · rw [stepElement_of_error s h]
    exact .inl ((finishMatch_result hc).element (State.parsing_of_site hc nofun nofun))
  · exact .inl (.inr (.inl (stepElement_of_error s h)))

end Sys2Proof.Machine
end

section
/-! The state after reset (O1), and what the HOST reads of the registers (O5). -/

namespace Sys2Proof.Machine

/-- Settles O1: each part is seen on the reset state, which is no active one and whose list of requests is empty. -/
theorem resetState : Obligations.ResetState := by
  unfold Obligations.ResetState
  have hsite : State.reset.parsing = false := rfl
  have hidle : ¬(State.reset.isActive = true ∨ State.reset.isDone = true) := by decide
  have hport : ∀ p : Request → Prop, ∀ r, r ∈ State.reset.port → p r := fun p r hr => nomatch hr
  refine ⟨rfl, rfl, rfl, rfl, ⟨rfl, rfl, rfl⟩, ⟨?fault, Nat.zero_le 9, nofun, nofun⟩,
    ⟨hport _, nofun, fun h => absurd h hidle⟩, ⟨hport _, nofun, fun h => absurd h hidle⟩, ⟨hport _, hsite, nofun, nofun⟩⟩
  case fault => exact ⟨nofun, fun h => absurd rfl h⟩

/-- Settles O5: the status word is evaluated in each control state; every other register is its field, widened. -/
theorem readRegister : Obligations.ReadRegister := by
  unfold Obligations.ReadRegister
  intro s
  have hstatus : s.statusWord =
      match s.st with
      | .idle => 0
      | .await => 1
      | .decoding => 2
      | .done => 11
      | .fault => 20 := by
    unfold State.statusWord State.isDone State.isFault
    cases s.st <;> rfl
  simp only [BitVec.ofNat_toNat]
  refine ⟨?status, rfl, rfl, rfl, rfl, rfl, rfl, rfl⟩
  case status => exact congrArg (fun w => Host.Outcome.next (s.setReadData w)) hstatus

end Sys2Proof.Machine
end

section
/-! Every step keeps the fault code and the control state in agreement (O55; 60_exceptions.md R171, R174). -/

namespace Sys2Proof.Machine

variable {α : Type} {s u : State}

/-- The control state, the fault code and the parser's place are as they were. -/
def State.sameControl (s u : State) : Prop := u.st = s.st ∧ u.err = s.err ∧ u.site = s.site

theorem State.decodesOnly.sameControl (h : s.decodesOnly u) : s.sameControl u := by
  obtain ⟨b, x, c, rfl⟩ := h
  exact ⟨rfl, rfl, rfl⟩

theorem State.readsOnly.sameControl (h : s.readsOnly u) : s.sameControl u := h.decodes.sameControl

theorem State.writesOnly.sameControl (h : s.writesOnly u) : s.sameControl u := by
  obtain ⟨o, w, p, rfl⟩ := h
  exact ⟨rfl, rfl, rfl⟩

/-- Nothing is asked of the engine meanwhile. -/
theorem State.decodesOnly.port (h : s.decodesOnly u) : u.port = s.port := by
  obtain ⟨b, x, c, rfl⟩ := h
  rfl

theorem State.writesOnly.port (h : s.writesOnly u) : u.port = s.port := by
  obtain ⟨o, w, p, rfl⟩ := h
  rfl

theorem State.sameControl.trans {v : State} (h : s.sameControl u) (h' : u.sameControl v) : s.sameControl v := by
  obtain ⟨h1, h2, h3⟩ := h
  obtain ⟨h1', h2', h3'⟩ := h'
  exact ⟨h1'.trans h1, h2'.trans h2, h3'.trans h3⟩

theorem State.sameControl.isActive (h : s.sameControl u) : u.isActive = s.isActive := by
  unfold State.isActive
  rw [h.1]

theorem State.sameControl.parsing (h : s.sameControl u) : u.parsing = s.parsing := by
  unfold State.parsing
  rw [h.2.2]

theorem State.sameControl.controlOk (h : s.sameControl u) (hs : s.controlOk) : u.controlOk := by
  unfold State.controlOk
  rw [h.parsing, h.isActive, h.1, h.2.1, h.2.2]
  exact hs

theorem State.isActive_iff : s.isActive = true ↔ s.st = .await ∨ s.st = .decoding := by
  simp [State.isActive]

/-- In AWAIT and DECODING no fault is recorded. -/
theorem State.controlOk.err_eq_zero (hs : s.controlOk) (ha : s.isActive = true) : s.err = 0 := by
  obtain ⟨hfault, -, -, -⟩ := hs
  by_contra he
  have hst := hfault.2 he
  rcases State.isActive_iff.1 ha with h | h <;> simp [h] at hst

/-- The codes of R160 are 1 to 9. -/
theorem errCode_range (e : ErrCode) : errCode e ≠ 0 ∧ (errCode e).toNat ≤ 9 := by cases e <;> decide

/-- Taking a fault records a code of R160, or keeps the first (R171, R175). -/
theorem State.controlOk.raise (hs : s.controlOk) (e : ErrCode) : (s.raise e).controlOk := by
  obtain ⟨hfault, hle, -, -⟩ := hs
  have herr : (s.raise e).err ≠ 0 ∧ (s.raise e).err.toNat ≤ 9 := by
    rw [State.raise_err]
    split
    · exact ⟨hfault.1 ‹_›, hle⟩
    · exact errCode_range e
  exact ⟨⟨fun _ => herr.1, fun _ => rfl⟩, herr.2, nofun, nofun⟩

theorem State.controlOk.setSite (hs : s.controlOk) (ha : s.isActive = true) {p : Site} (hp : p ≠ .pad) :
    (s.setSite p).controlOk := by
  obtain ⟨hfault, hle, -, -⟩ := hs
  exact ⟨hfault, hle, fun _ => ha, fun h => absurd h hp⟩

/-- With no fault recorded, between units (R112, R120) or at the end of the block (R70). -/
theorem controlOk_of_no_fault (hst : s.st ≠ .fault) (herr : s.err = 0) (hpar : s.parsing = false)
    (hpad : s.site = .pad → s.st = .done) : s.controlOk := by
  refine ⟨⟨fun h => absurd h hst, fun h => absurd herr h⟩, ?_, ?_, hpad⟩
  · rw [herr]
    exact Nat.zero_le 9
  · rw [hpar]
    exact nofun

/-- Between units and at the padding no element is parsed. -/
theorem State.parsing_eq_false (h : s.site = .none ∨ s.site = .pad) : s.parsing = false := by
  unfold State.parsing
  rcases h with h | h <;> rw [h]

/-- After a unit the parser stands between units or at the padding (R70, R120). -/
theorem State.parsing_finishUnit (s : State) (n : Nat) : (s.finishUnit n).parsing = false := by
  apply State.parsing_eq_false
  rw [State.finishUnit_site]
  split
  · exact .inr rfl
  · exact .inl rfl

theorem State.nextPhase_ne_fault (s : State) : s.nextPhase ≠ .fault := by
  unfold State.nextPhase
  split
  · exact nofun
  · split <;> exact nofun

theorem controlOk_finishUnit (herr : s.err = 0) (n : Nat) : (s.finishUnit n).controlOk := by
  refine controlOk_of_no_fault s.nextPhase_ne_fault herr (s.parsing_finishUnit n) fun h => ?_
  by_contra hn
  rw [State.finishUnit_site, if_neg (show s.nextPhase ≠ .done from hn)] at h
  cases h

/-- START leaves AWAIT or DONE, no fault, and nothing being parsed (R141). -/
theorem startBlock_control (a b : Word) (s : State) :
    (startBlock a b s).err = 0 ∧ (startBlock a b s).parsing = false ∧
      ((startBlock a b s).st = .await ∧ (startBlock a b s).site = .none ∧ b ≠ 0 ∨
        (startBlock a b s).st = .done ∧ (startBlock a b s).site = .pad ∧ b = 0) := by
  obtain ⟨r, hr⟩ := startBlock_eq a b s
  rw [hr]
  by_cases h : b = 0
  · exact ⟨rfl, State.parsing_eq_false (.inr (if_pos h)), .inr ⟨if_pos h, if_pos h, h⟩⟩
  · exact ⟨rfl, State.parsing_eq_false (.inl (if_neg h)), .inl ⟨if_neg h, if_neg h, h⟩⟩

theorem controlOk_startBlock (a b : Word) (s : State) : (startBlock a b s).controlOk := by
  obtain ⟨herr, hpar, ⟨hst, hsite, -⟩ | ⟨hst, -, -⟩⟩ := startBlock_control a b s
  · exact controlOk_of_no_fault (by rw [hst]; nofun) herr hpar (by rw [hsite]; nofun)
  · exact controlOk_of_no_fault (by rw [hst]; nofun) herr hpar fun _ => hst

/-- A unit begun in AWAIT or DECODING (R112). -/
theorem UnitResult.keeps_control {r : Res Unit} (h : UnitResult s r) (hs : s.controlOk) (ha : s.isActive = true) :
    r.keeps State.controlOk (fun _ => True) := by
  refine h.leaves.mono ?_ (fun e v hv => (hv.sameControl.controlOk hs).raise e) (fun _ h => h)
  rintro _ _ ⟨v, w, n, hv, hw, rfl⟩
  have hsame : s.sameControl w := hv.sameControl.trans hw.sameControl
  exact controlOk_finishUnit (hsame.2.1.trans (hs.err_eq_zero ha)) n

/-- An element that moves the parser on. -/
theorem State.describes.keeps_control {r : Res Unit} (h : s.describes r) (hs : s.controlOk) (ha : s.isActive = true) :
    r.keeps State.controlOk (fun _ => True) := by
  refine Res.leaves.mono h ?_ (fun e v hv => (hv.sameControl.controlOk hs).raise e) (fun _ _ => trivial)
  rintro _ _ ⟨v, p, hv, hp, rfl⟩
  exact (hv.sameControl.controlOk hs).setSite (hv.sameControl.isActive.trans ha) hp

theorem controlOk_commands : KeptByCommands State.controlOk (fun _ => True) where
  raise _ e hs := hs.raise e
  start s a b _ := controlOk_startBlock a b s
  place _ _ a b _ := controlOk_startBlock a b _
  unit s hs ha := (bdUnit_result s).keeps_control hs ha
  host _ _ hs := hs
  free _ hs := hs
  readData _ _ hs := hs
  reset s _ := controlOk_of_no_fault (by rw [State.hardReset_st]; nofun) rfl rfl nofun

theorem State.elementOutcome.kept_control {o : Host.Outcome State Fault Refusal} (h : s.elementOutcome o)
    (hs : s.controlOk) : Kept State.controlOk (fun _ => True) o := by
  rcases h with rfl | rfl | ⟨hp, r, rfl, hr⟩
  · trivial
  · exact hs
  · have ha : s.isActive = true := hs.2.2.1 hp
    rcases hr with hr | hr
    · exact (hr.keeps_control hs ha).kept
    · exact (hr.keeps_control hs ha).kept

theorem stepElement_kept_control (hs : s.controlOk) : Kept State.controlOk (fun _ => True) (stepElement s) := by
  rcases stepElement_cases s with h | ⟨u, hu, h⟩
  · exact h.kept_control hs
  · rw [h]
    exact (hu.sameControl.controlOk hs).raise _

theorem controlOk_beginByElements (hs : s.controlOk) : (beginByElements s).controlOk := by
  unfold beginByElements
  split
  · exact hs
  · split
    · have ha : s.isActive = true := ‹_›
      split
      · exact hs.setSite ha nofun
      · have hc := (s.setRemaining_decodesOnly (s.remaining - 1)).sameControl
        exact (hc.controlOk hs).setSite (hc.isActive.trans ha) nofun
    · exact hs.raise _

/-- An operation that leaves the control state alone, whatever it answers or raises. -/
theorem Res.leaves.keeps_control {r : Res α} {ok : α → State → Prop} {bad : ErrCode → State → Prop}
    {stop : Fault → Prop} (h : r.leaves ok bad stop) (hok : ∀ a u, ok a u → s.sameControl u)
    (hbad : ∀ e u, bad e u → s.sameControl u) (hs : s.controlOk) : r.keeps State.controlOk (fun _ => True) :=
  h.mono (fun a u hu => (hok a u hu).controlOk hs) (fun e u hu => ((hbad e u hu).controlOk hs).raise e)
    (fun _ _ => trivial)

/-- An operation that returns a value leaves `ret` to its invoker, which the control state is not concerned with. -/
theorem Res.keeps.kept_control_ret {r : Res Nat} (h : r.keeps State.controlOk (fun _ => True)) :
    Kept State.controlOk (fun _ => True) r.outcomeRet := h.keptRet fun _ _ hu => hu

/-- The operations invoked by name: none but BD.UNIT and `raise` changes the control state of itself (log 22). -/
theorem exec_operation_kept_control {i : Instr} (hi : i.isOperation = true) (hs : s.controlOk) :
    Kept State.controlOk (fun _ => True) (exec i s) := by
  cases i with
  | brInit => exact s.brInit_readsOnly.sameControl.controlOk hs
  | brIngest n => exact (s.ingest_readsOnly n.val).sameControl.controlOk hs
  | brGet n => exact (s.consume_readsOnly n.val).sameControl.controlOk hs
  | ctClear t => exact (clearTable_buildsOnly t s).decodes.sameControl.controlOk hs
  | ctCount t => exact (readCount_spec t s).2.decodes.sameControl.controlOk hs
  | ctDegen t =>
    exact ((readShortcut_leaves t s).keeps_control (fun _ _ h => h.1.decodes.sameControl)
      (fun _ _ h => h.2.decodes.sameControl) hs).kept
  | ctHlen =>
    exact ((readHlen_leaves s).keeps_control (fun _ _ h => h.1.sameControl) (fun _ _ h => h.2.sameControl)
      hs).kept_control_ret
  | ctHskip t i =>
    exact ((skipIndices_decodesOnly t i _ (s.consume_decodesOnly 2)).keeps_control (fun _ _ h => h.sameControl)
      (fun _ _ h => h.sameControl) hs).kept_control_ret
  | ctInitHybrid t skip =>
    exact ((initHybrid_leaves _ t skip s).keeps_control (fun _ _ h => h.decodes.sameControl)
      (fun _ _ h => h.2.decodes.sameControl) hs).kept
  | ctInitCoded t d =>
    exact ((initCoded_leaves _ t d s).keeps_control (fun _ _ h => h.decodes.sameControl)
      (fun _ _ h => h.2.decodes.sameControl) hs).kept
  | ctAssign t =>
    have hc : s.sameControl (s.setTab t (s.tab t).withCodes) := (s.setTab_buildsOnly t _).decodes.sameControl
    exact ((assignCodes_leaves t s).keeps_control (fun _ u h => h.2 ▸ hc) (fun _ u h => h.2.2 ▸ hc) hs).kept
  | ctDecode t =>
    exact ((decodeSymbol_readsOnly t s).keeps_control (fun _ _ h => h.sameControl) (fun _ _ h => h.2.sameControl)
      hs).kept_control_ret
  | bdInitSubblock =>
    exact ((initSubblock_leaves s).keeps_control (fun _ _ h => h.sameControl) (fun _ _ h => h.2.sameControl) hs).kept
  | bdUnit =>
    show Kept _ _ (execBdUnit s)
    unfold execBdUnit
    split
    · exact ((bdUnit_result s).keeps_control hs ‹_›).kept
    · trivial
  | bdLiteral c =>
    refine Res.keeps.kept_control_ret ((literal_leaves c s).keeps_control ?_ (fun _ _ h => h.elim) hs)
    rintro n u ⟨_, _, rfl⟩
    exact (s.pushByte_writesOnly c).sameControl
  | bdMatch c =>
    refine Res.keeps.kept_control_ret ((matchUnit_leaves c.toNat s).keeps_control ?_ (fun _ _ h => h.2.sameControl) hs)
    rintro n u ⟨_, v, hv, hu⟩
    exact hv.sameControl.trans hu.sameControl
  | bdOffset =>
    exact ((readOffset_leaves s).keeps_control (fun _ _ h => h.2.sameControl) (fun _ _ h => h.2.sameControl)
      hs).kept_control_ret
  | lzEmit b =>
    refine Res.keeps.kept ((emit_leaves b s).keeps_control ?_ (fun _ _ h => h.elim) hs)
    rintro _ u ⟨_, rfl⟩
    exact (s.pushByte_writesOnly b).sameControl
  | lzCopy n d =>
    refine Res.keeps.kept ((copy_leaves n.toNat d.toNat s).keeps_control (fun _ _ h => h.2.2.sameControl) ?_ hs)
    rintro e u ⟨rfl, _⟩
    exact u.readsOnly_refl.sameControl
  | raise e => exact hs.raise e
  | _ => cases hi

/-- Every instruction: a command, an operation invoked by name, or a stream element. -/
theorem exec_kept_control (i : Instr) (hs : s.controlOk) : Kept State.controlOk (fun _ => True) (exec i s) := by
  cases hc : isCommand i with
  | true => exact controlOk_commands.exec_kept hc hs
  | false =>
    cases ho : i.isOperation with
    | true => exact exec_operation_kept_control ho hs
    | false => exact (exec_element_cases (by simp [isElement, hc, ho]) s).kept_control hs

/-- Settles O55: `controlOk` is kept by the commands, by the parser's steps and by the operations invoked by name. -/
theorem controlKept : Obligations.ControlKept := by
  unfold Obligations.ControlKept
  intro s t hs ht
  have h : Kept State.controlOk (fun _ => True) (step s) :=
    step_kept controlOk_commands hs (fun _ _ _ => hs) (fun _ => stepElement_kept_control hs)
      (fun _ _ _ => controlOk_beginByElements (s := s.setPort _) hs)
      (fun i _ _ => exec_kept_control (s := s.setPort _) i hs)
  exact h.of_next ht

end Sys2Proof.Machine
end

section
/-! Every step keeps what holds of the output of a block, and stops the model nowhere (O56; 43_lz77_copy.md R133,
R134). -/

namespace Sys2Proof.Machine

variable {s u : State}

/-- A filled output at a state's end is what R133 and R134 ask of a block, once the next state is recorded (R120). -/
theorem State.filled.blockOk (h : s.filled) (n : Nat) : (s.finishUnit n).blockOk where
  inRange := h.inRange
  activeBelow := by
    intro ha
    have hne : s.produced ≠ s.outSize := by
      intro he
      have hd : s.nextPhase = .done := if_pos he
      rcases State.isActive_iff.1 ha with hst | hst <;> cases hd.symm.trans hst
    have : s.produced.toNat ≠ s.outSize.toNat := fun he => hne (BitVec.eq_of_toNat_eq he)
    have := h.inRange
    simp only [State.finishUnit_produced, State.finishUnit_outSize]
    omega
  doneAt := by
    intro hd
    by_contra hne
    have hst : s.nextPhase = .done := of_decide_eq_true hd
    unfold State.nextPhase at hst
    rw [if_neg (show ¬ s.produced = s.outSize from hne)] at hst
    split at hst <;> cases hst
  written := h.written
  window := h.window

/-- What `blockOk` speaks of is as it was. -/
def State.sameOutput (s u : State) : Prop :=
  u.st = s.st ∧ u.out = s.out ∧ u.win = s.win ∧ u.produced = s.produced ∧ u.outSize = s.outSize

theorem State.sameOutput.blockOk (h : s.sameOutput u) (hs : s.blockOk) : u.blockOk := by
  obtain ⟨hst, hout, hwin, hprod, hsize⟩ := h
  obtain ⟨hrange, hactive, hdone, hwritten, hwindow⟩ := hs
  constructor
  · rw [hprod, hsize]
    exact hrange
  · unfold State.isActive
    rw [hst, hprod, hsize]
    exact hactive
  · unfold State.isDone
    rw [hst, hprod, hsize]
    exact hdone
  · unfold State.readOut
    rw [hout, hprod]
    exact hwritten
  · unfold State.readOut State.readWin
    rw [hout, hwin, hprod]
    exact hwindow

/-- What `blockOk` says while a block is in progress or done, with OUT and WIN in their canonical form. -/
structure State.blockInv (s : State) : Prop where
  outWf : Mem.wf .out s.out = true
  winWf : Mem.wf .win s.win = true
  block : s.isActive = true ∨ s.isDone = true → s.blockOk

/-- In AWAIT and DECODING the output is filled and short of OUT_SIZE (R133, R134). -/
theorem State.blockInv.filled (h : s.blockInv) (ha : s.isActive = true) :
    s.filled ∧ s.produced.toNat < s.outSize.toNat := by
  have hb := h.block (.inl ha)
  exact ⟨⟨h.outWf, h.winWf, hb.inRange, hb.written, hb.window⟩, hb.activeBelow ha⟩

theorem State.blockInv.same (hs : s.blockInv) (h : s.sameOutput u) : u.blockInv := by
  refine ⟨h.2.1 ▸ hs.outWf, h.2.2.1 ▸ hs.winWf, fun ha => h.blockOk (hs.block ?_)⟩
  unfold State.isActive State.isDone at ha ⊢
  rwa [h.1] at ha

/-- Registers, tables and BD.remaining are not concerned. -/
theorem State.decodesOnly.sameOutput (h : s.decodesOnly u) : s.sameOutput u := by
  obtain ⟨b, x, c, rfl⟩ := h
  exact ⟨rfl, rfl, rfl, rfl, rfl⟩

/-- In FAULT nothing is said of the output. -/
theorem State.blockInv.raise (h : s.blockInv) (e : ErrCode) : (s.raise e).blockInv :=
  ⟨h.outWf, h.winWf, fun ha => absurd ha (by simp [State.isActive, State.isDone])⟩

/-- START binds a block of which nothing has been written (R141). -/
theorem blockInv_startBlock (a b : Word) (hout : Mem.wf .out s.out = true) (hwin : Mem.wf .win s.win = true) :
    (startBlock a b s).blockInv := by
  obtain ⟨-, -, hst⟩ := startBlock_control a b s
  obtain ⟨r, hr⟩ := startBlock_eq a b s
  have hprod : (startBlock a b s).produced = 0 := by rw [hr]
  have hsize : (startBlock a b s).outSize = b := by rw [hr]
  have hnone : ∀ k, ¬ k < (startBlock a b s).produced.toNat := by
    intro k
    rw [hprod]
    exact Nat.not_lt_zero k
  refine ⟨by rw [hr]; exact hout, by rw [hr]; exact hwin, fun _ => ⟨?range, fun ha => ?active, fun hd => ?done,
    fun k hk => absurd hk (hnone k), fun k hk => absurd hk (hnone k)⟩⟩
  case range =>
    rw [hprod]
    exact Nat.zero_le _
  case active =>
    rcases hst with ⟨-, -, hb⟩ | ⟨hd, -, -⟩
    · rw [hprod, hsize]
      exact Nat.pos_of_ne_zero fun h0 => hb (BitVec.eq_of_toNat_eq h0)
    · rcases State.isActive_iff.1 ha with h | h <;> cases h.symm.trans hd
  case done =>
    rcases hst with ⟨hs, -, -⟩ | ⟨-, -, hb⟩
    · cases hs.symm.trans (of_decide_eq_true hd)
    · rw [hprod, hsize, hb]

/-- A unit begun in AWAIT or DECODING keeps the output and stops the model nowhere. -/
theorem UnitResult.keeps_block {r : Res Unit} (h : UnitResult s r) (hs : s.blockInv) (ha : s.isActive = true) :
    r.keeps State.blockInv (fun _ => False) := by
  obtain ⟨hf, hp⟩ := hs.filled ha
  refine (h.leaves.and (h.fills hf hp)).mono ?_ (fun e v hv => (hs.same hv.sameOutput).raise e) (fun _ h => h.2)
  rintro _ _ ⟨-, w, n, hw, rfl⟩
  exact ⟨hw.outWf, hw.winWf, fun _ => hw.blockOk n⟩

/-- The HOST's own fields, what was read and the count of free values are not concerned. -/
theorem blockInv_commands : KeptByCommands State.blockInv (fun _ => False) where
  raise _ e hs := hs.raise e
  start _ a b hs := blockInv_startBlock a b hs.outWf hs.winWf
  place _ _ a b hs := blockInv_startBlock a b rfl hs.winWf
  unit s hs ha := (bdUnit_result s).keeps_block hs ha
  host _ _ hs := hs.same ⟨rfl, rfl, rfl, rfl, rfl⟩
  free _ hs := hs.same ⟨rfl, rfl, rfl, rfl, rfl⟩
  readData _ _ hs := hs.same ⟨rfl, rfl, rfl, rfl, rfl⟩
  reset _ hs := ⟨hs.outWf, rfl, fun ha => absurd ha (by simp [State.isActive, State.isDone])⟩

/-- Only the HOST makes requests, and elements are parsed only inside a unit. -/
def State.placeOk (s : State) : Prop :=
  (∀ r, r ∈ s.port → r.fromHost = true) ∧ (s.parsing = true → s.isActive = true)

/-- Nothing is parsed. -/
theorem placeOk_of_not_parsing (hport : ∀ r, r ∈ s.port → r.fromHost = true) (hpar : s.parsing = false) :
    s.placeOk := by
  refine ⟨hport, ?_⟩
  rw [hpar]
  exact nofun

theorem startBlock_port (a b : Word) (s : State) : (startBlock a b s).port = s.port := by
  obtain ⟨r, hr⟩ := startBlock_eq a b s
  rw [hr]

theorem placeOk_startBlock (a b : Word) (hs : s.placeOk) : (startBlock a b s).placeOk :=
  placeOk_of_not_parsing (by rw [startBlock_port]; exact hs.1) (startBlock_control a b s).2.1

theorem State.placeOk.raise (hs : s.placeOk) (e : ErrCode) : (s.raise e).placeOk := placeOk_of_not_parsing hs.1 rfl

theorem State.placeOk.decodes (hs : s.placeOk) (h : s.decodesOnly u) : u.placeOk := by
  obtain ⟨b, x, c, rfl⟩ := h
  exact hs

theorem UnitResult.keeps_place {r : Res Unit} (h : UnitResult s r) (hs : s.placeOk) :
    r.keeps State.placeOk (fun _ => True) := by
  refine h.leaves.mono ?_ (fun e v hv => (hs.decodes hv).raise e) (fun _ h => h)
  rintro _ _ ⟨v, w, n, hv, hw, rfl⟩
  refine placeOk_of_not_parsing ?_ (w.parsing_finishUnit n)
  rw [State.finishUnit_port, hw.port, hv.port]
  exact hs.1

theorem placeOk_commands : KeptByCommands State.placeOk (fun _ => True) where
  raise _ e hs := hs.raise e
  start _ a b hs := placeOk_startBlock a b hs
  place s p a b hs := placeOk_startBlock (s := s.placeBlock p) a b hs
  unit s hs _ := (bdUnit_result s).keeps_place hs
  host _ _ hs := hs
  free _ hs := hs
  readData _ _ hs := hs
  reset _ hs := placeOk_of_not_parsing hs.1 rfl

/-- What O56 keeps: `outputOk`, with OUT and WIN in their canonical form. -/
def State.outputInv (s : State) : Prop := s.blockInv ∧ s.placeOk

theorem outputInv_commands : KeptByCommands State.outputInv (fun _ => False) := blockInv_commands.and placeOk_commands

theorem State.outputInv.raise (hs : s.outputInv) (e : ErrCode) : (s.raise e).outputInv := ⟨hs.1.raise e, hs.2.raise e⟩

theorem State.outputInv.decodes (hs : s.outputInv) (h : s.decodesOnly u) : u.outputInv :=
  ⟨hs.1.same h.sameOutput, hs.2.decodes h⟩

/-- The parser moves on inside a unit. -/
theorem State.outputInv.setSite (hs : s.outputInv) (ha : s.isActive = true) (p : Site) : (s.setSite p).outputInv :=
  ⟨hs.1.same ⟨rfl, rfl, rfl, rfl, rfl⟩, hs.2.1, fun _ => ha⟩

/-- An element that moves the parser on. -/
theorem State.describes.keeps_output {r : Res Unit} (h : s.describes r) (hs : s.outputInv) (ha : s.isActive = true) :
    r.keeps State.outputInv (fun _ => False) := by
  refine Res.leaves.mono h ?_ (fun e v hv => (hs.decodes hv).raise e) (fun _ h => h)
  rintro _ _ ⟨v, p, hv, _, rfl⟩
  exact (hs.decodes hv).setSite (hv.sameControl.isActive.trans ha) p

theorem stepElement_kept_output (hs : s.outputInv) : Kept State.outputInv (fun _ => False) (stepElement s) := by
  rcases stepElement_cases s with (h | h | ⟨hp, r, h, hr⟩) | ⟨u, hu, h⟩
  · rw [h]
    trivial
  · rw [h]
    exact hs
  · have ha : s.isActive = true := hs.2.2 hp
    rw [h]
    rcases hr with hr | hr
    · exact (hr.keeps_output hs ha).kept
    · exact ((hr.keeps_block hs.1 ha).and (hr.keeps_place hs.2)).kept
  · rw [h]
    exact (hs.decodes hu.decodes).raise _

theorem outputInv_beginByElements (hs : s.outputInv) : (beginByElements s).outputInv := by
  unfold beginByElements
  split
  · exact hs
  · split
    · have ha : s.isActive = true := ‹_›
      split
      · exact hs.setSite ha _
      · have hc := s.setRemaining_decodesOnly (s.remaining - 1)
        exact (hs.decodes hc).setSite (hc.sameControl.isActive.trans ha) _
    · exact hs.raise _

/-- A request that is served leaves requests of the HOST. -/
theorem State.outputInv.setPort (hs : s.outputInv) {r : Request} {rest : List Request} (hp : s.port = r :: rest) :
    (s.setPort rest).outputInv := by
  refine ⟨hs.1.same ⟨rfl, rfl, rfl, rfl, rfl⟩, fun q hq => hs.2.1 q ?_, hs.2.2⟩
  rw [hp]
  exact List.mem_cons_of_mem r hq

/-- Settles O56: `outputInv` is kept by the commands and by the parser's steps, which stop the model nowhere; operations
invoked by name are not requested. -/
theorem outputKept : Obligations.OutputKept := by
  unfold Obligations.OutputKept
  intro s ⟨_, hout, hwin⟩ ⟨hport, hpar, hblock⟩
  have hs : s.outputInv := ⟨⟨hout, hwin, hblock⟩, hport, hpar⟩
  have h : Kept State.outputInv (fun _ => False) (step s) := by
    refine step_kept outputInv_commands hs (fun _ _ => hs.setPort) (fun _ => stepElement_kept_output hs)
      (fun _ _ hp => outputInv_beginByElements (hs.setPort hp)) fun i rest hp => ?_
    have hhost : (Request.deliver (.operation i)).fromHost = true := hport _ (by rw [hp]; exact List.mem_cons_self)
    cases hhost
  refine ⟨h.safe, fun t ht => ?_⟩
  obtain ⟨hb, hp, ha⟩ := h.of_next ht
  exact ⟨hp, ha, hb.block⟩

end Sys2Proof.Machine
end

section
/-! The canonical assignment (41_codetable.md R102, R104): the code of a symbol of length `l` takes a slot of `2^(16-l)`
units of the code space, and the slots follow one another in the order of length and symbol. So no slot lies in
another, which is what `Table.prefixFree` says of the codes. -/

namespace Sys2Proof.Machine

/-- Where the slot of the code `c` of `l` bits begins. -/
def slotStart (l c : Nat) : Nat := c * 2 ^ (16 - l)

/-- Where it ends. -/
def slotEnd (l c : Nat) : Nat := (c + 1) * 2 ^ (16 - l)

/-- The length of symbol `a` in a list of lengths. -/
def lenIn (xs : List (BitVec 5)) (a : Nat) : Nat := (xs.getD a 0).toNat

/-- The code of symbol `a` in a list of codes. -/
def codeIn (cs : List (BitVec 16)) (a : Nat) : Nat := (cs.getD a 0).toNat

@[simp] theorem lenIn_nil (a : Nat) : lenIn [] a = 0 := rfl
@[simp] theorem codeIn_cons_zero (c : BitVec 16) (cs : List (BitVec 16)) : codeIn (c :: cs) 0 = c.toNat := rfl

theorem Table.lenAt_eq_lenIn {n cb : Nat} (t : Table n cb) (a : Nat) : t.lenAt a = lenIn t.len.toList a :=
  t.lenAt_eq a

theorem Table.codeAt_eq_codeIn {n cb : Nat} (t : Table n cb) (a : Nat) : t.codeAt a = codeIn t.code.toList a :=
  t.codeAt_eq a

theorem slotEnd_eq (l c : Nat) : slotEnd l c = slotStart l c + 2 ^ (16 - l) := Nat.succ_mul ..

/-- The whole code space in slots of length `l`. -/
theorem codeSpace_eq {l : Nat} (hl : l ≤ 16) : 2 ^ 16 = 2 ^ l * 2 ^ (16 - l) := by
  rw [← Nat.pow_add]
  congr 1
  omega

/-- A slot that begins in the code space ends there. -/
theorem slot_fits {l ctr : Nat} (hl : l ≤ 16) (hd : 2 ^ (16 - l) ∣ ctr) (h : ctr < 2 ^ 16) :
    ctr + 2 ^ (16 - l) ≤ 2 ^ 16 := by
  obtain ⟨k, rfl⟩ := hd
  rw [codeSpace_eq hl] at h ⊢
  have hk : k < 2 ^ l := by
    rw [Nat.mul_comm] at h
    exact Nat.lt_of_mul_lt_mul_right h
  calc 2 ^ (16 - l) * k + 2 ^ (16 - l) = (k + 1) * 2 ^ (16 - l) := by ring
    _ ≤ 2 ^ l * 2 ^ (16 - l) := Nat.mul_le_mul_right _ hk

/-- The code that the counter gives (R102) has its slot at the counter. -/
theorem slotStart_counter {l ctr : Nat} (hd : 2 ^ (16 - l) ∣ ctr) (h : ctr < 2 ^ 16) :
    slotStart l (BitVec.ofNat 16 (ctr >>> (16 - l))).toNat = ctr := by
  have hlt : ctr / 2 ^ (16 - l) < 2 ^ 16 := (Nat.div_le_self ..).trans_lt h
  rw [slotStart, BitVec.toNat_ofNat, Nat.shiftRight_eq_div_pow, Nat.mod_eq_of_lt hlt, Nat.div_mul_cancel hd]

/-- What a pass for the length `l` leaves of the codes `cs` and the counter `ctr`: the symbols of that length have
consecutive slots between the two counters, and the other codes are as they were. -/
structure PassPlaced (l : Nat) (xs : List (BitVec 5)) (cs cs' : List (BitVec 16)) (ctr ctr' : Nat) : Prop where
  dvd : 2 ^ (16 - l) ∣ ctr'
  rises : ctr ≤ ctr'
  room : ctr' ≤ 2 ^ 16
  kept : ∀ a, lenIn xs a ≠ l → codeIn cs' a = codeIn cs a
  starts : ∀ a, lenIn xs a = l → ctr ≤ slotStart l (codeIn cs' a)
  ends : ∀ a, lenIn xs a = l → slotEnd l (codeIn cs' a) ≤ ctr'
  apart : ∀ a b, a < b → lenIn xs a = l → lenIn xs b = l → slotEnd l (codeIn cs' a) ≤ slotStart l (codeIn cs' b)

/-- A symbol of another length is passed over. -/
theorem PassPlaced.skip {l ctr ctr' : Nat} {x : BitVec 5} {xs : List (BitVec 5)} {c : BitVec 16}
    {cs cs' : List (BitVec 16)} (h : PassPlaced l xs cs cs' ctr ctr') (hx : x.toNat ≠ l) :
    PassPlaced l (x :: xs) (c :: cs) (c :: cs') ctr ctr' where
  dvd := h.dvd
  rises := h.rises
  room := h.room
  kept
    | 0, _ => rfl
    | a + 1, ha => h.kept a ha
  starts
    | 0, ha => absurd ha hx
    | a + 1, ha => h.starts a ha
  ends
    | 0, ha => absurd ha hx
    | a + 1, ha => h.ends a ha
  apart
    | 0, _, _, ha, _ => absurd ha hx
    | a + 1, b + 1, hab, ha, hb => h.apart a b (by omega) ha hb

/-- A symbol of the length gets the slot at the counter. -/
theorem PassPlaced.place {l ctr ctr' : Nat} {x : BitVec 5} {xs : List (BitVec 5)} {c d : BitVec 16}
    {cs cs' : List (BitVec 16)} (h : PassPlaced l xs cs cs' (ctr + 2 ^ (16 - l)) ctr') (hx : x.toNat = l)
    (hd : slotStart l d.toNat = ctr) : PassPlaced l (x :: xs) (c :: cs) (d :: cs') ctr ctr' where
  dvd := h.dvd
  rises := (Nat.le_add_right ..).trans h.rises
  room := h.room
  kept
    | 0, ha => absurd hx ha
    | a + 1, ha => h.kept a ha
  starts
    | 0, _ => hd.ge
    | a + 1, ha => (Nat.le_add_right ..).trans (h.starts a ha)
  ends
    | 0, _ => by
      rw [codeIn_cons_zero, slotEnd_eq, hd]
      exact h.rises
    | a + 1, ha => h.ends a ha
  apart
    | 0, b + 1, _, _, hb => by
      rw [codeIn_cons_zero, slotEnd_eq, hd]
      exact h.starts b hb
    | a + 1, b + 1, hab, ha, hb => h.apart a b (by omega) ha hb

/-- The inner loop of CT.ASSIGN (R102), if the code space suffices. -/
theorem assignPass_placed {l : Nat} (hl : 1 ≤ l ∧ l ≤ 16) {xs : List (BitVec 5)} {cs : List (BitVec 16)} {ctr : Nat}
    (hlen : xs.length = cs.length) (hd : 2 ^ (16 - l) ∣ ctr) (hctr : ctr ≤ 2 ^ 16)
    (hok : (assignPass l xs cs ctr).ok = true) :
    PassPlaced l xs cs (assignPass l xs cs ctr).codes ctr (assignPass l xs cs ctr).ctr := by
  induction xs generalizing cs ctr with
  | nil =>
    have hne : ∀ a, lenIn [] a ≠ l := fun a h => absurd h (by rw [lenIn_nil]; omega)
    exact ⟨hd, Nat.le_refl _, hctr, fun _ _ => rfl, fun a h => absurd h (hne a), fun a h => absurd h (hne a),
      fun a _ _ h => absurd h (hne a)⟩
  | cons x xs ih =>
    cases cs with
    | nil => cases hlen
    | cons c cs =>
      simp only [List.length_cons, Nat.add_right_cancel_iff] at hlen
      by_cases hx : x.toNat = l
      · by_cases hfull : 2 ^ 16 ≤ ctr
        · simp only [assignPass, if_pos hx, if_pos hfull] at hok
          cases hok
        · have hlt : ctr < 2 ^ 16 := Nat.lt_of_not_le hfull
          simp only [assignPass, if_pos hx, if_neg hfull] at hok ⊢
          exact (ih hlen (Nat.dvd_add hd (dvd_refl _)) (slot_fits hl.2 hd hlt) hok).place hx (slotStart_counter hd hlt)
      · simp only [assignPass, if_neg hx] at hok ⊢
        exact (ih hlen hd hctr hok).skip hx

/-- The lengths below `l` have been assigned, up to the counter `ctr`: the slots of their symbols follow one another in
the order of length and symbol. -/
structure Placed (xs : List (BitVec 5)) (cs : List (BitVec 16)) (l ctr : Nat) : Prop where
  dvd : 2 ^ (16 - l) ∣ ctr
  room : ctr ≤ 2 ^ 16
  ends : ∀ a, lenIn xs a ≠ 0 → lenIn xs a < l → slotEnd (lenIn xs a) (codeIn cs a) ≤ ctr
  apart : ∀ a b, lenIn xs a ≠ 0 → lenIn xs b < l → lenIn xs a < lenIn xs b ∨ lenIn xs a = lenIn xs b ∧ a < b →
    slotEnd (lenIn xs a) (codeIn cs a) ≤ slotStart (lenIn xs b) (codeIn cs b)

/-- One more length. -/
theorem Placed.pass {xs : List (BitVec 5)} {cs cs' : List (BitVec 16)} {l ctr ctr' : Nat} (h : Placed xs cs l ctr)
    (hp : PassPlaced l xs cs cs' ctr ctr') : Placed xs cs' (l + 1) ctr' where
  dvd := (Nat.pow_dvd_pow 2 (by omega)).trans hp.dvd
  room := hp.room
  ends := by
    intro a h0 ha
    by_cases hal : lenIn xs a = l
    · rw [hal]
      exact hp.ends a hal
    · rw [hp.kept a hal]
      exact (h.ends a h0 (by omega)).trans hp.rises
  apart := by
    intro a b h0 hb hab
    by_cases hbl : lenIn xs b = l
    · by_cases hal : lenIn xs a = l
      · rw [hal, hbl]
        exact hp.apart a b (by omega) hal hbl
      · rw [hp.kept a hal]
        calc slotEnd (lenIn xs a) (codeIn cs a) ≤ ctr := h.ends a h0 (by omega)
          _ ≤ slotStart l (codeIn cs' b) := hp.starts b hbl
          _ = slotStart (lenIn xs b) (codeIn cs' b) := by rw [hbl]
    · rw [hp.kept a (by omega), hp.kept b hbl]
      exact h.apart a b h0 (by omega) hab

/-- The outer loop of CT.ASSIGN (R102), if the code space suffices. -/
theorem assignFrom_placed {xs : List (BitVec 5)} (k : Nat) {l : Nat} {cs : List (BitVec 16)} {ctr : Nat} (hl : 1 ≤ l)
    (hk : l + k = 17) (hlen : xs.length = cs.length) (h : Placed xs cs l ctr)
    (hok : (assignFrom xs k l cs ctr).ok = true) :
    Placed xs (assignFrom xs k l cs ctr).codes 17 (assignFrom xs k l cs ctr).ctr := by
  induction k generalizing l cs ctr with
  | zero =>
    obtain rfl : l = 17 := by omega
    exact h
  | succ k ih =>
    simp only [assignFrom] at hok ⊢
    split at hok
    · rename_i hpass
      rw [if_pos hpass]
      exact ih (by omega) (by omega) (by rw [assignPass_length, hlen])
        (h.pass (assignPass_placed (by omega) hlen h.dvd h.room hpass)) hok
    · exact absurd hok ‹_›

variable {n cb : Nat}

/-- The assignment of a table whose code space suffices. -/
theorem Table.assigned_placed (t : Table n cb) (hok : t.assigned.ok = true) :
    Placed t.len.toList t.assigned.codes 17 t.assigned.ctr := by
  refine assignFrom_placed Config.maxLen (Nat.le_refl 1) rfl (by simp) ?_ hok
  exact ⟨dvd_zero _, Nat.zero_le _, fun a h0 ha => by omega, fun a b h0 hb hab => by omega⟩

/-- A code that continues another has its slot inside the other's. -/
theorem slot_inside {l m c d : Nat} (hlm : l ≤ m) (hm : m ≤ 16) (h : d / 2 ^ (m - l) = c) :
    slotStart l c ≤ slotStart m d ∧ slotEnd m d ≤ slotEnd l c := by
  have hpow : 2 ^ (16 - l) = 2 ^ (m - l) * 2 ^ (16 - m) := by
    rw [← Nat.pow_add]
    congr 1
    omega
  have hpos : 0 < 2 ^ (m - l) := Nat.two_pow_pos _
  have hlow : c * 2 ^ (m - l) ≤ d := h ▸ Nat.div_mul_le_self d _
  have hhigh : d + 1 ≤ (c + 1) * 2 ^ (m - l) := by
    rw [← h, Nat.mul_comm]
    exact Nat.lt_mul_div_succ d hpos
  unfold slotStart slotEnd
  rw [hpow, ← Nat.mul_assoc, ← Nat.mul_assoc]
  exact ⟨Nat.mul_le_mul_right _ hlow, Nat.mul_le_mul_right _ hhigh⟩

theorem slotStart_lt_slotEnd (l c : Nat) : slotStart l c < slotEnd l c := by
  rw [slotEnd_eq]
  exact Nat.lt_add_of_pos_right (Nat.two_pow_pos _)

theorem Table.withCodes_codeAt (t : Table n cb) (a : Nat) : t.withCodes.codeAt a = codeIn t.assigned.codes a :=
  t.withCodes.codeAt_eq_codeIn a

/-- CT.ASSIGN without a fault leaves a code none of whose words begins another (R104). -/
theorem Table.withCodes_prefixFree (t : Table n cb) (hlens : t.lensOk) (hok : t.assigned.ok = true) :
    t.withCodes.prefixFree := by
  have hp := t.assigned_placed hok
  have hlen : ∀ a, lenIn t.len.toList a ≤ 16 := fun a => t.lenAt_eq_lenIn a ▸ hlens a
  simp only [Table.prefixFree, Table.lenAt_withCodes, Table.withCodes_codeAt]
  simp only [Table.lenAt_eq_lenIn]
  refine ⟨fun a h0 => ?_, fun a b hne h0 hab he => ?_⟩
  · have hend := (hp.ends a h0 (by have := hlen a; omega)).trans hp.room
    rw [slotEnd, codeSpace_eq (hlen a)] at hend
    exact Nat.le_of_mul_le_mul_right hend (Nat.two_pow_pos _)
  · obtain ⟨hstart, hend⟩ := slot_inside hab (hlen b) he
    have ha := slotStart_lt_slotEnd (lenIn t.len.toList a) (codeIn t.assigned.codes a)
    have hb := slotStart_lt_slotEnd (lenIn t.len.toList b) (codeIn t.assigned.codes b)
    by_cases hord : lenIn t.len.toList a < lenIn t.len.toList b ∨ lenIn t.len.toList a = lenIn t.len.toList b ∧ a < b
    · have := hp.apart a b h0 (by have := hlen b; omega) hord
      omega
    · have := hp.apart b a (by omega) (by have := hlen a; omega) (by omega)
      omega

/-- CT.ASSIGN without a fault leaves a sound table (R19, R104, R108). -/
theorem Table.withCodes_sound (t : Table n cb) (hsv : t.sv = false) (hlens : t.lensOk) (hok : t.assigned.ok = true) :
    t.withCodes.sound :=
  t.withCodes.sound_of_code hsv hlens (t.withCodes_prefixFree hlens hok)

end Sys2Proof.Machine
end

section
/-! The constructions leave sound tables, one after the other (R95, R101, R111), and units leave the tables alone:
between commands the tables of a sub-block in progress are sound (O58). -/

namespace Sys2Proof.Machine

variable {s u v : State} {t : TableId}

/-! ## A table under construction -/

/-- From `s` on, the table `t` is being described: it is no degenerate one, its lengths so far are at most 16, and the
other tables are as they were. -/
structure State.building (s u : State) (t : TableId) : Prop where
  sv : (u.tab t).sv = false
  lens : (u.tab t).lensOk
  others : s.othersKept u t

/-- From `s` on, the table `t` has been built, and the other tables are as they were. -/
structure State.built (s u : State) (t : TableId) : Prop where
  sound : (u.tab t).sound
  others : s.othersKept u t

theorem State.readsOnly.tab (h : u.readsOnly v) (x : TableId) : v.tab x = u.tab x := by
  rw [h.eq, State.tab_setBr]

theorem State.building.reads (h : s.building u t) (hv : u.readsOnly v) : s.building v t where
  sv := by rw [hv.tab]; exact h.sv
  lens := by rw [hv.tab]; exact h.lens
  others x hx := (hv.tab x).trans (h.others x hx)

theorem State.othersKept.setTab (h : s.othersKept u t) (x : Table t.size t.countBits) :
    s.othersKept (u.setTab t x) t := fun y hy => (u.tab_setTab_other t y x hy).trans (h y hy)

/-- The table under construction is replaced. -/
theorem State.building.setTab (h : s.building u t) {x : Table t.size t.countBits} (hsv : x.sv = false)
    (hlens : x.lensOk) : s.building (u.setTab t x) t where
  sv := by rw [State.tab_setTab_same]; exact hsv
  lens := by rw [State.tab_setTab_same]; exact hlens
  others := h.others.setTab x

/-- Storing a length of at most 16 (R95, R99); past the alphabet nothing is stored. -/
theorem Table.lensOk_setLen {n cb : Nat} {x : Table n cb} (h : x.lensOk) {i l : Nat} (hi : i < n) (hl : l ≤ 16) :
    (x.setLen i l).lensOk := by
  intro a
  rw [x.lenAt_setLen hi (by omega)]
  split
  · exact hl
  · exact h a

theorem State.building.storeLen (h : s.building u t) {i l : Nat} (hi : i < t.size) (hl : l ≤ 16) :
    s.building (storeLen t i l u) t := h.setTab h.sv (Table.lensOk_setLen h.lens hi hl)

/-- CT.CLEAR begins a construction (R90). -/
theorem clearTable_building (t : TableId) (s : State) : s.building (clearTable t s) t where
  sv := by
    unfold clearTable
    rw [State.tab_setTab_same]
    rfl
  lens := by
    intro a
    unfold clearTable
    rw [State.tab_setTab_same, show (s.tab t).clear.lenAt a = 0 from Table.lenAt_zero t.size t.countBits a]
    exact Nat.zero_le _
  others x hx := s.tab_setTab_other t x _ hx

/-- CT.COUNT after CT.CLEAR (R90, R91). -/
theorem readCount_building (t : TableId) (s : State) : s.building (readCount t (clearTable t s)).2 t := by
  have h := (clearTable_building t s).reads (State.consume_readsOnly _ t.countBits)
  simp only [readCount, recordCount, State.get_snd]
  split
  · exact h
  · exact h.setTab h.sv h.lens

/-- The table of one symbol of the alphabet is sound (R92). -/
theorem Table.setShortcut_sound {n cb : Nat} (x : Table n cb) {a : Nat} (ha : a < n) : (x.setShortcut a).sound := by
  have hsv : (x.setShortcut a).sv = true := rfl
  unfold Table.sound
  rw [if_pos hsv]
  exact (Nat.mod_le ..).trans_lt ha

/-- CT.DEGEN (R92). -/
theorem readShortcut_built (h : s.building u t) :
    (readShortcut t u).leaves (fun _ w => s.built w t) (fun _ _ => True) (fun _ => False) := by
  have hc : s.building (u.get t.countBits).2 t := h.reads (u.consume_readsOnly t.countBits)
  refine (recordShortcut_leaves t _ _).mono ?_ (fun _ _ _ => trivial) (fun _ h => h)
  rintro _ w ⟨hx, rfl⟩
  refine ⟨?_, hc.others.setTab _⟩
  rw [State.tab_setTab_same]
  exact Table.setShortcut_sound _ hx

/-- CT.ASSIGN (R102) ends a construction. -/
theorem assignCodes_built (h : s.building u t) :
    (assignCodes t u).leaves (fun _ w => s.built w t) (fun _ _ => True) (fun _ => False) := by
  refine (assignCodes_leaves t u).mono ?_ (fun _ _ _ => trivial) (fun _ h => h)
  rintro _ w ⟨hok, rfl⟩
  refine ⟨?_, h.others.setTab _⟩
  rw [State.tab_setTab_same]
  exact Table.withCodes_sound _ h.sv h.lens hok

/-! ## The hybrid construction -/

theorem hybLoop_building (m : HybCountMode) (skip : Option Nat) (f : Nat) (w : Scan) {u : State}
    (h : s.building u t) :
    (hybLoop m t skip f w u).leaves (fun _ x => s.building x t) (fun _ _ => True) (fun _ => False) := by
  induction f generalizing w u with
  | zero =>
    simp only [hybLoop]
    split
    · exact Res.leaves_raise trivial
    · exact h
  | succ f ih =>
    simp only [hybLoop]
    split
    · split
      · exact Res.leaves_raise trivial
      · have hi : w.i < t.size := Nat.lt_of_not_le ‹_›
        refine Res.leaves.andThen ((readHlen_leaves u).mono (fun _ _ h => h) (fun _ _ _ => trivial) (fun _ h => h)) ?_
        rintro l x ⟨hx, hl⟩
        have hstored : s.building (storeLen t w.i l x) t := (h.reads hx).storeLen hi hl
        refine Res.leaves.andThen (ok := fun _ y => s.building y t) ?_ fun w' y hy => ih w' hy
        exact (hybSkip_leaves t skip _ _).mono (fun _ _ h => hstored.reads h.1) (fun _ _ _ => trivial) (fun _ h => h)
    · exact h

/-- CT.INIT_HYBRID without a fault leaves its table sound and the others as they were (R95). -/
theorem initHybrid_built (m : HybCountMode) (t : TableId) (skip : Option Nat) (s : State) :
    (initHybrid m t skip s).leaves (fun _ u => s.built u t) (fun _ _ => True) (fun _ => False) := by
  have h := readCount_building t s
  simp only [initHybrid]
  split
  · exact readShortcut_built h
  · exact (hybLoop_building m skip _ _ h).andThen fun _ u hu => assignCodes_built hu

/-! ## The coded construction -/

/-- CT.DECODE of a sound table answers a symbol of its alphabet (R92, R100). -/
theorem decodeSymbol_lt (hs : (u.tab t).sound) :
    (decodeSymbol t u).leaves (fun x v => x < t.size ∧ u.readsOnly v) (fun _ _ => True) (fun _ => False) := by
  refine (decodeSymbol_leaves t u).mono ?_ (fun _ _ _ => trivial) (fun _ h => h)
  rintro x v (⟨hsv, rfl, rfl⟩ | ⟨_, hx, _, _, rfl⟩)
  · unfold Table.sound at hs
    rw [if_pos hsv] at hs
    exact ⟨hs, v.readsOnly_refl⟩
  · exact ⟨hx, u.consume_readsOnly _⟩

/-- An entry of a value that spells a length of at most 16 (R58 to R62, R96 to R99). -/
theorem codEntry_building (m : CodCountMode) (w : Scan) {x : Nat} (hx : x ≤ 18) (h : s.building u t) :
    (codEntry m t w x u).leaves (fun _ v => s.building v t) (fun _ _ => True) (fun _ => False) := by
  have hrun : ∀ k n, (clRunEntry m t w k (u.consume n)).leaves (fun _ v => s.building v t) (fun _ _ => True)
      (fun _ => False) := by
    intro k n
    refine Res.leaves.andThen ((skipIndices_leaves t w.i k _).mono (fun _ _ h => h) (fun _ _ _ => trivial)
      (fun _ h => h)) ?_
    rintro i v ⟨_, _, rfl⟩
    exact h.reads (u.consume_readsOnly n)
  match x with
  | 0 =>
    simp only [codEntry, clZeroEntry]
    split
    · exact Res.leaves_raise trivial
    · exact h
  | 1 => exact hrun _ 4
  | 2 => exact hrun _ 9
  | x + 3 =>
    simp only [codEntry, clLenEntry]
    split
    · exact Res.leaves_raise trivial
    · exact h.storeLen (Nat.lt_of_not_le ‹_›) (by unfold codeLength; omega)

/-- The loop of CT.INIT_CODED (R101) with the sound length decoder `T_LEN`. -/
theorem codLoop_building (m : CodCountMode) (ht : .tLen ≠ t) (hd : (s.tab .tLen).sound) (f : Nat) (w : Scan)
    {u : State} (h : s.building u t) :
    (codLoop m t .tLen f w u).leaves (fun _ x => s.building x t) (fun _ _ => True) (fun _ => False) := by
  induction f generalizing w u with
  | zero => exact Res.leaves_raise trivial
  | succ f ih =>
    simp only [codLoop]
    split
    · have hdu : (u.tab .tLen).sound := by
        rw [h.others .tLen ht]
        exact hd
      refine Res.leaves.andThen (decodeSymbol_lt hdu) ?_
      rintro x v ⟨hx, hv⟩
      exact (codEntry_building m w (Nat.le_of_lt_succ hx) (h.reads hv)).andThen fun w' y hy => ih w' hy
    · exact h

/-- CT.INIT_CODED without a fault, by the sound length decoder `T_LEN`, leaves its table sound and the others as they
were (R101). -/
theorem initCoded_built (m : CodCountMode) (ht : .tLen ≠ t) (hd : (s.tab .tLen).sound) :
    (initCoded m t .tLen s).leaves (fun _ u => s.built u t) (fun _ _ => True) (fun _ => False) := by
  have h := readCount_building t s
  simp only [initCoded]
  split
  · exact readShortcut_built h
  · exact (codLoop_building m ht hd _ _ h).andThen fun _ u hu => assignCodes_built hu

/-! ## A sub-block and its units -/

/-- The three tables are sound (R19, R20). -/
def State.soundTabs (s : State) : Prop := ∀ t, (s.tab t).sound

/-- BD.INIT_SUBBLOCK without a fault leaves units to decode and three sound tables (R111). -/
theorem initSubblock_sound (s : State) :
    (initSubblock s).leaves (fun _ u => u.soundTabs ∧ u.remaining ≠ 0) (fun _ _ => True) (fun _ => False) := by
  have hpeek := s.peek_lt Config.subw (by decide)
  simp only [initSubblock]
  split
  · exact Res.leaves_raise trivial
  rename_i h0
  have hcount : BitVec.ofNat 16 (s.peek Config.subw) ≠ 0 := by
    intro he
    have := congrArg BitVec.toNat he
    rw [BitVec.toNat_ofNat, Nat.mod_eq_of_lt hpeek] at this
    exact h0 this
  have hyb := fun t k u => (initHybrid_built Config.hybCountMode t k u).and
    ((initHybrid_leaves Config.hybCountMode t k u).mono (fun _ _ h => h) (fun _ _ _ => trivial) (fun _ h => h))
  refine Res.leaves.andThen ((hyb .tLen _ _).mono (fun _ _ h => h) (fun _ _ h => h) (fun _ h => h.1)) ?_
  rintro _ u ⟨hlen, b, x, rfl⟩
  refine Res.leaves.andThen (((initCoded_built _ (t := .tLit) nofun hlen.sound).and
    (initCoded_leaves _ .tLit .tLen _)).mono (fun _ _ h => h) (fun _ _ h => h) (fun _ h => h.1)) ?_
  rintro _ v ⟨hlit, b', x', rfl⟩
  refine (hyb .tOff _ _).mono ?_ (fun _ _ h => h) (fun _ h => h.1)
  rintro _ w ⟨hoff, b'', x'', rfl⟩
  refine ⟨fun t => ?_, hcount⟩
  cases t with
  | tLen =>
    rw [hoff.others .tLen nofun, hlit.others .tLen nofun]
    exact hlen.sound
  | tLit =>
    rw [hoff.others .tLit nofun]
    exact hlit.sound
  | tOff => exact hoff.sound

/-- The unit proper leaves the tables as they were (R20, R112). -/
theorem decodeUnit_tabs (s : State) :
    (decodeUnit s).leaves (fun _ u => u.tabs = s.tabs) (fun _ _ => True) (fun _ => True) := by
  refine Res.leaves.andThen ((decodeSymbol_readsOnly .tLit _).mono (fun _ _ h => h) (fun _ _ _ => trivial)
    (fun _ h => h.elim)) ?_
  rintro c _ ⟨b, rfl⟩
  refine Res.leaves.andThen ((unitOfSymbol_frame c _).mono (fun _ _ h => h) (fun _ _ _ => trivial) (fun _ h => h)) ?_
  rintro n _ ⟨_, ⟨b', rfl⟩, o, w, p, rfl⟩
  exact rfl

/-- BD.UNIT without a fault leaves sound tables: those of the sub-block in progress, or those it has built (R112). -/
theorem bdUnit_soundTabs (h : s.remaining ≠ 0 → s.soundTabs) :
    (bdUnit s).leaves (fun _ u => u.soundTabs) (fun _ _ => True) (fun _ => True) := by
  have hens : (ensureSubblock s).leaves (fun _ u => u.soundTabs) (fun _ _ => True) (fun _ => True) := by
    unfold ensureSubblock
    split
    · exact (initSubblock_sound s).mono (fun _ _ h => h.1) (fun _ _ h => h) (fun _ h => h.elim)
    · exact h ‹_›
  refine hens.andThen fun _ u hu => (decodeUnit_tabs u).mono (fun _ v hv t => ?_) (fun _ _ h => h) (fun _ h => h)
  rw [State.tab_eq, hv]
  exact hu t

/-! ## O58: between commands -/

/-- In IDLE, DONE and FAULT nothing is said of the tables. -/
theorem tablesOk_of_inactive (hport : ∀ r, r ∈ s.port → r.isCommand = true) (hpar : s.parsing = false)
    (hst : s.isActive = false) : s.tablesOk := by
  have hn : ¬(s.st = .await ∨ s.st = .decoding) := fun h => by
    rw [State.isActive_iff.2 h] at hst
    cases hst
  exact ⟨hport, hpar, fun h => absurd (.inl h) hn, fun h => absurd (.inr h) hn⟩

/-- The tables are sound while units of the sub-block are left. -/
theorem State.tablesOk.soundTabs (hs : s.tablesOk) (ha : s.isActive = true) (hr : s.remaining ≠ 0) : s.soundTabs := by
  obtain ⟨-, -, hawait, hdec⟩ := hs
  rcases State.isActive_iff.1 ha with h | h
  · exact absurd (hawait h) hr
  · obtain ⟨-, hlen, hlit, hoff⟩ := hdec h
    intro t
    cases t with
    | tLen => exact hlen
    | tLit => exact hlit
    | tOff => exact hoff

/-- After a unit the control state says whether units are left (R120). -/
theorem tablesOk_finishUnit (hport : ∀ r, r ∈ s.port → r.isCommand = true) (n : Nat)
    (hsound : (s.finishUnit n).soundTabs) : (s.finishUnit n).tablesOk := by
  refine ⟨hport, s.parsing_finishUnit n, fun h => ?_, fun h => ⟨fun h0 => ?_, hsound .tLen, hsound .tLit, hsound .tOff⟩⟩
  · rw [State.finishUnit_st, State.nextPhase] at h
    split at h
    · cases h
    · split at h
      · assumption
      · cases h
  · have hr : s.remaining = 0 := h0
    rw [State.finishUnit_st, State.nextPhase, if_pos hr] at h
    split at h <;> cases h

theorem bdUnit_keeps_tables (hs : s.tablesOk) (ha : s.isActive = true) :
    (bdUnit s).keeps State.tablesOk (fun _ => True) := by
  have h := (bdUnit_result s).leaves.and (bdUnit_soundTabs (hs.soundTabs ha))
  refine h.mono ?_ ?_ (fun _ _ => trivial)
  · rintro _ _ ⟨⟨_, w, n, hv, hw, rfl⟩, hsound⟩
    refine tablesOk_finishUnit ?_ n hsound
    rw [hw.port, hv.port]
    exact hs.1
  · intro e v hv
    refine tablesOk_of_inactive ?_ rfl rfl
    rw [State.raise_port, hv.port]
    exact hs.1

/-- START leaves no unit of a sub-block to decode (R141). -/
theorem tablesOk_startBlock (a b : Word) (hport : ∀ r, r ∈ s.port → r.isCommand = true) :
    (startBlock a b s).tablesOk := by
  obtain ⟨-, hpar, hst⟩ := startBlock_control a b s
  obtain ⟨r, hr⟩ := startBlock_eq a b s
  refine ⟨by rw [hr]; exact hport, hpar, fun _ => by rw [hr], fun hd => ?_⟩
  rcases hst with ⟨h, -⟩ | ⟨h, -⟩ <;> cases h.symm.trans hd

theorem tablesOk_commands : KeptByCommands State.tablesOk (fun _ => True) where
  raise _ _ hs := tablesOk_of_inactive hs.1 rfl rfl
  start _ a b hs := tablesOk_startBlock a b hs.1
  place _ _ a b hs := tablesOk_startBlock a b hs.1
  unit _ hs ha := bdUnit_keeps_tables hs ha
  host _ _ hs := hs
  free _ hs := hs
  readData _ _ hs := hs
  reset _ hs := tablesOk_of_inactive hs.1 rfl rfl

/-- Settles O58: `tablesOk` is kept by the commands; between commands nothing is parsed, and neither a STEP element by
element nor an operation invoked by name is requested. -/
theorem tablesKept : Obligations.TablesKept := by
  unfold Obligations.TablesKept
  intro s t hs ht
  obtain ⟨hport, hpar, htabs⟩ := hs
  have hhead : ∀ r rest, s.port = r :: rest → r.isCommand = true := fun r rest hp =>
    hport r (hp ▸ List.mem_cons_self)
  have h : Kept State.tablesOk (fun _ => True) (step s) := by
    refine step_kept tablesOk_commands ⟨hport, hpar, htabs⟩ (fun r rest hp => ?_) (fun hp => ?_) (fun rest _ hp => ?_)
      (fun i rest hp => ?_)
    · exact ⟨fun q hq => hport q (hp ▸ List.mem_cons_of_mem r hq), hpar, htabs⟩
    · rw [hpar] at hp
      cases hp
    · cases hhead _ _ hp
    · cases hhead _ _ hp
  exact h.of_next ht

end Sys2Proof.Machine
end

section
/-! Two runs side by side (10_state.md R28, R29; 43_lz77_copy.md R136): `State.alike` relates two engines that agree in
everything a unit reads, and `Res.alike` says that an operation answers the same in both, or faults in both. -/

namespace Sys2Proof.Machine

variable {α β : Type} {s s' : State} {t : TableId}

/-! ## The tables of two engines -/

/-- How much two tables of the same name are known to agree in. -/
inductive Known where
  /-- In nothing. -/
  | nothing
  /-- In the lengths read so far; a table under construction. -/
  | lens
  /-- In what a decode reads; a table that has been built. -/
  | code

/-- The codes of the symbols with a length of the range that a decode tries are the same (R100). -/
def Table.sameCodes {n cb : Nat} (x y : Table n cb) : Prop :=
  ∀ a, 1 ≤ x.lenAt a → x.lenAt a ≤ 16 → x.codeAt a = y.codeAt a

/-- The two tables agree as far as is known. The old codes of symbols without a length are no part of it, nor the
shortcut symbol of a table that is not degenerate (R29, R90). -/
def Table.alike {n cb : Nat} (x y : Table n cb) : Known → Prop
  | .nothing => True
  | .lens => x.sv = false ∧ y.sv = false ∧ x.len = y.len
  | .code => x.sv = true ∧ y.sv = true ∧ x.ss = y.ss ∨ x.sv = false ∧ y.sv = false ∧ x.len = y.len ∧ x.sameCodes y

section

variable {n cb : Nat} {x y : Table n cb}

theorem Table.alike_clear (x y : Table n cb) : x.clear.alike y.clear .lens := ⟨rfl, rfl, rfl⟩

theorem Table.alike.setUsed (h : x.alike y .lens) (k : Nat) : (x.setUsed k).alike (y.setUsed k) .lens := h

theorem Table.alike.setLen (h : x.alike y .lens) (i l : Nat) : (x.setLen i l).alike (y.setLen i l) .lens := by
  obtain ⟨hx, hy, hlen⟩ := h
  refine ⟨hx, hy, ?_⟩
  unfold Table.setLen
  rw [hlen]

theorem Table.alike_setShortcut (x y : Table n cb) (a : Nat) : (x.setShortcut a).alike (y.setShortcut a) .code :=
  .inl ⟨rfl, rfl, rfl⟩

/-! ## The assignment depends on the lengths alone -/

/-- The inner loop of CT.ASSIGN (R102) on two lists of old codes. -/
theorem assignPass_alike {l : Nat} (hl : 1 ≤ l) (xs : List (BitVec 5)) {cs ds : List (BitVec 16)} (ctr : Nat)
    (hlen : cs.length = ds.length) :
    (assignPass l xs cs ctr).ok = (assignPass l xs ds ctr).ok ∧
      (assignPass l xs cs ctr).ctr = (assignPass l xs ds ctr).ctr ∧
      ((assignPass l xs cs ctr).ok = true → ∀ a, lenIn xs a = l ∨ codeIn cs a = codeIn ds a →
        codeIn (assignPass l xs cs ctr).codes a = codeIn (assignPass l xs ds ctr).codes a) := by
  induction xs generalizing cs ds ctr with
  | nil => exact ⟨rfl, rfl, fun _ a h => h.resolve_left (by rw [lenIn_nil]; omega)⟩
  | cons x xs ih =>
    match cs, ds, hlen with
    | [], [], _ => exact ⟨rfl, rfl, fun _ _ _ => rfl⟩
    | c :: cs, d :: ds, hlen =>
      have hlen' : cs.length = ds.length := Nat.succ.inj hlen
      by_cases hx : x.toNat = l
      · by_cases hfull : 2 ^ 16 ≤ ctr
        · simp only [assignPass, if_pos hx, if_pos hfull]
          exact ⟨trivial, trivial, nofun⟩
        · simp only [assignPass, if_pos hx, if_neg hfull]
          obtain ⟨hok, hctr, hcodes⟩ := ih (ctr + 2 ^ (16 - l)) hlen'
          refine ⟨hok, hctr, fun h a ha => ?_⟩
          cases a with
          | zero => rfl
          | succ a => exact hcodes h a ha
      · simp only [assignPass, if_neg hx]
        obtain ⟨hok, hctr, hcodes⟩ := ih ctr hlen'
        refine ⟨hok, hctr, fun h a ha => ?_⟩
        cases a with
        | zero => exact ha.resolve_left hx
        | succ a => exact hcodes h a ha

/-- The outer loop of CT.ASSIGN (R102) on two lists of old codes: the lengths from 1 on have been assigned alike. -/
theorem assignFrom_alike (xs : List (BitVec 5)) (k : Nat) {l : Nat} (hl : 1 ≤ l) {cs ds : List (BitVec 16)} (ctr : Nat)
    (hlen : cs.length = ds.length)
    (h : ∀ a, 1 ≤ lenIn xs a → lenIn xs a < l → codeIn cs a = codeIn ds a) :
    (assignFrom xs k l cs ctr).ok = (assignFrom xs k l ds ctr).ok ∧
      ((assignFrom xs k l cs ctr).ok = true → ∀ a, 1 ≤ lenIn xs a → lenIn xs a < l + k →
        codeIn (assignFrom xs k l cs ctr).codes a = codeIn (assignFrom xs k l ds ctr).codes a) := by
  induction k generalizing l cs ds ctr with
  | zero => exact ⟨rfl, fun _ => h⟩
  | succ k ih =>
    obtain ⟨hok, hctr, hcodes⟩ := assignPass_alike hl xs ctr hlen
    simp only [assignFrom, ← hok, ← hctr]
    split
    · rename_i hpass
      have hnext := ih (Nat.le_succ_of_le hl) (assignPass l xs cs ctr).ctr
        (by rw [assignPass_length, assignPass_length, hlen]) fun a h1 h2 => hcodes hpass a ?_
      · refine ⟨hnext.1, fun h a h1 h2 => hnext.2 h a h1 (by omega)⟩
      · by_cases ha : lenIn xs a = l
        · exact .inl ha
        · exact .inr (h a h1 (by omega))
    · rename_i hpass
      exact ⟨hok, fun h => absurd h hpass⟩

/-- CT.ASSIGN on two tables of the same lengths (R102, R104 (c)). -/
theorem Table.alike.assigned_ok (h : x.alike y .lens) : x.assigned.ok = y.assigned.ok := by
  obtain ⟨-, -, hlen⟩ := h
  unfold Table.assigned
  rw [← hlen]
  exact (assignFrom_alike _ _ (Nat.le_refl 1) 0 (by simp) fun a h1 h2 => by omega).1

theorem Table.alike.withCodes (h : x.alike y .lens) (hok : x.assigned.ok = true) :
    x.withCodes.alike y.withCodes .code := by
  obtain ⟨hx, hy, hlen⟩ := h
  refine .inr ⟨hx, hy, hlen, fun a h1 h2 => ?_⟩
  rw [Table.withCodes_codeAt, Table.withCodes_codeAt]
  rw [Table.lenAt_withCodes, Table.lenAt_eq_lenIn] at h1 h2
  unfold Table.assigned at hok ⊢
  rw [← hlen]
  exact (assignFrom_alike _ _ (Nat.le_refl 1) 0 (by simp) fun a h1 h2 => by omega).2 hok a h1 (by
    simp only [Config.maxLen]
    omega)

/-- The lookup compares codes of the length looked for alone (R100). -/
theorem findCode_alike {l c : Nat} (xs : List (BitVec 5)) {cs ds : List (BitVec 16)} (k : Nat)
    (hlen : cs.length = ds.length) (h : ∀ a, lenIn xs a = l → codeIn cs a = codeIn ds a) :
    findCode l c xs cs k = findCode l c xs ds k := by
  induction xs generalizing cs ds k with
  | nil => rfl
  | cons x xs ih =>
    match cs, ds, hlen with
    | [], [], _ => rfl
    | d :: cs, e :: ds, hlen =>
      have hrest := ih (k + 1) (Nat.succ.inj hlen) fun a ha => h (a + 1) ha
      by_cases hx : x.toNat = l
      · have hde : d.toNat = e.toNat := h 0 hx
        simp only [findCode, hde, hrest]
      · simp only [findCode, hx, false_and, if_false, hrest]

theorem Table.lookup_alike (hlen : x.len = y.len) (h : x.sameCodes y) {l : Nat} (h1 : 1 ≤ l) (h2 : l ≤ 16) (c : Nat) :
    x.lookup l c = y.lookup l c := by
  unfold Table.lookup
  rw [← hlen]
  refine findCode_alike _ 0 (by simp) fun a ha => ?_
  rw [← Table.codeAt_eq_codeIn, ← Table.codeAt_eq_codeIn]
  rw [← Table.lenAt_eq_lenIn] at ha
  exact h a (by omega) (by omega)

end

/-! ## Two engines -/

/-- Two engines that agree in what the bit reader reads (R36, R82). -/
structure State.sameStream (s s' : State) : Prop where
  br : s.br = s'.br
  inSize : s.inSize = s'.inSize
  inp : ∀ j, j < s.inSize.toNat → s.readIn j = s'.readIn j

/-- Two engines that agree in what a unit reads: the stream, the registers, OUT below BD.produced, and of each table as
much as is known. -/
structure State.alike (known : TableId → Known) (s s' : State) : Prop where
  st : s.st = s'.st
  err : s.err = s'.err
  outSize : s.outSize = s'.outSize
  remaining : s.remaining = s'.remaining
  produced : s.produced = s'.produced
  lastN : s.lastN = s'.lastN
  stream : s.sameStream s'
  wf : Mem.wf .out s.out = true
  wf' : Mem.wf .out s'.out = true
  out : ∀ j, j < s.produced.toNat → s.readOut j = s'.readOut j
  tabs : ∀ t, (s.tab t).alike (s'.tab t) (known t)

/-- Nothing is known of the tables. -/
abbrev noneKnown : TableId → Known := fun _ => .nothing

variable {known : TableId → Known}

theorem State.alike.forget (h : s.alike known s') : s.alike noneKnown s' := { h with tabs := fun _ => trivial }

theorem State.alike.raise (h : s.alike known s') (e : ErrCode) : (s.raise e).alike noneKnown (s'.raise e) :=
  { h with
    st := rfl
    err := by rw [State.raise_err, State.raise_err, h.st, h.err]
    stream := ⟨h.stream.br, h.stream.inSize, h.stream.inp⟩
    tabs := fun _ => trivial }

theorem State.alike.setRemaining (h : s.alike known s') (c : BitVec 16) :
    (s.setRemaining c).alike known (s'.setRemaining c) :=
  { h with remaining := rfl, stream := ⟨h.stream.br, h.stream.inSize, h.stream.inp⟩ }

/-- A table is replaced in both. -/
theorem State.alike.setTab (h : s.alike known s') {x y : Table t.size t.countBits} {k : Known} (hxy : x.alike y k) :
    (s.setTab t x).alike (Function.update known t k) (s'.setTab t y) :=
  { h with
    stream := ⟨h.stream.br, h.stream.inSize, h.stream.inp⟩
    tabs := by
      intro u
      by_cases hu : u = t
      · subst hu
        rw [State.tab_setTab_same, State.tab_setTab_same, Function.update_self]
        exact hxy
      · rw [State.tab_setTab_other _ _ _ _ hu, State.tab_setTab_other _ _ _ _ hu, Function.update_of_ne hu]
        exact h.tabs u }

/-- A table is replaced in both, as much being known of it as before. -/
theorem State.alike.setTab_same (h : s.alike known s') {x y : Table t.size t.countBits} (hxy : x.alike y (known t)) :
    (s.setTab t x).alike known (s'.setTab t y) := by
  have := h.setTab hxy
  rwa [Function.update_eq_self] at this

theorem State.alike.finishUnit (h : s.alike known s') (n : Nat) :
    (s.finishUnit n).alike known (s'.finishUnit n) :=
  { h with
    st := by
      simp only [State.finishUnit_st, State.nextPhase, h.produced, h.outSize, h.remaining]
    lastN := rfl
    stream := ⟨h.stream.br, h.stream.inSize, h.stream.inp⟩ }

/-- The byte `b` is pushed in both (R130). -/
theorem State.alike.pushByte (h : s.alike known s') (hp : s.produced.toNat < s.outSize.toNat) (b : Byte) :
    (s.pushByte b).alike known (s'.pushByte b) :=
  { h with
    produced := by rw [State.pushByte_produced, State.pushByte_produced, h.produced]
    stream := ⟨h.stream.br, h.stream.inSize, h.stream.inp⟩
    wf := Mem.wf_write h.wf _ b
    wf' := Mem.wf_write h.wf' _ b
    out := by
      intro j hj
      rw [State.pushByte_produced_toNat hp] at hj
      rw [State.readOut_pushByte h.wf, State.readOut_pushByte h.wf', h.produced]
      split
      · rfl
      · rename_i hne
        rw [← h.produced] at hne
        exact h.out j (by omega) }

/-! ## Reading bits -/

theorem State.sameStream.absorb (h : s.sameStream s') (k : Nat) : (s.absorb k).sameStream (s'.absorb k) := by
  obtain ⟨hbr, hsize, hinp⟩ := h
  have hbyte : s.currentByte = s'.currentByte := by
    unfold State.currentByte
    rw [← hbr, ← hsize]
    split
    · rename_i hlt
      exact hinp _ hlt.2
    · rfl
  refine ⟨?_, hsize, hinp⟩
  unfold State.absorb
  rw [hbyte, hbr]
  rfl

theorem ingestLoop_alike (f n : Nat) (h : s.sameStream s') :
    (ingestLoop f n s).sameStream (ingestLoop f n s') := by
  induction f generalizing n s s' with
  | zero => exact h
  | succ f ih =>
    simp only [ingestLoop, h.br]
    split
    · exact h
    · exact ih _ (h.absorb _)

/-- The bit reader's registers are replaced in both. -/
theorem State.alike.setBr (h : s.alike known s') (b : BitReader) : (s.setBr b).alike known (s'.setBr b) :=
  { h with stream := ⟨rfl, h.stream.inSize, h.stream.inp⟩ }

theorem State.alike.consume (h : s.alike known s') (n : Nat) : (s.consume n).alike known (s'.consume n) := by
  have hbr : (s.consume n).br = (s'.consume n).br := by
    unfold State.consume
    split
    · exact h.stream.br
    · have hing : (s.ingest n).br = (s'.ingest n).br := (ingestLoop_alike n n h.stream).br
      rw [State.setBr_br, State.setBr_br, hing, h.stream.br]
  rw [(s.consume_readsOnly n).eq, (s'.consume_readsOnly n).eq, hbr]
  exact h.setBr _

theorem State.alike.peek (h : s.alike known s') (n : Nat) : s.peek n = s'.peek n := by
  unfold State.peek
  rw [h.stream.br]

theorem State.alike.get_fst (h : s.alike known s') (n : Nat) : (s.get n).1 = (s'.get n).1 := h.peek n

theorem State.alike.get_snd (h : s.alike known s') (n : Nat) : (s.get n).2.alike known (s'.get n).2 := h.consume n

/-! ## Two results -/

/-- An operation on two engines: both answer the same, in states related by `ok`; or both have raised a fault, and agree
but for the tables; or the model stops on both. -/
def Res.alike (ok : α → State → State → Prop) : Res α → Res α → Prop
  | .ok a u, .ok a' u' => a = a' ∧ ok a u u'
  | .raised v, .raised v' => v.alike noneKnown v'
  | .stop _, .stop _ => True
  | _, _ => False

theorem Res.alike_raise {ok : α → State → State → Prop} (h : s.alike known s') (e : ErrCode) :
    Res.alike ok (raiseIn e s) (raiseIn e s') := h.raise e

theorem Res.alike.andThen {ok : α → State → State → Prop} {ok' : β → State → State → Prop} {r r' : Res α}
    {k k' : α → State → Res β} (h : Res.alike ok r r')
    (hk : ∀ a u u', ok a u u' → Res.alike ok' (k a u) (k' a u')) : Res.alike ok' (r.andThen k) (r'.andThen k') := by
  cases r with
  | ok a u =>
    cases r' with
    | ok a' u' =>
      obtain ⟨rfl, hu⟩ := h
      exact hk a u u' hu
    | raised _ => exact h.elim
    | stop _ => exact h.elim
  | raised v =>
    cases r' with
    | raised v' => exact h
    | ok _ _ => exact h.elim
    | stop _ => exact h.elim
  | stop f =>
    cases r' with
    | stop f' => exact h
    | ok _ _ => exact h.elim
    | raised _ => exact h.elim

end Sys2Proof.Machine
end

section
/-! Each operation of a block, on two engines that agree: BlocksIndependent (O9). -/

namespace Sys2Proof.Machine

variable {s s' : State} {t : TableId} {known : TableId → Known}

/-- Both answer the same, and what is known to agree still does. -/
abbrev Res.alikeAt {α : Type} (known : TableId → Known) : Res α → Res α → Prop :=
  Res.alike fun _ u u' => u.alike known u'

/-! ## The constructions -/

theorem readTail_alike (room l : Nat) (h : s.alike known s') :
    Res.alikeAt known (readTail room l s) (readTail room l s') := by
  induction room generalizing l s s' with
  | zero => exact Res.alike_raise h _
  | succ r ih =>
    simp only [readTail]
    rw [h.get_fst]
    split
    · exact ih (l + 1) (h.get_snd 1)
    · exact ⟨rfl, h.get_snd 1⟩

theorem readHlen_alike (h : s.alike known s') : Res.alikeAt known (readHlen s) (readHlen s') := by
  simp only [readHlen]
  rw [h.get_fst]
  split
  · exact readTail_alike 10 7 (h.get_snd 3)
  · exact ⟨rfl, h.get_snd 3⟩

theorem skipIndices_alike (t : TableId) (i k : Nat) (h : s.alike known s') :
    Res.alikeAt known (skipIndices t i k s) (skipIndices t i k s') := by
  unfold skipIndices
  split
  · exact Res.alike_raise h _
  · exact ⟨rfl, h⟩

theorem hybSkip_alike (t : TableId) (skip : Option Nat) (v : Scan) (h : s.alike known s') :
    Res.alikeAt known (hybSkip t skip v s) (hybSkip t skip v s') := by
  simp only [hybSkip, readSkip, State.get_fst, State.get_snd, h.peek]
  split
  · exact (skipIndices_alike t v.i _ (h.consume 2)).andThen fun _ _ _ hu => ⟨rfl, hu⟩
  · exact ⟨rfl, h⟩

theorem storeLen_alike (hk : known t = .lens) (i l : Nat) (h : s.alike known s') :
    (storeLen t i l s).alike known (storeLen t i l s') := by
  have ht := h.tabs t
  refine h.setTab_same ?_
  rw [hk] at ht ⊢
  exact ht.setLen i l

theorem hybLoop_alike (m : HybCountMode) (skip : Option Nat) (hk : known t = .lens) (f : Nat) (v : Scan)
    (h : s.alike known s') : Res.alikeAt known (hybLoop m t skip f v s) (hybLoop m t skip f v s') := by
  induction f generalizing v s s' with
  | zero =>
    simp only [hybLoop]
    split
    · exact Res.alike_raise h _
    · exact ⟨rfl, h⟩
  | succ f ih =>
    simp only [hybLoop]
    split
    · split
      · exact Res.alike_raise h _
      · exact (readHlen_alike h).andThen fun l _ _ hu =>
          (hybSkip_alike t skip _ (storeLen_alike hk v.i l hu)).andThen fun w _ _ hw => ih w hw
    · exact ⟨rfl, h⟩

/-- CT.ASSIGN (R102) of lengths that agree. -/
theorem assignCodes_alike (hk : known t = .lens) (h : s.alike known s') :
    Res.alikeAt (Function.update known t .code) (assignCodes t s) (assignCodes t s') := by
  have ht := h.tabs t
  rw [hk] at ht
  unfold assignCodes
  rw [← ht.assigned_ok]
  split
  · exact ⟨rfl, h.setTab (ht.withCodes ‹_›)⟩
  · exact Res.alike_raise (h.setTab (k := .nothing) trivial) _

/-- CT.DEGEN (R92). -/
theorem readShortcut_alike (t : TableId) (h : s.alike known s') :
    Res.alikeAt (Function.update known t .code) (readShortcut t s) (readShortcut t s') := by
  unfold readShortcut recordShortcut
  rw [h.get_fst]
  split
  · exact Res.alike_raise (h.get_snd _) _
  · exact ⟨rfl, (h.get_snd _).setTab (Table.alike_setShortcut _ _ _)⟩

/-- CT.CLEAR and CT.COUNT (R90, R91): the same count, and two tables without a length. -/
theorem readCount_alike (t : TableId) (h : s.alike known s') :
    (readCount t (clearTable t s)).1 = (readCount t (clearTable t s')).1 ∧
      (readCount t (clearTable t s)).2.alike (Function.update known t .lens) (readCount t (clearTable t s')).2 := by
  have hclear : (clearTable t s).alike (Function.update known t .lens) (clearTable t s') :=
    h.setTab (Table.alike_clear _ _)
  have hread := hclear.consume t.countBits
  refine ⟨hclear.peek _, ?_⟩
  simp only [readCount, recordCount]
  rw [hclear.get_fst]
  split
  · exact hread
  · have ht := hread.tabs t
    refine hread.setTab_same ?_
    rw [Function.update_self] at ht ⊢
    exact ht.setUsed _

/-- CT.INIT_HYBRID (R95), whatever the table held. -/
theorem initHybrid_alike (m : HybCountMode) (t : TableId) (skip : Option Nat) (h : s.alike known s') :
    Res.alikeAt (Function.update known t .code) (initHybrid m t skip s) (initHybrid m t skip s') := by
  obtain ⟨hn, hread⟩ := readCount_alike t h
  have hk : Function.update known t Known.lens t = .lens := Function.update_self ..
  have hidem := fun k : Known => Function.update_idem (a := t) Known.lens k known
  simp only [initHybrid, hn]
  rw [← hidem]
  split
  · exact readShortcut_alike t hread
  · exact (hybLoop_alike m skip hk _ _ hread).andThen fun _ _ _ hu => assignCodes_alike hk hu

theorem decodeLoop_alike (hk : known t = .code) (hsv : (s.tab t).sv = false) (k : Nat) {l : Nat} (h1 : 1 ≤ l)
    (h2 : l + k ≤ 17) (acc : Nat) (h : s.alike known s') :
    Res.alikeAt known (decodeLoop t k l acc s) (decodeLoop t k l acc s') := by
  induction k generalizing l acc s s' with
  | zero => exact Res.alike_raise h _
  | succ k ih =>
    have ht := h.tabs t
    rw [hk] at ht
    have hlook : ∀ c, (s.tab t).lookup l c = (s'.tab t).lookup l c := by
      rcases ht with ⟨hd, -⟩ | ⟨-, -, hlen, hcodes⟩
      · rw [hsv] at hd
        cases hd
      · exact Table.lookup_alike hlen hcodes h1 (by omega)
    simp only [decodeLoop, State.get_fst, State.get_snd, h.peek, hlook]
    split
    · exact ⟨rfl, h.consume 1⟩
    · exact ih (by rw [State.tab_consume]; exact hsv) (by omega) (by omega) _ (h.consume 1)

/-- CT.DECODE (R100) of two tables that have been built alike. -/
theorem decodeSymbol_alike (hk : known t = .code) (h : s.alike known s') :
    Res.alikeAt known (decodeSymbol t s) (decodeSymbol t s') := by
  have ht := h.tabs t
  rw [hk] at ht
  unfold decodeSymbol
  rcases ht with ⟨hs, hs', hss⟩ | ⟨hs, hs', -⟩
  · rw [if_pos hs, if_pos hs', hss]
    exact ⟨rfl, h⟩
  · rw [if_neg (by rw [hs]; nofun), if_neg (by rw [hs']; nofun)]
    exact decodeLoop_alike hk hs _ (Nat.le_refl 1) (Nat.le_refl 17) 0 h

theorem codEntry_alike (m : CodCountMode) (hk : known t = .lens) (v : Scan) (x : Nat) (h : s.alike known s') :
    Res.alikeAt known (codEntry m t v x s) (codEntry m t v x s') := by
  have hrun : ∀ k n, Res.alikeAt known (clRunEntry m t v k (s.consume n)) (clRunEntry m t v k (s'.consume n)) :=
    fun k n => (skipIndices_alike t v.i k (h.consume n)).andThen fun _ _ _ hu => ⟨rfl, hu⟩
  match x with
  | 0 =>
    simp only [codEntry, clZeroEntry]
    split
    · exact Res.alike_raise h _
    · exact ⟨rfl, h⟩
  | 1 =>
    simp only [codEntry, State.get_fst, State.get_snd, h.peek]
    exact hrun _ 4
  | 2 =>
    simp only [codEntry, State.get_fst, State.get_snd, h.peek]
    exact hrun _ 9
  | x + 3 =>
    simp only [codEntry, clLenEntry]
    split
    · exact Res.alike_raise h _
    · exact ⟨rfl, storeLen_alike hk v.i _ h⟩

theorem codLoop_alike (m : CodCountMode) {d : TableId} (hk : known t = .lens) (hd : known d = .code) (f : Nat)
    (v : Scan) (h : s.alike known s') : Res.alikeAt known (codLoop m t d f v s) (codLoop m t d f v s') := by
  induction f generalizing v s s' with
  | zero => exact Res.alike_raise h _
  | succ f ih =>
    simp only [codLoop]
    split
    · exact (decodeSymbol_alike hd h).andThen fun x _ _ hu =>
        (codEntry_alike m hk v x hu).andThen fun w _ _ hw => ih w hw
    · exact ⟨rfl, h⟩

/-- CT.INIT_CODED (R101) by length decoders that have been built alike. -/
theorem initCoded_alike (m : CodCountMode) {d : TableId} (hdt : d ≠ t) (hd : known d = .code) (h : s.alike known s') :
    Res.alikeAt (Function.update known t .code) (initCoded m t d s) (initCoded m t d s') := by
  obtain ⟨hn, hread⟩ := readCount_alike t h
  have hk : Function.update known t Known.lens t = .lens := Function.update_self ..
  have hd' : Function.update known t Known.lens d = .code := (Function.update_of_ne hdt ..).trans hd
  have hidem := fun k : Known => Function.update_idem (a := t) Known.lens k known
  simp only [initCoded, hn]
  rw [← hidem]
  split
  · exact readShortcut_alike t hread
  · exact (codLoop_alike m hk hd' _ _ hread).andThen fun _ _ _ hu => assignCodes_alike hk hu

/-- Three tables that have been built alike. -/
abbrev allBuilt : TableId → Known := fun _ => .code

/-- BD.INIT_SUBBLOCK (R111), whatever the tables held: it rebuilds all three. -/
theorem initSubblock_alike (h : s.alike noneKnown s') :
    Res.alikeAt allBuilt (initSubblock s) (initSubblock s') := by
  simp only [initSubblock]
  rw [h.get_fst]
  split
  · exact Res.alike_raise (h.get_snd _) _
  · refine (initHybrid_alike _ .tLen _ ((h.get_snd _).setRemaining _)).andThen fun _ _ _ hlen =>
      (initCoded_alike (t := .tLit) (d := .tLen) _ nofun rfl hlen).andThen fun _ u u' hlit => ?_
    have hall : Function.update (Function.update (Function.update noneKnown .tLen Known.code) .tLit Known.code) .tOff
        Known.code = allBuilt := by
      funext x
      cases x <;> rfl
    rw [← hall]
    exact initHybrid_alike _ .tOff _ hlit

/-! ## Units -/

/-- LZ.EMIT (R130). -/
theorem emit_alike (b : Byte) (h : s.alike known s') : Res.alikeAt known (emit b s) (emit b s') := by
  unfold emit
  rw [← h.produced, ← h.outSize]
  split
  · exact ⟨rfl, h.pushByte ‹_› b⟩
  · exact trivial

/-- The byte moves of a copy from below BD.produced (R131). -/
theorem copyLoop_alike {d : Nat} (hd : 1 ≤ d) (n : Nat) (hle : d ≤ s.produced.toNat) (h : s.alike known s') :
    Res.alikeAt known (copyLoop d n s) (copyLoop d n s') := by
  induction n generalizing s s' with
  | zero => exact ⟨rfl, h⟩
  | succ n ih =>
    have hsrc : s.readOut (s.produced.toNat - d) = s'.readOut (s'.produced.toNat - d) := by
      rw [← h.produced]
      exact h.out _ (by omega)
    simp only [copyLoop, ← hsrc]
    split
    · rename_i b _
      simp only [emit, ← h.produced, ← h.outSize]
      split
      · rename_i hp
        exact ih (by rw [State.pushByte_produced_toNat hp]; omega) (h.pushByte hp b)
      · exact trivial
    · exact trivial

/-- LZ.COPY of a distance of at least 1 (R131). -/
theorem copy_alike (n : Nat) {d : Nat} (hd : 1 ≤ d) (h : s.alike known s') :
    Res.alikeAt known (copy n d s) (copy n d s') := by
  unfold copy
  rw [← h.produced, ← h.outSize]
  split
  · exact Res.alike_raise h _
  · split
    · exact Res.alike_raise h _
    · exact copyLoop_alike hd n (by omega) h

/-- BD.MATCH (R114). -/
theorem matchUnit_alike (hk : known .tOff = .code) (c : Nat) (h : s.alike known s') :
    Res.alikeAt known (matchUnit c s) (matchUnit c s') := by
  have hoff : Res.alike (fun d u u' => 1 ≤ d ∧ u.alike known u') (readOffset s) (readOffset s') := by
    refine (decodeSymbol_alike hk h).andThen fun p u u' hu => ?_
    simp only [readDelta, State.get_fst, State.get_snd, hu.peek]
    exact ⟨rfl, one_le_distance _ _, hu.consume _⟩
  exact hoff.andThen fun d _ _ ⟨hd, hu⟩ => (copy_alike _ hd hu).andThen fun _ _ _ hw => ⟨rfl, hw⟩

theorem unitOfSymbol_alike (hk : known .tOff = .code) (c : Nat) (h : s.alike known s') :
    Res.alikeAt known (unitOfSymbol c s) (unitOfSymbol c s') := by
  unfold unitOfSymbol
  split
  · exact (emit_alike _ h).andThen fun _ _ _ hu => ⟨rfl, hu⟩
  · exact matchUnit_alike hk c h

theorem decodeUnit_alike (h : s.alike allBuilt s') : Res.alikeAt allBuilt (decodeUnit s) (decodeUnit s') := by
  simp only [decodeUnit, h.remaining]
  exact (decodeSymbol_alike rfl (h.setRemaining _)).andThen fun c _ _ hu =>
    (unitOfSymbol_alike rfl c hu).andThen fun n _ _ hw => ⟨rfl, hw.finishUnit n⟩

theorem State.alike.isActive (h : s.alike known s') : s.isActive = s'.isActive := by
  unfold State.isActive
  rw [h.st]

theorem State.alike.isDone (h : s.alike known s') : s.isDone = s'.isDone := by
  unfold State.isDone
  rw [h.st]

theorem State.alike.isFault (h : s.alike known s') : s.isFault = s'.isFault := by
  unfold State.isFault
  rw [h.st]

/-- Two engines between units: the tables are compared only while units of the sub-block are left (R29). -/
structure State.unitsAlike (s s' : State) : Prop where
  alike : s.alike noneKnown s'
  built : s.remaining ≠ 0 → s.alike allBuilt s'

/-- BD.UNIT (R112). -/
theorem bdUnit_alike (h : s.unitsAlike s') : Res.alikeAt allBuilt (bdUnit s) (bdUnit s') := by
  have hens : Res.alikeAt allBuilt (ensureSubblock s) (ensureSubblock s') := by
    simp only [ensureSubblock, ← h.alike.remaining]
    split
    · exact initSubblock_alike h.alike
    · exact ⟨rfl, h.built ‹_›⟩
  exact hens.andThen fun _ _ _ hu => decodeUnit_alike hu

/-- The loop of RUN (R143), by induction on the units left. -/
theorem runUnits_alike (f : Nat) (h : s.unitsAlike s') : Res.alikeAt noneKnown (runUnits f s) (runUnits f s') := by
  induction f generalizing s s' with
  | zero => exact ⟨rfl, h.alike⟩
  | succ f ih =>
    simp only [runUnits]
    rw [← h.alike.isActive]
    split
    · exact (bdUnit_alike h).andThen fun _ _ _ hu => ih ⟨hu.forget, fun _ => hu⟩
    · exact ⟨rfl, h.alike⟩

/-- RUN (R143, R147). -/
theorem runCommand_alike (h : s.unitsAlike s') : Res.alikeAt noneKnown (runCommand s) (runCommand s') := by
  unfold runCommand runBlock
  rw [← h.alike.isActive, ← h.alike.isDone, ← h.alike.isFault, ← h.alike.outSize, ← h.alike.produced]
  split
  · exact ⟨rfl, h.alike⟩
  · split
    · exact runUnits_alike _ h
    · exact Res.alike_raise h.alike _

/-! ## O9 -/

/-- BR.INIT primes the bit reader from IN below IN_SIZE alone (R80). -/
theorem brInit_sameStream (hsize : s.inSize = s'.inSize) (hin : ∀ j, j < s.inSize.toNat → s.readIn j = s'.readIn j) :
    s.brInit.sameStream s'.brInit := by
  unfold State.brInit State.ingest
  rw [← hsize]
  exact ingestLoop_alike 32 32 ⟨rfl, hsize, hin⟩

/-- START primes the bit reader (R141). -/
theorem startBlock_sameStream (a b : Word) (hin : ∀ j, j < a.toNat → s.readIn j = s'.readIn j) :
    (startBlock a b s).sameStream (startBlock a b s') := by
  obtain ⟨hbr, hsize, hinp⟩ := brInit_sameStream (s := { s with inSize := a, outSize := b, err := 0 })
    (s' := { s' with inSize := a, outSize := b, err := 0 }) rfl hin
  unfold startBlock
  refine ⟨hbr, hsize, ?_⟩
  unfold State.readIn at hinp ⊢
  exact hinp

/-- START on engines whose IN agrees below IN_SIZE leaves them alike, whatever else they held (R28, R29, R141). -/
theorem startBlock_alike (a b : Word) (hs : Mem.wf .out s.out = true) (hs' : Mem.wf .out s'.out = true)
    (hin : ∀ j, j < a.toNat → s.readIn j = s'.readIn j) :
    (startBlock a b s).unitsAlike (startBlock a b s') := by
  have hstream := startBlock_sameStream a b hin
  obtain ⟨r, hr⟩ := startBlock_eq a b s
  obtain ⟨r', hr'⟩ := startBlock_eq a b s'
  rw [hr, hr'] at hstream ⊢
  exact ⟨⟨rfl, rfl, rfl, rfl, rfl, rfl, hstream, hs, hs', fun j hj => absurd hj (Nat.not_lt_zero j), fun _ => trivial⟩,
    fun h => absurd rfl h⟩

/-- RUN after START stops the model nowhere (R29, R134). -/
theorem run_startBlock_safe (a b : Word) (h : s.memoryOk) : Safe (exec .run (startBlock a b s)) :=
  (blockInv_commands.exec_kept rfl (blockInv_startBlock a b h.2.1 h.2.2)).safe

/-- Two results that are alike, where the model stops on neither, are two next states. -/
theorem Res.alikeAt.outcome {r r' : Res Unit} (h : Res.alikeAt noneKnown r r') (hs : Safe r.outcome) :
    ∃ u u', r.outcome = .next u ∧ r'.outcome = .next u' ∧ u.alike noneKnown u' := by
  cases r with
  | ok _ u =>
    cases r' with
    | ok _ u' => exact ⟨u, u', rfl, rfl, h.2⟩
    | raised _ => exact h.elim
    | stop _ => exact h.elim
  | raised v =>
    cases r' with
    | raised v' => exact ⟨v, v', rfl, rfl, h⟩
    | ok _ _ => exact h.elim
    | stop _ => exact h.elim
  | stop f => exact absurd rfl (hs f)

/-- Settles O9: START leaves the two engines alike but for the tables, and RUN keeps them alike, since a table is read
only after a construction has rebuilt it. -/
theorem blocksIndependent : Obligations.BlocksIndependent := by
  unfold Obligations.BlocksIndependent
  intro s s' a b hs hs' hin
  have hstart := startBlock_alike a b hs.2.1 hs'.2.1 hin
  obtain ⟨u, u', hu, hu', h⟩ := Res.alikeAt.outcome (runCommand_alike hstart) (run_startBlock_safe a b hs)
  exact ⟨_, _, u, u', rfl, rfl, hu, hu', h.st, h.err, h.produced, h.lastN, h.remaining, h.stream.br, h.out⟩

end Sys2Proof.Machine
end

section
/-! OUT is written in ascending order (20_memory.md R42, R43, R47; O60), and every step keeps the memories in their
canonical form (R30 to R32, R40; O54). `State.ascends` is what every instruction but START, reset and the container
reader leaves; those three are seen one by one for O54. -/

namespace Sys2Proof.Machine

variable {α : Type} {s u v : State}

/-- The memories of `t` are canonical, and `t` has the IN of `s` and its output, to which bytes may have been appended:
BD.produced has not gone down, and OUT differs only from the old BD.produced on, below the new one. -/
structure State.ascends (s t : State) : Prop where
  memory : t.memoryOk
  inp : t.inp = s.inp
  produced : s.produced.toNat ≤ t.produced.toNat
  out : ∀ a, a < s.produced.toNat ∨ t.produced.toNat ≤ a → t.readOut a = s.readOut a

/-- The memories and BD.produced are as they were. -/
def State.sameMemory (u v : State) : Prop :=
  v.inp = u.inp ∧ v.out = u.out ∧ v.win = u.win ∧ v.produced = u.produced

theorem State.decodesOnly.sameMemory (h : u.decodesOnly v) : u.sameMemory v := by
  obtain ⟨b, x, c, rfl⟩ := h
  exact ⟨rfl, rfl, rfl, rfl⟩

theorem State.ascends_refl (hs : s.memoryOk) : s.ascends s := ⟨hs, rfl, Nat.le_refl _, fun _ _ => rfl⟩

theorem State.ascends.same (h : s.ascends u) (hv : u.sameMemory v) : s.ascends v := by
  obtain ⟨hinp, hout, hwin, hprod⟩ := hv
  obtain ⟨hmem, hinp', hle, hkept⟩ := h
  constructor
  · unfold State.memoryOk
    rw [hinp, hout, hwin]
    exact hmem
  · exact hinp.trans hinp'
  · rw [hprod]
    exact hle
  · unfold State.readOut
    rw [hprod, hout]
    exact hkept

theorem State.ascends.decodes (h : s.ascends u) (hv : u.decodesOnly v) : s.ascends v := h.same hv.sameMemory

theorem State.ascends.raise (h : s.ascends u) (e : ErrCode) : s.ascends (u.raise e) := h.same ⟨rfl, rfl, rfl, rfl⟩

theorem State.ascends.finishUnit (h : s.ascends u) (n : Nat) : s.ascends (u.finishUnit n) := h.same ⟨rfl, rfl, rfl, rfl⟩

/-- The byte is put at BD.produced, which no byte of the old output is at (R130). -/
theorem State.ascends.pushByte (h : s.ascends u) (hp : u.produced.toNat < u.outSize.toNat) (b : Byte) :
    s.ascends (u.pushByte b) := by
  obtain ⟨⟨hinp, hout, hwin⟩, hinp', hle, hkept⟩ := h
  have hpush := State.pushByte_produced_toNat hp b
  refine ⟨⟨hinp, Mem.wf_write hout _ b, Mem.wf_write hwin _ b⟩, hinp', by omega, fun a ha => ?_⟩
  rw [hpush] at ha
  rw [State.readOut_pushByte hout, if_neg (by omega)]
  exact hkept a (by omega)

/-! ## Operations -/

/-- Whether the operation answers or raises, what it leaves ascends from `s`. -/
abbrev Res.ascends (r : Res α) (s : State) : Prop := r.keeps s.ascends fun _ => True

theorem Res.ascends_raise (h : s.ascends u) (e : ErrCode) : (raiseIn e u : Res α).ascends s :=
  Res.leaves_raise (h.raise e)

/-- An operation that changes registers, tables and BD.remaining alone, whatever it answers or raises. -/
theorem Res.leaves.ascends {r : Res α} {ok : α → State → Prop} {bad : ErrCode → State → Prop} {stop : Fault → Prop}
    (hr : r.leaves ok bad stop) (h : s.ascends u) (hok : ∀ a v, ok a v → u.decodesOnly v)
    (hbad : ∀ e v, bad e v → u.decodesOnly v) : r.ascends s :=
  hr.mono (fun a v hv => h.decodes (hok a v hv)) (fun e v hv => (h.decodes (hbad e v hv)).raise e) fun _ _ => trivial

/-- An operation that returns a value leaves `ret` to its invoker, which the memories are not concerned with. -/
theorem Res.keeps.kept_ascends_ret {r : Res Nat} (h : r.ascends s) : Kept s.ascends (fun _ => True) r.outcomeRet :=
  h.keptRet fun _ _ hu => hu.same ⟨rfl, rfl, rfl, rfl⟩

theorem emit_ascends (b : Byte) (h : s.ascends u) : (emit b u).ascends s := by
  refine (emit_leaves b u).mono ?_ (fun _ _ h => h.elim) (fun _ _ => trivial)
  rintro _ _ ⟨hp, rfl⟩
  exact h.pushByte hp b

/-- The byte moves of a copy (R131), by induction on the bytes left. -/
theorem copyLoop_ascends (d n : Nat) (h : s.ascends u) : (copyLoop d n u).ascends s := by
  induction n generalizing u with
  | zero => exact h
  | succ n ih =>
    simp only [copyLoop]
    split
    · exact (emit_ascends _ h).andThen fun _ _ hv => ih hv
    · trivial

theorem copy_ascends (n d : Nat) (h : s.ascends u) : (copy n d u).ascends s := by
  unfold copy
  split
  · exact Res.ascends_raise h _
  · split
    · exact Res.ascends_raise h _
    · exact copyLoop_ascends d n h

theorem literal_ascends (c : Byte) (h : s.ascends u) : (literal c u).ascends s :=
  (emit_ascends c h).andThen fun _ _ hv => hv

theorem decodeSymbol_ascends (t : TableId) (h : s.ascends u) : (decodeSymbol t u).ascends s :=
  (decodeSymbol_readsOnly t u).ascends h (fun _ _ hv => hv.decodes) fun _ _ hv => hv.2.decodes

theorem readOffset_ascends (h : s.ascends u) : (readOffset u).ascends s :=
  (readOffset_leaves u).ascends h (fun _ _ hv => hv.2.decodes) fun _ _ hv => hv.2.decodes

theorem matchUnit_ascends (c : Nat) (h : s.ascends u) : (matchUnit c u).ascends s :=
  (readOffset_ascends h).andThen fun d _ hv => (copy_ascends _ d hv).andThen fun _ _ hw => hw

theorem unitOfSymbol_ascends (c : Nat) (h : s.ascends u) : (unitOfSymbol c u).ascends s := by
  unfold unitOfSymbol
  split
  · exact literal_ascends _ h
  · exact matchUnit_ascends c h

/-- What a unit produces is written before it is recorded (R112). -/
theorem Res.keeps.finishUnit {r : Res Nat} (h : r.ascends s) :
    (r.andThen fun n u => .ok () (u.finishUnit n)).ascends s :=
  h.andThen fun n _ hv => hv.finishUnit n

theorem bdUnit_ascends (h : s.ascends u) : (bdUnit u).ascends s := by
  refine ((ensureSubblock_decodesOnly u).ascends h (fun _ _ hv => hv) fun _ _ hv => hv).andThen fun _ v hv => ?_
  have hcount := hv.decodes (v.setRemaining_decodesOnly (v.remaining - 1))
  exact (decodeSymbol_ascends .tLit hcount).andThen fun c _ hw => (unitOfSymbol_ascends c hw).finishUnit

/-- The loop of RUN (R143), by induction on the units left. -/
theorem runUnits_ascends (f : Nat) (h : s.ascends u) : (runUnits f u).ascends s := by
  induction f generalizing u with
  | zero => exact h
  | succ f ih =>
    simp only [runUnits]
    split
    · exact (bdUnit_ascends h).andThen fun _ _ hv => ih hv
    · exact h

theorem runCommand_ascends (h : s.ascends u) : (runCommand u).ascends s := by
  unfold runCommand
  split
  · exact h
  · split
    · exact runUnits_ascends _ h
    · exact Res.ascends_raise h _

theorem finishMatch_ascends (h : s.ascends u) : (finishMatch u).ascends s := by
  unfold finishMatch
  split
  · exact (matchUnit_ascends _ h).finishUnit
  · exact h

/-- An element that moves the parser on. -/
theorem State.describes.ascends {r : Res Unit} (hr : s.describes r) (hs : s.memoryOk) : r.ascends s := by
  have h0 := State.ascends_refl hs
  refine Res.leaves.mono hr ?_ (fun e v hv => (h0.decodes hv).raise e) fun _ _ => trivial
  rintro _ _ ⟨v, p, hv, _, rfl⟩
  exact (h0.decodes hv).same ⟨rfl, rfl, rfl, rfl⟩

/-! ## Stream elements -/

theorem onCount_ascends (t : TableId) (n : Nat) (hs : s.memoryOk) :
    Kept s.ascends (fun _ => True) (onCount t n s) := by
  unfold onCount
  split
  · exact ((countElement_describes t n (s.consume_decodesOnly _)).ascends hs).kept
  · trivial

theorem onDegen_ascends (t : TableId) (x : Nat) (hs : s.memoryOk) :
    Kept s.ascends (fun _ => True) (onDegen t x s) := by
  unfold onDegen
  split
  · exact ((degenElement_describes t x (s.consume_decodesOnly _)).ascends hs).kept
  · trivial

theorem onHlen_ascends (k : Nat) {e : TableId → Scan → State → Res Unit} (hs : s.memoryOk)
    (he : ∀ t v u, s.decodesOnly u → s.describes (e t v u)) : Kept s.ascends (fun _ => True) (onHlen k e s) := by
  unfold onHlen
  split
  · exact ((he _ _ _ (s.consume_decodesOnly k)).ascends hs).kept
  · trivial

theorem onEscape_ascends (l : Nat) (hs : s.memoryOk) : Kept s.ascends (fun _ => True) (onEscape l s) :=
  onHlen_ascends _ hs fun t v _ h => hlenElement_describes l t v h

theorem onCl_ascends (x k : Nat) {e : Scan → State → Res Scan} (hs : s.memoryOk)
    (he : ∀ v u, s.decodesOnly u →
      (e v u).leaves (fun _ w => s.decodesOnly w) (fun _ w => s.decodesOnly w) (fun _ => False)) :
    Kept s.ascends (fun _ => True) (onCl x k e s) := by
  unfold onCl
  split
  · exact ((clElement_describes (he _ _ ((s.consume_decodesOnly _).consume k))).ascends hs).kept
  · trivial

theorem onOff_ascends (p d : Nat) (hs : s.memoryOk) : Kept s.ascends (fun _ => True) (onOff p d s) := by
  unfold onOff
  split
  · have hread := (State.ascends_refl hs).decodes ((s.consume_decodesOnly (s.codeWidth .tOff p)).consume (extraBits p))
    exact Res.keeps.kept ((copy_ascends _ _ hread).andThen fun _ _ hv => hv.finishUnit _)
  · trivial

theorem execSubhdr_ascends (c : BitVec 16) (hs : s.memoryOk) : Kept s.ascends (fun _ => True) (execSubhdr c s) := by
  unfold execSubhdr
  split
  · exact ((subhdrElement_describes c (s.consume_decodesOnly _)).ascends hs).kept
  · trivial

theorem execHskip_ascends (k : BitVec 2) (hs : s.memoryOk) : Kept s.ascends (fun _ => True) (execHskip k s) := by
  unfold execHskip
  split
  · exact ((hskipElement_describes _ _ _ (s.consume_decodesOnly 2)).ascends hs).kept
  · trivial

theorem execLit_ascends (c : Byte) (hs : s.memoryOk) : Kept s.ascends (fun _ => True) (execLit c s) := by
  unfold execLit
  split
  · exact (literal_ascends c ((State.ascends_refl hs).decodes (s.consume_decodesOnly _))).finishUnit.kept
  · trivial

theorem execMatch_ascends (c : BitVec 9) (hs : s.memoryOk) : Kept s.ascends (fun _ => True) (execMatch c s) := by
  unfold execMatch
  split
  · have hread := (State.ascends_refl hs).decodes (s.consume_decodesOnly (s.codeWidth .tLit c.toNat))
    exact hread.same ⟨rfl, rfl, rfl, rfl⟩
  · trivial

/-- The stream elements: LIT and OFF append bytes, the others write no byte. -/
theorem exec_element_ascends {i : Instr} (hi : isElement i = true) (hs : s.memoryOk) :
    Kept s.ascends (fun _ => True) (exec i s) := by
  cases i with
  | subhdr c => exact execSubhdr_ascends c hs
  | count5 _ | count9 _ | count4 _ => exact onCount_ascends _ _ hs
  | degen5 _ | degen9 _ | degen4 _ => exact onDegen_ascends _ _ hs
  | hlenDirect l => exact onHlen_ascends 3 hs fun t v _ h => hlenElement_describes l.toNat t v h
  | hlenEsc7 | hlenEsc8 | hlenEsc9 | hlenEsc10 | hlenEsc11 | hlenEsc12 | hlenEsc13 | hlenEsc14 | hlenEsc15
  | hlenEsc16 => exact onEscape_ascends _ hs
  | hlenIllegal => exact onHlen_ascends 13 hs fun _ _ _ h => h.raises .badLength
  | hskip k => exact execHskip_ascends k hs
  | clZero => exact onCl_ascends 0 0 hs fun v _ h => clZeroEntry_decodesOnly .tLit v h
  | clZrun4 _ => exact onCl_ascends 1 4 hs fun v _ h => clRunEntry_decodesOnly _ .tLit v _ h
  | clZrun9 _ => exact onCl_ascends 2 9 hs fun v _ h => clRunEntry_decodesOnly _ .tLit v _ h
  | clLen x => exact onCl_ascends x.toNat 0 hs fun v _ h => clLenEntry_decodesOnly .tLit v x.toNat h
  | lit c => exact execLit_ascends c hs
  | matchSym c => exact execMatch_ascends c hs
  | off0 | off1 | off2 _ | off3 _ | off4 _ | off5 _ | off6 _ | off7 _ | off8 _ | off9 _ | off10 _ | off11 _ | off12 _
  | off13 _ => exact onOff_ascends _ _ hs
  | pad => exact State.ascends_refl hs
  | _ => cases hi

/-! ## Every instruction -/

/-- The operations invoked by name: units, LZ.EMIT and LZ.COPY append bytes, the others write no byte. -/
theorem exec_operation_ascends {i : Instr} (hi : i.isOperation = true) (hs : s.memoryOk) :
    Kept s.ascends (fun _ => True) (exec i s) := by
  have h0 := State.ascends_refl hs
  cases i with
  | brInit => exact h0.decodes s.brInit_readsOnly.decodes
  | brIngest n => exact h0.decodes (s.ingest_readsOnly n.val).decodes
  | brGet n => exact (h0.decodes (s.consume_decodesOnly n.val)).same ⟨rfl, rfl, rfl, rfl⟩
  | ctClear t => exact h0.decodes (clearTable_buildsOnly t s).decodes
  | ctCount t => exact (h0.decodes (readCount_spec t s).2.decodes).same ⟨rfl, rfl, rfl, rfl⟩
  | ctDegen t => exact ((readShortcut_leaves t s).ascends h0 (fun _ _ h => h.1.decodes) fun _ _ h => h.2.decodes).kept
  | ctHlen =>
    exact ((readHlen_leaves s).ascends h0 (fun _ _ h => h.1.decodes) fun _ _ h => h.2.decodes).kept_ascends_ret
  | ctHskip t i =>
    exact ((skipIndices_decodesOnly t i _ (s.consume_decodesOnly 2)).ascends h0 (fun _ _ h => h)
      fun _ _ h => h).kept_ascends_ret
  | ctInitHybrid t skip =>
    exact ((initHybrid_leaves _ t skip s).ascends h0 (fun _ _ h => h.decodes) fun _ _ h => h.2.decodes).kept
  | ctInitCoded t d =>
    exact ((initCoded_leaves _ t d s).ascends h0 (fun _ _ h => h.decodes) fun _ _ h => h.2.decodes).kept
  | ctAssign t =>
    have hcodes : s.decodesOnly (s.setTab t (s.tab t).withCodes) := (s.setTab_buildsOnly t _).decodes
    exact ((assignCodes_leaves t s).ascends h0 (fun _ _ h => h.2 ▸ hcodes) fun _ _ h => h.2.2 ▸ hcodes).kept
  | ctDecode t => exact (decodeSymbol_ascends t h0).kept_ascends_ret
  | bdInitSubblock => exact ((initSubblock_leaves s).ascends h0 (fun _ _ h => h) fun _ _ h => h.2).kept
  | bdUnit =>
    show Kept _ _ (execBdUnit s)
    unfold execBdUnit
    split
    · exact (bdUnit_ascends h0).kept
    · trivial
  | bdLiteral c => exact (literal_ascends c h0).kept_ascends_ret
  | bdMatch c => exact (matchUnit_ascends c.toNat h0).kept_ascends_ret
  | bdOffset => exact (readOffset_ascends h0).kept_ascends_ret
  | lzEmit b => exact (emit_ascends b h0).kept
  | lzCopy n d => exact (copy_ascends n.toNat d.toNat h0).kept
  | raise e => exact h0.raise e
  | _ => cases hi

/-- START, reset or the container reader's header: a block is bound or given up, so that BD.produced may go down. -/
def rebinds : Instr → Bool
  | .start _ _ | .reset | .containerHeader _ _ => true
  | _ => false

/-- The commands that work on the block that is bound. -/
theorem exec_command_ascends {i : Instr} (hi : isCommand i = true) (hr : rebinds i = false) (hs : s.memoryOk) :
    Kept s.ascends (fun _ => True) (exec i s) := by
  have h0 := State.ascends_refl hs
  cases i with
  | cmdReserved =>
    show Kept _ _ (execCmdReserved s)
    unfold execCmdReserved
    split
    · exact h0
    · exact h0.raise _
  | step =>
    show Kept _ _ (execStep s)
    unfold execStep
    split
    · exact h0
    · split
      · exact (bdUnit_ascends h0).kept
      · exact h0.raise _
  | run => exact (runCommand_ascends h0).kept
  | read no =>
    show Kept _ _ (execRead no s)
    unfold execRead
    split
    · exact h0.same ⟨rfl, rfl, rfl, rfl⟩
    · trivial
  | start _ _ | reset | containerHeader _ _ => cases hr
  | _ => cases hi

/-- Every instruction but START, reset and the container reader. -/
theorem exec_ascends {i : Instr} (hr : rebinds i = false) (hs : s.memoryOk) :
    Kept s.ascends (fun _ => True) (exec i s) := by
  cases hc : isCommand i with
  | true => exact exec_command_ascends hc hr hs
  | false =>
    cases ho : i.isOperation with
    | true => exact exec_operation_ascends ho hs
    | false => exact exec_element_ascends (by simp [isElement, hc, ho]) hs

/-- Settles O60: what an instruction writes it appends byte by byte at BD.produced (`State.ascends.pushByte`). -/
theorem outputAscends : Obligations.OutputAscends := by
  unfold Obligations.OutputAscends
  intro i s t hs ht hstart hreset hheader
  have hr : rebinds i = false := by
    cases i with
    | start a b => exact absurd rfl (hstart a b)
    | reset => exact absurd rfl hreset
    | containerHeader a b => exact absurd rfl (hheader a b)
    | _ => rfl
  have h : s.ascends t := (exec_ascends hr hs).of_next ht
  exact ⟨h.produced, h.inp, h.out⟩

/-! ## Every step -/

theorem Kept.mono {I J : State → Prop} {stop : Fault → Prop} {o : Host.Outcome State Fault Refusal} (h : Kept I stop o)
    (hIJ : ∀ t, I t → J t) : Kept J stop o := by
  cases o with
  | next t => exact hIJ t h
  | fault f => exact h
  | refused r => trivial

/-- An operation whose every result ascends leaves canonical memories. -/
theorem Res.keeps.memory {r : Res Unit} (h : r.ascends s) : r.keeps State.memoryOk (fun _ => True) :=
  Res.leaves.mono h (fun _ _ hu => hu.memory) (fun _ _ hu => hu.memory) fun _ hf => hf

/-- START does not write the memories (R29, R141). -/
theorem memoryOk_startBlock (a b : Word) (hs : s.memoryOk) : (startBlock a b s).memoryOk := by
  obtain ⟨r, hr⟩ := startBlock_eq a b s
  rw [hr]
  exact hs

theorem memoryOk_commands : KeptByCommands State.memoryOk (fun _ => True) where
  raise _ _ hs := hs
  start _ a b hs := memoryOk_startBlock a b hs
  place s p a b hs := memoryOk_startBlock (s := s.placeBlock p) a b ⟨Mem.wf_ofBytes .inp 0 p, Mem.wf_nil .out, hs.2.2⟩
  unit _ hs _ := (bdUnit_ascends (State.ascends_refl hs)).memory
  host _ _ hs := hs
  free _ hs := hs
  readData _ _ hs := hs
  reset _ hs := ⟨hs.1, hs.2.1, Mem.wf_nil .win⟩

theorem exec_kept_memory (i : Instr) (hs : s.memoryOk) : Kept State.memoryOk (fun _ => True) (exec i s) := by
  cases hc : isCommand i with
  | true => exact memoryOk_commands.exec_kept hc hs
  | false =>
    have hr : rebinds i = false := by
      cases i with
      | start _ _ | reset | containerHeader _ _ => cases hc
      | _ => rfl
    exact (exec_ascends hr hs).mono fun _ h => h.memory

/-- What follows where the decoder reads no instruction (R72, R114, R140, R150). -/
theorem rejected_kept_memory (r : Reject) (hs : s.memoryOk) : Kept State.memoryOk (fun _ => True) (s.rejected r) := by
  cases r with
  | shortHeader | badMarker | nothingParsed => exact hs
  | noCodeWord => exact (((State.ascends_refl hs).decodes (s.consume_decodesOnly _)).raise .decode).memory
  | classOutside => exact (finishMatch_ascends (State.ascends_refl hs)).memory.kept
  | operandRange => trivial

theorem stepElement_kept_memory (hs : s.memoryOk) : Kept State.memoryOk (fun _ => True) (stepElement s) := by
  unfold stepElement
  split
  · exact exec_kept_memory _ hs
  · exact rejected_kept_memory _ hs

theorem memoryOk_beginByElements (hs : s.memoryOk) : (beginByElements s).memoryOk := by
  unfold beginByElements
  split
  · exact hs
  · split
    · split
      · exact hs
      · exact hs
    · exact hs

/-- Settles O54: an instruction appends to OUT and WIN by canonical writes (`exec_ascends`), START, reset and the
container reader empty a memory or lay a byte string into it, and the rest of a step does not write. -/
theorem memoryKept : Obligations.MemoryKept := by
  unfold Obligations.MemoryKept
  intro s t hs ht
  have h : Kept State.memoryOk (fun _ => True) (step s) :=
    step_kept memoryOk_commands hs (fun _ _ _ => hs) (fun _ => stepElement_kept_memory hs)
      (fun _ _ _ => memoryOk_beginByElements (s := s.setPort _) hs)
      (fun i _ _ => exec_kept_memory (s := s.setPort _) i hs)
  exact h.of_next ht

end Sys2Proof.Machine
end

section
/-! Fields of the look-ahead register (20_memory.md R36, R37): a field of `windowOf bits` spells the bits that stand
there, a longer field continues a shorter one, and the look-ahead of a code word (41_codetable.md R106). -/

namespace Sys2Proof.Machine

open Sys2Proof.Laws

/-! ## Bits and the numbers they spell -/

/-- A number spelled after `acc` (R37). -/
theorem natOfBits_eq (acc : Nat) (l : List Bool) : natOfBits acc l = acc * 2 ^ l.length + natOfBits 0 l := by
  induction l generalizing acc with
  | nil => simp [natOfBits]
  | cons b l ih =>
    simp only [natOfBits, List.length_cons]
    rw [ih (2 * acc + b.toNat), ih (2 * 0 + b.toNat)]
    ring

theorem natOfBits_append (a b : List Bool) : natOfBits 0 (a ++ b) = natOfBits 0 a * 2 ^ b.length + natOfBits 0 b := by
  induction a with
  | nil => simp [natOfBits]
  | cons x a ih =>
    simp only [List.cons_append, natOfBits]
    rw [natOfBits_eq _ (a ++ b), natOfBits_eq _ a, ih, List.length_append]
    ring

theorem natOfBits_lt (l : List Bool) : natOfBits 0 l < 2 ^ l.length := by
  induction l with
  | nil => exact Nat.one_pos
  | cons b l ih =>
    rw [natOfBits, natOfBits_eq, Nat.mul_zero, Nat.zero_add, List.length_cons]
    have hb : b.toNat * 2 ^ l.length ≤ 1 * 2 ^ l.length := Nat.mul_le_mul_right _ b.toNat_le
    rw [Nat.pow_succ]
    omega

/-- The bits that spell a number spell it back, if it fits (R37). -/
theorem natOfBits_bitsOf {n v : Nat} (h : v < 2 ^ n) : natOfBits 0 (bitsOf n v) = v := by
  suffices H : ∀ n v, natOfBits 0 (bitsOf n v) = v % 2 ^ n by rw [H, Nat.mod_eq_of_lt h]
  intro n v
  induction n with
  | zero => simp [bitsOf, natOfBits, Nat.mod_one]
  | succ n ih =>
    simp only [bitsOf, natOfBits]
    rw [natOfBits_eq, ih, bitsOf_length, Nat.mod_pow_succ, ← Nat.toNat_testBit]
    ring

/-! ## Fields of a register -/

/-- A field continues the field before it (R37). -/
theorem topBits_add (w : Word) {k n : Nat} (h : k + n ≤ 32) :
    topBits w (k + n) = topBits w k * 2 ^ n + fieldAt w k n := by
  have hk : topBits w k = topBits w (k + n) / 2 ^ n := by
    unfold topBits
    rw [Nat.div_div_eq_div_mul, ← Nat.pow_add]
    congr 2
    omega
  rw [fieldAt, hk, Nat.mul_comm]
  exact (Nat.div_add_mod ..).symm

/-- A shorter field is the beginning of a longer one. -/
theorem topBits_div (w : Word) {l m : Nat} (hl : l ≤ m) (hm : m ≤ 32) :
    topBits w m / 2 ^ (m - l) = topBits w l := by
  unfold topBits
  rw [Nat.div_div_eq_div_mul, ← Nat.pow_add]
  congr 2
  omega

theorem topBits_lt (w : Word) {n : Nat} (hn : n ≤ 32) : topBits w n < 2 ^ n := by
  unfold topBits
  rw [Nat.div_lt_iff_lt_mul (Nat.two_pow_pos _), ← Nat.pow_add]
  calc w.toNat < 2 ^ 32 := w.isLt
    _ = 2 ^ (n + (32 - n)) := by congr 1; omega

@[simp] theorem topBits_zero (w : Word) : topBits w 0 = 0 := by
  have := topBits_lt w (n := 0) (by omega)
  omega

/-- The register that shows a list of bits shows its beginning (R36). -/
theorem topBits_windowOf (a b : List Bool) (h : a.length ≤ 32) :
    topBits (windowOf (a ++ b)) a.length = natOfBits 0 a := by
  have htake : (a ++ b).take 32 = a ++ b.take (32 - a.length) := by
    rw [List.take_append, List.take_of_length_le h]
  have hlen : (b.take (32 - a.length)).length ≤ 32 - a.length := by
    rw [List.length_take]
    exact Nat.min_le_left ..
  unfold topBits windowOf
  rw [htake, List.length_append, natOfBits_append]
  generalize b.take (32 - a.length) = c at hlen
  have hc : natOfBits 0 c * 2 ^ (32 - (a.length + c.length)) < 2 ^ (32 - a.length) := by
    calc natOfBits 0 c * 2 ^ (32 - (a.length + c.length))
        < 2 ^ c.length * 2 ^ (32 - (a.length + c.length)) :=
          Nat.mul_lt_mul_of_pos_right (natOfBits_lt c) (Nat.two_pow_pos _)
      _ = 2 ^ (32 - a.length) := by rw [← Nat.pow_add]; congr 1; omega
  have hsplit : (natOfBits 0 a * 2 ^ c.length + natOfBits 0 c) * 2 ^ (32 - (a.length + c.length)) =
      2 ^ (32 - a.length) * natOfBits 0 a + natOfBits 0 c * 2 ^ (32 - (a.length + c.length)) := by
    rw [show 32 - a.length = c.length + (32 - (a.length + c.length)) by omega, Nat.pow_add]
    ring
  have hfit : 2 ^ (32 - a.length) * natOfBits 0 a + natOfBits 0 c * 2 ^ (32 - (a.length + c.length)) < 2 ^ 32 := by
    calc _ < 2 ^ (32 - a.length) * natOfBits 0 a + 2 ^ (32 - a.length) := Nat.add_lt_add_left hc _
      _ = 2 ^ (32 - a.length) * (natOfBits 0 a + 1) := by ring
      _ ≤ 2 ^ (32 - a.length) * 2 ^ a.length := Nat.mul_le_mul_left _ (natOfBits_lt a)
      _ = 2 ^ 32 := by rw [← Nat.pow_add]; congr 1; omega
  rw [BitVec.toNat_ofNat, hsplit, Nat.mod_eq_of_lt hfit, Nat.mul_add_div (Nat.two_pow_pos _), Nat.div_eq_of_lt hc,
    Nat.add_zero]

/-- The field after the first bits shows the bits that follow them (R36). -/
theorem fieldAt_windowOf (a b c : List Bool) (h : a.length + b.length ≤ 32) :
    fieldAt (windowOf (a ++ b ++ c)) a.length b.length = natOfBits 0 b := by
  have htop := topBits_windowOf (a ++ b) c (by simpa using h)
  rw [List.length_append, natOfBits_append] at htop
  rw [fieldAt, htop, Nat.mul_add_mod', Nat.mod_eq_of_lt (natOfBits_lt b)]

/-- A field at the beginning (R36). -/
theorem topBits_windowOf_bitsOf {n v : Nat} (hn : n ≤ 32) (hv : v < 2 ^ n) (more : List Bool) :
    topBits (windowOf (bitsOf n v ++ more)) n = v := by
  have h := topBits_windowOf (bitsOf n v) more (by rwa [bitsOf_length])
  rwa [bitsOf_length, natOfBits_bitsOf hv] at h

/-- A field after a word (R36). -/
theorem fieldAt_windowOf_bitsOf (a : List Bool) {n v : Nat} (hn : a.length + n ≤ 32) (hv : v < 2 ^ n)
    (more : List Bool) : fieldAt (windowOf (a ++ bitsOf n v ++ more)) a.length n = v := by
  have h := fieldAt_windowOf a (bitsOf n v) more (by rwa [bitsOf_length])
  rwa [bitsOf_length, natOfBits_bitsOf hv] at h

/-- A run of ones that a zero ends, where the count stops no earlier (R56). -/
theorem onesAt_windowOf (a more : List Bool) {n f : Nat} (hn : n < f) (hlen : a.length + f ≤ 32) :
    onesAt (windowOf (a ++ (List.replicate n true ++ [false]) ++ more)) f a.length = n := by
  induction n generalizing a f with
  | zero =>
    obtain ⟨f, rfl⟩ := Nat.exists_eq_succ_of_ne_zero (Nat.ne_of_gt hn)
    have hbit := fieldAt_windowOf a [false] more (by simp only [List.length_singleton]; omega)
    exact if_neg (hbit.trans_ne (by decide))
  | succ n ih =>
    obtain ⟨f, rfl⟩ := Nat.exists_eq_succ_of_ne_zero (Nat.ne_of_gt (Nat.zero_lt_of_lt hn))
    have hbit := fieldAt_windowOf a [true] (List.replicate n true ++ [false] ++ more)
      (by simp only [List.length_singleton]; omega)
    have hrest := ih (a ++ [true]) (f := f) (by omega) (by simp only [List.length_append, List.length_singleton]; omega)
    have hlist : a ++ (List.replicate (n + 1) true ++ [false]) ++ more =
        a ++ [true] ++ (List.replicate n true ++ [false]) ++ more := by simp [List.replicate_succ]
    rw [hlist]
    rw [← List.append_assoc] at hbit
    rw [List.length_append] at hrest
    simp only [onesAt]
    rw [if_pos (show fieldAt _ a.length 1 = 1 from hbit)]
    exact congrArg (· + 1) hrest

/-- A run of ones that reaches the end of the count (R72). -/
theorem onesAt_windowOf_all (a more : List Bool) {f : Nat} (hlen : a.length + f ≤ 32) :
    onesAt (windowOf (a ++ List.replicate f true ++ more)) f a.length = f := by
  induction f generalizing a with
  | zero => rfl
  | succ f ih =>
    have hbit := fieldAt_windowOf a [true] (List.replicate f true ++ more)
      (by simp only [List.length_singleton]; omega)
    have hrest := ih (a ++ [true]) (by simp only [List.length_append, List.length_singleton]; omega)
    have hlist : a ++ List.replicate (f + 1) true ++ more = a ++ [true] ++ List.replicate f true ++ more := by
      simp [List.replicate_succ]
    rw [hlist]
    rw [← List.append_assoc] at hbit
    rw [List.length_append] at hrest
    simp only [onesAt]
    rw [if_pos (show fieldAt _ a.length 1 = 1 from hbit)]
    exact congrArg (· + 1) hrest

end Sys2Proof.Machine
end

section
/-! The code words (41_codetable.md R100, R106, 30_encoding.md R68, R69), and that every instruction is decoded from its
encoding (O51, O52). -/

namespace Sys2Proof.Machine

open Sys2Proof.Laws

variable {n cb : Nat}

/-! ## Code words -/

/-- The lookup that finds nothing: no entry has that length and that code (R100). -/
theorem findCode_eq_none {l c : Nat} {xs : List (BitVec 5)} {ys : List (BitVec 16)} {s : Nat}
    (h : findCode l c xs ys s = none) (a : Nat) (hx : a < xs.length) (hy : a < ys.length) :
    ¬((xs.getD a 0).toNat = l ∧ (ys.getD a 0).toNat = c) := by
  induction xs generalizing ys s a with
  | nil => exact absurd hx (Nat.not_lt_zero a)
  | cons x xs ih =>
    cases ys with
    | nil => exact absurd hy (Nat.not_lt_zero a)
    | cons y ys =>
      simp only [findCode] at h
      split at h
      · cases h
      · cases a with
        | zero => assumption
        | succ a => exact ih h a (Nat.lt_of_succ_lt_succ hx) (Nat.lt_of_succ_lt_succ hy)

/-- A symbol that has a length is in the alphabet. -/
theorem Table.lt_of_lenAt_ne_zero {t : Table n cb} {a : Nat} (h : t.lenAt a ≠ 0) : a < n := by
  by_contra hn
  exact h (t.lenAt_past (Nat.le_of_not_lt hn))

/-- In a code without two words of which one begins the other, the lookup answers the symbol itself (R19, R100). -/
theorem Table.lookup_self {t : Table n cb} (hp : t.prefixFree) {s : Nat} (h0 : t.lenAt s ≠ 0) :
    t.lookup (t.lenAt s) (t.codeAt s) = some s := by
  have hs := Table.lt_of_lenAt_ne_zero h0
  cases h : t.lookup (t.lenAt s) (t.codeAt s) with
  | none =>
    have hne := findCode_eq_none h s (by simpa using hs) (by simpa using hs)
    exact absurd ⟨(t.lenAt_eq s).symm, (t.codeAt_eq s).symm⟩ hne
  | some a =>
    obtain ⟨-, hlen, hcode⟩ := Table.lookup_eq_some h
    by_contra hne
    have hdiff := hp.2 a s (fun he => hne (by rw [he])) (by omega) (by omega)
    rw [hlen, Nat.sub_self, Nat.pow_zero, Nat.div_one] at hdiff
    exact hdiff hcode.symm

/-- No shorter word begins a word of the code (R19). -/
theorem Table.lookup_shorter {t : Table n cb} (hp : t.prefixFree) {s l : Nat} (h0 : l ≠ 0) (hl : l < t.lenAt s) :
    t.lookup l (t.codeAt s / 2 ^ (t.lenAt s - l)) = none := by
  rw [Option.eq_none_iff_forall_ne_some]
  intro a h
  obtain ⟨-, rfl, hcode⟩ := Table.lookup_eq_some h
  exact hp.2 a s (fun he => by rw [he] at hl; omega) h0 (Nat.le_of_lt hl) hcode.symm

/-- The look-ahead finds the symbol whose code word stands at the top of the register (R69, R106). -/
theorem matchCode_of_word {t : Table n cb} (hp : t.prefixFree) {w : Word} {s : Nat} (hs : t.lenAt s ≤ 32)
    (hw : topBits w (t.lenAt s) = t.codeAt s) (k : Nat) {l : Nat} (h0 : l ≠ 0) (hl : l ≤ t.lenAt s)
    (hk : t.lenAt s < l + k) : matchCode t w k l = some (s, t.lenAt s) := by
  induction k generalizing l with
  | zero => omega
  | succ k ih =>
    by_cases he : l = t.lenAt s
    · rw [matchCode, he, hw, Table.lookup_self hp (he ▸ h0)]
    · have hnone := Table.lookup_shorter hp h0 (Nat.lt_of_le_of_ne hl he)
      rw [← hw, topBits_div w hl hs] at hnone
      rw [matchCode, hnone]
      exact ih (Nat.succ_ne_zero l) (by omega) (by omega)

/-- The code word that a sound table gives a symbol is read back, whatever bits follow it (R68, R69). -/
theorem codeWordAt_codeBits {t : Table n cb} {s : Nat} (h : t.spells s) (more : List Bool) :
    codeWordAt t (windowOf (codeBits t s ++ more)) = some (s, (codeBits t s).length) := by
  obtain ⟨hsound, hword⟩ := h
  unfold Table.sound at hsound
  unfold codeWordAt codeBits
  by_cases hsv : t.sv = true
  · rw [if_pos hsv] at hword
    rw [if_pos hsv, if_pos hsv, hword, List.length_nil]
  · rw [if_neg hsv] at hsound hword
    rw [if_neg hsv, if_neg hsv, bitsOf_length]
    obtain ⟨hlens, hp⟩ := hsound
    have hlen : t.lenAt s ≤ 16 := hlens s
    exact matchCode_of_word hp (by omega) (topBits_windowOf_bitsOf (by omega) (hp.1 s hword) more) Config.maxLen
      Nat.one_ne_zero (by omega) (by rw [Config.maxLen]; omega)

/-- A code word has at most 16 bits (R108). -/
theorem Table.spells.codeBits_le {t : Table n cb} {s : Nat} (h : t.spells s) : (codeBits t s).length ≤ 16 := by
  obtain ⟨hsound, -⟩ := h
  unfold codeBits
  split
  · exact Nat.zero_le _
  · unfold Table.sound at hsound
    rw [if_neg ‹_›] at hsound
    rw [bitsOf_length]
    exact hsound.1 s

/-! ## The elements -/

section elements

variable {x : Tables} {p : Site} {more : List Bool}

/-- The bits of an escape are its ones after the first three and a zero (R56). -/
theorem decodeElement_hlen_escape (t : TableId) (v : Scan) (x : Tables) {l : Nat} (hl : 7 ≤ l ∧ l ≤ 16)
    (more : List Bool) :
    decodeElement (.hlen t v) x (windowOf (escapeBits l ++ more)) = .ok (hlenEscape (l - 7)) := by
  have hbits : escapeBits l ++ more = bitsOf 3 7 ++ (List.replicate (l - 7) true ++ [false]) ++ more := by
    simp [escapeBits, bitsOf, List.replicate_add, Nat.testBit_succ]
  rw [hbits]
  have htop : topBits (windowOf (bitsOf 3 7 ++ (List.replicate (l - 7) true ++ [false]) ++ more)) 3 = 7 := by
    rw [List.append_assoc]
    exact topBits_windowOf_bitsOf (by decide) (by decide) _
  have hones := onesAt_windowOf (bitsOf 3 7) more (n := l - 7) (f := 10) (by omega) (by decide)
  rw [bitsOf_length] at hones
  simp only [decodeElement]
  rw [if_pos htop, hones]

theorem decodeElement_hlen_illegal (t : TableId) (v : Scan) (x : Tables) (more : List Bool) :
    decodeElement (.hlen t v) x (windowOf (List.replicate 13 true ++ more)) = .ok .hlenIllegal := by
  have htop : topBits (windowOf (bitsOf 3 7 ++ List.replicate 10 true ++ more)) 3 = 7 := by
    rw [List.append_assoc]
    exact topBits_windowOf_bitsOf (by decide) (by decide) _
  have hones := onesAt_windowOf_all (bitsOf 3 7) more (f := 10) (by decide)
  rw [bitsOf_length] at hones
  rw [show List.replicate 13 true = bitsOf 3 7 ++ List.replicate 10 true from rfl]
  simp only [decodeElement]
  rw [if_pos htop, hones]
  rfl

theorem decodeElement_hlen_direct (t : TableId) (v : Scan) (x : Tables) {l : BitVec 3} (hl : l ≠ 7#3)
    (more : List Bool) :
    decodeElement (.hlen t v) x (windowOf (bitsOf 3 l.toNat ++ more)) = .ok (.hlenDirect l) := by
  have htop := topBits_windowOf_bitsOf (by decide) l.isLt more
  have h7 : l.toNat ≠ 7 := fun h => hl (BitVec.eq_of_toNat_eq h)
  simp only [decodeElement]
  rw [htop, if_neg h7, BitVec.ofNat_toNat, BitVec.setWidth_eq]

/-- At a `CL` entry the code word gives the value (R58). -/
theorem decodeElement_cl {v : Nat} (scan : Scan) (h : x.tLen.spells v) (more : List Bool) :
    decodeElement (.cl scan) x (windowOf (codeBits x.tLen v ++ more)) =
      .ok (clOf (windowOf (codeBits x.tLen v ++ more)) (codeBits x.tLen v).length v) := by
  simp only [decodeElement, codeWordAt_codeBits h]

/-- At a unit the code word gives the symbol (R63, R64). -/
theorem decodeElement_unit {c : Nat} (h : x.tLit.spells c) (more : List Bool) :
    decodeElement .unit x (windowOf (codeBits x.tLit c ++ more)) = .ok (unitOf c) := by
  simp only [decodeElement, codeWordAt_codeBits h]

/-- At an `OFF` the code word gives the class, and the delta follows it (R65). -/
theorem decodeElement_off {q : Nat} (c : BitVec 9) (h : x.tOff.spells q) (more : List Bool) :
    decodeElement (.off c) x (windowOf (codeBits x.tOff q ++ more)) =
      offOf (windowOf (codeBits x.tOff q ++ more)) (codeBits x.tOff q).length q := by
  simp only [decodeElement, codeWordAt_codeBits h]

/-- The bits after a code word, as an operand of their width. -/
theorem ofNat_fieldAt_word {t : Table n cb} {s : Nat} (h : t.spells s) {m : Nat} (hm : m ≤ 16) (d : BitVec m)
    (more : List Bool) :
    BitVec.ofNat m (fieldAt (windowOf (codeBits t s ++ bitsOf m d.toNat ++ more)) (codeBits t s).length m) = d := by
  have := h.codeBits_le
  rw [fieldAt_windowOf_bitsOf _ (by omega) d.isLt, BitVec.ofNat_toNat, BitVec.setWidth_eq]

/-- An element that is one field of `m` bits (R52, R53, R54, R57). -/
theorem decodeElement_field {m : Nat} {i : BitVec m → Instr}
    (hi : ∀ w, decodeElement p x w = .ok (i (BitVec.ofNat m (topBits w m)))) (hm : m ≤ 32) (d : BitVec m)
    (more : List Bool) : decodeElement p x (windowOf (bitsOf m d.toNat ++ more)) = .ok (i d) := by
  rw [hi, topBits_windowOf_bitsOf hm d.isLt, BitVec.ofNat_toNat, BitVec.setWidth_eq]

/-- A `CL` entry with extra bits: they are read back after the code word (R60, R61). -/
theorem decodeElement_cl_extra {m v : Nat} {i : BitVec m → Instr} (scan : Scan) (h : x.tLen.spells v) (hm : m ≤ 16)
    (hcl : ∀ w k, clOf w k v = i (BitVec.ofNat m (fieldAt w k m))) (d : BitVec m) (more : List Bool) :
    decodeElement (.cl scan) x (windowOf (codeBits x.tLen v ++ bitsOf m d.toNat ++ more)) = .ok (i d) := by
  rw [List.append_assoc, decodeElement_cl scan h, hcl, ← List.append_assoc, ofNat_fieldAt_word h hm]

theorem decodeElement_clLen {v : BitVec 5} (scan : Scan) (hv : 3 ≤ v.toNat) (h : x.tLen.spells v.toNat)
    (more : List Bool) :
    decodeElement (.cl scan) x (windowOf (codeBits x.tLen v.toNat ++ more)) = .ok (.clLen v) := by
  obtain ⟨k, hk⟩ := Nat.exists_eq_add_of_le' hv
  have hof : BitVec.ofNat 5 (k + 3) = v := by rw [← hk, BitVec.ofNat_toNat, BitVec.setWidth_eq]
  rw [decodeElement_cl scan h]
  simp only [hk, clOf, hof]

theorem decodeElement_lit {c : Byte} (h : x.tLit.spells c.toNat) (more : List Bool) :
    decodeElement .unit x (windowOf (codeBits x.tLit c.toNat ++ more)) = .ok (.lit c) := by
  have hc : c.toNat ≤ Config.litMax := Nat.le_of_lt_succ c.isLt
  rw [decodeElement_unit h, unitOf, if_pos hc, BitVec.ofNat_toNat, BitVec.setWidth_eq]

theorem decodeElement_match {c : BitVec 9} (hc : 256 ≤ c.toNat) (h : x.tLit.spells c.toNat) (more : List Bool) :
    decodeElement .unit x (windowOf (codeBits x.tLit c.toNat ++ more)) = .ok (.matchSym c) := by
  have hc : ¬ c.toNat ≤ Config.litMax := Nat.not_le_of_lt hc
  rw [decodeElement_unit h, unitOf, if_neg hc, BitVec.ofNat_toNat, BitVec.setWidth_eq]

/-- An `OFF` of class 2 or more: its delta is read back (R65). -/
theorem decodeElement_off_delta {m q : Nat} {i : BitVec m → Instr} (c : BitVec 9) (h : x.tOff.spells q)
    (hm : m ≤ 16) (hq : q - 1 = m) (hoff : ∀ w k, offOf w k q = .ok (i (BitVec.ofNat m (fieldAt w k m)))) (d : BitVec m)
    (more : List Bool) : decodeElement (.off c) x (windowOf (offBits x q d.toNat ++ more)) = .ok (i d) := by
  unfold offBits
  rw [hq, List.append_assoc, decodeElement_off c h, hoff, ← List.append_assoc, ofNat_fieldAt_word h hm]

/-- A stream element where the grammar allows it is read from its bits, whatever follows them (R50 to R65, R68). -/
theorem decodeElement_encode {i : Instr} {bits : List Bool} (hwf : i.wf = true) (hfits : fits x p i)
    (henc : encode x i = .bits bits) (more : List Bool) : decodeElement p x (windowOf (bits ++ more)) = .ok i := by
  cases i with
  | subhdr c | count5 c | count9 c | count4 c | degen5 c | degen9 c | degen4 c =>
    cases henc
    obtain rfl : p = _ := hfits
    exact decodeElement_field (fun _ => rfl) (by decide) c more
  | hlenDirect l =>
    cases henc
    obtain ⟨t, v, rfl⟩ := hfits
    exact decodeElement_hlen_direct t v x (bne_iff_ne.1 hwf) more
  | hlenEsc7 | hlenEsc8 | hlenEsc9 | hlenEsc10 | hlenEsc11 | hlenEsc12 | hlenEsc13 | hlenEsc14 | hlenEsc15
  | hlenEsc16 =>
    cases henc
    obtain ⟨t, v, rfl⟩ := hfits
    exact decodeElement_hlen_escape t v x (by decide) more
  | hlenIllegal =>
    cases henc
    obtain ⟨t, v, rfl⟩ := hfits
    exact decodeElement_hlen_illegal t v x more
  | hskip k =>
    cases henc
    obtain ⟨t, v, rfl⟩ := hfits
    exact decodeElement_field (fun _ => rfl) (by decide) k more
  | clZero =>
    cases henc
    obtain ⟨⟨v, rfl⟩, h⟩ := hfits
    exact decodeElement_cl v h more
  | clZrun4 e | clZrun9 e =>
    cases henc
    obtain ⟨⟨v, rfl⟩, h⟩ := hfits
    exact decodeElement_cl_extra v h (by decide) (fun _ _ => rfl) e more
  | clLen v =>
    cases henc
    obtain ⟨⟨scan, rfl⟩, h⟩ := hfits
    exact decodeElement_clLen scan (of_decide_eq_true hwf).1 h more
  | lit c =>
    cases henc
    obtain ⟨rfl, h⟩ := hfits
    exact decodeElement_lit h more
  | matchSym c =>
    cases henc
    obtain ⟨rfl, h⟩ := hfits
    exact decodeElement_match (of_decide_eq_true hwf).1 h more
  | off0 | off1 =>
    cases henc
    obtain ⟨⟨c, rfl⟩, h⟩ := hfits
    rw [offBits, List.append_assoc, decodeElement_off c h]
    rfl
  | off2 d | off3 d | off4 d | off5 d | off6 d | off7 d | off8 d | off9 d | off10 d | off11 d | off12 d | off13 d =>
    cases henc
    obtain ⟨⟨c, rfl⟩, h⟩ := hfits
    exact decodeElement_off_delta c h (by decide) rfl (fun _ _ => rfl) d more
  | pad =>
    obtain rfl : p = .pad := hfits
    rfl
  | _ => exact hfits.elim

end elements

/-! ## O51 -/

theorem littleEndianBytes_eq (w : Word) : ∃ b0 b1 b2 b3, littleEndianBytes w = [b0, b1, b2, b3] ∧
    littleEndian b0 b1 b2 b3 = w := by
  refine ⟨_, _, _, _, rfl, ?_⟩
  apply BitVec.eq_of_toNat_eq
  have := w.isLt
  simp only [littleEndian, BitVec.toNat_ofNat]
  omega

/-- A container header is read from its twelve bytes (R66, R38). -/
theorem decodeHeader_encode (a b : Word) :
    decodeHeader ([0x4C#8, 0x5A#8, 0x32#8, 0x4B#8] ++ littleEndianBytes a ++ littleEndianBytes b) =
      .ok (.containerHeader a b) := by
  obtain ⟨a0, a1, a2, a3, ha, rfl⟩ := littleEndianBytes_eq a
  obtain ⟨b0, b1, b2, b3, hb, rfl⟩ := littleEndianBytes_eq b
  rw [ha, hb]
  rfl

/-- A well-formed instruction invoked by name is its own form. -/
theorem decode_operation (p : Site) (x : Tables) {i : Instr} (hwf : i.wf = true) :
    decode p x (.operation i) = .ok i := if_pos hwf

/-- What is no stream element is a command, which is read from its code, or an operation, which is its own form. -/
theorem decode_encode_of_not_bits (x : Tables) (p : Site) {i : Instr} (hwf : i.wf = true)
    (henc : ∀ bits, encode x i ≠ .bits bits) : decode p x (encode x i) = .ok i := by
  cases i with
  | cmdReserved | start | step | run | read | reset => rfl
  | containerHeader a b => exact decodeHeader_encode a b
  | brInit | brIngest | brGet | ctClear | ctCount | ctDegen | ctHlen | ctHskip | ctInitHybrid | ctInitCoded | ctAssign
  | ctDecode | bdInitSubblock | bdUnit | bdLiteral | bdMatch | bdOffset | lzEmit | lzCopy | raise =>
    exact decode_operation p x hwf
  | _ => exact absurd rfl (henc _)

/-- Settles O51: a stream element is read back at its place (`decodeElement_encode`), anything else in any place. -/
theorem decodeEncode : Obligations.DecodeEncode := by
  unfold Obligations.DecodeEncode
  exact ⟨fun x p _ hwf henc => decode_encode_of_not_bits x p hwf henc,
    fun _ _ _ _ more hwf hfits henc => decodeElement_encode hwf hfits henc more⟩

/-- Settles O52: each word is decoded. -/
theorem wordsDecode : Obligations.WordsDecode := by
  unfold Obligations.WordsDecode
  refine ⟨?reserved, ?start, ?step, ?run, ?escape, ?subhdr, ?escape8, ?direct, ?hskip, ?header⟩
  case reserved | start | step | run => decide
  case escape => decide
  case subhdr => decide
  case escape8 | direct => decide
  case hskip => decide
  case header => decide

end Sys2Proof.Machine
end

section
/-! The canonical assignment counted out (41_codetable.md R102, R104): a code's slot begins where the code space handed
out before it ends, and the assignment succeeds exactly if the lengths take at most the whole code space. -/

namespace Sys2Proof.Machine

/-! ## The code space as a sum -/

/-- The code space a symbol of length `l` takes, in units of `2^-16` (R104). -/
def slotSize (l : Nat) : Nat := if l = 0 then 0 else 2 ^ (16 - l)

theorem slotSize_pos_length {l : Nat} (h : l ≠ 0) : slotSize l = 2 ^ (16 - l) := if_neg h

theorem kraft_append (xs ys : List Nat) : kraft (xs ++ ys) = kraft xs + kraft ys := by
  induction xs with
  | nil => simp [kraft]
  | cons x xs ih => simp only [List.cons_append, kraft, ih, Nat.add_assoc]

/-- The code space that the symbols below `n` take. -/
theorem kraft_range (n : Nat) (f : Nat → Nat) :
    kraft ((List.range n).map f) = ∑ a ∈ Finset.range n, slotSize (f a) := by
  induction n with
  | zero => rfl
  | succ n ih =>
    rw [List.range_succ, List.map_append, kraft_append, ih, Finset.sum_range_succ]
    rfl

/-- The code space of the symbols of length `l` below `a`. -/
def spaceAt (l : Nat) (xs : List (BitVec 5)) (a : Nat) : Nat :=
  ∑ b ∈ Finset.range a, if lenIn xs b = l then 2 ^ (16 - l) else 0

/-- The code space of the symbols whose lengths are below `l`. -/
def spaceBelow (l : Nat) (xs : List (BitVec 5)) : Nat :=
  ∑ a ∈ Finset.range xs.length, if lenIn xs a < l then slotSize (lenIn xs a) else 0

theorem spaceAt_cons_succ (l : Nat) (x : BitVec 5) (xs : List (BitVec 5)) (a : Nat) :
    spaceAt l (x :: xs) (a + 1) = (if x.toNat = l then 2 ^ (16 - l) else 0) + spaceAt l xs a :=
  (Finset.sum_range_succ' ..).trans (Nat.add_comm ..)

@[simp] theorem spaceAt_zero (l : Nat) (xs : List (BitVec 5)) : spaceAt l xs 0 = 0 := rfl

/-- One more length. -/
theorem spaceBelow_succ {l : Nat} (hl : 1 ≤ l) (xs : List (BitVec 5)) :
    spaceBelow (l + 1) xs = spaceBelow l xs + spaceAt l xs xs.length := by
  unfold spaceBelow spaceAt
  rw [← Finset.sum_add_distrib]
  refine Finset.sum_congr rfl fun a _ => ?_
  by_cases h : lenIn xs a = l
  · rw [if_pos (by omega), if_neg (by omega), if_pos h, h, slotSize_pos_length (by omega), Nat.zero_add]
  · by_cases hlt : lenIn xs a < l
    · rw [if_pos (by omega), if_pos hlt, if_neg h, Nat.add_zero]
    · rw [if_neg (by omega), if_neg hlt, if_neg h]

theorem spaceBelow_mono {l m : Nat} (hlm : l ≤ m) (xs : List (BitVec 5)) : spaceBelow l xs ≤ spaceBelow m xs := by
  refine Finset.sum_le_sum fun a _ => ?_
  by_cases h : lenIn xs a < l
  · rw [if_pos h, if_pos (by omega)]
  · rw [if_neg h]
    exact Nat.zero_le _

theorem spaceBelow_one (xs : List (BitVec 5)) : spaceBelow 1 xs = 0 := by
  refine Finset.sum_eq_zero fun a _ => ?_
  split
  · have h0 : lenIn xs a = 0 := by omega
    rw [h0]
    rfl
  · rfl

/-! ## One pass -/

/-- A pass of CT.ASSIGN (R102) finds room if what it hands out fits the code space. -/
theorem assignPass_ok {l : Nat} {xs : List (BitVec 5)} {cs : List (BitVec 16)} {ctr : Nat}
    (h : ctr + spaceAt l xs xs.length ≤ 2 ^ 16) : (assignPass l xs cs ctr).ok = true := by
  induction xs generalizing cs ctr with
  | nil => rfl
  | cons x xs ih =>
    cases cs with
    | nil => rfl
    | cons c cs =>
      rw [List.length_cons, spaceAt_cons_succ] at h
      by_cases hx : x.toNat = l
      · rw [if_pos hx, ← Nat.add_assoc] at h
        have hpos : 0 < 2 ^ (16 - l) := Nat.two_pow_pos _
        simp only [assignPass, if_pos hx]
        rw [if_neg (by omega)]
        exact ih h
      · rw [if_neg hx, Nat.zero_add] at h
        simp only [assignPass, if_neg hx]
        exact ih h

/-- What a pass for the length `l` does (R102): the counter passes over the code space of the symbols of that length,
and the slot of each begins where those of the symbols before it end. -/
structure PassCounted (l : Nat) (xs : List (BitVec 5)) (cs' : List (BitVec 16)) (ctr ctr' : Nat) : Prop where
  counter : ctr' = ctr + spaceAt l xs xs.length
  starts : ∀ a, lenIn xs a = l → slotStart l (codeIn cs' a) = ctr + spaceAt l xs a

theorem PassCounted.skip {l ctr ctr' : Nat} {x : BitVec 5} {xs : List (BitVec 5)} {c : BitVec 16}
    {cs' : List (BitVec 16)} (h : PassCounted l xs cs' ctr ctr') (hx : x.toNat ≠ l) :
    PassCounted l (x :: xs) (c :: cs') ctr ctr' where
  counter := by rw [List.length_cons, spaceAt_cons_succ, if_neg hx, Nat.zero_add]; exact h.counter
  starts
    | 0, ha => absurd ha hx
    | a + 1, ha => by rw [spaceAt_cons_succ, if_neg hx, Nat.zero_add]; exact h.starts a ha

theorem PassCounted.place {l ctr ctr' : Nat} {x : BitVec 5} {xs : List (BitVec 5)} {d : BitVec 16}
    {cs' : List (BitVec 16)} (h : PassCounted l xs cs' (ctr + 2 ^ (16 - l)) ctr') (hx : x.toNat = l)
    (hd : slotStart l d.toNat = ctr) : PassCounted l (x :: xs) (d :: cs') ctr ctr' where
  counter := by rw [List.length_cons, spaceAt_cons_succ, if_pos hx, ← Nat.add_assoc]; exact h.counter
  starts
    | 0, _ => hd
    | a + 1, ha => by rw [spaceAt_cons_succ, if_pos hx, ← Nat.add_assoc]; exact h.starts a ha

/-- The inner loop of CT.ASSIGN (R102), if the code space suffices. -/
theorem assignPass_counted {l : Nat} (hl : 1 ≤ l ∧ l ≤ 16) {xs : List (BitVec 5)} {cs : List (BitVec 16)} {ctr : Nat}
    (hlen : xs.length = cs.length) (hd : 2 ^ (16 - l) ∣ ctr) (hok : (assignPass l xs cs ctr).ok = true) :
    PassCounted l xs (assignPass l xs cs ctr).codes ctr (assignPass l xs cs ctr).ctr := by
  induction xs generalizing cs ctr with
  | nil => exact ⟨rfl, fun a ha => absurd ha (by rw [lenIn_nil]; omega)⟩
  | cons x xs ih =>
    cases cs with
    | nil => cases hlen
    | cons c cs =>
      simp only [List.length_cons, Nat.add_right_cancel_iff] at hlen
      by_cases hx : x.toNat = l
      · by_cases hfull : 2 ^ 16 ≤ ctr
        · simp only [assignPass, if_pos hx, if_pos hfull] at hok
          cases hok
        · have hlt : ctr < 2 ^ 16 := Nat.lt_of_not_le hfull
          simp only [assignPass, if_pos hx, if_neg hfull] at hok ⊢
          exact (ih hlen (Nat.dvd_add hd (dvd_refl _)) hok).place hx (slotStart_counter hd hlt)
      · simp only [assignPass, if_neg hx] at hok ⊢
        exact (ih hlen hd hok).skip hx

/-! ## All passes -/

/-- The lengths below `l` have been assigned: the counter stands at their code space, and the slot of each symbol begins
at the space of the shorter lengths and of the symbols of its length before it. -/
structure Counted (xs : List (BitVec 5)) (cs : List (BitVec 16)) (l ctr : Nat) : Prop where
  counter : ctr = spaceBelow l xs
  starts : ∀ a, lenIn xs a ≠ 0 → lenIn xs a < l →
    slotStart (lenIn xs a) (codeIn cs a) = spaceBelow (lenIn xs a) xs + spaceAt (lenIn xs a) xs a

theorem Counted.pass {xs : List (BitVec 5)} {cs cs' : List (BitVec 16)} {l ctr ctr' : Nat} (hl : 1 ≤ l)
    (h : Counted xs cs l ctr) (hkept : ∀ a, lenIn xs a ≠ l → codeIn cs' a = codeIn cs a)
    (hp : PassCounted l xs cs' ctr ctr') : Counted xs cs' (l + 1) ctr' where
  counter := by rw [spaceBelow_succ hl, ← h.counter, hp.counter]
  starts := by
    intro a h0 ha
    by_cases hal : lenIn xs a = l
    · rw [hal, hp.starts a hal, h.counter]
    · rw [hkept a hal]
      exact h.starts a h0 (by omega)

/-- The outer loop of CT.ASSIGN (R102): it finds room if the lengths take at most the whole code space, and then it has
counted out every length. -/
theorem assignFrom_counted {xs : List (BitVec 5)} (k : Nat) {l : Nat} {cs : List (BitVec 16)} {ctr : Nat} (hl : 1 ≤ l)
    (hk : l + k = 17) (hlen : xs.length = cs.length) (hp : Placed xs cs l ctr) (hc : Counted xs cs l ctr)
    (hroom : spaceBelow 17 xs ≤ 2 ^ 16) :
    (assignFrom xs k l cs ctr).ok = true ∧
      Counted xs (assignFrom xs k l cs ctr).codes 17 (assignFrom xs k l cs ctr).ctr := by
  induction k generalizing l cs ctr with
  | zero =>
    obtain rfl : l = 17 := by omega
    exact ⟨rfl, hc⟩
  | succ k ih =>
    have hfits : ctr + spaceAt l xs xs.length ≤ 2 ^ 16 := by
      rw [hc.counter, ← spaceBelow_succ hl]
      exact (spaceBelow_mono (by omega) xs).trans hroom
    have hok := assignPass_ok (cs := cs) hfits
    have hplaced := assignPass_placed ⟨hl, by omega⟩ hlen hp.dvd hp.room hok
    have hcounted := assignPass_counted ⟨hl, by omega⟩ hlen hp.dvd hok
    simp only [assignFrom, if_pos hok]
    exact ih (by omega) (by omega) (by rw [assignPass_length, hlen]) (hp.pass hplaced)
      (hc.pass hl hplaced.kept hcounted)

/-- The assignment that found room has counted out every length too. -/
theorem assignFrom_room {xs : List (BitVec 5)} (k : Nat) {l : Nat} {cs : List (BitVec 16)} {ctr : Nat} (hl : 1 ≤ l)
    (hk : l + k = 17) (hlen : xs.length = cs.length) (hp : Placed xs cs l ctr) (hc : Counted xs cs l ctr)
    (hok : (assignFrom xs k l cs ctr).ok = true) : spaceBelow 17 xs ≤ 2 ^ 16 := by
  induction k generalizing l cs ctr with
  | zero =>
    obtain rfl : l = 17 := by omega
    rw [← hc.counter]
    exact hp.room
  | succ k ih =>
    simp only [assignFrom] at hok
    split at hok
    · rename_i hpass
      have hplaced := assignPass_placed ⟨hl, by omega⟩ hlen hp.dvd hp.room hpass
      have hcounted := assignPass_counted ⟨hl, by omega⟩ hlen hp.dvd hpass
      exact ih (by omega) (by omega) (by rw [assignPass_length, hlen]) (hp.pass hplaced)
        (hc.pass hl hplaced.kept hcounted) hok
    · exact absurd hok ‹_›

/-! ## The assignment of a table -/

variable {n cb : Nat} {t : Table n cb}

theorem Table.lens_space (t : Table n cb) (h : t.lensOk) : kraft t.lens = spaceBelow 17 t.len.toList := by
  unfold Table.lens spaceBelow
  rw [kraft_range, Vector.length_toList]
  refine Finset.sum_congr rfl fun a _ => ?_
  have hlen : t.lenAt a ≤ 16 := h a
  rw [← t.lenAt_eq_lenIn, if_pos (by omega)]

theorem Table.placed_start (t : Table n cb) : Placed t.len.toList t.code.toList 1 0 :=
  ⟨dvd_zero _, Nat.zero_le _, fun a h0 ha => by omega, fun a b h0 hb hab => by omega⟩

theorem Table.counted_start (t : Table n cb) : Counted t.len.toList t.code.toList 1 0 :=
  ⟨(spaceBelow_one _).symm, fun a h0 ha => by omega⟩

/-- CT.ASSIGN succeeds exactly if the lengths take at most the whole code space (R102, R104). -/
theorem Table.assigned_ok_iff (h : t.lensOk) : t.assigned.ok = true ↔ kraft t.lens ≤ 2 ^ 16 := by
  have hlen : t.len.toList.length = t.code.toList.length := by simp
  rw [t.lens_space h]
  exact ⟨assignFrom_room Config.maxLen (Nat.le_refl 1) rfl hlen t.placed_start t.counted_start,
    fun hroom => (assignFrom_counted Config.maxLen (Nat.le_refl 1) rfl hlen t.placed_start t.counted_start hroom).1⟩

/-- The space before a symbol is that of the shorter lengths and of its own length below it. -/
theorem Table.spaceBefore_eq (t : Table n cb) {s : Nat} (h0 : t.lenAt s ≠ 0) :
    t.spaceBefore s = spaceBelow (t.lenAt s) t.len.toList + spaceAt (t.lenAt s) t.len.toList s := by
  have hs : s ≤ n := Nat.le_of_lt (Table.lt_of_lenAt_ne_zero h0)
  have hext : spaceAt (t.lenAt s) t.len.toList s =
      ∑ a ∈ Finset.range n, if t.lenAt a = t.lenAt s ∧ a < s then 2 ^ (16 - t.lenAt s) else 0 := by
    rw [← Finset.sum_subset (Finset.range_subset_range.2 hs)]
    · refine Finset.sum_congr rfl fun a ha => ?_
      simp [← t.lenAt_eq_lenIn, Finset.mem_range.1 ha]
    · intro a _ ha
      exact if_neg fun h => ha (Finset.mem_range.2 h.2)
  unfold Table.spaceBefore
  rw [kraft_range, hext, spaceBelow, Vector.length_toList, ← Finset.sum_add_distrib]
  refine Finset.sum_congr rfl fun a _ => ?_
  rw [← t.lenAt_eq_lenIn]
  by_cases hlt : t.lenAt a < t.lenAt s
  · rw [if_pos (.inl hlt), if_pos hlt, if_neg (by omega), Nat.add_zero]
  · by_cases heq : t.lenAt a = t.lenAt s ∧ a < s
    · rw [if_pos (.inr heq), if_neg hlt, if_pos heq, heq.1, slotSize_pos_length h0, Nat.zero_add]
    · rw [if_neg (not_or.2 ⟨hlt, heq⟩), if_neg hlt, if_neg heq]
      rfl

theorem Table.spaceBefore_withCodes (t : Table n cb) (s : Nat) : t.withCodes.spaceBefore s = t.spaceBefore s := rfl

/-- CT.ASSIGN gives the canonical code (R102). -/
theorem Table.withCodes_canonical (h : t.lensOk) (hroom : kraft t.lens ≤ 2 ^ 16) : t.withCodes.canonical := by
  rw [t.lens_space h] at hroom
  have hc := (assignFrom_counted Config.maxLen (Nat.le_refl 1) rfl (by simp) t.placed_start t.counted_start hroom).2
  intro s h0
  rw [Table.lenAt_withCodes] at h0 ⊢
  have hlen : t.lenAt s ≤ 16 := h s
  have hstart := hc.starts s (by rwa [← t.lenAt_eq_lenIn]) (by rw [← t.lenAt_eq_lenIn]; omega)
  rw [← t.lenAt_eq_lenIn, ← t.spaceBefore_eq h0] at hstart
  rw [t.spaceBefore_withCodes, ← hstart, t.withCodes_codeAt, slotStart, Nat.mul_div_cancel _ (Nat.two_pow_pos _)]
  rfl

end Sys2Proof.Machine
end

section
/-! Every bit reader operation keeps the invariant of 40_bitreader.md R83: after `n` bits the reader stands `n` bits
further (R81, R82, R84). -/

namespace Sys2Proof.Machine

variable {s t u : State}

/-- The bit reader's invariant (R83) with the stream position given: BR.INGEST moves the registers before BR.pos. -/
structure State.readerAt (s : State) (p : Nat) : Prop where
  reg : ∀ k, k < 32 → s.br.reg.getLsbD (31 - k) = s.streamBit (p + k)
  ptr : s.br.ptr.toNat = min s.inSize.toNat ((p + 32) / 8)
  rem : s.br.rem.toNat = s.inSize.toNat - s.br.ptr.toNat
  used : s.br.used.toNat = (p + 32) % 8

theorem State.readerOk_iff : s.readerOk ↔ s.readerAt s.br.pos :=
  ⟨fun ⟨hreg, hptr, hrem, hused⟩ => ⟨hreg, hptr, hrem, hused⟩,
    fun ⟨hreg, hptr, hrem, hused⟩ => ⟨hreg, hptr, hrem, hused⟩⟩

/-- The invariant speaks of the bit reader, IN and IN_SIZE alone. -/
theorem State.readerOk.of_same (h : s.readerOk) (hbr : t.br = s.br) (hsize : t.inSize = s.inSize)
    (hinp : t.inp = s.inp) : t.readerOk := by
  have hbit : ∀ j, t.streamBit j = s.streamBit j := by
    intro j
    unfold State.streamBit State.readIn
    rw [hsize, hinp]
  refine ⟨fun k hk => ?_, ?_, ?_, ?_⟩
  · rw [hbr, hbit]
    exact h.reg k hk
  · rw [hbr, hsize]
    exact h.ptr
  · rw [hbr, hsize]
    exact h.rem
  · rw [hbr]
    exact h.used

/-- The bit of the current byte that a step of BR.INGEST takes (R82, R36). -/
theorem State.readerAt.currentByte {p k : Nat} (h : s.readerAt p) (hk : s.br.used.toNat + k < 8) :
    s.currentByte.toNat.testBit (7 - (s.br.used.toNat + k)) = s.streamBit (p + 32 + k) := by
  have hused := h.used
  have hbyte : (p + 32 + k) / 8 = (p + 32) / 8 := by omega
  have hmod : (p + 32 + k) % 8 = s.br.used.toNat + k := by omega
  have hptr := h.ptr
  have hrem := h.rem
  unfold State.currentByte State.streamBit
  rw [hbyte, hmod]
  by_cases hin : (p + 32) / 8 < s.inSize.toNat
  · have hpos : s.br.ptr.toNat = (p + 32) / 8 := by omega
    rw [if_pos hin, hpos, if_pos ⟨by omega, hin⟩]
  · rw [if_neg hin, if_neg (by omega)]
    exact Nat.zero_testBit _

/-- The shift register after a step of BR.INGEST (R82). -/
theorem State.absorb_reg (s : State) {k j : Nat} (hk : s.br.used.toNat + k ≤ 8) (hj : j < 32) :
    (s.absorb k).br.reg.getLsbD j =
      if j < k then s.currentByte.toNat.testBit (7 - (s.br.used.toNat + (k - 1 - j)))
      else s.br.reg.getLsbD (j - k) := by
  have hchunk : ((s.currentByte.toNat >>> (8 - s.br.used.toNat - k)) % 2 ^ k).testBit j =
      (decide (j < k) && s.currentByte.toNat.testBit (8 - s.br.used.toNat - k + j)) := by
    rw [Nat.testBit_mod_two_pow, Nat.testBit_shiftRight]
  simp only [State.absorb, State.setBr_br, BitVec.getLsbD_or, BitVec.getLsbD_shiftLeft, BitVec.getLsbD_ofNat, hchunk,
    hj, decide_true, Bool.true_and]
  by_cases h : j < k
  · rw [if_pos h, show 7 - (s.br.used.toNat + (k - 1 - j)) = 8 - s.br.used.toNat - k + j by omega]
    simp [h]
  · rw [if_neg h]
    simp [h]

/-- A step of BR.INGEST that does not cross the end of the byte (R82). -/
theorem State.readerAt.absorb {p k : Nat} (h : s.readerAt p) (hk : s.br.used.toNat + k ≤ 8) :
    (s.absorb k).readerAt (p + k) := by
  have hused := h.used
  have hptr := h.ptr
  have hrem := h.rem
  have hsize := s.inSize.isLt
  have hstream : (s.absorb k).streamBit = s.streamBit := rfl
  have hin : (s.absorb k).inSize = s.inSize := rfl
  have hcursor : (s.absorb k).br.ptr.toNat = min s.inSize.toNat ((p + k + 32) / 8) ∧
      (s.absorb k).br.rem.toNat = s.inSize.toNat - (s.absorb k).br.ptr.toNat := by
    simp only [State.absorb, State.setBr_br]
    by_cases hstep : s.br.used.toNat + k = 8 ∧ 0 < s.br.rem.toNat
    · rw [if_pos hstep, if_pos hstep]
      bv_omega
    · rw [if_neg hstep, if_neg hstep]
      omega
  refine ⟨fun i hi => ?_, ?_, ?_, ?_⟩
  · rw [State.absorb_reg s hk (by omega), hstream]
    split
    · rw [h.currentByte (by omega)]
      congr 1
      omega
    · rw [show 31 - i - k = 31 - (i + k) by omega, h.reg (i + k) (by omega)]
      congr 1
      omega
  · rw [hin]
    exact hcursor.1
  · rw [hin]
    exact hcursor.2
  · rw [State.absorb_used s k hk]
    split <;> omega

/-- BR.INGEST (R81, R82). -/
theorem State.readerAt.ingest {p : Nat} (h : s.readerAt p) (n : Nat) : (s.ingest n).readerAt (p + n) := by
  induction n using Nat.strongRecOn generalizing s p with
  | _ n ih =>
    have hu : s.br.used.toNat < 8 := s.br.used.isLt
    by_cases h0 : n = 0
    · subst h0
      exact h
    · have hmin : 0 < min n (8 - s.br.used.toNat) := by omega
      have hsplit : p + n = p + min n (8 - s.br.used.toNat) + (n - min n (8 - s.br.used.toNat)) := by omega
      rw [State.ingest_step s n h0, hsplit]
      exact ih _ (by omega) (h.absorb (by omega))

/-- BR.GET keeps the invariant and moves the reader on (R83, R84). -/
theorem State.readerOk.consume (h : s.readerOk) (n : Nat) : s.advanced (s.consume n) n := by
  refine ⟨s.consume_pos n, ?_⟩
  by_cases h0 : n = 0
  · subst h0
    exact h
  · obtain ⟨hreg, hptr, hrem, hused⟩ := (State.readerOk_iff.1 h).ingest n
    unfold State.consume
    rw [if_neg h0]
    exact ⟨hreg, hptr, hrem, hused⟩

/-- How far the reader has moved depends on the bit reader, IN and IN_SIZE alone. -/
theorem State.advanced.of_same {k : Nat} (h : s.advanced u k) (hbr : t.br = u.br) (hsize : t.inSize = u.inSize)
    (hinp : t.inp = u.inp) : s.advanced t k :=
  ⟨by rw [hbr]; exact h.1, h.2.of_same hbr hsize hinp⟩

end Sys2Proof.Machine
end

section
/-! The stream elements at their places (30_encoding.md R50 to R62): what each description element leaves, in the words
of the statements (O42 to O47). -/

namespace Sys2Proof.Machine

open Sys2Proof.Laws

variable {s t u : State} {T : TableId}

/-! ## Each element at its place -/

theorem exec_subhdr_at (hs : s.site = .subhdr) (c : BitVec 16) :
    exec (.subhdr c) s = (subhdrElement c (s.consume 16)).outcome := if_pos hs

theorem exec_count_at {i : Instr} {n : Nat} (hi : countField i = some (T, n)) (hs : s.site = .count T) :
    exec i s = (countElement T n (s.consume T.countBits)).outcome := by
  cases i with
  | count5 n | count9 n | count4 n =>
    cases hi
    exact if_pos hs
  | _ => cases hi

theorem exec_degen_at {i : Instr} {x : Nat} (hi : degenField i = some (T, x)) (hs : s.site = .degen T) :
    exec i s = (degenElement T x (s.consume T.countBits)).outcome := by
  cases i with
  | degen5 x | degen9 x | degen4 x =>
    cases hi
    exact if_pos hs
  | _ => cases hi

theorem onHlen_at {v : Scan} (hs : s.site = .hlen T v) (k : Nat) (e : TableId → Scan → State → Res Unit) :
    onHlen k e s = (e T v (s.consume k)).outcome := by
  simp only [onHlen, hs]

theorem exec_hlenIllegal_at {v : Scan} (hs : s.site = .hlen T v) :
    exec .hlenIllegal s = .next ((s.consume 13).raise .badLength) := onHlen_at hs 13 _

theorem hlenBits_length_direct {l : Nat} (h : l < 7) : (hlenBits l).length = 3 := by
  rw [hlenBits, if_pos h, bitsOf_length]

/-- An `HLEN` that encodes a length (R55, R56). -/
theorem exec_hlen_at {i : Instr} {l : Nat} {v : Scan} (hwf : i.wf = true) (hi : hlenField i = some l)
    (hs : s.site = .hlen T v) : exec i s = (hlenElement l T v (s.consume (hlenBits l).length)).outcome := by
  cases i with
  | hlenDirect l =>
    cases hi
    have h7 : l.toNat ≠ 7 := fun h => bne_iff_ne.1 hwf (BitVec.eq_of_toNat_eq h)
    rw [hlenBits_length_direct (by omega)]
    exact onHlen_at hs 3 _
  | hlenEsc7 | hlenEsc8 | hlenEsc9 | hlenEsc10 | hlenEsc11 | hlenEsc12 | hlenEsc13 | hlenEsc14 | hlenEsc15
  | hlenEsc16 =>
    cases hi
    exact onHlen_at hs _ _
  | _ => cases hi

theorem hlenField_le {i : Instr} {l : Nat} (hi : hlenField i = some l) : l ≤ 16 := by
  cases i with
  | hlenDirect l =>
    cases hi
    omega
  | hlenEsc7 | hlenEsc8 | hlenEsc9 | hlenEsc10 | hlenEsc11 | hlenEsc12 | hlenEsc13 | hlenEsc14 | hlenEsc15
  | hlenEsc16 =>
    cases hi
    decide
  | _ => cases hi

theorem exec_hskip_at {v : Scan} (hs : s.site = .hskip T v) (k : BitVec 2) :
    exec (.hskip k) s = (hskipElement k.toNat T v (s.consume 2)).outcome := by
  show execHskip k s = _
  simp only [execHskip, hs]

/-- The width of a code word is the number of its bits (R68). -/
theorem State.codeWidth_eq (s : State) (T : TableId) (x : Nat) : s.codeWidth T x = (codeBits (s.tab T) x).length := by
  unfold State.codeWidth codeBits
  split
  · rfl
  · rw [bitsOf_length]

/-- The effect of a `CL` entry (R59 to R62, R96 to R99). -/
def clEffect (v : Scan) : Instr → State → Res Scan
  | .clZero => clZeroEntry .tLit v
  | .clZrun4 x => clRunEntry Config.codCountMode .tLit v (zeroRun4 x.toNat)
  | .clZrun9 x => clRunEntry Config.codCountMode .tLit v (zeroRun9 x.toNat)
  | .clLen x => clLenEntry .tLit v x.toNat
  | _ => .ok v

theorem onCl_at {v : Scan} (hs : s.site = .cl v) (x k : Nat) (e : Scan → State → Res Scan) :
    onCl x k e s = (clElement (e v) (s.consume (s.codeWidth .tLen x + k))).outcome := by
  simp only [onCl, hs, State.consume_consume]

/-- A code word and the field after it (R60, R61, R65). -/
theorem State.length_word_field (s : State) (T : TableId) (x m d : Nat) :
    (codeBits (s.tab T) x ++ bitsOf m d).length = s.codeWidth T x + m := by
  rw [List.length_append, bitsOf_length, s.codeWidth_eq]

theorem exec_cl_at {i : Instr} {v : Scan} (hi : isCl i = true) (hs : s.site = .cl v) :
    exec i s = (clElement (clEffect v i) (s.consume (elementBits s.tabs i).length)).outcome := by
  cases i with
  | clZero =>
    have hlen : (elementBits s.tabs .clZero).length = s.codeWidth .tLen 0 := (s.codeWidth_eq .tLen 0).symm
    rw [hlen]
    exact onCl_at hs 0 0 _
  | clZrun4 x =>
    have hlen : (elementBits s.tabs (.clZrun4 x)).length = s.codeWidth .tLen 1 + 4 :=
      s.length_word_field .tLen 1 4 x.toNat
    rw [hlen]
    exact onCl_at hs 1 4 _
  | clZrun9 x =>
    have hlen : (elementBits s.tabs (.clZrun9 x)).length = s.codeWidth .tLen 2 + 9 :=
      s.length_word_field .tLen 2 9 x.toNat
    rw [hlen]
    exact onCl_at hs 2 9 _
  | clLen x =>
    have hlen : (elementBits s.tabs (.clLen x)).length = s.codeWidth .tLen x.toNat := (s.codeWidth_eq .tLen _).symm
    rw [hlen]
    exact onCl_at hs x.toNat 0 _
  | _ => cases hi

theorem skipIndices_overflow {i k : Nat} (h : T.size < i + k) (u : State) :
    skipIndices T i k u = raiseIn .tableOverflow u := if_pos h

theorem skipIndices_fits {i k : Nat} (h : i + k ≤ T.size) (u : State) : skipIndices T i k u = .ok (i + k) u :=
  if_neg (Nat.not_lt_of_le h)

/-- An entry that passes the alphabet stores nothing (R163). -/
theorem clEffect_overflow {i : Instr} {v : Scan} (hi : isCl i = true) (h : 510 < v.i + (clLens i).length) (u : State) :
    clEffect v i u = raiseIn .tableOverflow u := by
  have hrun {k : Nat} (hk : 510 < v.i + (List.replicate k 0).length) :
      clRunEntry Config.codCountMode .tLit v k u = raiseIn .tableOverflow u := by
    rw [List.length_replicate] at hk
    rw [clRunEntry, skipIndices_overflow hk]
    rfl
  cases i with
  | clZero | clLen => exact if_pos (Nat.le_of_lt_succ h)
  | clZrun4 | clZrun9 => exact hrun h
  | _ => cases hi

/-- What a `CL` entry stores (R62, R99): `CL.LEN` alone stores a length. -/
def clStored (v : Scan) : Instr → State → State
  | .clLen x, s => storeLen .tLit v.i (x.toNat - 2) s
  | _, s => s

/-- An entry within the alphabet covers its symbols (R96 to R99). -/
theorem clEffect_fits {i : Instr} {v : Scan} (hi : isCl i = true) (h : v.i + (clLens i).length ≤ 510) (u : State) :
    clEffect v i u = .ok ⟨v.n, v.i + (clLens i).length, v.r + (clCounts i).toNat⟩ (clStored v i u) := by
  have hrun {k : Nat} (hk : v.i + (List.replicate k 0).length ≤ 510) :
      clRunEntry Config.codCountMode .tLit v k u = .ok ⟨v.n, v.i + (List.replicate k 0).length, v.r⟩ u := by
    rw [List.length_replicate] at hk ⊢
    rw [clRunEntry, skipIndices_fits hk]
    rfl
  cases i with
  | clZero | clLen => exact if_neg (Nat.not_le_of_lt h)
  | clZrun4 | clZrun9 => exact hrun h
  | _ => cases hi

/-! ## A description read so far -/

theorem State.readerOk.exists_consume (h : s.readerOk) (n : Nat) :
    ∃ b, s.consume n = s.setBr b ∧ s.advanced (s.setBr b) n := by
  obtain ⟨b, hb⟩ := s.consume_readsOnly n
  exact ⟨b, hb, hb ▸ h.consume n⟩

/-- From `s` to `u` the reader has moved on `k` bits, and the table `T` has got the lengths `lens`; nothing else has
changed. -/
structure State.readTo (s u : State) (T : TableId) (lens : Nat → Nat) (k : Nat) : Prop where
  builds : s.buildsOnly u
  advanced : s.advanced u k
  others : s.othersKept u T
  lenAt : ∀ a, (u.tab T).lenAt a = lens a
  sv : (u.tab T).sv = (s.tab T).sv
  ss : (u.tab T).ss = (s.tab T).ss
  used : (u.tab T).used = (s.tab T).used
  code : (u.tab T).code = (s.tab T).code

/-- The bits of an element have been read. -/
theorem State.readerOk.readTo (h : s.readerOk) (T : TableId) (n : Nat) :
    s.readTo (s.consume n) T (s.tab T).lenAt n where
  builds := s.consume_buildsOnly n
  advanced := h.consume n
  others x _ := s.tab_consume n x
  lenAt a := by rw [s.tab_consume]
  sv := by rw [s.tab_consume]
  ss := by rw [s.tab_consume]
  used := by rw [s.tab_consume]
  code := by rw [s.tab_consume]

variable {lens : Nat → Nat} {k : Nat}

theorem State.tab_storeLen (u : State) (T : TableId) (i l : Nat) : (storeLen T i l u).tab T = (u.tab T).setLen i l :=
  u.tab_setTab_same T _

/-- A length is stored (R95, R99). -/
theorem State.readTo.store (h : s.readTo u T lens k) {i l : Nat} (hi : i < T.size) (hl : l ≤ 16) :
    s.readTo (storeLen T i l u) T (fun a => if a = i then l else lens a) k where
  builds := h.builds.trans (u.setTab_buildsOnly T _)
  advanced := h.advanced.of_same rfl rfl rfl
  others := h.others.setTab _
  lenAt a := by rw [u.tab_storeLen, Table.lenAt_setLen _ hi (by omega), h.lenAt]
  sv := by rw [u.tab_storeLen]; exact h.sv
  ss := by rw [u.tab_storeLen]; exact h.ss
  used := by rw [u.tab_storeLen]; exact h.used
  code := by rw [u.tab_storeLen]; exact h.code

theorem State.readTo.lenStored {i l : Nat} (h : s.readTo u T (fun a => if a = i then l else (s.tab T).lenAt a) k) :
    s.lenStored u T i l := ⟨h.lenAt, h.sv, h.ss, h.used, h.code⟩

/-- What differs in registers and tables alone, written out. -/
theorem State.buildsOnly.eq (h : s.buildsOnly u) : u = { s with br := u.br, tabs := u.tabs } := by
  obtain ⟨b, x, rfl⟩ := h
  rfl

/-- The parser moves on to a place inside the description. -/
theorem State.buildsOnly.setSite_eq (h : s.buildsOnly u) (p : Site) :
    u.setSite p = { s with br := (u.setSite p).br, tabs := (u.setSite p).tabs, site := p } := by
  obtain ⟨b, x, rfl⟩ := h
  rfl

/-! ## The end of a description -/

theorem afterTable_br (T : TableId) (u : State) : (afterTable T u).br = u.br := by cases T <;> rfl
theorem afterTable_inSize (T : TableId) (u : State) : (afterTable T u).inSize = u.inSize := by cases T <;> rfl
theorem afterTable_inp (T : TableId) (u : State) : (afterTable T u).inp = u.inp := by cases T <;> rfl
theorem afterTable_tab (T : TableId) (u : State) : (afterTable T u).tab T = u.tab T := by cases T <;> rfl

theorem State.advanced.afterTable (h : s.advanced u k) (T : TableId) : s.advanced (afterTable T u) k :=
  h.of_same (afterTable_br T u) (afterTable_inSize T u) (afterTable_inp T u)

/-- What follows a description is due (R51, R111). -/
theorem afterTable_movedOn (h : s.buildsOnly u) (ho : s.othersKept u T) : s.movedOn (afterTable T u) T := by
  have hrem : u.remaining = s.remaining := by
    obtain ⟨b, x, rfl⟩ := h
    rfl
  cases T with
  | tLen =>
    refine ⟨?_, ho .tOff nofun, rfl, hrem⟩
    rw [← ho .tLit nofun]
    rfl
  | tLit =>
    refine ⟨ho .tLen nofun, ?_, rfl, hrem⟩
    rw [← ho .tOff nofun]
    rfl
  | tOff => exact ⟨ho .tLen nofun, ho .tLit nofun, rfl, congrArg (· - 1) hrem⟩

theorem afterTable_eq (h : s.buildsOnly u) (T : TableId) : afterTable T u =
    { s with
      br := (afterTable T u).br, tabs := (afterTable T u).tabs, remaining := (afterTable T u).remaining
      site := (afterTable T u).site } := by
  obtain ⟨b, x, rfl⟩ := h
  cases T <;> rfl

theorem Table.lens_eq {n cb : Nat} {x : Table n cb} (h : ∀ a, x.lenAt a = lens a) :
    x.lens = (List.range n).map lens := List.map_congr_left fun a _ => h a

/-- A description whose lengths take at most the whole code space ends in the canonical code, and what follows it is due
(R95, R101, R102). -/
theorem closeTable_room (h : s.readTo u T lens k) (hlens : ∀ a, lens a ≤ 16)
    (hroom : kraft ((List.range T.size).map lens) ≤ 2 ^ 16) :
    ∃ t, (closeTable T u).outcome = .next t ∧ s.advanced t k ∧ s.assignedFrom t T lens ∧ s.movedOn t T ∧
      t = { s with br := t.br, tabs := t.tabs, remaining := t.remaining, site := t.site } := by
  have hok : (u.tab T).lensOk := fun a => (h.lenAt a).le.trans (hlens a)
  rw [← Table.lens_eq h.lenAt] at hroom
  have hw : s.buildsOnly (u.setTab T (u.tab T).withCodes) := h.builds.trans (u.setTab_buildsOnly T _)
  refine ⟨afterTable T (u.setTab T (u.tab T).withCodes), ?_, ?_, ?_, afterTable_movedOn hw (h.others.setTab _),
    afterTable_eq hw T⟩
  · simp only [closeTable, assignCodes]
    rw [if_pos ((Table.assigned_ok_iff hok).2 hroom)]
    rfl
  · have hadv : s.advanced (u.setTab T (u.tab T).withCodes) k := h.advanced.of_same rfl rfl rfl
    exact hadv.afterTable T
  · unfold State.assignedFrom
    rw [afterTable_tab, State.tab_setTab_same]
    exact ⟨h.lenAt, Table.withCodes_canonical hok hroom, h.sv, h.ss, h.used⟩

/-- A description whose lengths take more than the code space ends in E_OVERSUBSCRIBED, its lengths stored (R166). -/
theorem closeTable_excess (h : s.readTo u T lens k) (hlens : ∀ a, lens a ≤ 16)
    (hexcess : 2 ^ 16 < kraft ((List.range T.size).map lens)) :
    ∃ w, (closeTable T u).outcome = .next (w.raise .oversubscribed) ∧ s.advanced w k ∧
      (w.tab T).len = (u.tab T).len ∧ s.othersKept w T ∧ w = { s with br := w.br, tabs := w.tabs } := by
  have hok : (u.tab T).lensOk := fun a => (h.lenAt a).le.trans (hlens a)
  rw [← Table.lens_eq h.lenAt] at hexcess
  have hw : s.buildsOnly (u.setTab T (u.tab T).withCodes) := h.builds.trans (u.setTab_buildsOnly T _)
  refine ⟨u.setTab T (u.tab T).withCodes, ?_, h.advanced.of_same rfl rfl rfl, ?_, h.others.setTab _, hw.eq⟩
  · simp only [closeTable, assignCodes]
    rw [if_neg fun h => Nat.not_le_of_lt hexcess ((Table.assigned_ok_iff hok).1 h)]
    rfl
  · rw [State.tab_setTab_same]
    rfl

/-! ## The loop tests -/

theorem hybMore_iff (v : Scan) : hybMore Config.hybCountMode v = true ↔ v.r < v.n := decide_eq_true_iff

theorem codMore_iff (v : Scan) : codMore Config.codCountMode v = true ↔ v.r < v.n := decide_eq_true_iff

theorem nextHybrid_more {v : Scan} (hr : v.r < v.n) (hi : v.i < T.size) (u : State) :
    nextHybrid T v u = .ok () (u.setSite (.hlen T v)) := by
  rw [nextHybrid, if_pos ((hybMore_iff v).2 hr), if_neg (Nat.not_le_of_lt hi)]

theorem nextHybrid_overflow {v : Scan} (hr : v.r < v.n) (hi : T.size ≤ v.i) (u : State) :
    nextHybrid T v u = raiseIn .tableOverflow u := by
  rw [nextHybrid, if_pos ((hybMore_iff v).2 hr), if_pos hi]

theorem nextHybrid_close {v : Scan} (hr : v.n ≤ v.r) (u : State) : nextHybrid T v u = closeTable T u :=
  if_neg fun h => Nat.not_lt_of_le hr ((hybMore_iff v).1 h)

theorem nextCoded_more {v : Scan} (hr : v.r < v.n) (u : State) : nextCoded v u = .ok () (u.setSite (.cl v)) :=
  if_pos ((codMore_iff v).2 hr)

theorem nextCoded_close {v : Scan} (hr : v.n ≤ v.r) (u : State) : nextCoded v u = closeTable .tLit u :=
  if_neg fun h => Nat.not_lt_of_le hr ((codMore_iff v).1 h)

/-- The run-skip is due at index 3 of `T_LEN` (R95, R111). -/
theorem skipDue_iff (v : Scan) : skipDue T.skip v = true ↔ T = .tLen ∧ v.i = 3 := by
  cases T with
  | tLen => simp [skipDue, TableId.skip, Config.skipLen, eq_comm]
  | tLit => simp [skipDue, TableId.skip]
  | tOff => simp [skipDue, TableId.skip]

theorem hlenElement_skip {v : Scan} (h : T = .tLen ∧ v.i + 1 = 3) (l : Nat) (u : State) :
    hlenElement l T v u = .ok () ((storeLen T v.i l u).setSite (.hskip T (scanEntry v))) :=
  if_pos ((skipDue_iff (scanEntry v)).2 h)

theorem hlenElement_next {v : Scan} (h : ¬(T = .tLen ∧ v.i + 1 = 3)) (l : Nat) (u : State) :
    hlenElement l T v u = nextHybrid T (scanEntry v) (storeLen T v.i l u) :=
  if_neg fun hd => h ((skipDue_iff (scanEntry v)).1 hd)

/-! ## O42 to O44: SUBHDR, COUNT, DEGEN -/

/-- Settles O42: the 16 bits are read, and then `subhdrElement` raises at once or clears `T_LEN`. -/
theorem elementSubhdr : Obligations.ElementSubhdr := by
  unfold Obligations.ElementSubhdr
  intro s c hr hs
  obtain ⟨b, hb, hadv⟩ := hr.exists_consume 16
  rw [exec_subhdr_at hs, hb]
  unfold subhdrElement
  refine ⟨fun hc => ⟨enterTable .tLen ((s.setBr b).setRemaining c), ?_, hadv.of_same rfl rfl rfl, rfl, ?_, rfl⟩,
    fun hc => ⟨s.setBr b, ?_, hadv, rfl⟩⟩
  · rw [if_neg hc]
    rfl
  · exact fun T hT => State.tab_setTab_other ((s.setBr b).setRemaining c) .tLen T _ hT
  · rw [if_pos hc]
    rfl

/-- The first length after a count that is not 0 is due (R51): every alphabet has symbols. -/
theorem firstEntry_eq {n : Nat} (hn : n ≠ 0) (T : TableId) (u : State) :
    firstEntry T n u = .ok () (u.setSite (if T = .tLit then .cl ⟨n, 0, 0⟩ else .hlen T ⟨n, 0, 0⟩)) := by
  unfold firstEntry
  split
  · exact nextCoded_more (Nat.pos_of_ne_zero hn) u
  · have hsize : 0 < T.size := by cases T <;> decide
    exact nextHybrid_more (Nat.pos_of_ne_zero hn) hsize u

/-- Settles O43: the count is read and recorded, and `firstEntry` puts the parser at the first length. -/
theorem elementCount : Obligations.ElementCount := by
  unfold Obligations.ElementCount
  intro s i T n hr hi hs
  obtain ⟨b, hb, hadv⟩ := hr.exists_consume T.countBits
  rw [exec_count_at hi hs, hb]
  unfold countElement recordCount
  refine ⟨fun hn => ⟨((s.setBr b).setTab T ((s.tab T).setUsed n)).setSite _, ?_, hadv.of_same rfl rfl rfl, ?_, ?_, rfl,
    rfl⟩, fun hn => ⟨(s.setBr b).setSite (.degen T), ?_, hadv.of_same rfl rfl rfl, rfl⟩⟩
  · rw [if_neg hn, if_neg hn, firstEntry_eq hn]
    rfl
  · exact State.tab_setTab_same (s.setBr b) T _
  · exact fun U hU => State.tab_setTab_other (s.setBr b) T U _ hU
  · rw [if_pos hn, if_pos hn]
    rfl

/-- Settles O44: the symbol is read, and `recordShortcut` raises at once or makes the table degenerate. -/
theorem elementDegen : Obligations.ElementDegen := by
  unfold Obligations.ElementDegen
  intro s i T x hr hi hs
  obtain ⟨b, hb, hadv⟩ := hr.exists_consume T.countBits
  rw [exec_degen_at hi hs, hb]
  unfold degenElement recordShortcut
  have hbuilds : s.buildsOnly ((s.setBr b).setTab T ((s.tab T).setShortcut x)) := ⟨b, _, rfl⟩
  refine ⟨fun hx => ⟨afterTable T ((s.setBr b).setTab T ((s.tab T).setShortcut x)), ?_, ?_, ?_,
    afterTable_movedOn hbuilds fun U hU => State.tab_setTab_other (s.setBr b) T U _ hU, afterTable_eq hbuilds T⟩,
    fun hx => ⟨s.setBr b, ?_, hadv, rfl⟩⟩
  · rw [if_neg (Nat.not_le_of_lt hx)]
    rfl
  · have hset : s.advanced ((s.setBr b).setTab T ((s.tab T).setShortcut x)) T.countBits := hadv.of_same rfl rfl rfl
    exact hset.afterTable T
  · rw [afterTable_tab]
    exact State.tab_setTab_same (s.setBr b) T _
  · rw [if_pos hx]
    rfl

/-! ## O45 to O47: the lengths -/

/-- Settles O45: the length is stored; what is due next is decided by the skip position, the loop test, the range check
and, at the end of the description, by the code space. -/
theorem elementHlen : Obligations.ElementHlen := by
  unfold Obligations.ElementHlen
  intro s T v hr hs
  refine ⟨⟨s.consume 13, exec_hlenIllegal_at hs, hr.consume 13, (s.consume_readsOnly 13).eq⟩, ?_⟩
  intro i l hwf hi hv
  have hl := hlenField_le hi
  have hstored := (hr.readTo T (hlenBits l).length).store hv hl
  have hadv {p : Site} : s.advanced ((storeLen T v.i l (s.consume (hlenBits l).length)).setSite p) _ :=
    hstored.advanced.of_same rfl rfl rfl
  rw [exec_hlen_at hwf hi hs]
  refine ⟨fun hskip => ?skip, fun hno hmore hin => ?more, fun hno hmore hout => ?overflow,
    fun hno hdone hlens => ?close⟩
  case skip =>
    rw [hlenElement_skip hskip]
    exact ⟨_, rfl, hadv, hstored.lenStored, hstored.others, hstored.builds.setSite_eq _⟩
  case more =>
    rw [hlenElement_next hno, nextHybrid_more hmore hin]
    exact ⟨_, rfl, hadv, hstored.lenStored, hstored.others, hstored.builds.setSite_eq _⟩
  case overflow =>
    rw [hlenElement_next hno, nextHybrid_overflow hmore hout]
    exact ⟨_, rfl, hstored.advanced, hstored.lenStored, hstored.others, hstored.builds.eq⟩
  case close =>
    rw [hlenElement_next hno, nextHybrid_close hdone]
    have hle : ∀ a, (if a = v.i then l else (s.tab T).lenAt a) ≤ 16 := by
      intro a
      split
      · exact hl
      · exact hlens a
    refine ⟨closeTable_room hstored hle, fun hexcess => ?_⟩
    obtain ⟨w, hw, hadv, -, hothers, heq⟩ := closeTable_excess hstored hle hexcess
    exact ⟨w, hw, hadv, hothers, heq⟩

/-- A run-skip within the alphabet, and the loop test after it (R94, R95). -/
theorem hskipElement_fits {k : Nat} {v : Scan} (h : v.i + k ≤ T.size) (u : State) :
    hskipElement k T v u = nextHybrid T ⟨v.n, v.i + k, v.r⟩ u := by
  rw [hskipElement, skipIndices_fits h]
  rfl

/-- Settles O46: the index moves, or passes the alphabet; then the loop test, as after an HLEN. -/
theorem elementHskip : Obligations.ElementHskip := by
  unfold Obligations.ElementHskip
  intro s k T v hr hs
  have hread := hr.readTo T 2
  rw [exec_hskip_at hs]
  refine ⟨fun hin hmore => ?more, fun hin hdone hlens hroom => ?room, fun hin hdone hlens hexcess => ?excess,
    fun hover => ?overflow⟩
  case more =>
    rw [hskipElement_fits (Nat.le_of_lt hin), nextHybrid_more (v := ⟨v.n, v.i + k.toNat, v.r⟩) hmore hin]
    obtain ⟨b, hb, hadv⟩ := hr.exists_consume 2
    rw [hb]
    exact ⟨_, rfl, hadv.of_same rfl rfl rfl, rfl⟩
  case room =>
    rw [hskipElement_fits hin, nextHybrid_close (v := ⟨v.n, v.i + k.toNat, v.r⟩) hdone]
    exact closeTable_room hread hlens hroom
  case excess =>
    rw [hskipElement_fits hin, nextHybrid_close (v := ⟨v.n, v.i + k.toNat, v.r⟩) hdone]
    obtain ⟨w, hw, hadv, hlen, hothers, heq⟩ := closeTable_excess hread hlens hexcess
    exact ⟨w, hw, hadv, by rw [hlen, s.tab_consume], hothers, heq⟩
  case overflow =>
    refine ⟨s.consume 2, ?_, hr.consume 2, (s.consume_readsOnly 2).eq⟩
    rcases hover with hpast | ⟨hend, hmore⟩
    · rw [hskipElement, skipIndices_overflow hpast]
      rfl
    · rw [hskipElement_fits hend.le, nextHybrid_overflow (v := ⟨v.n, v.i + k.toNat, v.r⟩) hmore hend.ge]
      rfl

/-- The lengths of `T_LIT` after a `CL` entry at the index `v.i` (R62, R99). -/
def State.clLengths (s : State) (v : Scan) : Instr → Nat → Nat
  | .clLen x, a => if a = v.i then x.toNat - 2 else (s.tab .tLit).lenAt a
  | _, a => (s.tab .tLit).lenAt a

theorem clLen_range {x : BitVec 5} (hwf : (Instr.clLen x).wf = true) : 3 ≤ x.toNat ∧ x.toNat ≤ 18 :=
  of_decide_eq_true hwf

theorem clStored_readTo {i : Instr} {v : Scan} (hr : s.readerOk) (hwf : i.wf = true)
    (hv : v.i + (clLens i).length ≤ 510) (k : Nat) :
    s.readTo (clStored v i (s.consume k)) .tLit (s.clLengths v i) k := by
  cases i with
  | clLen x =>
    have hx := clLen_range hwf
    exact (hr.readTo .tLit k).store hv (by omega)
  | _ => exact hr.readTo .tLit k

/-- They are at most 16 (R62, R108). -/
theorem State.clLengths_le {i : Instr} (v : Scan) (hwf : i.wf = true) (hok : (s.tab .tLit).lensOk) (a : Nat) :
    s.clLengths v i a ≤ 16 := by
  cases i with
  | clLen x =>
    have hx := clLen_range hwf
    simp only [State.clLengths]
    split
    · omega
    · exact hok a
  | _ => exact hok a

/-- Settles O47: the entry passes the alphabet, or it covers its symbols and the loop test follows. -/
theorem elementCl : Obligations.ElementCl := by
  unfold Obligations.ElementCl
  intro s i v hr hs hwf hi
  rw [exec_cl_at hi hs]
  generalize hk : (elementBits s.tabs i).length = k
  have hfits (h : v.i + (clLens i).length ≤ 510) : clElement (clEffect v i) (s.consume k) =
      nextCoded ⟨v.n, v.i + (clLens i).length, v.r + (clCounts i).toNat⟩ (clStored v i (s.consume k)) := by
    rw [clElement, clEffect_fits hi h]
    rfl
  refine ⟨fun hin hmore => ?more, fun hin hdone hok lens hlens => ?close, fun hover => ?overflow⟩
  case more =>
    rw [hfits hin, nextCoded_more (v := ⟨v.n, v.i + (clLens i).length, v.r + (clCounts i).toNat⟩) hmore]
    have hread := clStored_readTo hr hwf hin k
    refine ⟨_, rfl, hread.advanced.of_same rfl rfl rfl, ?_, ?_, hread.others, hread.builds.setSite_eq _⟩
    · rintro x rfl
      exact hread.lenStored
    · intro hne
      have hnone : clStored v i (s.consume k) = s.consume k := by
        cases i with
        | clLen x => exact absurd rfl (hne x)
        | _ => rfl
      rw [State.tab_setSite, hnone, s.tab_consume]
  case close =>
    rw [hfits hin, nextCoded_close (v := ⟨v.n, v.i + (clLens i).length, v.r + (clCounts i).toNat⟩) hdone]
    obtain rfl : lens = s.clLengths v i := by
      funext a
      rw [hlens]
      cases i with
      | _ => rfl
    have hread := clStored_readTo hr hwf hin k
    have hle := State.clLengths_le v hwf hok
    refine ⟨closeTable_room (T := .tLit) hread hle, fun hexcess => ?_⟩
    obtain ⟨w, hw, hadv, hlen, hothers, heq⟩ := closeTable_excess hread hle hexcess
    refine ⟨w, hw, hadv, fun a => ?_, hothers, heq⟩
    rw [← hread.lenAt a, Table.lenAt, hlen]
    rfl
  case overflow =>
    rw [clElement, clEffect_overflow hi hover]
    exact ⟨s.consume k, rfl, hr.consume k, (s.consume_readsOnly k).eq⟩

end Sys2Proof.Machine
end

section
/-! The elements that complete a unit (30_encoding.md R63 to R65, R70; O48, O49), and the bytes a copy moves
(43_lz77_copy.md R131, R132). -/

namespace Sys2Proof.Machine

open Sys2Proof.Laws

variable {s t u : State}

/-! ## The bytes a copy moves -/

/-- A copy of no byte. -/
theorem State.copied_zero (s : State) (d : Nat) : s.copied s 0 d where
  produced := rfl
  outStored _ hi := absurd hi (Nat.not_lt_zero _)
  outKept _ _ := rfl
  winStored _ hi := absurd hi (Nat.not_lt_zero _)
  winKept _ _ := rfl

/-- The source of the rest of a copy, seen before its first byte is pushed (R131, R132): `d` bytes on, the bytes
repeat. -/
theorem State.readOut_pushByte_source (hw : Mem.wf .out s.out = true) {d : Nat} (hd : 1 ≤ d)
    (hle : d ≤ s.produced.toNat) {b : Byte} (hb : s.readOut (s.produced.toNat - d) = some b) (i : Nat) :
    (s.pushByte b).readOut (s.produced.toNat + 1 - d + i % d) = s.readOut (s.produced.toNat - d + (i + 1) % d) := by
  have hlt : i % d < d := Nat.mod_lt i hd
  have hmod : (i + 1) % d = (i % d + 1) % d := (Nat.mod_add_mod ..).symm
  rw [State.readOut_pushByte hw, hmod]
  generalize i % d = r at hlt ⊢
  by_cases hlast : r + 1 = d
  · rw [if_pos (by omega), hlast, Nat.mod_self, Nat.add_zero, hb]
  · rw [if_neg (by omega), Nat.mod_eq_of_lt (by omega)]
    congr 1
    omega

/-- A copy of at most 8192 bytes: the byte pushed, and then the rest. -/
theorem State.copied_succ (hout : Mem.wf .out s.out = true) (hwin : Mem.wf .win s.win = true) {n d : Nat}
    (hn : n + 1 ≤ 8192) (hd : 1 ≤ d) (hle : d ≤ s.produced.toNat) (hp : s.produced.toNat < s.outSize.toNat) {b : Byte}
    (hb : s.readOut (s.produced.toNat - d) = some b) (h : (s.pushByte b).copied t n d) : s.copied t (n + 1) d := by
  have hpush := State.pushByte_produced_toNat hp b
  have hsrc := State.readOut_pushByte_source hout hd hle hb
  have hfirst : s.readOut (s.produced.toNat - d + 0 % d) = some b := by rw [Nat.zero_mod, Nat.add_zero, hb]
  refine ⟨?_, fun i hi => ?_, fun a ha => ?_, fun i hi => ?_, fun a ha => ?_⟩
  · rw [h.produced, hpush]
    omega
  · cases i with
    | zero =>
      rw [hfirst, h.outKept _ (.inl (by omega)), State.readOut_pushByte hout]
      exact if_pos rfl
    | succ i =>
      have := h.outStored i (Nat.lt_of_succ_lt_succ hi)
      rwa [hpush, hsrc, show s.produced.toNat + 1 + i = s.produced.toNat + (i + 1) by omega] at this
  · rw [h.outKept a (by omega), State.readOut_pushByte hout, if_neg (by omega)]
  · cases i with
    | zero =>
      have hkeep : ∀ j, j < n → ((s.pushByte b).produced.toNat + j) % 8192 ≠ (s.produced.toNat + 0) % 8192 := by
        intro j hj
        omega
      rw [hfirst, h.winKept _ hkeep, State.readWin_pushByte hwin]
      exact if_pos rfl
    | succ i =>
      have := h.winStored i (Nat.lt_of_succ_lt_succ hi)
      rwa [hpush, hsrc, show s.produced.toNat + 1 + i = s.produced.toNat + (i + 1) by omega] at this
  · have hkeep : ∀ j, j < n → ((s.pushByte b).produced.toNat + j) % 8192 ≠ a := by
      intro j hj
      rw [hpush, show s.produced.toNat + 1 + j = s.produced.toNat + (j + 1) by omega]
      exact ha (j + 1) (Nat.succ_lt_succ hj)
    rw [h.winKept a hkeep, State.readWin_pushByte hwin]
    exact if_neg (ha 0 (Nat.succ_pos n))

/-- The byte moves of a copy that has passed its checks (R131, R132). -/
theorem copyLoop_copied {d : Nat} (hd : 1 ≤ d) (n : Nat) (s : State) (hn : n ≤ 8192) (hout : Mem.wf .out s.out = true)
    (hwin : Mem.wf .win s.win = true) (hwritten : s.writtenBelow) (hle : d ≤ s.produced.toNat)
    (hfit : s.produced.toNat + n ≤ s.outSize.toNat) :
    ∃ t, copyLoop d n s = .ok () t ∧ s.writesOnly t ∧ s.copied t n d := by
  induction n generalizing s with
  | zero => exact ⟨s, rfl, s.writesOnly_refl, s.copied_zero d⟩
  | succ n ih =>
    have hp : s.produced.toNat < s.outSize.toNat := by omega
    obtain ⟨b, hb⟩ := Option.ne_none_iff_exists'.1 (hwritten (s.produced.toNat - d) (by omega))
    have hpush := State.pushByte_produced_toNat hp b
    have hbelow : (s.pushByte b).writtenBelow := by
      intro a ha
      rw [State.readOut_pushByte hout]
      split
      · exact Option.some_ne_none b
      · exact hwritten a (by omega)
    obtain ⟨t, ht, hwrites, hcopied⟩ := ih (s.pushByte b) (by omega) (Mem.wf_write hout _ b) (Mem.wf_write hwin _ b)
      hbelow (by omega) (by rw [State.pushByte_outSize]; omega)
    refine ⟨t, ?_, (s.pushByte_writesOnly b).trans hwrites, State.copied_succ hout hwin hn hd hle hp hb hcopied⟩
    simp only [copyLoop, hb, emit, if_pos hp, Res.andThen_ok]
    exact ht

/-! ## The end of a unit -/

theorem State.nextPhase_eq_done (s : State) : s.nextPhase = .done ↔ s.produced = s.outSize := by
  unfold State.nextPhase
  split
  · exact iff_of_true rfl ‹_›
  · split
    · exact iff_of_false nofun ‹_›
    · exact iff_of_false nofun ‹_›

/-- The count of a unit and the state that follows it are recorded (R112, R120, R70). -/
theorem State.finishUnit_done (s : State) (n : Nat) : (s.finishUnit n).unitDone n :=
  ⟨rfl, rfl, if_congr s.nextPhase_eq_done rfl rfl⟩

/-! ## O48 -/

theorem exec_match_at (hs : s.site = .unit) (c : BitVec 9) :
    exec (.matchSym c) s = .next ((s.consume (s.codeWidth .tLit c.toNat)).setSite (.off c)) := if_pos hs

theorem exec_lit_at (hs : s.site = .unit) (c : Byte) :
    exec (.lit c) s = (litElement c (s.consume (s.codeWidth .tLit c.toNat))).outcome := if_pos hs

theorem State.length_match (s : State) (c : BitVec 9) :
    (elementBits s.tabs (.matchSym c)).length = s.codeWidth .tLit c.toNat := (s.codeWidth_eq .tLit _).symm

theorem State.length_lit (s : State) (c : Byte) :
    (elementBits s.tabs (.lit c)).length = s.codeWidth .tLit c.toNat := (s.codeWidth_eq .tLit _).symm

/-- A byte that fits OUT is appended (R130). -/
theorem State.pushByte_appended (hm : s.memoryOk) (b : Byte) : s.appended (s.pushByte b) b where
  produced := rfl
  out a := by
    rw [State.readOut_pushByte hm.2.1]
    exact if_congr eq_comm rfl rfl
  win a := by
    rw [State.readWin_pushByte hm.2.2]
    exact if_congr eq_comm rfl rfl

/-- Settles O48: PAD is nothing; MATCH reads its code word; LIT reads its own, and its byte is pushed. -/
theorem elementUnit : Obligations.ElementUnit := by
  unfold Obligations.ElementUnit
  intro s
  refine ⟨rfl, fun hr hs => ⟨fun c => ?offDue, fun c hm hp => ?literal⟩⟩
  case offDue =>
    rw [exec_match_at hs, s.length_match]
    obtain ⟨b, hb, hadv⟩ := hr.exists_consume (s.codeWidth .tLit c.toNat)
    rw [hb]
    exact ⟨_, rfl, hadv.of_same rfl rfl rfl, rfl⟩
  case literal =>
    rw [exec_lit_at hs, s.length_lit]
    obtain ⟨b, hb, hadv⟩ := hr.exists_consume (s.codeWidth .tLit c.toNat)
    rw [hb]
    obtain ⟨hprod, hout, hwin⟩ := State.pushByte_appended hm c
    refine ⟨((s.setBr b).pushByte c).finishUnit 1, ?_, hadv.of_same rfl rfl rfl, ⟨hprod, hout, hwin⟩,
      State.finishUnit_done _ 1, rfl⟩
    rw [litElement, literal, emit, if_pos (show (s.setBr b).produced.toNat < (s.setBr b).outSize.toNat from hp)]
    rfl

/-! ## O49 -/

theorem onOff_at {c : BitVec 9} (hs : s.site = .off c) (p d : Nat) :
    onOff p d s = (offElement c.toNat (distance p d) (s.consume (offBits s.tabs p d).length)).outcome := by
  have hlen : (offBits s.tabs p d).length = s.codeWidth .tOff p + extraBits p := s.length_word_field .tOff p (p - 1) d
  simp only [onOff, hs, State.consume_consume, hlen]

theorem exec_off_at {i : Instr} {c : BitVec 9} {p d : Nat} (hi : offField i = some (p, d)) (hs : s.site = .off c) :
    exec i s = (offElement c.toNat (distance p d) (s.consume (offBits s.tabs p d).length)).outcome := by
  cases i with
  | off0 | off1 | off2 | off3 | off4 | off5 | off6 | off7 | off8 | off9 | off10 | off11 | off12 | off13 =>
    cases hi
    exact onOff_at hs _ _
  | _ => cases hi

theorem copy_badDistance {n d : Nat} (h : s.produced.toNat < d) : copy n d s = raiseIn .badDistance s := if_pos h

theorem copy_overrun {n d : Nat} (hd : d ≤ s.produced.toNat) (h : s.outSize.toNat < s.produced.toNat + n) :
    copy n d s = raiseIn .outputOverrun s := by
  rw [copy, if_neg (Nat.not_lt_of_le hd), if_pos h]

theorem copy_fits {n d : Nat} (hd : d ≤ s.produced.toNat) (h : s.produced.toNat + n ≤ s.outSize.toNat) :
    copy n d s = copyLoop d n s := by
  rw [copy, if_neg (Nat.not_lt_of_le hd), if_neg (Nat.not_lt_of_le h)]

/-- Settles O49: the bits are read; the two checks of LZ.COPY raise at once, and past them `copyLoop_copied` says what
is written. -/
theorem elementOff : Obligations.ElementOff := by
  unfold Obligations.ElementOff
  intro s i c p d hr hs hc hi
  rw [exec_off_at hi hs]
  obtain ⟨b, hb, hadv⟩ := hr.exists_consume (offBits s.tabs p d).length
  rw [hb]
  have hdist := one_le_distance p d
  rw [offElement, show runLength c.toNat = c.toNat - 253 from rfl]
  refine ⟨fun hm hwritten hle hfit => ?copied, fun hlt => ?distance, fun hle hover => ?overrun⟩
  case copied =>
    obtain ⟨_, ht, ⟨o, w, q, rfl⟩, hprod, hout, hkept, hwin, hwinKept⟩ := copyLoop_copied hdist (c.toNat - 253)
      (s.setBr b) (by omega) hm.2.1 hm.2.2 hwritten hle hfit
    rw [copy_fits (s := s.setBr b) hle hfit, ht]
    exact ⟨_, rfl, hadv.of_same rfl rfl rfl, ⟨hprod, hout, hkept, hwin, hwinKept⟩, State.finishUnit_done _ _, rfl⟩
  case distance =>
    rw [copy_badDistance (s := s.setBr b) hlt]
    exact ⟨s.setBr b, rfl, hadv, rfl⟩
  case overrun =>
    rw [copy_overrun (s := s.setBr b) hle hover]
    exact ⟨s.setBr b, rfl, hadv, rfl⟩

end Sys2Proof.Machine
end

section
/-! Looking ahead and reading on (41_codetable.md R106): BR.GET of successive fields answers the fields of the
look-ahead register, so CT.DECODE and CT.HLEN answer what the decoder reads from it. -/

namespace Sys2Proof.Machine

variable {s : State}

/-! ## The register while bits are read -/

/-- BR.INGEST shifts the register (R82). -/
theorem State.ingest_reg (s : State) {n i : Nat} (hn : n ≤ i) (hi : i < 32) :
    (s.ingest n).br.reg.getLsbD i = s.br.reg.getLsbD (i - n) := by
  induction n using Nat.strongRecOn generalizing s with
  | _ n ih =>
    have hu : s.br.used.toNat < 8 := s.br.used.isLt
    by_cases h0 : n = 0
    · subst h0
      rfl
    · rw [State.ingest_step s n h0, ih _ (by omega) _ (by omega), State.absorb_reg s (by omega) (by omega),
        if_neg (by omega)]
      congr 1
      omega

theorem State.consume_reg (s : State) {n i : Nat} (hn : n ≤ i) (hi : i < 32) :
    (s.consume n).br.reg.getLsbD i = s.br.reg.getLsbD (i - n) := by
  unfold State.consume
  split
  · subst_vars
    rfl
  · exact s.ingest_reg hn hi

theorem testBit_topBits (w : Word) (n i : Nat) :
    (topBits w n).testBit i = w.getLsbD (32 - n + i) := by
  rw [topBits, Nat.testBit_div_two_pow, BitVec.getLsbD, Nat.add_comm]

/-- After `k` bits the register shows the field that stood behind them (R84). -/
theorem State.topBits_consume (s : State) {k n : Nat} (h : k + n ≤ 32) :
    topBits (s.consume k).br.reg n = fieldAt s.br.reg k n := by
  apply Nat.eq_of_testBit_eq
  intro i
  rw [fieldAt, Nat.testBit_mod_two_pow, testBit_topBits, testBit_topBits]
  by_cases hi : i < n
  · rw [s.consume_reg (by omega) (by omega), decide_eq_true hi, Bool.true_and]
    congr 1
    omega
  · rw [decide_eq_false hi, Bool.false_and]
    exact BitVec.getLsbD_of_ge _ _ (by omega)

theorem State.peek_eq (s : State) (n : Nat) : s.peek n = topBits s.br.reg n := by
  unfold State.peek
  split
  · subst_vars
    exact (topBits_zero _).symm
  · rfl

theorem State.peek_consume (s : State) {k n : Nat} (h : k + n ≤ 32) : (s.consume k).peek n = fieldAt s.br.reg k n := by
  rw [State.peek_eq, s.topBits_consume h]

/-! ## CT.DECODE -/

/-- A word found by looking ahead is as long as the table says, and among those tried. -/
theorem matchCode_eq_some {n cb : Nat} {t : Table n cb} {w : Word} {k l x m : Nat}
    (h : matchCode t w k l = some (x, m)) : x < n ∧ t.lenAt x = m ∧ m < l + k := by
  induction k generalizing l with
  | zero => cases h
  | succ k ih =>
    rw [matchCode] at h
    cases hl : t.lookup l (topBits w l) with
    | some y =>
      rw [hl] at h
      cases h
      obtain ⟨hx, hlen, -⟩ := Table.lookup_eq_some hl
      exact ⟨hx, hlen, by omega⟩
    | none =>
      rw [hl] at h
      obtain ⟨hx, hlen, hm⟩ := ih h
      exact ⟨hx, hlen, by omega⟩

/-- The bits of a code word tried one after the other are those tried at once (R100, R106). -/
theorem decodeLoop_eq (T : TableId) (s : State) (k j : Nat) (h : j + k ≤ 32) :
    decodeLoop T k (j + 1) (topBits s.br.reg j) (s.consume j) =
      match matchCode (s.tab T) s.br.reg k (j + 1) with
      | some (x, m) => .ok x (s.consume m)
      | none => .raised ((s.consume (j + k)).raise .decode) := by
  induction k generalizing j with
  | zero => rfl
  | succ k ih =>
    have hbit : 2 * topBits s.br.reg j + ((s.consume j).get 1).1 = topBits s.br.reg (j + 1) := by
      rw [State.get_fst, s.peek_consume (by omega), topBits_add _ (by omega), Nat.pow_one, Nat.mul_comm]
    rw [decodeLoop, matchCode, hbit, s.tab_consume, State.get_snd, s.consume_consume]
    cases (s.tab T).lookup (j + 1) (topBits s.br.reg (j + 1)) with
    | some x => rfl
    | none =>
      have := ih (j + 1) (by omega)
      rwa [show j + 1 + k = j + (k + 1) by omega] at this

/-- What looking ahead at a code word says (R68, R69): the width is the symbol's, at most 16 bits, and the symbol fits
the count field. -/
theorem codeWordAt_eq_some {T : TableId} {x k : Nat} (h : codeWordAt (s.tab T) s.br.reg = some (x, k)) :
    k = s.codeWidth T x ∧ k ≤ 16 ∧ x < 2 ^ T.countBits := by
  unfold codeWordAt at h
  unfold State.codeWidth
  split at h
  · rename_i hsv
    cases h
    exact ⟨(if_pos hsv).symm, Nat.zero_le _, (s.tab T).ss.isLt⟩
  · rename_i hsv
    obtain ⟨hx, hlen, hk⟩ := matchCode_eq_some h
    have hsize : T.size < 2 ^ T.countBits := by cases T <;> decide
    exact ⟨by rw [if_neg hsv, hlen], by simp only [Config.maxLen] at hk; omega, hx.trans hsize⟩

/-- CT.DECODE answers the symbol found by looking ahead, its word consumed (R100, R106). -/
theorem decodeSymbol_of_word {T : TableId} {x k : Nat} (h : codeWordAt (s.tab T) s.br.reg = some (x, k)) :
    decodeSymbol T s = .ok x (s.consume k) := by
  unfold codeWordAt at h
  unfold decodeSymbol
  split at h
  · rename_i hsv
    cases h
    exact if_pos hsv
  · rename_i hsv
    have hloop := decodeLoop_eq T s Config.maxLen 0 (by decide)
    rw [h, topBits_zero] at hloop
    rw [if_neg hsv]
    exact hloop

/-- Where looking ahead finds no word, CT.DECODE raises E_DECODE after 16 bits (R72, R161). -/
theorem decodeSymbol_of_none {T : TableId} (h : codeWordAt (s.tab T) s.br.reg = none) :
    decodeSymbol T s = .raised s.noCodeWord := by
  unfold codeWordAt at h
  unfold decodeSymbol
  split at h
  · cases h
  · rename_i hsv
    have hloop := decodeLoop_eq T s Config.maxLen 0 (by decide)
    rw [h, topBits_zero] at hloop
    rw [if_neg hsv]
    exact hloop

/-! ## CT.HLEN -/

/-- The unary tail (R93) is as long as the run of ones that looking ahead finds. -/
theorem readTail_eq (s : State) (r l j : Nat) (h : j + r ≤ 32) :
    readTail r l (s.consume j) =
      if onesAt s.br.reg r j < r then .ok (l + onesAt s.br.reg r j) (s.consume (j + onesAt s.br.reg r j + 1))
      else .raised ((s.consume (j + r)).raise .badLength) := by
  induction r generalizing l j with
  | zero => rfl
  | succ r ih =>
    rw [readTail, State.get_fst, State.get_snd, s.peek_consume (by omega), s.consume_consume, onesAt]
    by_cases hone : fieldAt s.br.reg j 1 = 1
    · rw [if_pos hone, if_pos hone, ih (l + 1) (j + 1) (by omega)]
      simp only [Nat.add_lt_add_iff_right]
      congr 2
      · omega
      · congr 1
        omega
      · congr 2
        omega
    · rw [if_neg hone, if_neg hone, if_pos (Nat.succ_pos r)]
      rfl

/-- A direct length (R55). -/
theorem readHlen_direct (h : topBits s.br.reg 3 ≠ 7) : readHlen s = .ok (topBits s.br.reg 3) (s.consume 3) := by
  rw [readHlen, State.get_fst, State.get_snd, s.peek_eq, if_neg h]

/-- An escape (R56, R72). -/
theorem readHlen_escape (h : topBits s.br.reg 3 = 7) :
    readHlen s = if onesAt s.br.reg 10 3 < 10
      then .ok (7 + onesAt s.br.reg 10 3) (s.consume (3 + onesAt s.br.reg 10 3 + 1))
      else .raised ((s.consume 13).raise .badLength) := by
  rw [readHlen, State.get_fst, State.get_snd, s.peek_eq, if_pos h, readTail_eq s 10 7 3 (by decide)]

end Sys2Proof.Machine
end

section
/-! One element at a time (30_encoding.md R50, R51; log 11): what the parser's step does at each place, as the operation
that the whole command calls there. The parser's place itself is of no concern to an element: it sets its own. -/

namespace Sys2Proof.Machine

open Sys2Proof.Laws

variable {s t u : State} {T : TableId}

/-! ## The parser's place is of no concern -/

theorem ingestLoop_setSite (f n : Nat) (u : State) (p : Site) :
    ingestLoop f n (u.setSite p) = (ingestLoop f n u).setSite p := by
  induction f generalizing n u with
  | zero => rfl
  | succ f ih =>
    simp only [ingestLoop, State.setSite_br]
    split
    · rfl
    · exact ih _ (u.absorb _)

theorem State.consume_setSite (u : State) (p : Site) (n : Nat) : (u.setSite p).consume n = (u.consume n).setSite p := by
  unfold State.consume State.ingest
  split
  · rfl
  · rw [ingestLoop_setSite]
    rfl

/-- The result of an operation with the parser put elsewhere; a raise ends the parse wherever it stood. -/
def Res.atSite {α : Type} (p : Site) : Res α → Res α
  | .ok a u => .ok a (u.setSite p)
  | .raised u => .raised u
  | .stop f => .stop f

/-- An operation after another, neither looking at the parser's place. -/
theorem Res.andThen_atSite {α β : Type} {p : Site} (r : Res α) {k : α → State → Res β}
    (hk : ∀ a u, k a (u.setSite p) = (k a u).atSite p) : (r.atSite p).andThen k = (r.andThen k).atSite p := by
  cases r with
  | ok a u => exact hk a u
  | raised _ => rfl
  | stop _ => rfl

/-- An operation that puts the parser somewhere itself, after one that does not look at its place. -/
theorem Res.andThen_of_atSite {α β : Type} {p : Site} (r : Res α) {k : α → State → Res β}
    (hk : ∀ a u, k a (u.setSite p) = k a u) : (r.atSite p).andThen k = r.andThen k := by
  cases r with
  | ok a u => exact hk a u
  | raised _ => rfl
  | stop _ => rfl

theorem assignCodes_setSite (T : TableId) (u : State) (p : Site) :
    assignCodes T (u.setSite p) = (assignCodes T u).atSite p := by
  unfold assignCodes
  rw [apply_ite (Res.atSite p)]
  rfl

theorem skipIndices_setSite (T : TableId) (i k : Nat) (u : State) (p : Site) :
    skipIndices T i k (u.setSite p) = (skipIndices T i k u).atSite p := by
  unfold skipIndices
  rw [apply_ite (Res.atSite p)]
  rfl

theorem recordShortcut_setSite (T : TableId) (x : Nat) (u : State) (p : Site) :
    recordShortcut T x (u.setSite p) = (recordShortcut T x u).atSite p := by
  unfold recordShortcut
  rw [apply_ite (Res.atSite p)]
  rfl

theorem clZeroEntry_setSite (T : TableId) (v : Scan) (u : State) (p : Site) :
    clZeroEntry T v (u.setSite p) = (clZeroEntry T v u).atSite p := by
  unfold clZeroEntry
  rw [apply_ite (Res.atSite p)]
  rfl

theorem clLenEntry_setSite (T : TableId) (v : Scan) (x : Nat) (u : State) (p : Site) :
    clLenEntry T v x (u.setSite p) = (clLenEntry T v x u).atSite p := by
  unfold clLenEntry
  rw [apply_ite (Res.atSite p)]
  rfl

theorem clRunEntry_setSite (m : CodCountMode) (T : TableId) (v : Scan) (k : Nat) (u : State) (p : Site) :
    clRunEntry m T v k (u.setSite p) = (clRunEntry m T v k u).atSite p := by
  rw [clRunEntry, skipIndices_setSite]
  exact Res.andThen_atSite _ fun _ _ => rfl

theorem emit_setSite (b : Byte) (u : State) (p : Site) : emit b (u.setSite p) = (emit b u).atSite p := by
  unfold emit
  rw [apply_ite (Res.atSite p)]
  rfl

theorem copyLoop_setSite (d n : Nat) (u : State) (p : Site) :
    copyLoop d n (u.setSite p) = (copyLoop d n u).atSite p := by
  induction n generalizing u with
  | zero => rfl
  | succ n ih =>
    have hsrc : (u.setSite p).readOut ((u.setSite p).produced.toNat - d) = u.readOut (u.produced.toNat - d) := rfl
    rw [copyLoop, copyLoop, hsrc]
    cases u.readOut (u.produced.toNat - d) with
    | none => rfl
    | some b =>
      simp only [emit_setSite]
      exact Res.andThen_atSite _ fun _ w => ih w

theorem copy_setSite (n d : Nat) (u : State) (p : Site) : copy n d (u.setSite p) = (copy n d u).atSite p := by
  unfold copy
  rw [apply_ite (Res.atSite p), apply_ite (Res.atSite p), ← copyLoop_setSite]
  rfl

/-! ## Each element puts the parser somewhere itself -/

theorem closeTable_setSite (T : TableId) (u : State) (p : Site) : closeTable T (u.setSite p) = closeTable T u := by
  rw [closeTable, assignCodes_setSite]
  exact Res.andThen_of_atSite _ fun _ _ => by cases T <;> rfl

theorem nextHybrid_setSite (T : TableId) (v : Scan) (u : State) (p : Site) :
    nextHybrid T v (u.setSite p) = nextHybrid T v u := by
  rw [nextHybrid, closeTable_setSite]
  rfl

theorem nextCoded_setSite (v : Scan) (u : State) (p : Site) : nextCoded v (u.setSite p) = nextCoded v u := by
  rw [nextCoded, closeTable_setSite]
  rfl

theorem firstEntry_setSite (T : TableId) (n : Nat) (u : State) (p : Site) :
    firstEntry T n (u.setSite p) = firstEntry T n u := by
  rw [firstEntry, nextCoded_setSite, nextHybrid_setSite]
  rfl

theorem recordCount_setSite (T : TableId) (n : Nat) (u : State) (p : Site) :
    recordCount T n (u.setSite p) = (recordCount T n u).setSite p := by
  unfold recordCount
  split <;> rfl

theorem countElement_setSite (T : TableId) (n : Nat) (u : State) (p : Site) :
    countElement T n (u.setSite p) = countElement T n u := by
  rw [countElement, recordCount_setSite, firstEntry_setSite]
  rfl

theorem degenElement_setSite (T : TableId) (x : Nat) (u : State) (p : Site) :
    degenElement T x (u.setSite p) = degenElement T x u := by
  rw [degenElement, recordShortcut_setSite]
  exact Res.andThen_of_atSite _ fun _ _ => by cases T <;> rfl

theorem hlenElement_setSite (l : Nat) (T : TableId) (v : Scan) (u : State) (p : Site) :
    hlenElement l T v (u.setSite p) = hlenElement l T v u := by
  have hstore : storeLen T v.i l (u.setSite p) = (storeLen T v.i l u).setSite p := rfl
  rw [hlenElement, hstore, nextHybrid_setSite]
  rfl

theorem hskipElement_setSite (k : Nat) (T : TableId) (v : Scan) (u : State) (p : Site) :
    hskipElement k T v (u.setSite p) = hskipElement k T v u := by
  rw [hskipElement, skipIndices_setSite]
  exact Res.andThen_of_atSite _ fun _ w => nextHybrid_setSite T _ w p

theorem clElement_setSite {e : State → Res Scan} {u : State} {p : Site} (he : e (u.setSite p) = (e u).atSite p) :
    clElement e (u.setSite p) = clElement e u := by
  rw [clElement, he]
  exact Res.andThen_of_atSite _ fun v w => nextCoded_setSite v w p

theorem litElement_setSite (c : Byte) (u : State) (p : Site) : litElement c (u.setSite p) = litElement c u := by
  rw [litElement, literal, emit_setSite, Res.andThen_assoc]
  exact (Res.andThen_of_atSite _ fun _ _ => rfl).trans (Res.andThen_assoc ..).symm

theorem offElement_setSite (c d : Nat) (u : State) (p : Site) : offElement c d (u.setSite p) = offElement c d u := by
  rw [offElement, copy_setSite]
  exact Res.andThen_of_atSite _ fun _ _ => rfl

/-! ## What a step does at each place -/

theorem toNat_ofNat_peek (u : State) {n : Nat} (hn : n ≤ 32) : (BitVec.ofNat n (u.peek n)).toNat = u.peek n := by
  rw [BitVec.toNat_ofNat, Nat.mod_eq_of_lt (u.peek_lt n hn)]

/-- At a SUBHDR (R52, R111). -/
theorem stepElement_subhdr (u : State) :
    stepElement (u.setSite .subhdr) = (subhdrElement (BitVec.ofNat 16 (u.peek 16)) (u.consume 16)).outcome := by
  have hdec : decodeElement .subhdr u.tabs u.br.reg = .ok (.subhdr (BitVec.ofNat 16 (u.peek 16))) := by
    rw [u.peek_eq]
    rfl
  rw [stepElement_of_ok (u.setSite .subhdr) hdec, exec_subhdr_at (s := u.setSite .subhdr) rfl, State.consume_setSite]
  rfl

theorem countField_countOf {n : Nat} (hn : n < 2 ^ T.countBits) : countField (countOf T n) = some (T, n) := by
  cases T with
  | _ => exact congrArg (fun n => some (_, n)) (Nat.mod_eq_of_lt hn)

theorem degenField_degenOf {x : Nat} (hx : x < 2 ^ T.countBits) : degenField (degenOf T x) = some (T, x) := by
  cases T with
  | _ => exact congrArg (fun x => some (_, x)) (Nat.mod_eq_of_lt hx)

theorem countBits_le (T : TableId) : T.countBits ≤ 32 := by cases T <;> decide

/-- At a COUNT (R53, R91). -/
theorem stepElement_count (u : State) (T : TableId) :
    stepElement (u.setSite (.count T)) = (countElement T (u.peek T.countBits) (u.consume T.countBits)).outcome := by
  have hdec : decodeElement (.count T) u.tabs u.br.reg = .ok (countOf T (u.peek T.countBits)) := by
    rw [u.peek_eq]
    rfl
  have hfield := countField_countOf (u.peek_lt T.countBits (countBits_le T))
  rw [stepElement_of_ok (u.setSite (.count T)) hdec, exec_count_at (s := u.setSite (.count T)) hfield rfl,
    State.consume_setSite, countElement_setSite]

/-- At a DEGEN (R54, R92). -/
theorem stepElement_degen (u : State) (T : TableId) :
    stepElement (u.setSite (.degen T)) = (degenElement T (u.peek T.countBits) (u.consume T.countBits)).outcome := by
  have hdec : decodeElement (.degen T) u.tabs u.br.reg = .ok (degenOf T (u.peek T.countBits)) := by
    rw [u.peek_eq]
    rfl
  have hfield := degenField_degenOf (u.peek_lt T.countBits (countBits_le T))
  rw [stepElement_of_ok (u.setSite (.degen T)) hdec, exec_degen_at (s := u.setSite (.degen T)) hfield rfl,
    State.consume_setSite, degenElement_setSite]

/-- At an HSKIP (R57, R94). -/
theorem stepElement_hskip (u : State) (T : TableId) (v : Scan) :
    stepElement (u.setSite (.hskip T v)) = (hskipElement (u.peek 2) T v (u.consume 2)).outcome := by
  have hdec : decodeElement (.hskip T v) u.tabs u.br.reg = .ok (.hskip (BitVec.ofNat 2 (u.peek 2))) := by
    rw [u.peek_eq]
    rfl
  rw [stepElement_of_ok (u.setSite (.hskip T v)) hdec, exec_hskip_at (s := u.setSite (.hskip T v)) rfl,
    State.consume_setSite, hskipElement_setSite, toNat_ofNat_peek u (by decide)]

/-- The escape of a length, and how many bits it has (R56). -/
theorem hlenField_hlenEscape {k : Nat} (hk : k < 10) :
    (hlenEscape k).wf = true ∧ hlenField (hlenEscape k) = some (7 + k) ∧ (hlenBits (7 + k)).length = 3 + k + 1 := by
  have h : ∀ k : Fin 10, (hlenEscape k).wf = true ∧ hlenField (hlenEscape k) = some (7 + k.val) ∧
    (hlenBits (7 + k)).length = 3 + k + 1 := by decide
  exact h ⟨k, hk⟩

theorem onesAt_le (w : Word) (f k : Nat) : onesAt w f k ≤ f := by
  induction f generalizing k with
  | zero => exact Nat.le_refl 0
  | succ f ih =>
    rw [onesAt]
    split
    · exact Nat.succ_le_succ (ih (k + 1))
    · exact Nat.zero_le _

/-- At an HLEN (R55, R56, R93). -/
theorem stepElement_hlen (u : State) (T : TableId) (v : Scan) :
    stepElement (u.setSite (.hlen T v)) = ((readHlen u).andThen fun l w => hlenElement l T v w).outcome := by
  by_cases htop : topBits u.br.reg 3 = 7
  · have hdec : decodeElement (.hlen T v) u.tabs u.br.reg = .ok (hlenEscape (onesAt u.br.reg 10 3)) := if_pos htop
    rw [stepElement_of_ok (u.setSite (.hlen T v)) hdec, readHlen_escape htop]
    have hle := onesAt_le u.br.reg 10 3
    generalize onesAt u.br.reg 10 3 = k at hle
    by_cases hk : k < 10
    · obtain ⟨hwf, hfield, hlen⟩ := hlenField_hlenEscape hk
      rw [if_pos hk, exec_hlen_at (s := u.setSite (.hlen T v)) hwf hfield rfl, State.consume_setSite,
        hlenElement_setSite, hlen]
      rfl
    · obtain rfl : k = 10 := by omega
      rw [if_neg hk, show hlenEscape 10 = .hlenIllegal from rfl,
        exec_hlenIllegal_at (s := u.setSite (.hlen T v)) rfl, State.consume_setSite]
      rfl
  · have hdec : decodeElement (.hlen T v) u.tabs u.br.reg = .ok (.hlenDirect (BitVec.ofNat 3 (topBits u.br.reg 3))) :=
      if_neg htop
    have hlt := topBits_lt u.br.reg (n := 3) (by decide)
    have hval : (BitVec.ofNat 3 (topBits u.br.reg 3)).toNat = topBits u.br.reg 3 := Nat.mod_eq_of_lt hlt
    have hwf : (Instr.hlenDirect (BitVec.ofNat 3 (topBits u.br.reg 3))).wf = true :=
      bne_iff_ne.2 fun he => htop (hval.symm.trans (congrArg BitVec.toNat he))
    rw [stepElement_of_ok (u.setSite (.hlen T v)) hdec,
      exec_hlen_at (s := u.setSite (.hlen T v)) hwf (congrArg some hval) rfl, State.consume_setSite,
      hlenElement_setSite, hlenBits_length_direct (by omega), readHlen_direct htop]
    rfl

/-- Where no code word stands, E_DECODE is raised after 16 bits (R72). -/
theorem stepElement_of_noCodeWord (u : State) (p : Site) (h : decodeElement p u.tabs u.br.reg = .error .noCodeWord) :
    stepElement (u.setSite p) = .next u.noCodeWord := by
  rw [stepElement_of_error (u.setSite p) h]
  show Host.Outcome.next (((u.setSite p).consume Config.maxLen).raise .decode) = _
  rw [State.consume_setSite]
  rfl

/-- A `CL` entry, its code word and extra bits consumed (R58). -/
theorem onCl_setSite (u : State) (v : Scan) (x k : Nat) (e : Scan → State → Res Scan)
    (he : ∀ w p, e v (State.setSite w p) = (e v w).atSite p) :
    onCl x k e (u.setSite (.cl v)) = (clElement (e v) (u.consume (u.codeWidth .tLen x + k))).outcome := by
  rw [onCl_at (s := u.setSite (.cl v)) rfl, State.consume_setSite, clElement_setSite (he _ _)]
  rfl

/-- The entry of a value, read on: its code word has been consumed, and its extra bits follow (R58 to R62, R101). -/
theorem exec_clOf (u : State) (v : Scan) {x : Nat} (hx : x < 32) (hk : u.codeWidth .tLen x ≤ 16) :
    exec (clOf u.br.reg (u.codeWidth .tLen x) x) (u.setSite (.cl v)) =
      (clElement (codEntry Config.codCountMode .tLit v x) (u.consume (u.codeWidth .tLen x))).outcome := by
  have hextra (n : Nat) (hn : n ≤ 16) :
      (BitVec.ofNat n (fieldAt u.br.reg (u.codeWidth .tLen x) n)).toNat =
        ((u.consume (u.codeWidth .tLen x)).get n).1 := by
    rw [State.get_fst, u.peek_consume (by omega)]
    exact Nat.mod_eq_of_lt (Nat.mod_lt _ (Nat.two_pow_pos n))
  match x with
  | 0 => exact onCl_setSite u v 0 0 _ (clZeroEntry_setSite .tLit v)
  | 1 =>
    refine (onCl_setSite u v 1 4 (fun w => clRunEntry _ .tLit w (zeroRun4 _)) (clRunEntry_setSite _ .tLit v _)).trans ?_
    rw [hextra 4 (by decide), ← u.consume_consume]
    rfl
  | 2 =>
    refine (onCl_setSite u v 2 9 (fun w => clRunEntry _ .tLit w (zeroRun9 _)) (clRunEntry_setSite _ .tLit v _)).trans ?_
    rw [hextra 9 (by decide), ← u.consume_consume]
    rfl
  | x + 3 =>
    have hval : (BitVec.ofNat 5 (x + 3)).toNat = x + 3 := Nat.mod_eq_of_lt hx
    refine (onCl_setSite u v _ 0 (fun w => clLenEntry .tLit w _) (clLenEntry_setSite .tLit v _)).trans ?_
    rw [hval]
    rfl

/-- At a `CL` entry (R58 to R62, R101). -/
theorem stepElement_cl (u : State) (v : Scan) :
    stepElement (u.setSite (.cl v)) = ((decodeSymbol .tLen u).andThen fun x w =>
      clElement (codEntry Config.codCountMode .tLit v x) w).outcome := by
  cases h : codeWordAt (u.tab .tLen) u.br.reg with
  | none =>
    rw [decodeSymbol_of_none h]
    refine stepElement_of_noCodeWord u (.cl v) ?_
    simp only [decodeElement, show u.tabs.tLen = u.tab .tLen from rfl, h]
  | some r =>
    obtain ⟨x, k⟩ := r
    obtain ⟨rfl, hk, hx⟩ := codeWordAt_eq_some h
    have hdec : decodeElement (.cl v) u.tabs u.br.reg = .ok (clOf u.br.reg (u.codeWidth .tLen x) x) := by
      simp only [decodeElement, show u.tabs.tLen = u.tab .tLen from rfl, h]
    rw [decodeSymbol_of_word h, stepElement_of_ok (u.setSite (.cl v)) hdec]
    exact exec_clOf u v hx hk

/-- What is done with the symbol of a unit (R63, R64, R112). -/
def unitElement (c : Nat) (s : State) : Res Unit :=
  if c ≤ Config.litMax then litElement (BitVec.ofNat 8 c) s else .ok () (s.setSite (.off (BitVec.ofNat 9 c)))

/-- At a LIT or MATCH (R63, R64). -/
theorem stepElement_unit (u : State) :
    stepElement (u.setSite .unit) = ((decodeSymbol .tLit u).andThen unitElement).outcome := by
  cases h : codeWordAt (u.tab .tLit) u.br.reg with
  | none =>
    rw [decodeSymbol_of_none h]
    refine stepElement_of_noCodeWord u .unit ?_
    simp only [decodeElement, show u.tabs.tLit = u.tab .tLit from rfl, h]
  | some r =>
    obtain ⟨c, k⟩ := r
    obtain ⟨hk, -, hc⟩ := codeWordAt_eq_some h
    have hdec : decodeElement .unit u.tabs u.br.reg = .ok (unitOf c) := by
      simp only [decodeElement, show u.tabs.tLit = u.tab .tLit from rfl, h]
    rw [decodeSymbol_of_word h, stepElement_of_ok (u.setSite .unit) hdec, Res.andThen_ok, unitElement, unitOf]
    split
    · rename_i hlit
      have hval : (BitVec.ofNat 8 c).toNat = c := Nat.mod_eq_of_lt (Nat.lt_succ_of_le hlit)
      rw [exec_lit_at (s := u.setSite .unit) rfl, hval, State.consume_setSite, litElement_setSite, hk]
      rfl
    · have hval : (BitVec.ofNat 9 c).toNat = c := Nat.mod_eq_of_lt hc
      rw [exec_match_at (s := u.setSite .unit) rfl, hval, State.consume_setSite, hk]
      rfl

/-- The classes past the alphabet have no OFF; the others are spelled by it, the delta behind the word (R65, R119). -/
theorem offOf_cases (w : Word) (k p : Nat) :
    (∃ i, offOf w k p = .ok i ∧ offField i = some (p, fieldAt w k (p - 1))) ∨
      offOf w k p = .error .classOutside := by
  have hval (n : Nat) : (BitVec.ofNat n (fieldAt w k n)).toNat = fieldAt w k n :=
    Nat.mod_eq_of_lt (Nat.mod_lt _ (Nat.two_pow_pos n))
  match p with
  | 0 => exact .inl ⟨_, rfl, congrArg (fun d => some (_, d)) (Nat.mod_one _).symm⟩
  | 1 => exact .inl ⟨_, rfl, congrArg (fun d => some (_, d)) (Nat.mod_one _).symm⟩
  | 2 | 3 | 4 | 5 | 6 | 7 | 8 | 9 | 10 | 11 | 12 | 13 => exact .inl ⟨_, rfl, congrArg (fun d => some (_, d)) (hval _)⟩
  | n + 14 => exact .inr rfl

/-- BD.OFFSET answers the distance of the class found by looking ahead and the delta behind it (R116, R117). -/
theorem readOffset_of_word {u : State} {p k : Nat} (h : codeWordAt (u.tab .tOff) u.br.reg = some (p, k))
    (hp : p ≤ 16) :
    readOffset u = .ok (distance p (fieldAt u.br.reg k (p - 1))) (u.consume (k + (p - 1))) := by
  obtain ⟨-, hk, -⟩ := codeWordAt_eq_some h
  rw [readOffset, decodeSymbol_of_word h, Res.andThen_ok, readDelta, extraBits, State.get_fst, State.get_snd,
    u.peek_consume (by omega), u.consume_consume]

/-- At an OFF (R65, R114, R116, R117). -/
theorem stepElement_off (u : State) (c : BitVec 9) :
    stepElement (u.setSite (.off c)) = ((readOffset u).andThen fun d w => offElement c.toNat d w).outcome := by
  cases h : codeWordAt (u.tab .tOff) u.br.reg with
  | none =>
    rw [readOffset, decodeSymbol_of_none h]
    refine stepElement_of_noCodeWord u (.off c) ?_
    simp only [decodeElement, show u.tabs.tOff = u.tab .tOff from rfl, h]
  | some r =>
    obtain ⟨p, k⟩ := r
    obtain ⟨hk, -, hp⟩ := codeWordAt_eq_some h
    have hdec : decodeElement (.off c) u.tabs u.br.reg = offOf u.br.reg k p := by
      simp only [decodeElement, show u.tabs.tOff = u.tab .tOff from rfl, h]
    rw [readOffset_of_word h (Nat.le_of_lt hp), Res.andThen_ok]
    rcases offOf_cases u.br.reg k p with ⟨i, hi, hfield⟩ | hi
    · have hlen : (offBits u.tabs p (fieldAt u.br.reg k (p - 1))).length = k + (p - 1) := by
        rw [hk]
        exact u.length_word_field .tOff p (p - 1) _
      rw [stepElement_of_ok (u.setSite (.off c)) (hdec.trans hi),
        exec_off_at (s := u.setSite (.off c)) hfield rfl, State.consume_setSite, offElement_setSite]
      exact congrArg (fun n => (offElement c.toNat _ (u.consume n)).outcome) hlen
    · have hword : codeWordAt ((u.setSite (.off c)).tab .tOff) (u.setSite (.off c)).br.reg = some (p, k) := h
      have hread := readOffset_of_word hword (Nat.le_of_lt hp)
      rw [stepElement_of_error (u.setSite (.off c)) (hdec.trans hi)]
      show ((matchUnit c.toNat (u.setSite (.off c))).andThen _).outcome = _
      rw [matchUnit, hread, Res.andThen_ok, Res.andThen_assoc, State.consume_setSite]
      exact congrArg Res.outcome (offElement_setSite c.toNat _ _ _)

end Sys2Proof.Machine
end

section
/-! A unit run element by element is a STEP (44_host_commands.md R142; log 11): from each place of the parser the steps
that follow end as the rest of the operation that the whole command runs there. -/

namespace Sys2Proof.Machine

variable {α : Type} {s t u : State} {T : TableId} {o : Host.Outcome State Fault Refusal} {fin : State → Res Unit}

/-! ## The outcome of steps to come -/

/-- Some number of steps from `s` ends in the outcome `o`. -/
def State.endsIn (s : State) (o : Host.Outcome State Fault Refusal) : Prop := ∃ n, Host.Core.run core n s = o

/-- Steps from where the operation leaves the machine end in the outcome `o`; a raise or a stop is itself the end. -/
def Res.endsIn (r : Res Unit) (o : Host.Outcome State Fault Refusal) : Prop :=
  match r with
  | .ok _ t => t.endsIn o
  | .raised t => o = .next t
  | .stop f => o = .fault f

theorem State.endsIn_next (s : State) : s.endsIn (.next s) := ⟨0, rfl⟩

theorem Res.endsIn_outcome (r : Res Unit) : r.endsIn r.outcome := by
  cases r with
  | ok _ t => exact t.endsIn_next
  | raised _ => rfl
  | stop _ => rfl

theorem run_succ_of_next {M : Host.Core} {x y : M.State} (h : M.step x = .next y) (n : Nat) :
    M.run (n + 1) x = M.run n y := by
  rw [Host.Core.run, h]

theorem run_succ_of_fault {M : Host.Core} {x : M.State} {f : M.Fault} (h : M.step x = .fault f) (n : Nat) :
    M.run (n + 1) x = .fault f := by
  rw [Host.Core.run, h]

theorem State.endsIn_of_next (h : step s = .next t) (ht : t.endsIn o) : s.endsIn o := by
  obtain ⟨n, hn⟩ := ht
  exact ⟨n + 1, (run_succ_of_next (M := core) h n).trans hn⟩

/-- One step first. -/
theorem State.endsIn_of_step {r : Res Unit} (h : step s = r.outcome) (hr : r.endsIn o) : s.endsIn o := by
  cases r with
  | ok _ t => exact State.endsIn_of_next h hr
  | raised t =>
    rw [show o = .next t from hr]
    exact State.endsIn_of_next h t.endsIn_next
  | stop f =>
    rw [show o = .fault f from hr]
    exact ⟨1, run_succ_of_fault (M := core) h 0⟩

/-- After one operation, two that end alike. -/
theorem Res.endsIn_andThen {r : Res α} {ok : α → State → Prop} {bad : ErrCode → State → Prop} {stop : Fault → Prop}
    {k k' : α → State → Res Unit} (h : r.leaves ok bad stop)
    (hk : ∀ a x, ok a x → (k a x).endsIn (k' a x).outcome) : (r.andThen k).endsIn (r.andThen k').outcome := by
  cases r with
  | ok a x => exact hk a x h
  | raised _ => rfl
  | stop _ => rfl

/-- A step of the parser: the element due is run, unless a reset is asked for (R50, R190). -/
theorem State.endsIn_of_element {p : Site} {r : Res Unit} (hu : u.resetPending = false)
    (h : (u.setSite p).parsing = true) (he : stepElement (u.setSite p) = r.outcome) (hr : r.endsIn o) :
    (u.setSite p).endsIn o :=
  State.endsIn_of_step ((step_of_parsing h hu).trans he) hr

theorem State.decodesOnly.resetPending (h : s.decodesOnly u) (hs : s.resetPending = false) :
    u.resetPending = false := by
  rw [State.resetPending, h.port]
  exact hs

theorem State.buildsOnly.resetPending (h : s.buildsOnly u) : s.resetPending = false → u.resetPending = false :=
  h.decodes.resetPending

theorem State.readsOnly.resetPending (h : s.readsOnly u) : s.resetPending = false → u.resetPending = false :=
  h.decodes.resetPending

/-! ## A unit -/

/-- BD.MATCH and the end of its unit are what an OFF does, its bits read (R64, R65, R114). -/
theorem matchUnit_finish (c : Nat) (u : State) :
    ((matchUnit c u).andThen fun n y => .ok () (y.finishUnit n)) =
      (readOffset u).andThen fun d w => offElement c d w := by
  rw [matchUnit, Res.andThen_assoc]
  congr 1
  funext d w
  exact Res.andThen_assoc ..

/-- From an OFF on (R65). -/
theorem off_endsIn (hu : u.resetPending = false) (c : BitVec 9) : (u.setSite (.off c)).endsIn
    ((matchUnit c.toNat u).andThen fun n y => .ok () (y.finishUnit n)).outcome := by
  rw [matchUnit_finish]
  exact State.endsIn_of_element hu rfl (stepElement_off u c) (Res.endsIn_outcome _)

/-- From the symbol of a unit on (R112). -/
theorem unitElement_endsIn (hu : u.resetPending = false) {c : Nat} (hc : c < 512) :
    (unitElement c u).endsIn ((unitOfSymbol c u).andThen fun n y => .ok () (y.finishUnit n)).outcome := by
  unfold unitElement unitOfSymbol
  split
  · exact Res.endsIn_outcome _
  · have hoff := off_endsIn hu (BitVec.ofNat 9 c)
    rwa [BitVec.toNat_ofNat, Nat.mod_eq_of_lt hc] at hoff

/-- From a unit's first element on (R112). -/
theorem beginUnit_endsIn (hu : u.resetPending = false) : (beginUnit u).endsIn (decodeUnit u).outcome := by
  have hcounted : (u.setRemaining (u.remaining - 1)).resetPending = false := hu
  unfold beginUnit decodeUnit
  generalize u.setRemaining (u.remaining - 1) = w at hcounted
  refine State.endsIn_of_element hcounted rfl (stepElement_unit w) ?_
  refine Res.endsIn_andThen (decodeSymbol_leaves .tLit w) fun c x h => ?_
  rcases h with ⟨-, rfl, rfl⟩ | ⟨-, hc, -, -, rfl⟩
  · exact unitElement_endsIn hcounted (x.tab .tLit).ss.isLt
  · exact unitElement_endsIn ((w.consume_readsOnly _).resetPending hcounted) (hc.trans (by decide))

/-! ## The description of a table -/

/-- From the end of a description on, if the steps after it end as `fin` does (R95, R101). -/
theorem closeTable_endsIn
    (hfin : ∀ y : State, y.resetPending = false → (afterTable T y).endsIn (fin y).outcome)
    (hu : u.resetPending = false) :
    (closeTable T u).endsIn ((assignCodes T u).andThen fun _ y => fin y).outcome := by
  refine Res.endsIn_andThen (assignCodes_leaves T u) ?_
  rintro - y ⟨-, rfl⟩
  exact hfin _ ((u.setTab_buildsOnly T _).resetPending hu)

theorem hybLoop_done {v : Scan} (h : v.n ≤ v.r) (f : Nat) (u : State) :
    hybLoop Config.hybCountMode T T.skip f v u = .ok () u := by
  have hmore : ¬ hybMore Config.hybCountMode v = true := fun hm => Nat.not_lt_of_le h ((hybMore_iff v).1 hm)
  cases f with
  | zero | succ f => exact if_neg hmore

theorem hybLoop_overflow {v : Scan} (hr : v.r < v.n) (hi : T.size ≤ v.i) (f : Nat) (u : State) :
    hybLoop Config.hybCountMode T T.skip f v u = raiseIn .tableOverflow u := by
  cases f with
  | zero => exact if_pos ((hybMore_iff v).2 hr)
  | succ f => rw [hybLoop, if_pos ((hybMore_iff v).2 hr), if_pos hi]

theorem hybLoop_more {v : Scan} (hr : v.r < v.n) (hi : v.i < T.size) (f : Nat) (u : State) :
    hybLoop Config.hybCountMode T T.skip (f + 1) v u = (readHlen u).andThen fun l w =>
      (hybSkip T T.skip (scanEntry v) (storeLen T v.i l w)).andThen fun v y =>
        hybLoop Config.hybCountMode T T.skip f v y := by
  rw [hybLoop, if_pos ((hybMore_iff v).2 hr), if_neg (Nat.not_le_of_lt hi)]

/-- From the stored length of an HLEN on (R95): the run-skip, if it is due, and what `next` does with the index. -/
theorem hlenElement_endsIn {v : Scan} {l : Nat} {next : Scan → State → Res Unit} (hu : u.resetPending = false)
    (hnext : ∀ (w : Scan) (y : State), v.i + 1 ≤ w.i → y.resetPending = false →
      (nextHybrid T w y).endsIn (next w y).outcome) :
    (hlenElement l T v u).endsIn
      ((hybSkip T T.skip (scanEntry v) (storeLen T v.i l u)).andThen fun w y => next w y).outcome := by
  have hstore := (u.setTab_buildsOnly T ((u.tab T).setLen v.i l)).resetPending hu
  unfold hlenElement hybSkip
  split
  · rw [readSkip, Res.andThen_assoc]
    refine State.endsIn_of_element hstore rfl (stepElement_hskip _ T _) ?_
    refine Res.endsIn_andThen (skipIndices_leaves T _ _ _) ?_
    rintro j y ⟨rfl, -, rfl⟩
    exact hnext _ _ (Nat.le_add_right ..) ((State.consume_readsOnly _ 2).resetPending hstore)
  · exact hnext _ _ (Nat.le_refl _) hstore

/-- From the loop test of a hybrid description on (R95), by induction on the passes left. -/
theorem nextHybrid_endsIn (hfin : ∀ y : State, y.resetPending = false → (closeTable T y).endsIn (fin y).outcome)
    (f : Nat) (v : Scan) (hf : T.size ≤ v.i + f) (hu : u.resetPending = false) :
    (nextHybrid T v u).endsIn ((hybLoop Config.hybCountMode T T.skip f v u).andThen fun _ y => fin y).outcome := by
  induction f generalizing v u with
  | zero =>
    by_cases hr : v.r < v.n
    · rw [nextHybrid_overflow hr hf, hybLoop_overflow hr hf]
      rfl
    · rw [nextHybrid_close (Nat.le_of_not_lt hr), hybLoop_done (Nat.le_of_not_lt hr)]
      exact hfin u hu
  | succ f ih =>
    by_cases hr : v.r < v.n
    · by_cases hi : v.i < T.size
      · rw [nextHybrid_more hr hi, hybLoop_more hr hi, Res.andThen_assoc]
        refine State.endsIn_of_element hu rfl (stepElement_hlen u T v) ?_
        refine Res.endsIn_andThen (readHlen_leaves u) fun l w ⟨hw, _⟩ => ?_
        rw [Res.andThen_assoc]
        exact hlenElement_endsIn (hw.resetPending hu) fun w' y hi' hy => ih w' (by omega) hy
      · rw [nextHybrid_overflow hr (Nat.le_of_not_lt hi), hybLoop_overflow hr (Nat.le_of_not_lt hi)]
        rfl
    · rw [nextHybrid_close (Nat.le_of_not_lt hr), hybLoop_done (Nat.le_of_not_lt hr)]
      exact hfin u hu

/-- From the loop test of a coded description on (R101), by induction on the passes left; the index rises in each. -/
theorem nextCoded_endsIn (hfin : ∀ y : State, y.resetPending = false → (closeTable .tLit y).endsIn (fin y).outcome)
    (f : Nat) (v : Scan) (hi : v.i ≤ 510) (hf : 510 < v.i + f) (hu : u.resetPending = false) :
    (nextCoded v u).endsIn
      ((codLoop Config.codCountMode .tLit .tLen f v u).andThen fun _ y => fin y).outcome := by
  induction f generalizing v u with
  | zero => omega
  | succ f ih =>
    rw [codLoop]
    by_cases hr : v.r < v.n
    · rw [nextCoded_more hr, if_pos ((codMore_iff v).2 hr), Res.andThen_assoc]
      refine State.endsIn_of_element hu rfl (stepElement_cl u v) ?_
      refine Res.endsIn_andThen (decodeSymbol_readsOnly .tLen u) fun x w hw => ?_
      rw [Res.andThen_assoc]
      refine Res.endsIn_andThen (codEntry_leaves _ .tLit v x w) fun v' y ⟨hy, hlt, hle, _⟩ => ?_
      exact ih v' hle (by omega) (hy.resetPending (hw.resetPending hu))
    · rw [nextCoded_close (Nat.le_of_not_lt hr), if_neg fun hm => hr ((codMore_iff v).1 hm)]
      exact hfin u hu

/-- The construction of a sub-block's table (R111): `T_LIT` is coded, the others are hybrid. -/
def describeTable : TableId → State → Res Unit
  | .tLit => initCoded Config.codCountMode .tLit .tLen
  | T => initHybrid Config.hybCountMode T T.skip

/-- The lengths of a description of `n` entries, read and stored (R95, R101). -/
def describeLengths (n : Nat) : TableId → State → Res Unit
  | .tLit => codLoop Config.codCountMode .tLit .tLen (TableId.size .tLit + 1) ⟨n, 0, 0⟩
  | T => hybLoop Config.hybCountMode T T.skip T.size ⟨n, 0, 0⟩

/-- Both constructions begin alike and end alike (R95, R101). -/
theorem describeTable_eq (T : TableId) (u : State) :
    describeTable T u =
      if (readCount T (clearTable T u)).1 = 0 then readShortcut T (readCount T (clearTable T u)).2
      else (describeLengths (readCount T (clearTable T u)).1 T (readCount T (clearTable T u)).2).andThen
        fun _ y => assignCodes T y := by
  cases T with
  | tLen | tLit | tOff => rfl

/-- From the first loop test on (R95, R101). -/
theorem firstEntry_endsIn (n : Nat)
    (hfin : ∀ y : State, y.resetPending = false → (closeTable T y).endsIn (fin y).outcome)
    (hu : u.resetPending = false) :
    (firstEntry T n u).endsIn ((describeLengths n T u).andThen fun _ y => fin y).outcome := by
  cases T with
  | tLen | tOff => exact nextHybrid_endsIn hfin _ ⟨n, 0, 0⟩ (Nat.le_add_left ..) hu
  | tLit => exact nextCoded_endsIn hfin 511 ⟨n, 0, 0⟩ (Nat.zero_le _) (Nat.lt_add_left _ (Nat.lt_succ_self 510)) hu

/-- From a DEGEN on (R92). -/
theorem degen_endsIn
    (hfin : ∀ y : State, y.resetPending = false → (afterTable T y).endsIn (fin y).outcome)
    (hu : u.resetPending = false) :
    (u.setSite (.degen T)).endsIn ((readShortcut T u).andThen fun _ y => fin y).outcome := by
  refine State.endsIn_of_element hu rfl (stepElement_degen u T) ?_
  refine Res.endsIn_andThen (recordShortcut_leaves T _ _) ?_
  rintro - y ⟨-, rfl⟩
  exact hfin _ ((State.setTab_buildsOnly _ T _).resetPending ((u.consume_readsOnly _).resetPending hu))

/-- From the COUNT of a description on, if the steps after the description end as `fin` does (R51, R91). -/
theorem enterTable_endsIn
    (hfin : ∀ y : State, y.resetPending = false → (afterTable T y).endsIn (fin y).outcome)
    (hu : u.resetPending = false) :
    (enterTable T u).endsIn ((describeTable T u).andThen fun _ y => fin y).outcome := by
  have hclear := (clearTable_buildsOnly T u).resetPending hu
  have hcount := (readCount_spec T (clearTable T u)).2.resetPending hclear
  refine State.endsIn_of_element hclear rfl (stepElement_count (clearTable T u) T) ?_
  rw [describeTable_eq, countElement]
  split
  · rw [if_pos ‹_›]
    exact degen_endsIn hfin hcount
  · rw [if_neg ‹_›, Res.andThen_assoc]
    exact firstEntry_endsIn _ (fun _ hy => closeTable_endsIn hfin hy) hcount

/-! ## O50 -/

/-- Where the sub-block's count is 0 (R167). -/
theorem initSubblock_of_zero (h : u.peek 16 = 0) : initSubblock u = raiseIn .emptySubblock (u.consume 16) := if_pos h

/-- The three constructions, one after the other, each before what follows it (R111). -/
theorem initSubblock_andThen (h : u.peek 16 ≠ 0) (fin : State → Res Unit) :
    ((initSubblock u).andThen fun _ y => fin y) =
      (describeTable .tLen ((u.consume 16).setRemaining (BitVec.ofNat 16 (u.peek 16)))).andThen fun _ y =>
        (describeTable .tLit y).andThen fun _ y => (describeTable .tOff y).andThen fun _ y => fin y := by
  rw [show initSubblock u = _ from if_neg h, Res.andThen_assoc]
  congr 1
  funext _ y
  exact Res.andThen_assoc ..

/-- From a SUBHDR on (R51, R111, R112): the three tables, and then the unit. -/
theorem subhdr_endsIn (hu : u.resetPending = false) :
    (u.setSite .subhdr).endsIn ((initSubblock u).andThen fun _ y => decodeUnit y).outcome := by
  have htOff (y : State) (hy : y.resetPending = false) := enterTable_endsIn (T := .tOff) (fun _ => beginUnit_endsIn) hy
  have htLit (y : State) (hy : y.resetPending = false) := enterTable_endsIn (T := .tLit) htOff hy
  have hread := (u.consume_readsOnly 16).resetPending hu
  have hzero : BitVec.ofNat 16 (u.peek 16) = 0 ↔ u.peek 16 = 0 := by
    rw [← BitVec.toNat_inj, toNat_ofNat_peek u (by decide)]
    rfl
  refine State.endsIn_of_element hu rfl (stepElement_subhdr u) ?_
  unfold subhdrElement
  by_cases h0 : u.peek 16 = 0
  · rw [if_pos (hzero.2 h0), initSubblock_of_zero h0]
    rfl
  · rw [if_neg (hzero.not.2 h0), initSubblock_andThen h0]
    exact enterTable_endsIn (T := .tLen) htLit hread

/-- From the first element of a unit on (R112). -/
theorem beginByElements_endsIn (ha : u.isActive = true) (hu : u.resetPending = false) :
    (beginByElements u).endsIn (bdUnit u).outcome := by
  unfold bdUnit ensureSubblock
  by_cases h0 : u.remaining = 0
  · rw [beginByElements_of_remaining_zero ha h0, if_pos h0]
    exact subhdr_endsIn hu
  · rw [beginByElements_of_remaining_ne_zero ha h0, if_neg h0]
    exact beginUnit_endsIn hu

theorem exec_step_of_isActive (ha : s.isActive = true) : exec .step s = (bdUnit s).outcome := by
  show execStep s = _
  rw [execStep, State.isFault_of_isActive ha, if_neg Bool.false_ne_true, if_pos ha]

/-- The next request is a reset only if a reset is delivered. -/
theorem State.resetPending_setPort (s : State) {p : List Request} (h : p.head? ≠ some (.deliver .reset)) :
    (s.setPort p).resetPending = false := by
  rw [← Bool.not_eq_true]
  intro hr
  unfold State.resetPending at hr
  split at hr
  · rename_i hp
    exact h (congrArg List.head? hp)
  · cases hr

/-- Settles O50: the request puts the parser at the unit's first element, and the steps from each place end as the rest
of BD.UNIT does, place by place back from the unit's last element. -/
theorem elementsAreStep : Obligations.ElementsAreStep := by
  unfold Obligations.ElementsAreStep
  intro s p ha hsite _ hreset
  have hidle : State.parsing { s with port := .byElements :: p } = false := by
    unfold State.parsing
    rw [show State.site { s with port := .byElements :: p } = .none from hsite]
  show State.endsIn _ (exec .step (s.setPort p))
  rw [exec_step_of_isActive (s := s.setPort p) ha]
  exact State.endsIn_of_next (step_of_byElements hidle rfl)
    (beginByElements_endsIn ha (s.resetPending_setPort hreset))

end Sys2Proof.Machine
end

section
/-! What BR.INIT, BR.INGEST and BR.GET read, as numbers (40_bitreader.md R80, R81, R84; 20_memory.md R37): O10 to O13.
The bits of a field of the stream are those a shift register takes in. -/

namespace Sys2Proof.Machine

variable {s u : State}

/-! ## Fields of the stream -/

/-- A field one bit longer (R37). -/
theorem State.streamField_succ (s : State) (p n : Nat) :
    s.streamField p (n + 1) = s.streamField p n * 2 + (s.streamBit (p + n)).toNat := by
  simp [State.streamField, List.range_succ, natOfBits_append, natOfBits]

theorem State.streamField_lt (s : State) (p n : Nat) : s.streamField p n < 2 ^ n := by
  simpa [State.streamField] using natOfBits_lt ((List.range n).map fun k => s.streamBit (p + k))

/-- The last bit of a field has weight 1 (R37). -/
theorem State.testBit_streamField (s : State) (p : Nat) {n i : Nat} (hi : i < n) :
    (s.streamField p n).testBit i = s.streamBit (p + (n - 1 - i)) := by
  induction n generalizing i with
  | zero => omega
  | succ n ih =>
    rw [State.streamField_succ, Nat.mul_comm, ← Nat.pow_one 2,
      Nat.testBit_two_pow_mul_add _ (Bool.toNat_lt (s.streamBit (p + n)))]
    cases i with
    | zero =>
      rw [if_pos Nat.one_pos, Nat.sub_zero, Nat.add_sub_cancel]
      cases s.streamBit (p + n) <;> rfl
    | succ i =>
      rw [if_neg (by omega), Nat.add_sub_cancel, ih (by omega)]
      congr 2
      omega

/-- Past the end of the input every stream bit is 0 (R36, R86). -/
theorem State.streamBit_past (s : State) {j : Nat} (h : 8 * s.inSize.toNat ≤ j) : s.streamBit j = false :=
  if_neg (by omega)

theorem State.streamField_past (s : State) {p : Nat} (h : 8 * s.inSize.toNat ≤ p) (n : Nat) :
    s.streamField p n = 0 := by
  induction n with
  | zero => rfl
  | succ n ih => rw [State.streamField_succ, ih, s.streamBit_past (Nat.le_add_right_of_le h), Bool.toNat_false]

/-- Reading changes neither IN nor IN_SIZE (R80, R81, R84). -/
theorem State.readsOnly.streamBit (h : s.readsOnly u) : u.streamBit = s.streamBit := by
  obtain ⟨b, rfl⟩ := h
  rfl

theorem State.readsOnly.inSize (h : s.readsOnly u) : u.inSize = s.inSize := by
  obtain ⟨b, rfl⟩ := h
  rfl

/-! ## BR.GET -/

/-- The top bits of the register are the next stream bits (R83, R84). -/
theorem State.readerOk.peek (h : s.readerOk) {n : Nat} (hn : n ≤ 32) : s.peek n = s.streamField s.br.pos n := by
  have hlt := s.streamField_lt s.br.pos n
  rw [State.peek_eq]
  apply Nat.eq_of_testBit_eq
  intro i
  by_cases hi : i < n
  · rw [testBit_topBits, s.testBit_streamField _ hi, ← h.reg (n - 1 - i) (by omega)]
    congr 1
    omega
  · have hpow : 2 ^ n ≤ 2 ^ i := Nat.pow_le_pow_right (by decide) (Nat.le_of_not_lt hi)
    rw [Nat.testBit_lt_two_pow (hlt.trans_le hpow), Nat.testBit_lt_two_pow ((topBits_lt _ hn).trans_le hpow)]

/-- Settles O12: the register shows the field (R83), and the reader moves on by it. -/
theorem brGetReads : Obligations.BrGetReads := by
  unfold Obligations.BrGetReads
  intro s n h
  have hpeek : s.peek n.val = s.streamField s.br.pos n.val := h.peek (Nat.le_of_lt_succ n.isLt)
  refine ⟨(s.consume n.val).setRet (s.peek n.val), rfl, hpeek, (h.consume n.val).of_same rfl rfl rfl, ?frame,
    fun hpast => hpeek.trans (s.streamField_past hpast n.val)⟩
  exact congrArg (State.setRet · (s.peek n.val)) (s.consume_readsOnly n.val).eq

/-- Settles O13: for `n = 0` BR.GET neither looks at the register nor refills it. -/
theorem brGetZero : Obligations.BrGetZero := by
  unfold Obligations.BrGetZero
  intro s
  show Host.Outcome.next ((s.consume 0).setRet (s.peek 0)) = .next (s.setRet 0)
  rw [State.consume_zero, State.peek_zero]

/-! ## BR.INGEST -/

/-- The register after BR.INGEST: shifted, the stream bits behind the 32 it showed put in (R81). -/
theorem State.readerOk.ingest_reg_toNat (h : s.readerOk) (n : Nat) :
    (s.ingest n).br.reg.toNat = (s.br.reg.toNat * 2 ^ n + s.streamField (s.br.pos + 32) n) % 2 ^ 32 := by
  have hnew := ((State.readerOk_iff.1 h).ingest n).reg
  rw [(s.ingest_readsOnly n).streamBit] at hnew
  apply Nat.eq_of_testBit_eq
  intro i
  rw [Nat.testBit_mod_two_pow, Nat.mul_comm, Nat.testBit_two_pow_mul_add _ (s.streamField_lt _ n)]
  by_cases hi : i < 32
  · rw [decide_eq_true hi, Bool.true_and]
    split
    · have hbit := hnew (31 - i) (by omega)
      rw [show 31 - (31 - i) = i by omega] at hbit
      rw [s.testBit_streamField _ ‹_›]
      refine hbit.trans ?_
      congr 1
      omega
    · exact s.ingest_reg (Nat.le_of_not_lt ‹_›) hi
  · rw [decide_eq_false hi, Bool.false_and]
    exact BitVec.getLsbD_of_ge _ _ (Nat.le_of_not_lt hi)

/-- Settles O11: the register by the field shifted in, the cursor by R83's invariant at the position reached. -/
theorem brIngestShifts : Obligations.BrIngestShifts := by
  unfold Obligations.BrIngestShifts
  intro s n h
  obtain ⟨-, hptr, hrem, hused⟩ := (State.readerOk_iff.1 h).ingest n.val
  rw [(s.ingest_readsOnly n.val).inSize] at hptr hrem
  rw [Nat.add_right_comm] at hptr hused
  exact ⟨s.ingest n.val, rfl, h.ingest_reg_toNat n.val, s.ingest_pos n.val, hptr, hrem, hused,
    (s.ingest_readsOnly n.val).eq⟩

/-! ## BR.INIT -/

/-- While the reader is primed it stands at a byte's start: `m` bytes have been absorbed and stand at the low end of the
register, the rest of which is not yet of the stream (R80, R82). -/
structure State.primedBytes (s : State) (m : Nat) : Prop where
  reg : ∀ j, j < 8 * m → j < 32 → s.br.reg.getLsbD j = s.streamBit (8 * m - 1 - j)
  ptr : s.br.ptr.toNat = min s.inSize.toNat m
  rem : s.br.rem.toNat = s.inSize.toNat - s.br.ptr.toNat
  used : s.br.used.toNat = 0

/-- The byte taken next: the one at the cursor, or zeros past the end (R36, R82). -/
theorem State.primedBytes.currentByte {m k : Nat} (h : s.primedBytes m) (hk : k < 8) :
    s.currentByte.toNat.testBit (7 - k) = s.streamBit (8 * m + k) := by
  obtain ⟨-, hptr, hrem, -⟩ := h
  have hbyte : (8 * m + k) / 8 = m := by omega
  have hmod : (8 * m + k) % 8 = k := by omega
  unfold State.currentByte State.streamBit
  rw [hbyte, hmod]
  by_cases hin : m < s.inSize.toNat
  · have hpos : s.br.ptr.toNat = m := by omega
    rw [if_pos hin, hpos, if_pos ⟨by omega, hin⟩]
  · rw [if_neg hin, if_neg (by omega)]
    exact Nat.zero_testBit _

/-- A whole byte is absorbed (R82). -/
theorem State.primedBytes.absorb {m : Nat} (h : s.primedBytes m) : (s.absorb 8).primedBytes (m + 1) := by
  have hfit : s.br.used.toNat + 8 ≤ 8 := by rw [h.used]
  have hreg := fun j => s.absorb_reg (j := j) hfit
  have hbyte := fun k => h.currentByte (k := k)
  obtain ⟨hold, hptr, hrem, hused⟩ := h
  have hcursor : (s.absorb 8).br.ptr.toNat = min s.inSize.toNat (m + 1) ∧
      (s.absorb 8).br.rem.toNat = s.inSize.toNat - (s.absorb 8).br.ptr.toNat := by
    have hsize := s.inSize.isLt
    simp only [State.absorb, State.setBr_br, hused, Nat.zero_add, true_and]
    split <;> bv_omega
  refine ⟨fun j hj h32 => ?_, hcursor.1, hcursor.2, ?_⟩
  · rw [hreg j h32, (s.absorb_readsOnly 8).streamBit]
    split
    · rw [hused, hbyte _ (by omega)]
      congr 1
      omega
    · rw [hold (j - 8) (by omega) (by omega)]
      congr 1
      omega
  · rw [s.absorb_used 8 hfit, hused]
    rfl

/-- Whole bytes are absorbed (R81, R82). -/
theorem State.primedBytes.ingest {m : Nat} (h : s.primedBytes m) (n : Nat) :
    (s.ingest (8 * n)).primedBytes (m + n) := by
  induction n generalizing s m with
  | zero => exact h
  | succ n ih =>
    rw [State.ingest_step s _ (by omega), h.used, Nat.min_eq_right (by omega)]
    rw [show 8 * (n + 1) - (8 - 0) = 8 * n by omega, show m + (n + 1) = m + 1 + n by omega]
    exact ih h.absorb

/-- BR.INIT leaves R83's invariant: four bytes fill the register (R80). -/
theorem State.brInit_readerOk (s : State) : s.brInit.readerOk := by
  have hstart : (s.setBr { pos := 0, reg := 0, ptr := 0, rem := s.inSize, used := 0 }).primedBytes 0 :=
    ⟨fun j hj => absurd hj (Nat.not_lt_zero j), (Nat.min_zero _).symm, rfl, rfl⟩
  have hprimed : s.brInit.primedBytes 4 := hstart.ingest 4
  obtain ⟨hreg, hptr, hrem, hused⟩ := hprimed
  refine ⟨fun k hk => ?_, ?_, hrem, ?_⟩
  · rw [hreg (31 - k) (by omega) (by omega), State.brInit_pos]
    congr 1
    omega
  · rw [hptr, State.brInit_pos]
  · rw [hused, State.brInit_pos]

/-- Settles O10: priming starts at stream bit 0 and takes four bytes, by induction on the bytes. -/
theorem brInitPrimes : Obligations.BrInitPrimes := by
  unfold Obligations.BrInitPrimes
  exact fun s => ⟨s.brInit, rfl, s.brInit_pos, s.brInit_readerOk, s.brInit_readsOnly.eq⟩

end Sys2Proof.Machine
end

section
/-! Every operation of a block keeps the bit reader's invariant (40_bitreader.md R83; O57): each reads by BR.GET alone
and leaves IN and IN_SIZE as they were, and START primes the reader anew. -/

namespace Sys2Proof.Machine

variable {α β : Type} {s u : State} {r : Res α}

/-! ## An operation keeps the reader -/

/-- What the operation answers, it answers with the bit reader as R83 says. Nothing is asked of a state in which a fault
is raised: no block is in progress in FAULT. -/
def Res.keepsReader (r : Res α) : Prop := r.leaves (fun _ u => u.readerOk) (fun _ _ => True) (fun _ => True)

theorem Res.leaves.keepsReader {ok : α → State → Prop} {bad : ErrCode → State → Prop} {stop : Fault → Prop}
    (h : r.leaves ok bad stop) (hok : ∀ a u, ok a u → u.readerOk) : r.keepsReader :=
  h.mono hok (fun _ _ _ => trivial) (fun _ _ => trivial)

theorem Res.keepsReader.andThen {k : α → State → Res β} (h : r.keepsReader)
    (hk : ∀ a u, u.readerOk → (k a u).keepsReader) : (r.andThen k).keepsReader := Res.leaves.andThen h hk

theorem raiseIn_keepsReader (e : ErrCode) (u : State) : (raiseIn e u : Res α).keepsReader := Res.leaves_raise trivial

theorem State.readerOk.setTab (h : s.readerOk) (T : TableId) (x : Table T.size T.countBits) :
    (s.setTab T x).readerOk := h.of_same rfl rfl rfl

theorem State.readerOk.setRemaining (h : s.readerOk) (c : BitVec 16) : (s.setRemaining c).readerOk :=
  h.of_same rfl rfl rfl

theorem State.readerOk.setSite (h : s.readerOk) (p : Site) : (s.setSite p).readerOk := h.of_same rfl rfl rfl

theorem State.readerOk.finishUnit (h : s.readerOk) (n : Nat) : (s.finishUnit n).readerOk := h.of_same rfl rfl rfl

theorem State.readerOk.writes (h : s.readerOk) (hu : s.writesOnly u) : u.readerOk := by
  obtain ⟨o, w, p, rfl⟩ := hu
  exact h.of_same rfl rfl rfl

theorem State.readerOk.consumed (h : s.readerOk) (n : Nat) : (s.consume n).readerOk := (h.consume n).2

/-! ## The description of a table -/

theorem recordCount_readerOk (T : TableId) (n : Nat) (h : s.readerOk) : (recordCount T n s).readerOk := by
  unfold recordCount
  split
  · exact h
  · exact h.setTab T _

theorem recordShortcut_keepsReader (T : TableId) (x : Nat) (h : s.readerOk) : (recordShortcut T x s).keepsReader := by
  refine (recordShortcut_leaves T x s).keepsReader ?_
  rintro - u ⟨-, rfl⟩
  exact h.setTab T _

theorem assignCodes_keepsReader (T : TableId) (h : s.readerOk) : (assignCodes T s).keepsReader := by
  refine (assignCodes_leaves T s).keepsReader ?_
  rintro - u ⟨-, rfl⟩
  exact h.setTab T _

theorem skipIndices_keepsReader (T : TableId) (i k : Nat) (h : s.readerOk) : (skipIndices T i k s).keepsReader := by
  refine (skipIndices_leaves T i k s).keepsReader ?_
  rintro j u ⟨-, -, rfl⟩
  exact h

/-- CT.HLEN (R93), by the two forms of a length. -/
theorem readHlen_keepsReader (h : s.readerOk) : (readHlen s).keepsReader := by
  by_cases htop : topBits s.br.reg 3 = 7
  · rw [readHlen_escape htop]
    split
    · exact h.consumed _
    · exact raiseIn_keepsReader .badLength (s.consume 13)
  · rw [readHlen_direct htop]
    exact h.consumed 3

theorem hybSkip_keepsReader (T : TableId) (skip : Option Nat) (v : Scan) (h : s.readerOk) :
    (hybSkip T skip v s).keepsReader := by
  unfold hybSkip
  split
  · exact (skipIndices_keepsReader T v.i _ (h.consumed 2)).andThen fun _ _ hu => hu
  · exact h

/-- The loop of CT.INIT_HYBRID (R95), by induction on the passes left. -/
theorem hybLoop_keepsReader (m : HybCountMode) (T : TableId) (skip : Option Nat) (f : Nat) (v : Scan)
    (h : s.readerOk) : (hybLoop m T skip f v s).keepsReader := by
  induction f generalizing v s with
  | zero =>
    rw [hybLoop]
    split
    · exact raiseIn_keepsReader _ s
    · exact h
  | succ f ih =>
    rw [hybLoop]
    split
    · split
      · exact raiseIn_keepsReader _ s
      · exact (readHlen_keepsReader h).andThen fun _ _ hu =>
          (hybSkip_keepsReader T skip _ (hu.setTab T _)).andThen fun w _ hw => ih w hw
    · exact h

/-- CT.DECODE (R100). -/
theorem decodeSymbol_keepsReader (T : TableId) (h : s.readerOk) : (decodeSymbol T s).keepsReader := by
  refine (decodeSymbol_leaves T s).keepsReader ?_
  rintro x u (⟨-, -, rfl⟩ | ⟨-, -, -, -, rfl⟩)
  · exact h
  · exact h.consumed _

theorem clRunEntry_keepsReader (m : CodCountMode) (T : TableId) (v : Scan) (k : Nat) (h : s.readerOk) :
    (clRunEntry m T v k s).keepsReader := (skipIndices_keepsReader T v.i k h).andThen fun _ _ hu => hu

/-- An entry of a coded description (R96 to R99). -/
theorem codEntry_keepsReader (m : CodCountMode) (T : TableId) (v : Scan) (x : Nat) (h : s.readerOk) :
    (codEntry m T v x s).keepsReader := by
  match x with
  | 0 =>
    rw [codEntry, clZeroEntry]
    split
    · exact raiseIn_keepsReader _ s
    · exact h
  | 1 => exact clRunEntry_keepsReader m T v _ (h.consumed 4)
  | 2 => exact clRunEntry_keepsReader m T v _ (h.consumed 9)
  | x + 3 =>
    rw [codEntry, clLenEntry]
    split
    · exact raiseIn_keepsReader _ s
    · exact h.setTab T _

/-- The loop of CT.INIT_CODED (R101), by induction on the passes left. -/
theorem codLoop_keepsReader (m : CodCountMode) (T d : TableId) (f : Nat) (v : Scan) (h : s.readerOk) :
    (codLoop m T d f v s).keepsReader := by
  induction f generalizing v s with
  | zero => exact raiseIn_keepsReader _ s
  | succ f ih =>
    rw [codLoop]
    split
    · exact (decodeSymbol_keepsReader d h).andThen fun x _ hu =>
        (codEntry_keepsReader m T v x hu).andThen fun w _ hw => ih w hw
    · exact h

theorem describeLengths_keepsReader (n : Nat) (T : TableId) (h : s.readerOk) :
    (describeLengths n T s).keepsReader := by
  cases T with
  | tLit => exact codLoop_keepsReader _ _ _ _ _ h
  | tLen | tOff => exact hybLoop_keepsReader _ _ _ _ _ h

/-- Both constructions (R95, R101). -/
theorem describeTable_keepsReader (T : TableId) (h : s.readerOk) : (describeTable T s).keepsReader := by
  have hcount : (readCount T (clearTable T s)).2.readerOk := recordCount_readerOk T _ ((h.setTab T _).consumed _)
  rw [describeTable_eq]
  split
  · exact recordShortcut_keepsReader T _ (hcount.consumed _)
  · exact (describeLengths_keepsReader _ T hcount).andThen fun _ _ hu => assignCodes_keepsReader T hu

/-! ## A sub-block and its units -/

/-- BD.INIT_SUBBLOCK (R111). -/
theorem initSubblock_keepsReader (h : s.readerOk) : (initSubblock s).keepsReader := by
  have hcount := h.consumed Config.subw
  simp only [initSubblock]
  split
  · exact raiseIn_keepsReader _ _
  · exact (describeTable_keepsReader .tLen (hcount.setRemaining _)).andThen fun _ _ hu =>
      (describeTable_keepsReader .tLit hu).andThen fun _ _ hw => describeTable_keepsReader .tOff hw

/-- BD.LITERAL (R113). -/
theorem literal_keepsReader (c : Byte) (h : s.readerOk) : (literal c s).keepsReader := by
  refine (literal_leaves c s).keepsReader ?_
  rintro n u ⟨-, -, rfl⟩
  exact h.writes (s.pushByte_writesOnly c)

/-- BD.OFFSET (R116, R117). -/
theorem readOffset_keepsReader (h : s.readerOk) : (readOffset s).keepsReader :=
  (decodeSymbol_keepsReader .tOff h).andThen fun _ _ hu => hu.consumed _

/-- LZ.COPY (R131). -/
theorem copy_keepsReader (n d : Nat) (h : s.readerOk) : (copy n d s).keepsReader :=
  (copy_leaves n d s).keepsReader fun _ _ ⟨_, _, hw⟩ => h.writes hw

/-- OFF after its bits, and with it the end of a MATCH (R65, R114). -/
theorem offElement_keepsReader (c d : Nat) (h : s.readerOk) : (offElement c d s).keepsReader :=
  (copy_keepsReader _ d h).andThen fun _ _ hu => hu.finishUnit _

/-- LIT after its code word, and with it the end of a literal (R63, R113). -/
theorem litElement_keepsReader (c : Byte) (h : s.readerOk) : (litElement c s).keepsReader :=
  (literal_keepsReader c h).andThen fun n _ hu => hu.finishUnit n

/-- The unit of a decoded symbol, to its end (R112). -/
theorem unitOfSymbol_keepsReader (c : Nat) (h : s.readerOk) :
    ((unitOfSymbol c s).andThen fun n u => .ok () (u.finishUnit n)).keepsReader := by
  unfold unitOfSymbol
  split
  · exact litElement_keepsReader _ h
  · rw [matchUnit_finish]
    exact (readOffset_keepsReader h).andThen fun d _ hu => offElement_keepsReader c d hu

/-- BD.UNIT (R112). -/
theorem bdUnit_keepsReader (h : s.readerOk) : (bdUnit s).keepsReader := by
  have hensure : (ensureSubblock s).keepsReader := by
    unfold ensureSubblock
    split
    · exact initSubblock_keepsReader h
    · exact h
  exact hensure.andThen fun _ _ hu =>
    (decodeSymbol_keepsReader .tLit (hu.setRemaining _)).andThen fun c _ hw => unitOfSymbol_keepsReader c hw

/-! ## The stream elements -/

theorem enterTable_readerOk (T : TableId) (h : s.readerOk) : (enterTable T s).readerOk := (h.setTab T _).setSite _

theorem beginUnit_readerOk (h : s.readerOk) : (beginUnit s).readerOk := (h.setRemaining _).setSite _

theorem afterTable_readerOk (T : TableId) (h : s.readerOk) : (afterTable T s).readerOk := by
  cases T with
  | tLen => exact enterTable_readerOk .tLit h
  | tLit => exact enterTable_readerOk .tOff h
  | tOff => exact beginUnit_readerOk h

theorem closeTable_keepsReader (T : TableId) (h : s.readerOk) : (closeTable T s).keepsReader :=
  (assignCodes_keepsReader T h).andThen fun _ _ hu => afterTable_readerOk T hu

theorem nextHybrid_keepsReader (T : TableId) (v : Scan) (h : s.readerOk) : (nextHybrid T v s).keepsReader := by
  unfold nextHybrid
  split
  · split
    · exact raiseIn_keepsReader _ s
    · exact h.setSite _
  · exact closeTable_keepsReader T h

theorem nextCoded_keepsReader (v : Scan) (h : s.readerOk) : (nextCoded v s).keepsReader := by
  unfold nextCoded
  split
  · exact h.setSite _
  · exact closeTable_keepsReader .tLit h

theorem subhdrElement_keepsReader (c : BitVec 16) (h : s.readerOk) : (subhdrElement c s).keepsReader := by
  unfold subhdrElement
  split
  · exact raiseIn_keepsReader _ s
  · exact enterTable_readerOk .tLen (h.setRemaining c)

theorem countElement_keepsReader (T : TableId) (n : Nat) (h : s.readerOk) : (countElement T n s).keepsReader := by
  have hcount := recordCount_readerOk T n h
  unfold countElement
  split
  · exact hcount.setSite _
  · unfold firstEntry
    split
    · exact nextCoded_keepsReader _ hcount
    · exact nextHybrid_keepsReader T _ hcount

theorem hlenElement_keepsReader (l : Nat) (T : TableId) (v : Scan) (h : s.readerOk) :
    (hlenElement l T v s).keepsReader := by
  have hstored : (storeLen T v.i l s).readerOk := h.setTab T _
  unfold hlenElement
  split
  · exact hstored.setSite _
  · exact nextHybrid_keepsReader T _ hstored

theorem unitElement_keepsReader (c : Nat) (h : s.readerOk) : (unitElement c s).keepsReader := by
  unfold unitElement
  split
  · exact litElement_keepsReader _ h
  · exact h.setSite _

/-- At each place the parser's step is an operation that keeps the reader (R50, R51). -/
theorem stepElement_eq_keepsReader (hp : s.parsing = true) (h : s.readerOk) :
    ∃ r : Res Unit, stepElement s = r.outcome ∧ r.keepsReader := by
  have hplace : s = s.setSite s.site := rfl
  generalize hsite : s.site = p at hplace
  rw [hplace]
  cases p with
  | none | pad =>
    rw [State.parsing, hsite] at hp
    cases hp
  | subhdr => exact ⟨_, stepElement_subhdr s, subhdrElement_keepsReader _ (h.consumed _)⟩
  | count T => exact ⟨_, stepElement_count s T, countElement_keepsReader T _ (h.consumed _)⟩
  | degen T =>
    exact ⟨_, stepElement_degen s T, (recordShortcut_keepsReader T _ (h.consumed _)).andThen fun _ _ hu =>
      afterTable_readerOk T hu⟩
  | hlen T v =>
    exact ⟨_, stepElement_hlen s T v, (readHlen_keepsReader h).andThen fun l _ hu => hlenElement_keepsReader l T v hu⟩
  | hskip T v =>
    exact ⟨_, stepElement_hskip s T v, (skipIndices_keepsReader T v.i _ (h.consumed _)).andThen fun _ _ hu =>
      nextHybrid_keepsReader T _ hu⟩
  | cl v =>
    exact ⟨_, stepElement_cl s v, (decodeSymbol_keepsReader .tLen h).andThen fun x _ hu =>
      (codEntry_keepsReader _ .tLit v x hu).andThen fun w _ hw => nextCoded_keepsReader w hw⟩
  | unit => exact ⟨_, stepElement_unit s, (decodeSymbol_keepsReader .tLit h).andThen fun c _ hu =>
      unitElement_keepsReader c hu⟩
  | off c =>
    exact ⟨_, stepElement_off s c, (readOffset_keepsReader h).andThen fun d _ hu => offElement_keepsReader _ d hu⟩

/-! ## O57 -/

/-- The bit reader is as R83 says while a block is in progress or done. -/
def State.readerInv (s : State) : Prop := s.isActive = true ∨ s.isDone = true → s.readerOk

/-- In FAULT nothing is said of the reader. -/
theorem State.readerInv_raise (s : State) (e : ErrCode) : (s.raise e).readerInv := fun ha =>
  absurd ha (by simp [State.isActive, State.isDone])

theorem Res.keepsReader.keeps {r : Res Unit} (h : r.keepsReader) : r.keeps State.readerInv (fun _ => True) :=
  Res.leaves.mono h (fun _ _ hu _ => hu) (fun e u _ => u.readerInv_raise e) (fun _ h => h)

/-- START primes the reader (R80, R141). -/
theorem startBlock_readerOk (a b : Word) (s : State) : (startBlock a b s).readerOk :=
  (State.brInit_readerOk _).of_same rfl rfl rfl

/-- The HOST's own fields, what was read and the count of free values are not concerned. -/
theorem readerInv_commands : KeptByCommands State.readerInv (fun _ => True) where
  raise s e _ := s.readerInv_raise e
  start s a b _ := fun _ => startBlock_readerOk a b s
  place s p a b _ := fun _ => startBlock_readerOk a b (s.placeBlock p)
  unit _ hs ha := (bdUnit_keepsReader (hs (.inl ha))).keeps
  host _ _ hs := fun ha => (hs ha).of_same rfl rfl rfl
  free _ hs := fun ha => (hs ha).of_same rfl rfl rfl
  readData _ _ hs := fun ha => (hs ha).of_same rfl rfl rfl
  reset _ _ := fun ha => absurd ha (by simp [State.isActive, State.isDone])

/-- What O57 keeps. -/
def State.streamInv (s : State) : Prop := s.readerInv ∧ s.placeOk

theorem State.streamOk_iff : s.streamOk ↔ s.streamInv :=
  ⟨fun ⟨hport, hpar, hreader⟩ => ⟨hreader, hport, hpar⟩, fun ⟨hreader, hport, hpar⟩ => ⟨hport, hpar, hreader⟩⟩

theorem streamInv_commands : KeptByCommands State.streamInv (fun _ => True) := readerInv_commands.and placeOk_commands

/-- Two properties that one step keeps. -/
theorem Kept.and {I J : State → Prop} {stop stop' : Fault → Prop} {o : Host.Outcome State Fault Refusal}
    (h : Kept I stop o) (h' : Kept J stop' o) : Kept (fun t => I t ∧ J t) stop o := by
  cases o with
  | next t => exact ⟨h, h'⟩
  | fault f => exact h
  | refused _ => trivial

/-- The parser moves on inside a unit. -/
theorem State.placeOk.setSite (hs : s.placeOk) (ha : s.isActive = true) (p : Site) : (s.setSite p).placeOk :=
  ⟨hs.1, fun _ => ha⟩

/-- An element that moves the parser on. -/
theorem State.describes.keeps_place {r : Res Unit} (h : s.describes r) (hs : s.placeOk) (ha : s.isActive = true) :
    r.keeps State.placeOk (fun _ => True) := by
  refine Res.leaves.mono h ?_ (fun e v hv => (hs.decodes hv).raise e) (fun _ _ => trivial)
  rintro _ _ ⟨v, p, hv, _, rfl⟩
  exact (hs.decodes hv).setSite (hv.sameControl.isActive.trans ha) p

/-- A step of the parser leaves it inside a unit, or between units. -/
theorem stepElement_kept_place (hs : s.placeOk) : Kept State.placeOk (fun _ => True) (stepElement s) := by
  rcases stepElement_cases s with (h | h | ⟨hp, r, h, hr⟩) | ⟨u, hu, h⟩
  · rw [h]
    trivial
  · rw [h]
    exact hs
  · rw [h]
    rcases hr with hr | hr
    · exact (hr.keeps_place hs (hs.2 hp)).kept
    · exact (hr.keeps_place hs).kept
  · rw [h]
    exact (hs.decodes hu.decodes).raise _

theorem stepElement_kept_stream (hs : s.streamInv) (hp : s.parsing = true) :
    Kept State.streamInv (fun _ => True) (stepElement s) := by
  obtain ⟨hreader, hplace⟩ := hs
  obtain ⟨r, hr, hkeeps⟩ := stepElement_eq_keepsReader hp (hreader (.inl (hplace.2 hp)))
  have hkept : Kept State.readerInv (fun _ => True) (stepElement s) := by
    rw [hr]
    exact hkeeps.keeps.kept
  exact hkept.and (stepElement_kept_place hplace)

theorem streamInv_beginByElements (hs : s.streamInv) : (beginByElements s).streamInv := by
  unfold beginByElements
  split
  · exact hs
  · split
    · have ha : s.isActive = true := ‹_›
      have hreader : s.readerOk := hs.1 (.inl ha)
      split
      · exact ⟨fun _ => hreader.setSite _, hs.2.setSite ha _⟩
      · exact ⟨fun _ => beginUnit_readerOk hreader, hs.2.1, fun _ => ha⟩
    · exact streamInv_commands.raise s _ hs

/-- A request that is served leaves requests of the HOST. -/
theorem State.streamInv.setPort (hs : s.streamInv) {r : Request} {rest : List Request} (hp : s.port = r :: rest) :
    (s.setPort rest).streamInv := by
  refine ⟨fun ha => (hs.1 ha).of_same rfl rfl rfl, fun q hq => hs.2.1 q ?_, hs.2.2⟩
  rw [hp]
  exact List.mem_cons_of_mem r hq

/-- Settles O57: `streamInv` is kept by the commands and by the parser's steps; operations invoked by name are not
requested. -/
theorem streamKept : Obligations.StreamKept := by
  unfold Obligations.StreamKept
  intro s t hok ht
  have hs : s.streamInv := State.streamOk_iff.1 hok
  have h : Kept State.streamInv (fun _ => True) (step s) := by
    refine step_kept streamInv_commands hs (fun _ _ => hs.setPort) (stepElement_kept_stream hs)
      (fun _ _ hp => streamInv_beginByElements (hs.setPort hp)) fun i rest hp => ?_
    have hhost : (Request.deliver (.operation i)).fromHost = true :=
      hs.2.1 _ (by rw [hp]; exact List.mem_cons_self)
    cases hhost
  exact State.streamOk_iff.2 (h.of_next ht)

end Sys2Proof.Machine
end

section
/-! What stands in the stream is what is read (20_memory.md R37, 40_bitreader.md R83): the look-ahead register shows the
bits the stream spells, so each field, length and code word of 41_codetable.md is read back (O14 to O17, O21, O22). -/

namespace Sys2Proof.Machine

variable {s u : State} {T : TableId} {a b : List Bool}

/-! ## What the stream spells -/

theorem State.spells.left (h : s.spells (a ++ b)) : s.spells a := by
  intro k hk
  rw [h k (by rw [List.length_append]; omega), List.getD_append _ _ _ _ hk]

/-- A reader that has moved over the first bits finds the bits after them. -/
theorem State.spells.right (h : s.spells (a ++ b)) (hu : s.buildsOnly u) (hadv : s.advanced u a.length) :
    u.spells b := by
  intro k hk
  have hbit : u.streamBit = s.streamBit := by
    obtain ⟨_, _, rfl⟩ := hu
    rfl
  rw [hbit, hadv.1, Nat.add_assoc, h _ (by rw [List.length_append]; omega),
    List.getD_append_right _ _ _ _ (Nat.le_add_right ..), Nat.add_sub_cancel_left]

/-- What the stream spells, another state with the same reader, IN and IN_SIZE finds too. -/
theorem State.spells.of_same (h : s.spells a) (hbr : u.br = s.br) (hsize : u.inSize = s.inSize) (hinp : u.inp = s.inp) :
    u.spells a := by
  intro k hk
  unfold State.streamBit State.readIn
  rw [hbr, hsize, hinp]
  exact h k hk

/-- The register shows what the stream spells (R36, R83). -/
theorem State.readerOk.window (hr : s.readerOk) (h : s.spells a) (ha : a.length ≤ 32) :
    ∃ more, s.br.reg = windowOf (a ++ more) := by
  have hreg : s.br.reg.toNat = s.streamField s.br.pos 32 := by
    have hpeek := hr.peek (Nat.le_refl 32)
    rwa [State.peek_eq, topBits, Nat.sub_self, Nat.pow_zero, Nat.div_one] at hpeek
  have hstart : (List.range a.length).map (fun k => s.streamBit (s.br.pos + k)) = a := by
    refine List.ext_getElem (by simp) fun k hk hka => ?_
    rw [List.getElem_map, List.getElem_range, h k hka, List.getD_eq_getElem _ _ hka]
  obtain ⟨n, hn⟩ := Nat.exists_eq_add_of_le ha
  refine ⟨(List.range n).map fun k => s.streamBit (s.br.pos + (a.length + k)), ?_⟩
  have hlist : a ++ ((List.range n).map fun k => s.streamBit (s.br.pos + (a.length + k))) =
      (List.range 32).map fun k => s.streamBit (s.br.pos + k) := by
    conv_lhs => rw [← hstart]
    rw [hn, List.range_add, List.map_append, List.map_map, List.length_map, List.length_range]
    rfl
  have hlen : ((List.range 32).map fun k => s.streamBit (s.br.pos + k)).length = 32 := by simp
  apply BitVec.eq_of_toNat_eq
  rw [hlist, windowOf, List.take_of_length_le hlen.le, hlen, Nat.sub_self, Nat.pow_zero, Nat.mul_one,
    BitVec.toNat_ofNat, hreg]
  exact (Nat.mod_eq_of_lt (s.streamField_lt s.br.pos 32)).symm

/-- A field of the stream is read as the number it spells (R37, R84). -/
theorem State.readerOk.topBits (hr : s.readerOk) {n v : Nat} (h : s.spells (bitsOf n v)) (hn : n ≤ 32)
    (hv : v < 2 ^ n) : topBits s.br.reg n = v := by
  obtain ⟨more, hreg⟩ := hr.window h (by rwa [Laws.bitsOf_length])
  rw [hreg, topBits_windowOf_bitsOf hn hv]

theorem State.readerOk.peek_bitsOf (hr : s.readerOk) {n v : Nat} (h : s.spells (bitsOf n v)) (hn : n ≤ 32)
    (hv : v < 2 ^ n) : s.peek n = v := (s.peek_eq n).trans (hr.topBits h hn hv)

theorem bitsOf_getD {n k : Nat} (v : Nat) (hk : k < n) : (bitsOf n v).getD k false = v.testBit (n - 1 - k) := by
  induction n generalizing k with
  | zero => omega
  | succ n ih =>
    cases k with
    | zero => rfl
    | succ k =>
      rw [bitsOf, List.getD_cons_succ, ih (Nat.lt_of_succ_lt_succ hk)]
      congr 1
      omega

/-- The top of the register stands in the stream (R83). -/
theorem State.readerOk.spells_topBits (hr : s.readerOk) {n : Nat} (hn : n ≤ 32) :
    s.spells (bitsOf n (Machine.topBits s.br.reg n)) := by
  intro k hk
  rw [Laws.bitsOf_length] at hk
  rw [bitsOf_getD _ hk, testBit_topBits, ← hr.reg k (by omega)]
  congr 1
  omega

/-! ## CT.CLEAR, CT.COUNT, CT.DEGEN, CT.HSKIP -/

/-- Settles O14: CT.CLEAR replaces its table by the cleared one, whose lengths are those of a table of zeros. -/
theorem ctClearForgets : Obligations.CtClearForgets := by
  unfold Obligations.CtClearForgets
  intro T s
  have htab : (clearTable T s).tab T = (s.tab T).clear := s.tab_setTab_same T _
  refine ⟨clearTable T s, rfl, ?_⟩
  rw [htab]
  exact ⟨rfl, Table.lenAt_zero T.size T.countBits, rfl, rfl, rfl, fun x hx => s.tab_setTab_other T x _ hx, rfl⟩

/-- The count field can spell the alphabet size (R18). -/
theorem size_lt_countBits (T : TableId) : T.size < 2 ^ T.countBits := by cases T <;> decide

/-- A symbol of the alphabet becomes the shortcut (R92). -/
theorem recordShortcut_fits {x : Nat} (h : x < T.size) (u : State) :
    recordShortcut T x u = .ok () (u.setTab T ((u.tab T).setShortcut x)) := if_neg (Nat.not_le_of_lt h)

/-- A symbol past the alphabet is refused (R165). -/
theorem recordShortcut_past {x : Nat} (h : T.size ≤ x) (u : State) :
    recordShortcut T x u = .raised (u.raise .badSymbol) := if_pos h

/-- Settles O15: the field is read by BR.GET (R84); the count is recorded unless it is 0, the symbol if it is one. -/
theorem ctCountAndDegen : Obligations.CtCountAndDegen := by
  unfold Obligations.CtCountAndDegen
  intro T s hr
  have hpeek := hr.peek (countBits_le T)
  obtain ⟨b, hb, hadv⟩ := hr.exists_consume T.countBits
  have hdegen : exec (.ctDegen T) s = (recordShortcut T (s.peek T.countBits) (s.consume T.countBits)).outcome := rfl
  rw [← hpeek]
  refine ⟨?count, fun hx => ?symbol, fun hx => ?past⟩
  case count =>
    have hcount : exec (.ctCount T) s =
        .next ((recordCount T (s.peek T.countBits) (s.consume T.countBits)).setRet (s.peek T.countBits)) := rfl
    rw [hcount, hb]
    by_cases h0 : s.peek T.countBits = 0
    · rw [recordCount, if_pos h0]
      exact ⟨_, rfl, rfl, hadv.of_same rfl rfl rfl, by rw [State.setRet_ret, if_pos h0]; rfl, fun _ _ => rfl, rfl⟩
    · rw [recordCount, if_neg h0]
      refine ⟨_, rfl, rfl, hadv.of_same rfl rfl rfl, ?_, fun x hx => State.tab_setTab_other (s.setBr b) T x _ hx, rfl⟩
      rw [State.setRet_ret, if_neg h0]
      exact State.tab_setTab_same (s.setBr b) T _
  case symbol =>
    rw [hdegen, hb, recordShortcut_fits hx]
    exact ⟨_, rfl, hadv.of_same rfl rfl rfl, State.tab_setTab_same (s.setBr b) T _,
      fun x hx => State.tab_setTab_other (s.setBr b) T x _ hx, rfl⟩
  case past =>
    rw [hdegen, hb, recordShortcut_past hx]
    exact ⟨_, rfl, hadv, rfl⟩

/-- Settles O17: the two bits are read by BR.GET (R84), and then the index is within the alphabet or past it. -/
theorem ctHskipMoves : Obligations.CtHskipMoves := by
  unfold Obligations.CtHskipMoves
  intro T i s hr
  have hskip : exec (.ctHskip T i) s = (skipIndices T i (s.peek 2) (s.consume 2)).outcomeRet := rfl
  rw [hskip, hr.peek (by decide)]
  obtain ⟨b, hb, hadv⟩ := hr.exists_consume 2
  rw [hb]
  refine ⟨fun h => ?_, fun h => ?_⟩
  · rw [skipIndices_fits h]
    exact ⟨_, rfl, rfl, hadv.of_same rfl rfl rfl, rfl⟩
  · rw [skipIndices_overflow h]
    exact ⟨_, rfl, hadv, rfl⟩

/-! ## CT.HLEN -/

theorem escapeBits_eq (l : Nat) : escapeBits l = bitsOf 3 7 ++ (List.replicate (l - 7) true ++ [false]) := by
  simp [escapeBits, bitsOf, List.replicate_add, Nat.testBit_succ]

theorem hlenBits_escape {l : Nat} (h : ¬ l < 7) :
    hlenBits l = bitsOf 3 7 ++ (List.replicate (l - 7) true ++ [false]) := by
  rw [hlenBits, if_neg h, escapeBits_eq]

theorem hlenBits_le {l : Nat} (hl : l ≤ 16) : (hlenBits l).length ≤ 13 := by
  by_cases h : l < 7
  · rw [hlenBits_length_direct h]
    decide
  · simp only [hlenBits_escape h, List.length_append, Laws.bitsOf_length, List.length_replicate, List.length_singleton]
    omega

/-- CT.HLEN reads the length its bits spell (R93, R55, R56). -/
theorem readHlen_of_spells (hr : s.readerOk) {l : Nat} (hl : l ≤ 16) (h : s.spells (hlenBits l)) :
    readHlen s = .ok l (s.consume (hlenBits l).length) := by
  obtain ⟨more, hreg⟩ := hr.window h ((hlenBits_le hl).trans (by decide))
  by_cases h7 : l < 7
  · have htop : topBits s.br.reg 3 = l := by
      rw [hreg, hlenBits, if_pos h7, topBits_windowOf_bitsOf (by decide) (by omega)]
    rw [hlenBits_length_direct h7, readHlen_direct (by omega), htop]
  · rw [hlenBits_escape h7] at hreg
    have htop : topBits s.br.reg 3 = 7 := by
      rw [hreg, List.append_assoc, topBits_windowOf_bitsOf (by decide) (by decide)]
    have hones : onesAt s.br.reg 10 3 = l - 7 := by
      rw [hreg]
      exact onesAt_windowOf (bitsOf 3 7) more (by omega) (by decide)
    have hlen : (hlenBits l).length = 3 + (l - 7) + 1 := by
      simp only [hlenBits_escape h7, List.length_append, Laws.bitsOf_length, List.length_replicate,
        List.length_singleton, Nat.add_assoc]
    rw [readHlen_escape htop, hones, if_pos (by omega), hlen, Nat.add_sub_cancel' (by omega)]

/-- The tenth 1 of the tail is one too many (R164). -/
theorem readHlen_of_illegal (hr : s.readerOk) (h : s.spells (List.replicate 13 true)) :
    readHlen s = .raised ((s.consume 13).raise .badLength) := by
  obtain ⟨more, hreg⟩ := hr.window h (by decide)
  rw [show List.replicate 13 true = bitsOf 3 7 ++ List.replicate 10 true from rfl] at hreg
  have htop : topBits s.br.reg 3 = 7 := by
    rw [hreg, List.append_assoc, topBits_windowOf_bitsOf (by decide) (by decide)]
  have hones : onesAt s.br.reg 10 3 = 10 := by
    rw [hreg]
    exact onesAt_windowOf_all (bitsOf 3 7) more (by decide)
  rw [readHlen_escape htop, hones, if_neg (Nat.lt_irrefl 10)]

/-- Settles O16: the register shows the bits of the length, or the thirteen ones. -/
theorem ctHlenReads : Obligations.CtHlenReads := by
  unfold Obligations.CtHlenReads
  intro s hr
  have hhlen : exec .ctHlen s = (readHlen s).outcomeRet := rfl
  rw [hhlen]
  refine ⟨fun l hl h => ?_, fun h => ?_⟩
  · rw [readHlen_of_spells hr hl h]
    obtain ⟨b, hb, hadv⟩ := hr.exists_consume (hlenBits l).length
    rw [hb]
    exact ⟨_, rfl, rfl, hadv.of_same rfl rfl rfl, rfl⟩
  · rw [readHlen_of_illegal hr h]
    exact ⟨_, rfl, hr.consume 13, (s.consume_readsOnly 13).eq⟩

/-! ## CT.DECODE -/

/-- A word found by looking ahead is the code of its symbol, and no shorter than those tried (R100, R106). -/
theorem matchCode_code {n cb : Nat} {t : Table n cb} {w : Word} {k l x m : Nat}
    (h : matchCode t w k l = some (x, m)) : l ≤ m ∧ t.codeAt x = topBits w m := by
  induction k generalizing l with
  | zero => cases h
  | succ k ih =>
    rw [matchCode] at h
    cases hl : t.lookup l (topBits w l) with
    | some y =>
      rw [hl] at h
      cases h
      exact ⟨Nat.le_refl _, (Table.lookup_eq_some hl).2.2⟩
    | none =>
      rw [hl] at h
      obtain ⟨hm, hcode⟩ := ih h
      exact ⟨Nat.le_of_succ_le hm, hcode⟩

theorem codeBits_of_sv {n cb : Nat} {t : Table n cb} (hsv : t.sv = false) (x : Nat) :
    codeBits t x = bitsOf (t.lenAt x) (t.codeAt x) := by
  rw [codeBits, hsv]
  rfl

theorem codeWordAt_of_sv {n cb : Nat} {t : Table n cb} (hsv : t.sv = false) (w : Word) :
    codeWordAt t w = matchCode t w Config.maxLen 1 := by
  rw [codeWordAt, hsv]
  rfl

/-- A code word that stands in the stream is found by looking ahead, if no word of the code begins another (R69,
R106). -/
theorem State.readerOk.codeWordAt_of_spells (hr : s.readerOk) (hsv : (s.tab T).sv = false)
    (hp : (s.tab T).prefixFree) {x : Nat} (h1 : 1 ≤ (s.tab T).lenAt x) (h16 : (s.tab T).lenAt x ≤ 16)
    (h : s.spells (codeBits (s.tab T) x)) : codeWordAt (s.tab T) s.br.reg = some (x, (s.tab T).lenAt x) := by
  rw [codeBits_of_sv hsv] at h
  have htop := hr.topBits h (by omega) (hp.1 x (by omega))
  rw [codeWordAt_of_sv hsv]
  exact matchCode_of_word hp (by omega) htop Config.maxLen Nat.one_ne_zero h1 (by rw [Config.maxLen]; omega)

/-- A word found by looking ahead stands in the stream (R69, R83). -/
theorem State.readerOk.spells_codeBits (hr : s.readerOk) (hsv : (s.tab T).sv = false) {x m : Nat}
    (h : codeWordAt (s.tab T) s.br.reg = some (x, m)) :
    1 ≤ (s.tab T).lenAt x ∧ (s.tab T).lenAt x ≤ 16 ∧ s.spells (codeBits (s.tab T) x) := by
  obtain ⟨-, hm, -⟩ := codeWordAt_eq_some h
  rw [codeWordAt_of_sv hsv] at h
  obtain ⟨-, rfl, -⟩ := matchCode_eq_some h
  obtain ⟨h1, hcode⟩ := matchCode_code h
  refine ⟨h1, hm, ?_⟩
  rw [codeBits_of_sv hsv, hcode]
  exact hr.spells_topBits (by omega)

/-- Settles O21: looking ahead finds the word that stands in the stream, and no other, and CT.DECODE answers what
looking ahead finds. -/
theorem decodeFinds : Obligations.DecodeFinds := by
  unfold Obligations.DecodeFinds
  intro T s hr hsv
  have hdecode : exec (.ctDecode T) s = (decodeSymbol T s).outcomeRet := rfl
  rw [hdecode]
  refine ⟨fun x hp h1 h16 h => ?found, fun hnone => ?none⟩
  case found =>
    rw [decodeSymbol_of_word (hr.codeWordAt_of_spells hsv hp h1 h16 h)]
    obtain ⟨b, hb, hadv⟩ := hr.exists_consume ((s.tab T).lenAt x)
    rw [hb]
    exact ⟨_, rfl, rfl, hadv.of_same rfl rfl rfl, rfl⟩
  case none =>
    have hword : codeWordAt (s.tab T) s.br.reg = none := by
      rw [Option.eq_none_iff_forall_ne_some]
      rintro ⟨x, m⟩ h
      obtain ⟨h1, h16, hspells⟩ := hr.spells_codeBits hsv h
      exact hnone x h1 h16 hspells
    rw [decodeSymbol_of_none hword]
    exact ⟨_, rfl, hr.consume 16, (s.consume_readsOnly 16).eq⟩

/-- Settles O22: CT.DECODE answers what looking ahead finds (`decodeLoop_eq`); of a degenerate table it reads no bit. -/
theorem decodeLookAhead : Obligations.DecodeLookAhead := by
  unfold Obligations.DecodeLookAhead
  intro T s
  refine ⟨fun hsv => ?_, fun x k h => congrArg Res.outcomeRet (decodeSymbol_of_word h),
    fun h => congrArg Res.outcomeRet (decodeSymbol_of_none h)⟩
  exact congrArg Res.outcomeRet (if_pos hsv)

end Sys2Proof.Machine
end

section
/-! CT.ASSIGN (41_codetable.md R102, R104; O18 to O20): what it leaves if the lengths take at most the whole code space,
and if they take more. -/

namespace Sys2Proof.Machine

variable {s u : State} {T : TableId} {n cb : Nat}

/-! ## The codes kept -/

theorem assignPass_kept {l : Nat} {xs : List (BitVec 5)} (cs : List (BitVec 16)) (ctr : Nat) {a : Nat}
    (ha : lenIn xs a ≠ l) : codeIn (assignPass l xs cs ctr).codes a = codeIn cs a := by
  induction xs generalizing cs ctr a with
  | nil => rfl
  | cons x xs ih =>
    cases cs with
    | nil => rfl
    | cons c cs =>
      simp only [assignPass]
      split
      · split
        · rfl
        · cases a with
          | zero => exact absurd ‹x.toNat = l› ha
          | succ a => exact ih cs _ ha
      · cases a with
        | zero => rfl
        | succ a => exact ih cs _ ha

/-- The passes are for the lengths from 1 on, so a symbol of length 0 keeps its code (R102). -/
theorem assignFrom_kept {xs : List (BitVec 5)} (k : Nat) {l : Nat} (cs : List (BitVec 16)) (ctr : Nat) (hl : 1 ≤ l)
    {a : Nat} (ha : lenIn xs a = 0) : codeIn (assignFrom xs k l cs ctr).codes a = codeIn cs a := by
  induction k generalizing l cs ctr with
  | zero => rfl
  | succ k ih =>
    have hpass := assignPass_kept (l := l) cs ctr (show lenIn xs a ≠ l by omega)
    simp only [assignFrom]
    split
    · exact (ih _ _ (Nat.le_succ_of_le hl)).trans hpass
    · exact hpass

theorem Table.withCodes_codeAt_unused (t : Table n cb) {a : Nat} (ha : t.lenAt a = 0) :
    t.withCodes.codeAt a = t.codeAt a := by
  rw [t.withCodes_codeAt, t.codeAt_eq_codeIn]
  exact assignFrom_kept Config.maxLen _ 0 (Nat.le_refl 1) (by rwa [← t.lenAt_eq_lenIn])

/-! ## The order of the codes -/

/-- Codes of one length rise with the symbol, for their slots follow one another (R104). -/
theorem Table.withCodes_rising (t : Table n cb) (hlens : t.lensOk) (hok : t.assigned.ok = true) :
    t.withCodes.rising := by
  intro a b hab _ h0 he
  rw [Table.lenAt_withCodes] at h0
  rw [Table.lenAt_withCodes, Table.lenAt_withCodes] at he
  rw [t.withCodes_codeAt, t.withCodes_codeAt]
  have hb : t.lenAt b ≤ 16 := hlens b
  rw [t.lenAt_eq_lenIn] at h0 hb
  rw [t.lenAt_eq_lenIn, t.lenAt_eq_lenIn] at he
  have hslots := (t.assigned_placed hok).apart a b h0 (by omega) (.inr ⟨he, hab⟩)
  rw [slotEnd, slotStart, he] at hslots
  exact Nat.le_of_mul_le_mul_right hslots (Nat.two_pow_pos _)

/-! ## CT.ASSIGN -/

theorem assignCodes_room (hlens : (u.tab T).lensOk) (h : kraft (u.tab T).lens ≤ 2 ^ 16) :
    assignCodes T u = .ok () (u.setTab T (u.tab T).withCodes) := if_pos ((Table.assigned_ok_iff hlens).2 h)

theorem assignCodes_excess (hlens : (u.tab T).lensOk) (h : 2 ^ 16 < kraft (u.tab T).lens) :
    assignCodes T u = .raised ((u.setTab T (u.tab T).withCodes).raise .oversubscribed) :=
  if_neg fun hok => Nat.not_le_of_lt h ((Table.assigned_ok_iff hlens).1 hok)

/-- The table with its canonical code put in its place (R102). -/
theorem assignedFrom_withCodes (hlens : (u.tab T).lensOk) (h : kraft (u.tab T).lens ≤ 2 ^ 16) :
    u.assignedFrom (u.setTab T (u.tab T).withCodes) T (u.tab T).lenAt := by
  unfold State.assignedFrom
  rw [State.tab_setTab_same]
  exact ⟨fun _ => rfl, Table.withCodes_canonical hlens h, rfl, rfl, rfl⟩

theorem exec_ctAssign (T : TableId) (s : State) : exec (.ctAssign T) s = (assignCodes T s).outcome := rfl

/-- Settles O18: the assignment finds room, and the table gets its canonical code. -/
theorem assignCanonical : Obligations.AssignCanonical := by
  unfold Obligations.AssignCanonical
  intro T s hlens h
  refine ⟨_, by rw [exec_ctAssign, assignCodes_room hlens h]; rfl, assignedFrom_withCodes hlens h, fun a ha => ?_,
    fun x hx => s.tab_setTab_other T x _ hx, rfl⟩
  rw [State.tab_setTab_same]
  exact Table.withCodes_codeAt_unused _ ha

/-- Settles O19: the assignment runs out of room, having written nothing but codes. -/
theorem assignOversubscribed : Obligations.AssignOversubscribed := by
  unfold Obligations.AssignOversubscribed
  intro T s hlens h
  refine ⟨_, by rw [exec_ctAssign, assignCodes_excess hlens h]; rfl, ?_, fun x hx => s.tab_setTab_other T x _ hx, rfl⟩
  rw [State.tab_setTab_same]
  rfl

/-- Settles O20: without a fault the assignment found room, and then the slots of the codes lie apart and in order. -/
theorem assignPrefixFree : Obligations.AssignPrefixFree := by
  unfold Obligations.AssignPrefixFree
  intro T s t hlens ht hst
  rcases (assignCodes_leaves T s).next ht with ⟨hok, rfl⟩ | ⟨e, v, rfl, -⟩
  · rw [State.tab_setTab_same]
    exact ⟨Table.withCodes_prefixFree _ hlens hok, Table.withCodes_rising _ hlens hok⟩
  · exact absurd rfl hst

end Sys2Proof.Machine
end

section
/-! The two constructions (41_codetable.md R95, R101): both clear the table and read a count; a count of 0 makes a
degenerate table (O24), any other is followed by lengths, of which a list `ls` has been read when `State.readTo` says
so, and by CT.ASSIGN. -/

namespace Sys2Proof.Machine

variable {s t u : State} {T : TableId} {a b k l n : Nat} {ls : List Nat} {skip : Option Nat}

/-! ## Lists of lengths -/

theorem getD_snoc (ls : List Nat) (l a : Nat) :
    (ls ++ [l]).getD a 0 = if a = ls.length then l else ls.getD a 0 := by
  rcases Nat.lt_trichotomy a ls.length with h | h | h
  · rw [if_neg h.ne, List.getD_append _ _ _ _ h]
  · rw [if_pos h, List.getD_append_right _ _ _ _ h.ge, h, Nat.sub_self]
    rfl
  · rw [if_neg h.ne', List.getD_eq_default _ _ h.le, List.getD_eq_default]
    rw [List.length_append, List.length_singleton]
    exact h

/-- Zeros at the end say nothing new: past the list every length is 0. -/
theorem getD_append_zeros (ls : List Nat) (k a : Nat) : (ls ++ List.replicate k 0).getD a 0 = ls.getD a 0 := by
  by_cases h : a < ls.length
  · rw [List.getD_append _ _ _ _ h]
  · rw [List.getD_append_right _ _ _ _ (Nat.le_of_not_lt h), List.getD_eq_getElem?_getD,
      List.getElem?_getD_replicate_default_eq, List.getD_eq_default _ _ (Nat.le_of_not_lt h)]

theorem getD_le {c : Nat} (h : ∀ l, l ∈ ls → l ≤ c) (a : Nat) : ls.getD a 0 ≤ c := by
  by_cases ha : a < ls.length
  · rw [List.getD_eq_getElem _ _ ha]
    exact h _ (List.getElem_mem ha)
  · rw [List.getD_eq_default _ _ (Nat.le_of_not_lt ha)]
    exact Nat.zero_le c

theorem kraft_zeros (k : Nat) : kraft (List.replicate k 0) = 0 := by
  induction k with
  | zero => rfl
  | succ k ih => rw [List.replicate_succ, kraft, if_pos rfl, ih]

/-- The code space of an alphabet whose first symbols have the lengths `ls` and whose others have none. -/
theorem kraft_getD {N : Nat} (h : ls.length ≤ N) : kraft ((List.range N).map (ls.getD · 0)) = kraft ls := by
  have hlist : (List.range N).map (ls.getD · 0) = ls ++ List.replicate (N - ls.length) 0 := by
    refine List.ext_getElem (by simp [h]) fun a ha hb => ?_
    rw [List.getElem_map, List.getElem_range, ← getD_append_zeros ls (N - ls.length), List.getD_eq_getElem _ _ hb]
  rw [hlist, kraft_append, kraft_zeros, Nat.add_zero]

/-! ## How far the reader has moved -/

theorem State.advanced.trans (h : s.advanced u a) (h' : u.advanced t b) : s.advanced t (a + b) :=
  ⟨by rw [h'.1, h.1, Nat.add_assoc], h'.2⟩

/-- The distance is measured from where the reader stood. -/
theorem State.advanced.from_same (h : u.advanced t k) (hbr : u.br = s.br) : s.advanced t k :=
  ⟨hbr ▸ h.1, h.2⟩

/-! ## A list of lengths read so far -/

/-- More bits are read. -/
theorem State.readTo.consume {lens : Nat → Nat} (h : s.readTo u T lens k) (n : Nat) :
    s.readTo (u.consume n) T lens (k + n) where
  builds := h.builds.trans (u.consume_buildsOnly n)
  advanced := h.advanced.trans (h.advanced.2.consume n)
  others x hx := (u.tab_consume n x).trans (h.others x hx)
  lenAt a := by rw [u.tab_consume, h.lenAt]
  sv := by rw [u.tab_consume, h.sv]
  ss := by rw [u.tab_consume, h.ss]
  used := by rw [u.tab_consume, h.used]
  code := by rw [u.tab_consume, h.code]

/-- The next length is stored (R95, R99). -/
theorem State.readTo.storeNext (h : s.readTo u T (ls.getD · 0) k) (hi : ls.length < T.size) (hl : l ≤ 16) :
    s.readTo (storeLen T ls.length l u) T ((ls ++ [l]).getD · 0) k := by
  rw [funext (getD_snoc ls l)]
  exact h.store hi hl

/-- Indices are passed over (R94, R97, R98). -/
theorem State.readTo.zeros (h : s.readTo u T (ls.getD · 0) k) (m : Nat) :
    s.readTo u T ((ls ++ List.replicate m 0).getD · 0) k := by
  rw [funext (getD_append_zeros ls m)]
  exact h

/-! ## The count -/

/-- The table cleared, the count field read, and the count `n` recorded (R90, R91). -/
def State.counted (s : State) (T : TableId) (n : Nat) : State := recordCount T n ((clearTable T s).consume T.countBits)

theorem State.readerOk.clearTable (hr : s.readerOk) (T : TableId) : (clearTable T s).readerOk := hr.setTab T _

theorem State.counted_tab (s : State) (T : TableId) (h : n ≠ 0) :
    (s.counted T n).tab T = (s.tab T).clear.setUsed n := by
  rw [State.counted, recordCount, if_neg h, State.tab_setTab_same, State.tab_consume, clearTable,
    State.tab_setTab_same]

theorem State.counted_buildsOnly (s : State) (T : TableId) (n : Nat) : s.buildsOnly (s.counted T n) :=
  ((clearTable_buildsOnly T s).trans (State.consume_buildsOnly _ _)).trans (recordCount_buildsOnly ..)

theorem State.counted_others (s : State) (T : TableId) (n : Nat) : s.othersKept (s.counted T n) T := by
  intro x hx
  have hclear : ((clearTable T s).consume T.countBits).tab x = s.tab x := by
    rw [State.tab_consume]
    exact s.tab_setTab_other T x _ hx
  unfold State.counted recordCount
  split
  · exact hclear
  · exact (State.tab_setTab_other _ T x _ hx).trans hclear

theorem State.readerOk.counted (hr : s.readerOk) (T : TableId) (n : Nat) :
    s.advanced (s.counted T n) T.countBits := by
  have h := ((hr.clearTable T).consume T.countBits).from_same (s := s) rfl
  unfold State.counted recordCount
  split
  · exact h
  · exact h.of_same rfl rfl rfl

/-- After the count no length has been read (R90). -/
theorem State.readerOk.counted_readTo (hr : s.readerOk) (T : TableId) (h : n ≠ 0) :
    (s.counted T n).readTo (s.counted T n) T (([] : List Nat).getD · 0) 0 := by
  have h0 : ∀ a, ((s.counted T n).tab T).lenAt a = 0 := fun a => by
    rw [s.counted_tab T h]
    exact Table.lenAt_zero T.size T.countBits a
  have hread := (hr.counted T n).2.readTo T 0
  rw [State.consume_zero, funext h0] at hread
  exact hread

/-- A count of 0 is followed by the single symbol (R92, R95). -/
theorem initHybrid_zero (m : HybCountMode) (skip : Option Nat) (h : s.peek T.countBits = 0) :
    initHybrid m T skip s = readShortcut T (s.counted T 0) := by
  unfold State.counted
  rw [← h]
  exact if_pos h

theorem initCoded_zero (m : CodCountMode) (d : TableId) (h : s.peek T.countBits = 0) :
    initCoded m T d s = readShortcut T (s.counted T 0) := by
  unfold State.counted
  rw [← h]
  exact if_pos h

/-- Any other count is followed by the lengths, and then the code is assigned (R95). -/
theorem initHybrid_counted (m : HybCountMode) (skip : Option Nat) (h : s.peek T.countBits = n) (hn : n ≠ 0) :
    initHybrid m T skip s =
      (hybLoop m T skip T.size ⟨n, 0, 0⟩ (s.counted T n)).andThen fun _ u => assignCodes T u := by
  subst h
  exact if_neg hn

theorem initCoded_counted (m : CodCountMode) (d : TableId) (h : s.peek T.countBits = n) (hn : n ≠ 0) :
    initCoded m T d s =
      (codLoop m T d (T.size + 1) ⟨n, 0, 0⟩ (s.counted T n)).andThen fun _ u => assignCodes T u := by
  subst h
  exact if_neg hn

theorem exec_ctInitHybrid (T : TableId) (skip : Option Nat) (s : State) :
    exec (.ctInitHybrid T skip) s = (initHybrid Config.hybCountMode T skip s).outcome := rfl

theorem exec_ctInitCoded (T d : TableId) (s : State) :
    exec (.ctInitCoded T d) s = (initCoded Config.codCountMode T d s).outcome := rfl

/-- Settles O24: either construction comes to CT.DEGEN, which reads the symbol behind the count. -/
theorem initDegenerate : Obligations.InitDegenerate := by
  unfold Obligations.InitDegenerate
  intro T skip i s x hi hr hx hspells
  have hzero : s.peek T.countBits = 0 := hr.peek_bitsOf hspells.left (countBits_le T) (Nat.two_pow_pos _)
  have hexec : exec i s = (readShortcut T (s.counted T 0)).outcome := by
    rcases hi with rfl | ⟨rfl, rfl⟩
    · rw [exec_ctInitHybrid, initHybrid_zero _ _ hzero]
    · rw [exec_ctInitCoded, initCoded_zero _ _ hzero]
  have hcount := hr.counted T 0
  have hsymbol : (s.counted T 0).peek T.countBits = x := by
    refine hcount.2.peek_bitsOf (hspells.right (s.counted_buildsOnly T 0) ?_) (countBits_le T) hx
    rwa [Laws.bitsOf_length]
  have hread : readShortcut T (s.counted T 0) = recordShortcut T x ((clearTable T s).consume (2 * T.countBits)) := by
    rw [Nat.two_mul, ← State.consume_consume, ← hsymbol]
    rfl
  have htab : (clearTable T s).tab T = (s.tab T).clear := s.tab_setTab_same T _
  have hothers : s.othersKept (clearTable T s) T := fun U hU => s.tab_setTab_other T U _ hU
  obtain ⟨b, hb, hadv⟩ := (hr.clearTable T).exists_consume (2 * T.countBits)
  have hadv : s.advanced ((clearTable T s).setBr b) (2 * T.countBits) := hadv.from_same rfl
  rw [hexec, hread, hb]
  refine ⟨fun hsize => ?symbol, fun hsize => ?past⟩
  case symbol =>
    rw [recordShortcut_fits hsize]
    refine ⟨_, rfl, hadv.of_same rfl rfl rfl, ?_, State.othersKept.setTab hothers _, rfl⟩
    rw [State.tab_setTab_same, State.tab_setBr, htab]
    rfl
  case past =>
    rw [recordShortcut_past hsize]
    exact ⟨_, rfl, hadv, htab, hothers, rfl⟩

/-! ## The end of a description -/

/-- From `s` to `t` the table `T` has been built from a description of `k` bits that counts `n` entries: its symbols
have the lengths `ls`, every other symbol 0, and their canonical codes (R95, R101, R102). -/
structure State.described (s t : State) (T : TableId) (ls : List Nat) (n k : Nat) : Prop where
  advanced : s.advanced t k
  lenAt : ∀ a, (t.tab T).lenAt a = ls.getD a 0
  canonical : (t.tab T).canonical
  sv : (t.tab T).sv = false
  used : (t.tab T).used.toNat = n
  ss : (t.tab T).ss = (s.tab T).ss
  others : s.othersKept t T
  builds : s.buildsOnly t

/-- CT.ASSIGN after lengths that take at most the whole code space (R102). -/
theorem assignCodes_described (hr : s.readerOk) (h0 : n ≠ 0) (hn : n < 2 ^ T.countBits)
    (h : (s.counted T n).readTo u T (ls.getD · 0) k) (hle : ∀ l, l ∈ ls → l ≤ 16) (hlen : ls.length ≤ T.size)
    (hroom : kraft ls ≤ 2 ^ 16) :
    ∃ t, assignCodes T u = .ok () t ∧ s.described t T ls n (T.countBits + k) := by
  have htab := s.counted_tab T h0
  have hok : (u.tab T).lensOk := fun a => (h.lenAt a).le.trans (getD_le hle a)
  have hspace : kraft (u.tab T).lens ≤ 2 ^ 16 := by rwa [Table.lens_eq h.lenAt, kraft_getD hlen]
  obtain ⟨hlens, hcode, hsv, hss, hused⟩ := assignedFrom_withCodes hok hspace
  refine ⟨_, assignCodes_room hok hspace, ?_, fun a => (hlens a).trans (h.lenAt a), hcode, ?_, ?_, ?_, ?_, ?_⟩
  · exact (hr.counted T n).trans (h.advanced.of_same rfl rfl rfl)
  · rw [hsv, h.sv, htab]
    rfl
  · rw [hused, h.used, htab]
    exact Nat.mod_eq_of_lt hn
  · rw [hss, h.ss, htab]
    rfl
  · exact State.othersKept.setTab (fun x hx => (h.others x hx).trans (s.counted_others T n x hx)) _
  · exact ((s.counted_buildsOnly T n).trans h.builds).trans (u.setTab_buildsOnly T _)

end Sys2Proof.Machine
end

section
/-! The hybrid construction (41_codetable.md R95, R93, R94; O25): the loop reads what the rest of the description
spells, by induction on the lengths that are left. -/

namespace Sys2Proof.Machine

variable {s u : State} {T : TableId} {k n : Nat} {ls : List Nat} {skip : Option Nat}

/-! ## The rest of a description -/

/-- What the lengths `ls` say from the index `i` on, `g l` for each length `l` and `z` where a run-skip of `k` is due
(R95): with their bits, the rest of a hybrid description; with the lengths themselves, what it gives the symbols. -/
def withSkip {α : Type} (g : Nat → List α) (z : List α) (skip : Option Nat) (k : Nat) : Nat → List Nat → List α
  | _, [] => []
  | i, l :: ls =>
    if skip = some (i + 1) then g l ++ (z ++ withSkip g z skip k (i + 1 + k) ls)
    else g l ++ withSkip g z skip k (i + 1) ls

section withSkip

variable {α : Type} {g : Nat → List α} {z : List α} {i p : Nat}

theorem withSkip_due (h : skip = some (i + 1)) (l : Nat) (ls : List Nat) :
    withSkip g z skip k i (l :: ls) = g l ++ (z ++ withSkip g z skip k (i + 1 + k) ls) := if_pos h

theorem withSkip_next (h : skip ≠ some (i + 1)) (l : Nat) (ls : List Nat) :
    withSkip g z skip k i (l :: ls) = g l ++ withSkip g z skip k (i + 1) ls := if_neg h

/-- The index rises, so a position that has been passed is not met again. -/
theorem withSkip_past (h : ∀ p, skip = some p → p ≤ i) (ls : List Nat) :
    withSkip g z skip k i ls = ls.flatMap g := by
  induction ls generalizing i with
  | nil => rfl
  | cons l ls ih =>
    rw [withSkip_next fun he => Nat.not_succ_le_self i (h _ he), ih fun p hp => Nat.le_succ_of_le (h p hp)]
    rfl

/-- A position that lies ahead is met once, if the lengths reach it. -/
theorem withSkip_ahead (h : i < p) (ls : List Nat) :
    withSkip g z (some p) k i ls =
      (ls.take (p - i)).flatMap g ++ ((if p ≤ i + ls.length then z else []) ++ (ls.drop (p - i)).flatMap g) := by
  induction ls generalizing i with
  | nil =>
    rw [if_neg (by simpa using h)]
    simp [withSkip]
  | cons l ls ih =>
    obtain ⟨d, hd⟩ := Nat.exists_eq_add_of_lt h
    have hsub : p - i = d + 1 := by omega
    rw [hsub, List.take_succ_cons, List.drop_succ_cons, List.flatMap_cons, List.length_cons]
    by_cases he : p = i + 1
    · obtain rfl : d = 0 := by omega
      rw [withSkip_due (congrArg some he), withSkip_past fun q hq => by cases hq; omega, if_pos (by omega)]
      simp
    · have hsub' : p - (i + 1) = d := by omega
      rw [withSkip_next fun hs => he (Option.some.inj hs), ih (by omega), hsub', List.append_assoc,
        Nat.add_right_comm, ← Nat.add_assoc]

end withSkip

/-- The bits of a hybrid description (R51, R95). -/
theorem hybridBits_eq (cb : Nat) (skip : Option Nat) (ls : List Nat) (k : Nat) :
    hybridBits cb skip ls k = bitsOf cb ls.length ++ withSkip hlenBits (bitsOf 2 k) skip k 0 ls := by
  unfold hybridBits
  congr 1
  cases skip with
  | none => exact (withSkip_past (skip := none) nofun ls).symm
  | some p =>
    dsimp only
    by_cases hp : 0 < p
    · rw [withSkip_ahead hp, Nat.zero_add, Nat.sub_zero]
      by_cases hlen : p ≤ ls.length
      · rw [if_pos ⟨hp, hlen⟩, if_pos hlen, List.append_assoc]
      · rw [if_neg fun h => hlen h.2, if_neg hlen, List.take_of_length_le (by omega), List.drop_of_length_le (by omega)]
        simp
    · rw [if_neg fun h => hp h.1, withSkip_past fun q hq => by cases hq; omega]

/-- The lengths it gives (R95). -/
theorem hybridLens_eq (skip : Option Nat) (ls : List Nat) (k : Nat) :
    hybridLens skip ls k = withSkip (fun l => [l]) (List.replicate k 0) skip k 0 ls := by
  unfold hybridLens
  cases skip with
  | none =>
    rw [withSkip_past (skip := none) nofun ls, List.flatMap_singleton']
  | some p =>
    dsimp only
    by_cases hp : 0 < p
    · rw [withSkip_ahead hp, Nat.zero_add, Nat.sub_zero, List.flatMap_singleton', List.flatMap_singleton']
      by_cases hlen : p ≤ ls.length
      · rw [if_pos ⟨hp, hlen⟩, if_pos hlen, List.append_assoc]
      · rw [if_neg fun h => hlen h.2, if_neg hlen, List.take_of_length_le (by omega), List.drop_of_length_le (by omega)]
        simp
    · rw [if_neg fun h => hp h.1, withSkip_past fun q hq => by cases hq; omega, List.flatMap_singleton']

theorem mem_withSkip {i l : Nat} (h : l ∈ withSkip (fun l => [l]) (List.replicate k 0) skip k i ls) :
    l = 0 ∨ l ∈ ls := by
  induction ls generalizing i with
  | nil => cases h
  | cons x ls ih =>
    by_cases hdue : skip = some (i + 1)
    · rw [withSkip_due hdue, List.mem_append, List.mem_append, List.mem_singleton] at h
      rcases h with rfl | h | h
      · exact .inr List.mem_cons_self
      · exact .inl (List.eq_of_mem_replicate h)
      · exact (ih h).imp_right (List.mem_cons_of_mem x)
    · rw [withSkip_next hdue, List.mem_append, List.mem_singleton] at h
      rcases h with rfl | h
      · exact .inr List.mem_cons_self
      · exact (ih h).imp_right (List.mem_cons_of_mem x)

theorem length_le_withSkip (skip : Option Nat) (k i : Nat) (ls : List Nat) :
    ls.length ≤ (withSkip (fun l => [l]) (List.replicate k 0) skip k i ls).length := by
  induction ls generalizing i with
  | nil => exact Nat.zero_le _
  | cons l ls ih =>
    have h := ih (i + 1)
    have h' := ih (i + 1 + k)
    by_cases hdue : skip = some (i + 1)
    · simp only [withSkip_due hdue, List.length_append, List.length_cons, List.length_nil]
      omega
    · simp only [withSkip_next hdue, List.length_append, List.length_cons, List.length_nil]
      omega

/-- The zeros of a skip take no code space (R94). -/
theorem kraft_withSkip (skip : Option Nat) (k i : Nat) (ls : List Nat) :
    kraft (withSkip (fun l => [l]) (List.replicate k 0) skip k i ls) = kraft ls := by
  induction ls generalizing i with
  | nil => rfl
  | cons l ls ih =>
    by_cases hdue : skip = some (i + 1)
    · rw [withSkip_due hdue, kraft_append, kraft_append, kraft_zeros, Nat.zero_add, ih, ← kraft_append]
      rfl
    · rw [withSkip_next hdue, kraft_append, ih, ← kraft_append]
      rfl

/-! ## The loop -/

theorem hybLoop_end {f i r : Nat} (h : n ≤ r) : hybLoop Config.hybCountMode T skip f ⟨n, i, r⟩ u = .ok () u := by
  have hmore : ¬ hybMore Config.hybCountMode ⟨n, i, r⟩ = true := fun hm => Nat.not_lt_of_le h ((hybMore_iff _).1 hm)
  cases f with
  | zero | succ f => exact if_neg hmore

/-- A pass of the loop (R95). -/
theorem hybLoop_pass {f i r : Nat} (hr : r < n) (hi : i < T.size) (u : State) :
    hybLoop Config.hybCountMode T skip (f + 1) ⟨n, i, r⟩ u = (readHlen u).andThen fun l w =>
      (hybSkip T skip ⟨n, i + 1, r + 1⟩ (storeLen T i l w)).andThen fun v y =>
        hybLoop Config.hybCountMode T skip f v y := by
  rw [hybLoop, if_pos ((hybMore_iff ⟨n, i, r⟩).2 hr), if_neg (Nat.not_le_of_lt hi)]
  rfl

theorem hybSkip_not_due {v : Scan} (h : skip ≠ some v.i) (u : State) : hybSkip T skip v u = .ok v u :=
  if_neg fun hdue => h (of_decide_eq_true hdue)

/-- The skip that is due and stays in the alphabet (R94, R95). -/
theorem hybSkip_of_spells {i r : Nat} (h : skip = some i) (hr : u.readerOk) (hu : u.spells (bitsOf 2 k)) (hk : k < 4)
    (hi : i + k ≤ T.size) : hybSkip T skip ⟨n, i, r⟩ u = .ok ⟨n, i + k, r⟩ (u.consume 2) := by
  have hdue : skipDue skip ⟨n, i, r⟩ = true := decide_eq_true h
  rw [hybSkip, if_pos hdue, readSkip, State.get_fst, State.get_snd, hr.peek_bitsOf hu (by decide) hk,
    skipIndices_fits hi]
  rfl

/-- What stands in the stream behind a length is found once it has been read and stored. -/
theorem State.spells.after_hlen {l i : Nat} {bits : List Bool} (h : u.spells (hlenBits l ++ bits)) (hr : u.readerOk) :
    (storeLen T i l (u.consume (hlenBits l).length)).spells bits := by
  refine h.right ((u.consume_buildsOnly _).trans (State.setTab_buildsOnly _ T _)) ?_
  exact (hr.consume _).of_same rfl rfl rfl

/-- The loop of CT.INIT_HYBRID on the rest `ls` of a description, `done` being the lengths before it (R95). -/
theorem hybLoop_reads {done : List Nat} {i r f b : Nat} (hk : k < 4) (hle : ∀ l, l ∈ ls → l ≤ 16)
    (h : s.readTo u T (done.getD · 0) b) (hi : done.length = i)
    (hspells : u.spells (withSkip hlenBits (bitsOf 2 k) skip k i ls))
    (hfit : i + (withSkip (fun l => [l]) (List.replicate k 0) skip k i ls).length ≤ T.size) (hr : r + ls.length = n)
    (hf : T.size ≤ i + f) :
    ∃ w, hybLoop Config.hybCountMode T skip f ⟨n, i, r⟩ u = .ok () w ∧
      s.readTo w T ((done ++ withSkip (fun l => [l]) (List.replicate k 0) skip k i ls).getD · 0)
        (b + (withSkip hlenBits (bitsOf 2 k) skip k i ls).length) := by
  induction ls generalizing done i r f b u with
  | nil =>
    refine ⟨u, hybLoop_end (Nat.le_of_eq hr.symm), ?_⟩
    rw [withSkip, withSkip, List.append_nil]
    exact h
  | cons l ls ih =>
    have hreader := h.advanced.2
    have hl : l ≤ 16 := hle l List.mem_cons_self
    have hrest : ∀ x, x ∈ ls → x ≤ 16 := fun x hx => hle x (List.mem_cons_of_mem l hx)
    rw [List.length_cons] at hr
    by_cases hdue : skip = some (i + 1)
    case pos =>
      rw [withSkip_due hdue] at hspells hfit
      simp only [List.length_append, List.length_singleton, List.length_replicate] at hfit
      obtain ⟨f, rfl⟩ := Nat.exists_eq_succ_of_ne_zero (show f ≠ 0 by omega)
      have hstored := (h.consume (hlenBits l).length).storeNext (by omega) hl
      rw [hi] at hstored
      have hafter : (storeLen T i l (u.consume (hlenBits l).length)).spells _ := hspells.after_hlen hreader
      have hskipped := (hstored.consume 2).zeros k
      have hread := hybSkip_of_spells (n := n) (r := r + 1) (T := T) hdue hstored.advanced.2 hafter.left hk (by omega)
      have htail := hafter.right (State.consume_buildsOnly _ 2) (by
        rw [Laws.bitsOf_length]
        exact hstored.advanced.2.consume 2)
      obtain ⟨w, hw, hto⟩ := ih hrest hskipped (i := i + 1 + k) (r := r + 1) (f := f)
        (by simp only [List.length_append, List.length_singleton, List.length_replicate, hi]) htail (by omega)
        (by omega) (by omega)
      refine ⟨w, ?_, ?_⟩
      · rw [hybLoop_pass (by omega) (by omega), readHlen_of_spells hreader hl hspells.left, Res.andThen_ok, hread,
          Res.andThen_ok, hw]
      · rw [withSkip_due hdue, withSkip_due hdue]
        simpa only [List.append_assoc, List.length_append, Laws.bitsOf_length, Nat.add_assoc] using hto
    case neg =>
      rw [withSkip_next hdue] at hspells hfit
      simp only [List.length_append, List.length_singleton] at hfit
      obtain ⟨f, rfl⟩ := Nat.exists_eq_succ_of_ne_zero (show f ≠ 0 by omega)
      have hstored := (h.consume (hlenBits l).length).storeNext (by omega) hl
      rw [hi] at hstored
      obtain ⟨w, hw, hto⟩ := ih hrest hstored (i := i + 1) (r := r + 1) (f := f)
        (by simp only [List.length_append, List.length_singleton, hi]) (hspells.after_hlen hreader) (by omega)
        (by omega) (by omega)
      refine ⟨w, ?_, ?_⟩
      · rw [hybLoop_pass (by omega) (by omega), readHlen_of_spells hreader hl hspells.left, Res.andThen_ok,
          hybSkip_not_due (v := ⟨n, i + 1, r + 1⟩) hdue, Res.andThen_ok, hw]
      · rw [withSkip_next hdue, withSkip_next hdue]
        simpa only [List.append_assoc, List.length_append, Nat.add_assoc] using hto

/-! ## O25 -/

/-- Settles O25: the count is read, the loop reads the lengths (`hybLoop_reads`), and CT.ASSIGN finds room. -/
theorem initHybridBuilds : Obligations.InitHybridBuilds := by
  unfold Obligations.InitHybridBuilds
  intro T skip s lens k hr hne hle hk hfit hroom hspells
  rw [hybridLens_eq] at hfit ⊢
  rw [hybridBits_eq] at hspells ⊢
  have h0 : lens.length ≠ 0 := fun h => hne (List.eq_nil_of_length_eq_zero h)
  have hn : lens.length < 2 ^ T.countBits :=
    ((length_le_withSkip skip k 0 lens).trans hfit).trans_lt (size_lt_countBits T)
  have hcount : s.peek T.countBits = lens.length := hr.peek_bitsOf hspells.left (countBits_le T) hn
  have htail : (s.counted T lens.length).spells _ := hspells.right (s.counted_buildsOnly T _) (by
    rw [Laws.bitsOf_length]
    exact hr.counted T _)
  obtain ⟨u, hu, hread⟩ := hybLoop_reads (f := T.size) (i := 0) (r := 0) hk hle (hr.counted_readTo T h0) rfl htail
    ((Nat.zero_add _).trans_le hfit) (Nat.zero_add _) (Nat.le_add_left ..)
  rw [List.nil_append, Nat.zero_add] at hread
  obtain ⟨t, ht, hadv, hlens, hcode, hsv, hused, hss, hothers, hbuilds⟩ :=
    assignCodes_described hr h0 hn hread (fun l hl => (mem_withSkip hl).elim (fun h => h ▸ Nat.zero_le _) (hle l)) hfit
      (by rwa [kraft_withSkip])
  refine ⟨t, ?_, ?_, hlens, hcode, hsv, hused, hss, hothers, hbuilds.eq⟩
  · rw [exec_ctInitHybrid, initHybrid_counted _ _ hcount h0, hu, Res.andThen_ok, ht]
    rfl
  · rwa [List.length_append, Laws.bitsOf_length]

end Sys2Proof.Machine
end

section
/-! The coded construction (41_codetable.md R96 to R99, R101, R103; O26, O27): the loop reads the `CL` entries that the
rest of the description spells, by induction on the entries that are left. -/

namespace Sys2Proof.Machine

variable {s u : State} {T : TableId} {b k n x : Nat} {v : Scan} {p : Site} {i : Instr}

/-! ## An entry -/

/-- The code word that stands in the stream is decoded, whether the table is degenerate or not (R68, R69, R100). -/
theorem decodeSymbol_of_spells (hr : u.readerOk) (hx : (u.tab T).spells x) (h : u.spells (codeBits (u.tab T) x)) :
    decodeSymbol T u = .ok x (u.consume (codeBits (u.tab T) x).length) := by
  obtain ⟨more, hreg⟩ := hr.window h (hx.codeBits_le.trans (by decide))
  refine decodeSymbol_of_word ?_
  rw [hreg]
  exact codeWordAt_codeBits hx more

/-- A code word and the field behind it (R60, R61). -/
theorem decode_word_field {m d : Nat} (hr : u.readerOk) (hx : (u.tab T).spells x)
    (h : u.spells (codeBits (u.tab T) x ++ bitsOf m d)) (hm : m ≤ 32) (hd : d < 2 ^ m) :
    ∃ w, decodeSymbol T u = .ok x w ∧ w.peek m = d ∧
      w.consume m = u.consume (codeBits (u.tab T) x ++ bitsOf m d).length := by
  refine ⟨_, decodeSymbol_of_spells hr hx h.left, ?_, ?_⟩
  · exact (hr.consumed _).peek_bitsOf (h.right (u.consume_buildsOnly _) (hr.consume _)) hm hd
  · rw [State.consume_consume, List.length_append, Laws.bitsOf_length]

/-- An entry that stands in the stream is decoded, its extra bits are read, and it has its effect (R96 to R99, R101). -/
theorem decode_codEntry (hr : u.readerOk) (hwf : i.wf = true) (hi : isCl i = true) (hfits : fits u.tabs p i)
    (h : u.spells (elementBits u.tabs i)) (v : Scan) :
    ((decodeSymbol .tLen u).andThen fun x w => codEntry Config.codCountMode .tLit v x w) =
      clEffect v i (u.consume (elementBits u.tabs i).length) := by
  cases i with
  | clZero =>
    rw [decodeSymbol_of_spells (T := .tLen) hr hfits.2 h]
    rfl
  | clZrun4 d | clZrun9 d =>
    obtain ⟨w, hword, hfield, hread⟩ := decode_word_field (T := .tLen) hr hfits.2 h (by decide) d.isLt
    rw [hword, Res.andThen_ok, codEntry, State.get_fst, State.get_snd, hfield, hread]
    rfl
  | clLen d =>
    have hentry : ∀ w, codEntry Config.codCountMode .tLit v d.toNat w = clLenEntry .tLit v d.toNat w := fun w => by
      obtain ⟨y, hy⟩ := Nat.exists_eq_add_of_le' (clLen_range hwf).1
      rw [hy]
      rfl
    rw [decodeSymbol_of_spells (T := .tLen) hr hfits.2 h]
    exact hentry _
  | _ => cases hi

/-- What an entry gives its symbols has been read and stored (R96 to R99). -/
theorem State.readTo.entry {done : List Nat} {r : Nat} (h : s.readTo u .tLit (done.getD · 0) b) (hwf : i.wf = true)
    (hi : isCl i = true) (hfit : done.length + (clLens i).length ≤ 510) :
    s.readTo (clStored ⟨n, done.length, r⟩ i u) .tLit ((done ++ clLens i).getD · 0) b := by
  cases i with
  | clZero => exact h.zeros 1
  | clZrun4 d | clZrun9 d => exact h.zeros _
  | clLen d =>
    have hd := clLen_range hwf
    exact h.storeNext hfit (by omega)
  | _ => cases hi

theorem clStored_buildsOnly (v : Scan) (i : Instr) (u : State) : u.buildsOnly (clStored v i u) := by
  cases i with
  | clLen d => exact u.setTab_buildsOnly .tLit _
  | _ => exact u.buildsOnly_refl

/-- The length decoder is the table in force (R50): the bits of an entry, and whether it has a word, depend on `T_LEN`
alone. -/
theorem elementBits_cl_of_same {y z : Tables} (h : y.tLen = z.tLen) (hi : isCl i = true) :
    elementBits y i = elementBits z i := by
  cases i with
  | clZero | clZrun4 d | clZrun9 d | clLen d => simp only [elementBits, encode, h]
  | _ => cases hi

theorem fits_cl_of_same {y z : Tables} (h : y.tLen = z.tLen) (hi : isCl i = true) (hfits : fits y p i) :
    fits z p i := by
  cases i with
  | clZero | clZrun4 d | clZrun9 d | clLen d => exact ⟨hfits.1, h ▸ hfits.2⟩
  | _ => cases hi

theorem clLens_pos (hi : isCl i = true) : 0 < (clLens i).length := by
  cases i with
  | clZero | clLen d => exact Nat.one_pos
  | clZrun4 d | clZrun9 d =>
    simp only [clLens, List.length_replicate]
    omega
  | _ => cases hi

/-! ## The loop -/

theorem codLoop_end {f i r : Nat} (h : n ≤ r) :
    codLoop Config.codCountMode .tLit .tLen (f + 1) ⟨n, i, r⟩ u = .ok () u :=
  if_neg fun hm => Nat.not_lt_of_le h ((codMore_iff ⟨n, i, r⟩).1 hm)

/-- A pass of the loop on an entry that stands in the stream and stays in the alphabet (R101). -/
theorem codLoop_pass {f : Nat} (hmore : v.r < v.n) (hr : u.readerOk) (hwf : i.wf = true) (hi : isCl i = true)
    (hfits : fits u.tabs p i) (h : u.spells (elementBits u.tabs i)) (hfit : v.i + (clLens i).length ≤ 510) :
    codLoop Config.codCountMode .tLit .tLen (f + 1) v u =
      codLoop Config.codCountMode .tLit .tLen f ⟨v.n, v.i + (clLens i).length, v.r + (clCounts i).toNat⟩
        (clStored v i (u.consume (elementBits u.tabs i).length)) := by
  rw [codLoop, if_pos ((codMore_iff v).2 hmore), ← Res.andThen_assoc, decode_codEntry hr hwf hi hfits h,
    clEffect_fits hi hfit]
  rfl

/-- Each of `es` is a well-formed `CL` entry that fits the place `p` and the tables `y` (R50, R58, R68). -/
def ClEntries (y : Tables) (p : Site) (es : List Instr) : Prop :=
  ∀ i, i ∈ es → i.wf = true ∧ isCl i = true ∧ fits y p i

/-- How many of the entries count (R101). -/
def clCount (es : List Instr) : Nat := (es.filter clCounts).length

theorem clCount_cons (i : Instr) (es : List Instr) : clCount (i :: es) = (clCounts i).toNat + clCount es := by
  unfold clCount
  rw [List.filter_cons]
  cases clCounts i with
  | true => exact Nat.add_comm ..
  | false => exact (Nat.zero_add _).symm

/-- An entry has been read and stored; the rest of the description is still to come. -/
structure CodStep (s u w : State) (done : List Nat) (b : Nat) (i : Instr) : Prop where
  read : s.readTo w .tLit ((done ++ clLens i).getD · 0) (b + (elementBits s.tabs i).length)
  rest : ∀ bits, u.spells (elementBits s.tabs i ++ bits) → w.spells bits

/-- One entry (R101): the index and the count rise by what it covers and counts. -/
theorem codLoop_step {done : List Nat} {r f : Nat} {bits : List Bool} (h : s.readTo u .tLit (done.getD · 0) b)
    (hwf : i.wf = true) (hi : isCl i = true) (hfits : fits s.tabs p i)
    (hspells : u.spells (elementBits s.tabs i ++ bits)) (hmore : r < n)
    (hfit : done.length + (clLens i).length ≤ 510) :
    ∃ w, codLoop Config.codCountMode .tLit .tLen (f + 1) ⟨n, done.length, r⟩ u =
        codLoop Config.codCountMode .tLit .tLen f ⟨n, (done ++ clLens i).length, r + (clCounts i).toNat⟩ w ∧
      CodStep s u w done b i := by
  have hlen : s.tabs.tLen = u.tabs.tLen := (h.others .tLen nofun).symm
  have hbits := elementBits_cl_of_same hlen hi
  have hread := (h.consume (elementBits s.tabs i).length).entry (n := n) (r := r) hwf hi hfit
  refine ⟨_, ?_, hread, fun more hmore => ?_⟩
  · rw [hbits] at hspells ⊢
    rw [codLoop_pass hmore h.advanced.2 hwf hi (fits_cl_of_same hlen hi hfits) hspells.left hfit,
      List.length_append]
  · refine hmore.right ((u.consume_buildsOnly _).trans (clStored_buildsOnly _ i _)) ?_
    refine ⟨?_, hread.advanced.2⟩
    rw [hread.advanced.1, h.advanced.1, Nat.add_assoc]

/-- The loop of CT.INIT_CODED on the rest of a description, `done` being the lengths before it (R101). It ends with the
last entry, for that one counts. -/
theorem codLoop_reads {es : List Instr} {e : Instr} (he : clCounts e = true) {done : List Nat} {r f : Nat}
    (hes : ClEntries s.tabs p (es ++ [e])) (h : s.readTo u .tLit (done.getD · 0) b)
    (hspells : u.spells ((es ++ [e]).flatMap (elementBits s.tabs)))
    (hfit : done.length + ((es ++ [e]).flatMap clLens).length ≤ 510) (hr : r + clCount (es ++ [e]) = n)
    (hf : 510 < done.length + f) :
    ∃ w, codLoop Config.codCountMode .tLit .tLen f ⟨n, done.length, r⟩ u = .ok () w ∧
      s.readTo w .tLit ((done ++ (es ++ [e]).flatMap clLens).getD · 0)
        (b + ((es ++ [e]).flatMap (elementBits s.tabs)).length) := by
  induction es generalizing u done r f b with
  | nil =>
    obtain ⟨hwf, hi, hfits⟩ := hes e (List.mem_singleton.2 rfl)
    have hpos := clLens_pos hi
    simp only [List.nil_append, List.flatMap_singleton] at hspells hfit ⊢
    rw [List.nil_append, clCount_cons, he] at hr
    have hr : r + 1 = n := hr
    obtain ⟨f, rfl⟩ := Nat.exists_eq_add_of_le' (show 2 ≤ f by omega)
    obtain ⟨w, hw, hread, -⟩ := codLoop_step (n := n) (r := r) (f := f + 1) (bits := []) h hwf hi hfits
      (by rwa [List.append_nil]) (by omega) hfit
    rw [he] at hw
    exact ⟨w, hw.trans (codLoop_end hr.ge), hread⟩
  | cons i es ih =>
    obtain ⟨hwf, hi, hfits⟩ := hes i List.mem_cons_self
    have hpos := clLens_pos hi
    have hlast : 0 < clCount (es ++ [e]) :=
      List.length_pos_of_mem (List.mem_filter.2 ⟨List.mem_append_right es (List.mem_singleton.2 rfl), he⟩)
    rw [List.cons_append, List.flatMap_cons] at hspells hfit ⊢
    rw [List.length_append] at hfit
    rw [List.cons_append, clCount_cons] at hr
    obtain ⟨f, rfl⟩ := Nat.exists_eq_succ_of_ne_zero (show f ≠ 0 by omega)
    obtain ⟨w, hw, hread, hrest⟩ := codLoop_step (n := n) (r := r) (f := f) h hwf hi hfits hspells (by omega) (by omega)
    obtain ⟨y, hy, hto⟩ := ih (fun j hj => hes j (List.mem_cons_of_mem i hj)) hread (hrest _ hspells)
      (r := r + (clCounts i).toNat) (f := f) (by rw [List.length_append]; omega) (by omega)
      (by rw [List.length_append]; omega)
    refine ⟨y, hw.trans hy, ?_⟩
    rw [List.flatMap_cons, List.length_append, ← List.append_assoc, ← Nat.add_assoc]
    exact hto

theorem mem_clLens_le (hwf : i.wf = true) {l : Nat} (hl : l ∈ clLens i) : l ≤ 16 := by
  cases i with
  | clZero => exact (List.mem_singleton.1 hl).trans_le (Nat.zero_le _)
  | clZrun4 d | clZrun9 d => exact (List.eq_of_mem_replicate hl).trans_le (Nat.zero_le _)
  | clLen d =>
    have hd := clLen_range hwf
    rw [List.mem_singleton.1 hl]
    omega
  | _ => cases hl

/-! ## O26 -/

/-- Settles O26: the count is read, the loop reads the entries (`codLoop_reads`), and CT.ASSIGN finds room. -/
theorem initCodedBuilds : Obligations.InitCodedBuilds := by
  unfold Obligations.InitCodedBuilds
  intro s v es e hr hes he hn hfit hroom hspells
  have h0 : clCount (es ++ [e]) ≠ 0 := fun h => by
    have hmem := List.mem_filter.2 ⟨List.mem_append_right es (List.mem_singleton.2 rfl), he⟩
    rw [List.eq_nil_of_length_eq_zero h] at hmem
    cases hmem
  have hcount : s.peek (TableId.countBits .tLit) = clCount (es ++ [e]) :=
    hr.peek_bitsOf hspells.left (by decide) hn
  have hothers := s.counted_others .tLit (clCount (es ++ [e]))
  have hlen : s.tabs.tLen = (s.counted .tLit (clCount (es ++ [e]))).tabs.tLen := (hothers .tLen nofun).symm
  have hbits : (es ++ [e]).flatMap (elementBits s.tabs) =
      (es ++ [e]).flatMap (elementBits (s.counted .tLit (clCount (es ++ [e]))).tabs) :=
    List.flatMap_congr fun i hi => elementBits_cl_of_same hlen (hes i hi).2.1
  have hentries : ClEntries (s.counted .tLit (clCount (es ++ [e]))).tabs (.cl v) (es ++ [e]) := fun i hi => by
    obtain ⟨hwf, hcl, hfits⟩ := hes i hi
    exact ⟨hwf, hcl, fits_cl_of_same hlen hcl hfits⟩
  have htail := hspells.right (s.counted_buildsOnly .tLit (clCount (es ++ [e]))) (by
    rw [Laws.bitsOf_length]
    exact hr.counted .tLit _)
  rw [hbits] at htail ⊢
  obtain ⟨u, hu, hread⟩ := codLoop_reads (f := 511) (r := 0) he hentries (hr.counted_readTo .tLit h0) htail
    ((Nat.zero_add _).trans_le hfit) (Nat.zero_add _) (Nat.lt_add_left _ (Nat.lt_succ_self 510))
  rw [List.nil_append, Nat.zero_add] at hread
  have hle : ∀ l, l ∈ (es ++ [e]).flatMap clLens → l ≤ 16 := fun l hl => by
    obtain ⟨i, hi, hl⟩ := List.mem_flatMap.1 hl
    exact mem_clLens_le (hes i hi).1 hl
  obtain ⟨t, ht, hadv, hlens, hcode, hsv, hused, hss, hothers, hbuilds⟩ :=
    assignCodes_described (T := .tLit) hr h0 hn hread hle hfit hroom
  refine ⟨t, ?_, hadv, hlens, hcode, hsv, hused, hss, hothers, hbuilds.eq⟩
  have hloop : codLoop Config.codCountMode .tLit .tLen (TableId.size .tLit + 1) ⟨clCount (es ++ [e]), 0, 0⟩
      (s.counted .tLit (clCount (es ++ [e]))) = .ok () u := hu
  rw [exec_ctInitCoded, initCoded_counted _ _ hcount h0, hloop, Res.andThen_ok, ht]
  rfl

/-! ## O27 -/

/-- A zero run passes the alphabet, or moves the index and stores nothing (R97, R98). -/
theorem clRunEntry_cases (v : Scan) (k : Nat) (u : State) :
    clRunEntry Config.codCountMode .tLit v k u = .raised (u.raise .tableOverflow) ∨
      clRunEntry Config.codCountMode .tLit v k u = .ok ⟨v.n, v.i + k, v.r⟩ u := by
  by_cases h : 510 < v.i + k
  · refine .inl ?_
    rw [clRunEntry, skipIndices_overflow h]
    rfl
  · refine .inr ?_
    rw [clRunEntry, skipIndices_fits (Nat.le_of_not_lt h)]
    rfl

/-- A value that is a zero run reads its extra bits, and it is not counted (R97, R98). -/
theorem codEntry_run_cases (hx : x = 1 ∨ x = 2) (v : Scan) (u : State) :
    ∃ k m, codEntry Config.codCountMode .tLit v x u = .raised ((u.consume m).raise .tableOverflow) ∨
      codEntry Config.codCountMode .tLit v x u = .ok ⟨v.n, v.i + k, v.r⟩ (u.consume m) := by
  rcases hx with rfl | rfl
  · exact ⟨_, 4, clRunEntry_cases v (zeroRun4 (u.peek 4)) (u.consume 4)⟩
  · exact ⟨_, 9, clRunEntry_cases v (zeroRun9 (u.peek 9)) (u.consume 9)⟩

/-- Zero runs alone never bring the count to its end, so the loop ends past the alphabet (R103). -/
theorem codLoop_runs (f : Nat) {v : Scan} (hmore : v.r < v.n) (hsv : (u.tab .tLen).sv = true)
    (hss : (u.tab .tLen).ss = 1 ∨ (u.tab .tLen).ss = 2) :
    ∃ m, codLoop Config.codCountMode .tLit .tLen f v u = .raised ((u.consume m).raise .tableOverflow) := by
  induction f generalizing v u with
  | zero => exact ⟨0, rfl⟩
  | succ f ih =>
    have hdecode : decodeSymbol .tLen u = .ok (u.tab .tLen).ss.toNat u := if_pos hsv
    have hx : (u.tab .tLen).ss.toNat = 1 ∨ (u.tab .tLen).ss.toNat = 2 := by
      rcases hss with h | h
      · exact .inl (congrArg BitVec.toNat h)
      · exact .inr (congrArg BitVec.toNat h)
    obtain ⟨k, m, hentry | hentry⟩ := codEntry_run_cases hx v u
    · refine ⟨m, ?_⟩
      rw [codLoop, if_pos ((codMore_iff v).2 hmore), hdecode, Res.andThen_ok, hentry]
      rfl
    · obtain ⟨m', hloop⟩ := ih (u := u.consume m) (v := ⟨v.n, v.i + k, v.r⟩) hmore (by rwa [u.tab_consume])
        (by rwa [u.tab_consume])
      refine ⟨m + m', ?_⟩
      rw [codLoop, if_pos ((codMore_iff v).2 hmore), hdecode, Res.andThen_ok, hentry, Res.andThen_ok, hloop,
        State.consume_consume]

/-- Settles O27: after the count nothing is read but zero runs (`codLoop_runs`), and no length is stored. -/
theorem runsOnlyOverflow : Obligations.RunsOnlyOverflow := by
  unfold Obligations.RunsOnlyOverflow
  intro s hr hsv hss hcount
  rw [← hr.peek (by decide)] at hcount
  have hkept : (s.counted .tLit (s.peek 9)).tab .tLen = s.tab .tLen := s.counted_others .tLit (s.peek 9) .tLen nofun
  obtain ⟨m, hloop⟩ := codLoop_runs (u := s.counted .tLit (s.peek 9)) 511 (v := ⟨s.peek 9, 0, 0⟩)
    (Nat.pos_of_ne_zero hcount) (by rw [hkept]; exact hsv) (by rw [hkept]; exact hss)
  have hread := (hr.counted_readTo .tLit hcount).consume m
  refine ⟨(s.counted .tLit (s.peek 9)).consume m, ?_, ?_, hread.advanced.2, hread.lenAt, ?_, ?_⟩
  · have hinit := initCoded_counted (T := .tLit) Config.codCountMode .tLen (rfl : s.peek 9 = s.peek 9) hcount
    rw [exec_ctInitCoded, hinit]
    exact congrArg (fun r : Res Unit => (r.andThen fun _ u => assignCodes .tLit u).outcome) hloop
  · have hpos := (hr.counted .tLit (s.peek 9)).1
    rw [State.consume_pos, hpos]
    show s.br.pos < s.br.pos + 9 + m
    omega
  · exact fun x hx => (hread.others x hx).trans (s.counted_others .tLit _ x hx)
  · exact ((s.counted_buildsOnly .tLit _).trans hread.builds).eq

end Sys2Proof.Machine
end

section
/-! BD.INIT_SUBBLOCK (42_blockdecoder.md R111; O28, O29): the count, and then the three descriptions; and a unit that
finds no unit of the sub-block left begins with it (R112; O38). -/

namespace Sys2Proof.Machine

variable {s t : State} {T : TableId} {x : Nat} {i : Instr}

/-! ## A degenerate description -/

/-- From `s` to `t` the degenerate table `T` of the symbol `x` has been built from the two fields of its description
(R92, R95, R101). -/
structure State.degenerated (s t : State) (T : TableId) (x : Nat) : Prop where
  advanced : s.advanced t (2 * T.countBits)
  tab : t.tab T = (s.tab T).clear.setShortcut x
  others : s.othersKept t T
  builds : s.buildsOnly t

/-- A count of 0 is followed by the single symbol, whichever the construction (R92, R95, R101). -/
theorem describeTable_zero (h : s.peek T.countBits = 0) : describeTable T s = readShortcut T (s.counted T 0) := by
  cases T with
  | tLen | tOff => exact initHybrid_zero _ _ h
  | tLit => exact initCoded_zero _ _ h

/-- A count of 0 is read and not recorded (R91). -/
theorem State.counted_zero (s : State) (T : TableId) : s.counted T 0 = (clearTable T s).consume T.countBits := by
  rw [State.counted, recordCount, if_pos rfl]

/-- Either construction on a count of 0 and a symbol of the alphabet (R92, R111). -/
theorem describeTable_degenerate (hr : s.readerOk) (hx : x < T.size)
    (h : s.spells (bitsOf T.countBits 0 ++ bitsOf T.countBits x)) :
    ∃ t, describeTable T s = .ok () t ∧ s.degenerated t T x := by
  have hcount := hr.counted T 0
  have hzero : s.peek T.countBits = 0 := hr.peek_bitsOf h.left (countBits_le T) (Nat.two_pow_pos _)
  have hsymbol : (s.counted T 0).peek T.countBits = x := by
    refine hcount.2.peek_bitsOf (h.right (s.counted_buildsOnly T 0) ?_) (countBits_le T)
      (hx.trans (size_lt_countBits T))
    rwa [Laws.bitsOf_length]
  have hclear : s.othersKept (clearTable T s) T := fun U hU => s.tab_setTab_other T U _ hU
  obtain ⟨b, hb, hadv⟩ := (hr.clearTable T).exists_consume (2 * T.countBits)
  have hread : (s.counted T 0).consume T.countBits = (clearTable T s).setBr b := by
    rw [s.counted_zero, State.consume_consume, ← Nat.two_mul, hb]
  refine ⟨((clearTable T s).setBr b).setTab T ((s.tab T).clear.setShortcut x), ?_,
    (hadv.from_same rfl).of_same rfl rfl rfl, State.tab_setTab_same _ T _, State.othersKept.setTab hclear _, _, _, rfl⟩
  rw [describeTable_zero hzero, readShortcut, State.get_fst, State.get_snd, hsymbol, hread, recordShortcut_fits hx,
    State.tab_setBr, clearTable, State.tab_setTab_same]

/-- What stands in the stream behind a degenerate description. -/
theorem State.degenerated.spells (h : s.degenerated t T x) {rest : List Bool}
    (hs : s.spells ((bitsOf T.countBits 0 ++ bitsOf T.countBits x) ++ rest)) : t.spells rest := by
  refine hs.right h.builds ?_
  rw [List.length_append, Laws.bitsOf_length, Laws.bitsOf_length, ← Nat.two_mul]
  exact h.advanced

/-! ## O28 -/

/-- A count that is not 0 is followed by the three descriptions (R111). -/
theorem initSubblock_counted {c : BitVec 16} (hc : c ≠ 0) (h : s.peek 16 = c.toNat) :
    initSubblock s = (describeTable .tLen ((s.consume 16).setRemaining c)).andThen fun _ u =>
      (describeTable .tLit u).andThen fun _ u => describeTable .tOff u := by
  have h0 : ¬ s.peek 16 = 0 := fun he => hc (BitVec.eq_of_toNat_eq (h.symm.trans he))
  have hcount : BitVec.ofNat 16 (s.peek 16) = c := by rw [h, BitVec.ofNat_toNat, BitVec.setWidth_eq]
  rw [← hcount]
  exact if_neg h0

theorem exec_bdInitSubblock (s : State) : exec .bdInitSubblock s = (initSubblock s).outcome := rfl

/-- Settles O28: after the count each of the three descriptions is a degenerate one; a count of 0 raises at once. -/
theorem subblockDegenerate : Obligations.SubblockDegenerate := by
  unfold Obligations.SubblockDegenerate
  intro s hr
  refine ⟨fun c x y z hc hx hy hz h => ?tables, fun h => ?empty⟩
  case tables =>
    have hspells : s.spells (bitsOf 16 c.toNat ++ ((bitsOf 5 0 ++ bitsOf 5 x) ++
        ((bitsOf 9 0 ++ bitsOf 9 y) ++ (bitsOf 4 0 ++ bitsOf 4 z)))) := by
      simpa only [List.append_assoc] using h
    obtain ⟨b, hb, hadv⟩ := hr.exists_consume 16
    have hbehind : (s.setBr b).spells _ := hspells.right ⟨b, s.tabs, rfl⟩ (by rwa [Laws.bitsOf_length])
    have hcounted : s.advanced ((s.setBr b).setRemaining c) 16 := hadv.of_same rfl rfl rfl
    have hlen : ((s.setBr b).setRemaining c).spells _ := hbehind.of_same rfl rfl rfl
    obtain ⟨u, hu, hbuilt⟩ := describeTable_degenerate (T := .tLen) hcounted.2 hx hlen.left
    have hlit := hbuilt.spells hlen
    obtain ⟨v, hv, hbuilt'⟩ := describeTable_degenerate (T := .tLit) hbuilt.advanced.2 hy hlit.left
    have hoff := hbuilt'.spells hlit
    obtain ⟨w, hw, hbuilt''⟩ := describeTable_degenerate (T := .tOff) hbuilt'.advanced.2 hz hoff
    have hframe := ((hbuilt.builds.trans hbuilt'.builds).trans hbuilt''.builds).eq
    refine ⟨w, ?_, ((hcounted.trans hbuilt.advanced).trans hbuilt'.advanced).trans hbuilt''.advanced, ?_, ?_, ?_, hframe⟩
    · rw [exec_bdInitSubblock, initSubblock_counted hc (hr.peek_bitsOf hspells.left (by decide) c.isLt), hb, hu,
        Res.andThen_ok, hv, Res.andThen_ok, hw, Res.outcome_ok]
    · exact (hbuilt''.others .tLen nofun).trans ((hbuilt'.others .tLen nofun).trans hbuilt.tab)
    · have hkept : v.tab .tLit = _ := hbuilt'.tab
      rw [hbuilt.others .tLit nofun] at hkept
      exact (hbuilt''.others .tLit nofun).trans hkept
    · have hkept : w.tab .tOff = _ := hbuilt''.tab
      rw [hbuilt'.others .tOff nofun, hbuilt.others .tOff nofun] at hkept
      exact hkept
  case empty =>
    rw [exec_bdInitSubblock, initSubblock_of_zero ((hr.peek (by decide)).trans h)]
    exact ⟨_, rfl, hr.consume 16, (s.consume_readsOnly 16).eq⟩

/-! ## O29 -/

/-- A step that does not end in FAULT is what the operation answered. -/
theorem Res.leaves.ok_of_next {r : Res Unit} {ok : Unit → State → Prop} {bad : ErrCode → State → Prop}
    {stop : Fault → Prop} (h : r.leaves ok bad stop) (ht : r.outcome = .next t) (hst : t.st ≠ .fault) : ok () t := by
  rcases h.next ht with hok | ⟨e, u, rfl, -⟩
  · exact hok
  · exact absurd (u.raise_st e) hst

/-- BD.INIT_SUBBLOCK without a fault (R111): what it changes, and what it leaves. -/
theorem initSubblock_ready (s : State) :
    (initSubblock s).leaves (fun _ u => s.decodesOnly u ∧ u.soundTabs ∧ u.remaining ≠ 0) (fun _ _ => True)
      (fun _ => False) :=
  (((initSubblock_leaves s).mono (fun _ _ h => h) (fun _ _ _ => trivial) fun _ h => h).and (initSubblock_sound s)).mono
    (fun _ _ h => h) (fun _ _ h => h) fun _ h => h.1

/-- Settles O29: the three constructions leave sound tables, one after the other (`initSubblock_sound`). -/
theorem subblockSound : Obligations.SubblockSound := by
  unfold Obligations.SubblockSound
  intro s t ht hst
  obtain ⟨hdecodes, hsound, hleft⟩ := (initSubblock_ready s).ok_of_next ht hst
  refine ⟨hleft, hsound .tLen, hsound .tLit, hsound .tOff, ?_⟩
  obtain ⟨b, x, c, rfl⟩ := hdecodes
  rfl

/-! ## O38 -/

/-- STEP and BD.UNIT are the same unit in AWAIT and DECODING (R112, R142). -/
theorem exec_unit (hi : i = .step ∨ i = .bdUnit) (ha : s.isActive = true) : exec i s = (bdUnit s).outcome := by
  rcases hi with rfl | rfl
  · exact exec_step_of_isActive ha
  · exact if_pos ha

/-- While units of the sub-block are left, a unit is the unit proper (R112). -/
theorem bdUnit_of_left (h : s.remaining ≠ 0) : bdUnit s = decodeUnit s := by
  rw [bdUnit, ensureSubblock, if_neg h, Res.andThen_ok]

/-- Where none is left, the sub-block is initialised first (R112). -/
theorem bdUnit_of_none_left (h : s.remaining = 0) : bdUnit s = (initSubblock s).andThen fun _ u => decodeUnit u := by
  rw [bdUnit, ensureSubblock, if_pos h]

/-- Decoding does not change the control state (R120). -/
theorem State.decodesOnly.isActive (h : s.decodesOnly t) : t.isActive = s.isActive := by
  obtain ⟨b, x, c, rfl⟩ := h
  rfl

theorem State.st_ne_fault_of_isActive (ha : s.isActive = true) : s.st ≠ .fault := by
  intro hst
  rcases State.isActive_iff.1 ha with h | h <;> cases hst.symm.trans h

/-- Settles O38: BD.INIT_SUBBLOCK raises, which ends the unit too; or it leaves units, and the unit goes on as from
there. -/
theorem unitInitialises : Obligations.UnitInitialises := by
  unfold Obligations.UnitInitialises
  intro s i hi ha h0
  have hready := initSubblock_ready s
  rw [exec_bdInitSubblock, exec_unit hi ha, bdUnit_of_none_left h0]
  cases hr : initSubblock s with
  | ok a u =>
    rw [hr] at hready
    obtain ⟨hdecodes, -, hleft⟩ := hready
    have hau : u.isActive = true := hdecodes.isActive.trans ha
    refine ⟨u, rfl, fun hst => absurd hst (State.st_ne_fault_of_isActive hau), fun _ => ⟨hleft, ?_⟩⟩
    rw [exec_unit hi hau, bdUnit_of_left hleft, Res.andThen_ok]
  | raised v =>
    rw [hr] at hready
    obtain ⟨e, u, rfl, -⟩ := hready
    exact ⟨u.raise e, rfl, fun _ => rfl, fun hst => absurd (u.raise_st e) hst⟩
  | stop f =>
    rw [hr] at hready
    exact hready.elim

end Sys2Proof.Machine
end

section
/-! The offsets and the units of a sub-block (42_blockdecoder.md R112 to R118; O31, O32, O35 to O37): the code words
and fields that stand in the stream are read, and the byte or the run they stand for is written. -/

namespace Sys2Proof.Machine

variable {s t u v : State} {i : Instr} {c d k p x : Nat}

/-! ## O32: the distance table -/

/-- The distances of class `k + 1` lie from `2^k + 1` on (R117). -/
theorem distance_succ (k d : Nat) : distance (k + 1) d = 2 ^ k + d + 1 := if_neg k.succ_ne_zero

/-- Class `k + 1` spells the distances from `2^k + 1` to `2^(k + 1)`, each with one delta (R118). -/
theorem distance_succ_eq_iff : d < 2 ^ k ∧ distance (k + 1) d = x ↔
    2 ^ k + 1 ≤ x ∧ x ≤ 2 ^ (k + 1) ∧ d = x - 1 - 2 ^ k := by
  rw [distance_succ, Nat.pow_succ]
  omega

/-- The class of a distance past 1 is one more than the place of the top bit of the distance less 1 (R118). -/
theorem log_of_distance_succ (hd : d < 2 ^ k) (h : distance (k + 1) d = x) : Nat.log 2 (x - 1) = k := by
  rw [distance_succ] at h
  refine Nat.log_eq_of_pow_le_of_lt_pow (by omega) ?_
  rw [Nat.pow_succ]
  omega

/-- Settles O32: a distance past 1 lies in the one class that the top bit of the distance less 1 says. -/
theorem distanceTable : Obligations.DistanceTable := by
  unfold Obligations.DistanceTable
  refine ⟨rfl, fun p hp _ x => ?range, fun x h1 h8192 => ?spelling⟩
  case range =>
    obtain ⟨k, rfl⟩ := Nat.exists_eq_add_of_le' hp
    simp only [Nat.add_sub_cancel, distance_succ_eq_iff]
    exact ⟨fun ⟨_, hlo, hhi, _⟩ => ⟨hlo, hhi⟩, fun ⟨hlo, hhi⟩ => ⟨_, hlo, hhi, rfl⟩⟩
  case spelling =>
    by_cases hx : x = 1
    · refine ⟨0, 0, ⟨by decide, by decide, hx.symm⟩, fun p d _ hd hdist => ?_⟩
      cases p with
      | zero => exact ⟨rfl, Nat.lt_one_iff.1 hd⟩
      | succ k =>
        rw [distance_succ, hx] at hdist
        have := Nat.two_pow_pos k
        omega
    · have hlo : 2 ^ Nat.log 2 (x - 1) ≤ x - 1 := Nat.pow_log_le_self 2 (by omega)
      have hhi : x - 1 < 2 ^ (Nat.log 2 (x - 1) + 1) := Nat.lt_pow_succ_log_self Nat.one_lt_two _
      have hk : Nat.log 2 (x - 1) < 13 := Nat.log_lt_of_lt_pow (by omega) (by omega)
      generalize hlog : Nat.log 2 (x - 1) = k at hlo hhi hk
      obtain ⟨hd, hdist⟩ : x - 1 - 2 ^ k < 2 ^ k ∧ distance (k + 1) (x - 1 - 2 ^ k) = x :=
        distance_succ_eq_iff.2 ⟨by omega, by omega, rfl⟩
      refine ⟨k + 1, x - 1 - 2 ^ k, ⟨hk, hd, hdist⟩, fun p d _ hd' hdist' => ?_⟩
      cases p with
      | zero => exact absurd hdist'.symm hx
      | succ m =>
        obtain rfl : m = k := (log_of_distance_succ hd' hdist').symm.trans hlog
        obtain ⟨-, -, hdelta⟩ := distance_succ_eq_iff.1 ⟨hd', hdist'⟩
        exact ⟨rfl, hdelta⟩

/-! ## O31: BD.OFFSET -/

/-- The class word and the delta that stand in the stream are read (R116, R117). -/
theorem readOffset_of_spells (hr : s.readerOk) (hp : s.tabs.tOff.spells p) (hp13 : p ≤ 13) (hd : d < 2 ^ (p - 1))
    (h : s.spells (offBits s.tabs p d)) :
    readOffset s = .ok (distance p d) (s.consume (offBits s.tabs p d).length) := by
  obtain ⟨w, hword, hdelta, hread⟩ := decode_word_field (T := .tOff) hr hp h (by omega) hd
  have hfield : readDelta p w = (distance p (w.peek (p - 1)), w.consume (p - 1)) := rfl
  rw [readOffset, hword, Res.andThen_ok, hfield, hdelta, hread]
  rfl

/-- Settles O31: the class word and the delta are read (`readOffset_of_spells`). -/
theorem offsetReads : Obligations.OffsetReads := by
  unfold Obligations.OffsetReads
  intro s p d hr hp hp13 hd h
  have hexec : exec .bdOffset s = (readOffset s).outcomeRet := rfl
  obtain ⟨b, hb, hadv⟩ := hr.exists_consume (offBits s.tabs p d).length
  rw [hexec, readOffset_of_spells hr hp hp13 hd h, hb]
  exact ⟨_, rfl, rfl, hadv.of_same rfl rfl rfl, rfl⟩

/-! ## O35: BD.MATCH -/

/-- What a copy writes is said of OUT, WIN and BD.produced alone. -/
theorem State.copied.of_same {n : Nat} (h : u.copied v n d) (hs : s.sameMemory u) (ht : v.sameMemory t) :
    s.copied t n d := by
  obtain ⟨-, hout, hwin, hprod⟩ := hs
  obtain ⟨-, hout', hwin', hprod'⟩ := ht
  have hread : u.readOut = s.readOut := congrArg (Mem.read .out) hout
  have hread' : t.readOut = v.readOut := congrArg (Mem.read .out) hout'
  have hreadWin : u.readWin = s.readWin := congrArg (Mem.read .win) hwin
  have hreadWin' : t.readWin = v.readWin := congrArg (Mem.read .win) hwin'
  constructor
  case produced => rw [hprod', h.produced, hprod]
  case outStored => intro i hi; rw [hread', ← hprod, h.outStored i hi, hread]
  case outKept => intro a ha; rw [hread', h.outKept a (hprod ▸ ha), hread]
  case winStored => intro i hi; rw [hreadWin', ← hprod, h.winStored i hi, hread]
  case winKept => intro a ha; rw [hreadWin', h.winKept a (hprod ▸ ha), hreadWin]

/-- The offset that stands in the stream is read, and the run is copied from its distance (R114, R131). -/
theorem matchUnit_of_spells (hr : s.readerOk) (hm : s.memoryOk) (hwritten : s.writtenBelow)
    (hp : s.tabs.tOff.spells p) (hp13 : p ≤ 13) (hd : d < 2 ^ (p - 1)) (h : s.spells (offBits s.tabs p d))
    (hc : c < 512) (hle : distance p d ≤ s.produced.toNat) (hfit : s.produced.toNat + (c - 253) ≤ s.outSize.toNat) :
    ∃ u t, matchUnit c s = .ok (c - 253) t ∧ s.readsOnly u ∧ u.writesOnly t ∧
      s.advanced t (offBits s.tabs p d).length ∧ s.copied t (c - 253) (distance p d) := by
  obtain ⟨b, hb, hadv⟩ := hr.exists_consume (offBits s.tabs p d).length
  obtain ⟨t, ht, hwrites, hcopied⟩ := copyLoop_copied (one_le_distance p d) (c - 253) (s.setBr b) (by omega) hm.2.1
    hm.2.2 hwritten hle hfit
  refine ⟨s.setBr b, t, ?_, ⟨b, rfl⟩, hwrites, ?_, hcopied.of_same ⟨rfl, rfl, rfl, rfl⟩ ⟨rfl, rfl, rfl, rfl⟩⟩
  · rw [matchUnit, readOffset_of_spells hr hp hp13 hd h, hb, Res.andThen_ok, show runLength c = c - 253 from rfl,
      copy_fits (s := s.setBr b) hle hfit, ht, Res.andThen_ok]
  · obtain ⟨o, w, q, rfl⟩ := hwrites
    exact hadv.of_same rfl rfl rfl

/-- Settles O35: the offset is read and the run copied (`matchUnit_of_spells`). -/
theorem matchCopies : Obligations.MatchCopies := by
  unfold Obligations.MatchCopies
  intro s c p d _ hr hm hwritten hp hp13 hd h hle hfit
  have hexec : exec (.bdMatch c) s = (matchUnit c.toNat s).outcomeRet := rfl
  obtain ⟨_, _, ht, ⟨b, rfl⟩, ⟨o, w, q, rfl⟩, hadv, hcopied⟩ :=
    matchUnit_of_spells hr hm hwritten hp hp13 hd h c.isLt hle hfit
  rw [hexec, ht]
  exact ⟨_, rfl, rfl, hadv.of_same rfl rfl rfl, hcopied.of_same ⟨rfl, rfl, rfl, rfl⟩ ⟨rfl, rfl, rfl, rfl⟩, rfl⟩

/-! ## O36, O37: a unit -/

/-- The unit is counted, and the code word of its symbol, which stands in the stream, is read (R112). -/
theorem decodeUnit_of_spells (hr : s.readerOk) (hc : s.tabs.tLit.spells c) (h : s.spells (codeBits s.tabs.tLit c)) :
    decodeUnit s =
      (unitOfSymbol c ((s.setRemaining (s.remaining - 1)).consume (codeBits s.tabs.tLit c).length)).andThen
        fun n u => .ok () (u.finishUnit n) := by
  have hcounted : (s.setRemaining (s.remaining - 1)).readerOk := hr.of_same rfl rfl rfl
  rw [decodeUnit, decodeSymbol_of_spells (T := .tLit) hcounted hc (h.of_same rfl rfl rfl)]
  rfl

/-- The same at the level of the two instructions, the state after the code word named (R112, R142). -/
theorem exec_unit_of_spells (hi : i = .step ∨ i = .bdUnit) (ha : s.isActive = true) (hleft : s.remaining ≠ 0)
    (hr : s.readerOk) (hc : s.tabs.tLit.spells c) (h : s.spells (codeBits s.tabs.tLit c)) :
    ∃ b, s.advanced ((s.setRemaining (s.remaining - 1)).setBr b) (codeBits s.tabs.tLit c).length ∧
      exec i s = ((unitOfSymbol c ((s.setRemaining (s.remaining - 1)).setBr b)).andThen
        fun n u => .ok () (u.finishUnit n)).outcome := by
  have hcounted : (s.setRemaining (s.remaining - 1)).readerOk := hr.of_same rfl rfl rfl
  obtain ⟨b, hb, hadv⟩ := hcounted.exists_consume (codeBits s.tabs.tLit c).length
  refine ⟨b, hadv.from_same rfl, ?_⟩
  rw [exec_unit hi ha, bdUnit_of_left hleft, decodeUnit_of_spells hr hc h, hb]

/-- A literal that fits OUT appends its byte (R113). -/
theorem unitOfSymbol_literal (b : Byte) (hfit : s.produced.toNat < s.outSize.toNat) :
    unitOfSymbol b.toNat s = .ok 1 (s.pushByte b) := by
  have hb : b.toNat ≤ Config.litMax := Nat.le_of_lt_succ b.isLt
  rw [unitOfSymbol, if_pos hb, BitVec.ofNat_toNat, BitVec.setWidth_eq, literal, emit, if_pos hfit, Res.andThen_ok]

/-- A symbol past the literals is a match (R112). -/
theorem unitOfSymbol_match (hc : 256 ≤ c) : unitOfSymbol c s = matchUnit c s := if_neg (Nat.not_le_of_lt hc)

/-- Settles O36: the code word is read (`exec_unit_of_spells`), and the byte is pushed. -/
theorem unitLiteral : Obligations.UnitLiteral := by
  unfold Obligations.UnitLiteral
  intro s i c hi ha hleft hr hm hfit hc h
  obtain ⟨b, hadv, hexec⟩ := exec_unit_of_spells hi ha hleft hr hc h
  obtain ⟨hprod, hout, hwin⟩ := State.pushByte_appended hm c
  refine ⟨(((s.setRemaining (s.remaining - 1)).setBr b).pushByte c).finishUnit 1, ?_, hadv.of_same rfl rfl rfl,
    ⟨hprod, hout, hwin⟩, State.finishUnit_done _ 1, rfl⟩
  rw [hexec, unitOfSymbol_literal (s := (s.setRemaining (s.remaining - 1)).setBr b) c hfit]
  rfl

/-- Settles O37: the code word is read (`exec_unit_of_spells`), and then it is a BD.MATCH (`matchUnit_of_spells`). -/
theorem unitMatch : Obligations.UnitMatch := by
  unfold Obligations.UnitMatch
  intro s i c p d hi ha hleft hr hm hwritten h256 h509 hc hp hp13 hd h hle hfit
  obtain ⟨b, hadv, hexec⟩ := exec_unit_of_spells hi ha hleft hr hc h.left
  have hoff : (s.setBr b).spells _ := h.right ⟨b, s.tabs, rfl⟩ (hadv.of_same rfl rfl rfl)
  obtain ⟨v, t, ht, hreads, hwrites, hadv', hcopied⟩ :=
    matchUnit_of_spells (s := (s.setRemaining (s.remaining - 1)).setBr b) hadv.2 hm hwritten hp hp13 hd
      (hoff.of_same rfl rfl rfl) (Nat.lt_of_le_of_lt h509 (by decide)) hle hfit
  refine ⟨t.finishUnit (c - 253), ?_, ?_, hcopied.of_same ⟨rfl, rfl, rfl, rfl⟩ ⟨rfl, rfl, rfl, rfl⟩,
    t.finishUnit_done _, ?_⟩
  · rw [hexec, unitOfSymbol_match h256, ht]
    rfl
  · rw [List.length_append]
    exact (hadv.trans hadv').of_same rfl rfl rfl
  · obtain ⟨b', rfl⟩ := hreads
    obtain ⟨o, w, q, rfl⟩ := hwrites
    rfl

end Sys2Proof.Machine
end

section
/-! What a unit that did not fault has counted, produced and reported, and the control state it leaves (42_blockdecoder.md
R112, R120, R121; O40). -/

namespace Sys2Proof.Machine

variable {s t : State} {T : TableId} {c : Nat}

/-! ## How many bytes are produced -/

theorem State.writesOnly.outSize (h : s.writesOnly t) : t.outSize = s.outSize := by
  obtain ⟨o, w, p, rfl⟩ := h
  rfl

/-- The byte moves of a copy advance BD.produced by one each (R131). -/
theorem copyLoop_produced (d n : Nat) (s : State) :
    (copyLoop d n s).leaves (fun _ u => u.produced.toNat = s.produced.toNat + n) (fun _ _ => True)
      (fun _ => True) := by
  induction n generalizing s with
  | zero => exact rfl
  | succ n ih =>
    simp only [copyLoop]
    split
    · rename_i b _
      refine Res.leaves.andThen ((emit_leaves b s).mono (fun _ _ h => h) (fun _ _ h => h.elim) fun _ _ => trivial) ?_
      rintro _ _ ⟨hp, rfl⟩
      refine (ih (s.pushByte b)).mono (fun _ u hu => ?_) (fun _ _ h => h) (fun _ h => h)
      rw [hu, State.pushByte_produced_toNat hp, Nat.add_assoc, Nat.add_comm 1]
    · trivial

/-- From `s` to `t` exactly `n` bytes have been produced, and they fit OUT (R130, R131). -/
def State.produces (s t : State) (n : Nat) : Prop :=
  t.produced.toNat = s.produced.toNat + n ∧ t.produced.toNat ≤ t.outSize.toNat

theorem copy_produces (n d : Nat) (s : State) :
    (copy n d s).leaves (fun _ u => s.produces u n) (fun _ _ => True) (fun _ => True) := by
  unfold copy
  split
  · exact Res.leaves_raise trivial
  · split
    · exact Res.leaves_raise trivial
    · have hloop := (copyLoop_leaves d n s).mono (fun _ _ h => h) (fun _ _ _ => trivial) fun _ h => h
      refine (hloop.and (copyLoop_produced d n s)).mono ?_ (fun _ _ h => h) (fun _ _ => trivial)
      rintro _ u ⟨hwrites, hprod⟩
      refine ⟨hprod, ?_⟩
      rw [hprod, hwrites.outSize]
      omega

/-- A unit produces what it reports: 1 byte for a literal, the run length for a match (R113, R114). -/
theorem unitOfSymbol_produces (c : Nat) (s : State) :
    (unitOfSymbol c s).leaves (fun n u => s.produces u n ∧ n = if c ≤ 255 then 1 else c - 253) (fun _ _ => True)
      (fun _ => True) := by
  unfold unitOfSymbol
  split
  · refine (literal_leaves _ s).mono ?_ (fun _ _ _ => trivial) (fun _ _ => trivial)
    rintro n _ ⟨rfl, hp, rfl⟩
    refine ⟨⟨State.pushByte_produced_toNat hp _, ?_⟩, rfl⟩
    rw [State.pushByte_produced_toNat hp]
    exact hp
  · refine Res.leaves.andThen ((readOffset_leaves s).mono (fun _ _ h => h) (fun _ _ _ => trivial) fun _ _ => trivial) ?_
    rintro d _ ⟨-, b, rfl⟩
    exact (copy_produces (runLength c) d (s.setBr b)).andThen fun _ _ hu => ⟨hu, rfl⟩

/-! ## The symbol of a unit -/

/-- A decoded symbol fits the count field; one of a sound table is in the alphabet (R18, R100). -/
theorem decodeSymbol_bounds (T : TableId) (s : State) :
    (decodeSymbol T s).leaves (fun x u => s.readsOnly u ∧ x < 2 ^ T.countBits ∧ ((s.tab T).sound → x < T.size))
      (fun _ _ => True) (fun _ => False) := by
  refine (decodeSymbol_leaves T s).mono ?_ (fun _ _ _ => trivial) (fun _ h => h)
  rintro x u (⟨hsv, rfl, rfl⟩ | ⟨-, hx, -, -, rfl⟩)
  · refine ⟨u.readsOnly_refl, (u.tab T).ss.isLt, fun hsound => ?_⟩
    unfold Table.sound at hsound
    rwa [if_pos hsv] at hsound
  · exact ⟨s.consume_readsOnly _, hx.trans (size_lt_countBits T), fun _ => hx⟩

/-! ## O40 -/

/-- From `s`, which has units of the sub-block left, to `t` one unit has been decoded (R112, R120). -/
structure State.unitTaken (s t : State) : Prop where
  remaining : t.remaining = s.remaining - 1
  st : t.st = if t.produced = t.outSize then .done else if t.remaining = 0 then .await else .decoding
  produces : s.produces t t.lastN.toNat
  positive : 1 ≤ t.lastN.toNat
  bounded : s.tabs.tLit.sound → t.lastN = 1 ∨ 3 ≤ t.lastN.toNat ∧ t.lastN.toNat ≤ 256

/-- The count that a unit reports (R115, R120): 1, or a run length, which `BD.last_n` can hold. -/
theorem lastN_of_symbol {n : Nat} (hc : c < 512) (hn : n = if c ≤ 255 then 1 else c - 253) :
    (BitVec.ofNat 9 n).toNat = n ∧ 1 ≤ n ∧ (c < 510 → BitVec.ofNat 9 n = 1 ∨ 3 ≤ n ∧ n ≤ 256) := by
  rw [BitVec.toNat_ofNat]
  by_cases hlit : c ≤ 255
  · rw [if_pos hlit] at hn
    subst hn
    exact ⟨rfl, Nat.le_refl 1, fun _ => .inl rfl⟩
  · rw [if_neg hlit] at hn
    exact ⟨Nat.mod_eq_of_lt (by omega), by omega, fun _ => .inr (by omega)⟩

/-- The unit proper (R112). -/
theorem decodeUnit_taken (s : State) :
    (decodeUnit s).leaves (fun _ t => s.unitTaken t) (fun _ _ => True) (fun _ => True) := by
  refine Res.leaves.andThen ((decodeSymbol_bounds .tLit _).mono (fun _ _ h => h) (fun _ _ h => h) fun _ h => h.elim) ?_
  rintro c _ ⟨⟨b, rfl⟩, hc, hsize⟩
  have hframe := (unitOfSymbol_frame c ((s.setRemaining (s.remaining - 1)).setBr b)).mono (fun _ _ h => h)
    (fun _ _ _ => trivial) fun _ h => h
  refine Res.leaves.andThen ((hframe.and (unitOfSymbol_produces c _)).mono (fun _ _ h => h) (fun _ _ h => h)
    fun _ _ => trivial) ?_
  rintro n u ⟨⟨_, ⟨b', rfl⟩, o, w, p, rfl⟩, hproduces, hn⟩
  obtain ⟨hlast, hpos, hbound⟩ := lastN_of_symbol hc hn
  refine ⟨rfl, rfl, ?_, ?_, fun hsound => ?_⟩ <;> rw [State.finishUnit_lastN, hlast]
  · exact hproduces
  · exact hpos
  · exact hbound (hsize hsound)

/-- BD.UNIT (R112): the unit is taken from `s`, or from the sub-block that it has initialised. -/
theorem bdUnit_taken (s : State) :
    (bdUnit s).leaves (fun _ t => ∃ u, s.decodesOnly u ∧ u.unitTaken t ∧ (s.remaining ≠ 0 → u = s) ∧
      (s.remaining = 0 → u.soundTabs)) (fun _ _ => True) (fun _ => True) := by
  by_cases h0 : s.remaining = 0
  · rw [bdUnit_of_none_left h0]
    refine Res.leaves.andThen ((initSubblock_ready s).mono (fun _ _ h => h) (fun _ _ h => h) fun _ _ => trivial) ?_
    rintro _ u ⟨hdecodes, hsound, -⟩
    exact (decodeUnit_taken u).mono (fun _ t ht => ⟨u, hdecodes, ht, fun h => absurd h0 h, fun _ => hsound⟩)
      (fun _ _ h => h) (fun _ h => h)
  · rw [bdUnit_of_left h0]
    exact (decodeUnit_taken s).mono (fun _ t ht => ⟨s, s.decodesOnly_refl, ht, fun _ => rfl, fun h => absurd h h0⟩)
      (fun _ _ h => h) (fun _ h => h)

/-- Settles O40: the unit is taken from a sub-block (`bdUnit_taken`), and initialising one writes no output. -/
theorem unitNextState : Obligations.UnitNextState := by
  unfold Obligations.UnitNextState
  intro s t i hi ha ht hst
  rw [exec_unit hi ha] at ht
  obtain ⟨u, hdecodes, ⟨hleft, hphase, ⟨hprod, hrange⟩, hpos, hbound⟩, hsame, hsound⟩ :=
    (bdUnit_taken s).ok_of_next ht hst
  refine ⟨hphase, ?_, hpos, hrange, fun h0 => ?_, fun h => hbound ?_⟩
  · obtain ⟨b, x, k, rfl⟩ := hdecodes
    exact hprod
  · rw [hleft, hsame h0]
  · by_cases h0 : s.remaining = 0
    · exact hsound h0 .tLit
    · rw [hsame h0]
      exact h.resolve_left h0

end Sys2Proof.Machine
end

section
/-! The copy engine's operations by name (43_lz77_copy.md R130 to R132; O30, O33, O34). -/

namespace Sys2Proof.Machine

variable {s : State}

/-- A byte that fits OUT is pushed (R130). -/
theorem emit_fits (b : Byte) (h : s.produced.toNat < s.outSize.toNat) : emit b s = .ok () (s.pushByte b) := if_pos h

/-- Settles O30: the byte is pushed (`emit_fits`), which appends it (`State.pushByte_appended`). -/
theorem emitAppends : Obligations.EmitAppends := by
  unfold Obligations.EmitAppends
  intro s b hm hfit
  have hemit : exec (.lzEmit b) s = (emit b s).outcome := rfl
  have hliteral : exec (.bdLiteral b) s = (literal b s).outcomeRet := rfl
  obtain ⟨hprod, hout, hwin⟩ := State.pushByte_appended hm b
  refine ⟨⟨s.pushByte b, ?_, ⟨hprod, hout, hwin⟩, rfl⟩, (s.pushByte b).setRet 1, ?_, ⟨hprod, hout, hwin⟩, rfl, rfl⟩
  · rw [hemit, emit_fits b hfit]
    rfl
  · rw [hliteral, literal, emit_fits b hfit]
    rfl

theorem exec_lzCopy (n : BitVec 9) (d : BitVec 14) (s : State) :
    exec (.lzCopy n d) s = (copy n.toNat d.toNat s).outcome := rfl

/-- Settles O33: past the two checks (`copy_fits`) the bytes move as `copyLoop_copied` says. -/
theorem copyRepeats : Obligations.CopyRepeats := by
  unfold Obligations.CopyRepeats
  intro s n d hwf hm hwritten hle hfit
  obtain ⟨-, hn, hd, -⟩ : 3 ≤ n.toNat ∧ n.toNat ≤ 256 ∧ 1 ≤ d.toNat ∧ d.toNat ≤ 8192 := of_decide_eq_true hwf
  obtain ⟨t, ht, ⟨o, w, p, rfl⟩, hcopied⟩ :=
    copyLoop_copied hd n.toNat s (by omega) hm.2.1 hm.2.2 hwritten hle hfit
  rw [exec_lzCopy, copy_fits hle hfit, ht]
  exact ⟨_, rfl, hcopied, rfl⟩

/-- Settles O34: the two checks, in their order (`copy_badDistance`, `copy_overrun`). -/
theorem copyFaults : Obligations.CopyFaults := by
  unfold Obligations.CopyFaults
  intro s n d
  refine ⟨fun hlt => ?distance, fun hle hover => ?overrun⟩
  case distance =>
    rw [exec_lzCopy, copy_badDistance hlt]
    rfl
  case overrun =>
    rw [exec_lzCopy, copy_overrun hle hover]
    rfl

end Sys2Proof.Machine
end

section
/-! START and the commands in the wrong state (44_host_commands.md R141, R147, R148; O3, O4). -/

namespace Sys2Proof.Machine

variable {s : State}

/-! ## O3 -/

/-- START primes the bit reader at stream bit 0 (R80, R141). -/
theorem startBlock_pos (a b : Word) (s : State) : (startBlock a b s).br.pos = 0 := State.brInit_pos _

/-- Settles O3: what START binds and clears is `startBlock_eq`, and its bit reader is BR.INIT's. -/
theorem startBinds : Obligations.StartBinds := by
  unfold Obligations.StartBinds
  intro a b s
  refine ⟨startBlock a b s, rfl, startBlock_pos a b s, startBlock_readerOk a b s, ?_⟩
  obtain ⟨r, hr⟩ := startBlock_eq a b s
  rw [hr]

/-! ## O4 -/

theorem State.isFault_iff : s.isFault = true ↔ s.st = .fault := by simp [State.isFault]

theorem State.isDone_iff : s.isDone = true ↔ s.st = .done := by simp [State.isDone]

/-- Outside FAULT a raise records its code (R171). -/
theorem State.raise_of_no_fault (h : s.st ≠ .fault) (e : ErrCode) :
    s.raise e = { s with err := errCode e, st := .fault, site := .none } := by
  rw [State.raise, if_neg h]

theorem exec_cmdReserved_of_no_fault (h : s.st ≠ .fault) : exec .cmdReserved s = .next (s.raise .protocol) :=
  if_neg fun hf => h (State.isFault_iff.1 hf)

/-- STEP where no unit can be decoded (R147). -/
theorem exec_step_of_idle_or_done (h : s.st = .idle ∨ s.st = .done) : exec .step s = .next (s.raise .protocol) := by
  show execStep s = _
  rcases h with h | h <;> simp [execStep, State.isFault, State.isActive, h]

/-- RUN where no block is bound (R147). -/
theorem runCommand_of_idle (h : s.st = .idle) : runCommand s = .raised (s.raise .protocol) := by
  simp [runCommand, State.isFault, State.isDone, State.isActive, h]

/-- The block has ended, well or in a fault (R143). -/
def State.ended (s : State) : Prop := s.st = .done ∨ s.st = .fault

/-- RUN where the block has ended does nothing (R143). -/
theorem runCommand_of_ended (h : s.ended) : runCommand s = .ok () s :=
  if_pos (h.symm.imp State.isFault_iff.2 State.isDone_iff.2)

/-- RUN in AWAIT and DECODING (R143). -/
theorem runCommand_of_isActive (h : s.isActive = true) : runCommand s = runBlock s := by
  rcases State.isActive_iff.1 h with hst | hst <;> simp [runCommand, State.isFault, State.isDone, State.isActive, hst]

theorem exec_run (s : State) : exec .run s = (runCommand s).outcome := rfl

/-- Settles O4: in each control state the command's tests are followed to the raise of E_PROTOCOL or to nothing. -/
theorem commandsOutOfPlace : Obligations.CommandsOutOfPlace := by
  unfold Obligations.CommandsOutOfPlace
  intro s
  refine ⟨fun h => ?reserved, fun h => ?step, fun h => ?runIdle, fun h => ?runDone,
    fun h => ⟨if_pos (State.isFault_iff.2 h), if_pos (State.isFault_iff.2 h), ?runFault⟩⟩
  case reserved =>
    rw [exec_cmdReserved_of_no_fault h, State.raise_of_no_fault h]
    rfl
  case step =>
    have hf : s.st ≠ .fault := by rcases h with h | h <;> rw [h] <;> nofun
    rw [exec_step_of_idle_or_done h, State.raise_of_no_fault hf]
    rfl
  case runIdle =>
    rw [exec_run, runCommand_of_idle h, State.raise_of_no_fault (by rw [h]; nofun)]
    rfl
  case runDone =>
    rw [exec_run, runCommand_of_ended (.inl h)]
    rfl
  case runFault =>
    rw [exec_run, runCommand_of_ended (.inr h)]
    rfl

end Sys2Proof.Machine
end

section
/-! RUN is the STEPs issued while the state is AWAIT or DECODING (44_host_commands.md R143, 42_blockdecoder.md R123;
O6). -/

namespace Sys2Proof.Machine

variable {s t u : State} {k : Nat}

/-! ## A unit -/

/-- The state that a unit without a fault leaves (R120). -/
theorem State.unitTaken.active_or_done (h : s.unitTaken t) : t.isActive = true ∨ t.st = .done := by
  rw [State.isActive_iff, h.st]
  split
  · exact .inr rfl
  · split
    · exact .inl (.inl rfl)
    · exact .inl (.inr rfl)

/-- A unit begun in AWAIT or DECODING does not stop the model, and without a fault it leaves fewer bytes to come
(R123, R134). -/
theorem bdUnit_progress (hs : s.blockInv) (ha : s.isActive = true) :
    (bdUnit s).leaves
      (fun _ t => t.blockInv ∧ (t.isActive = true ∨ t.st = .done) ∧
        t.outSize.toNat - t.produced.toNat < s.outSize.toNat - s.produced.toNat)
      (fun _ _ => True) (fun _ => False) := by
  have hkeeps := ((bdUnit_result s).keeps_block hs ha).mono (fun _ _ h => h) (fun _ _ _ => trivial) fun _ h => h
  have hframe := (bdUnit_result s).leaves.mono (fun _ _ h => h) (fun _ _ _ => trivial) fun _ h => h
  refine ((hkeeps.and hframe).and (bdUnit_taken s)).mono ?_ (fun _ _ h => h) fun _ h => h.1.1
  rintro _ t ⟨⟨hinv, v, w, n, hv, hw, rfl⟩, u, hu, htaken, -, -⟩
  refine ⟨hinv, htaken.active_or_done, ?_⟩
  have hsize : w.outSize = s.outSize := hw.outSize.trans hv.sameOutput.2.2.2.2
  have hprod : u.produced = s.produced := hu.sameOutput.2.2.2.1
  obtain ⟨hcount, hrange⟩ := htaken.produces
  have hpos := htaken.positive
  rw [State.finishUnit_outSize, hsize] at hrange ⊢
  rw [hprod] at hcount
  omega

/-! ## Some STEPs -/

/-- `k` STEPs, each issued in AWAIT or DECODING, end the block in the state `t` (R143). -/
structure State.stepsTo (s : State) (k : Nat) (t : State) : Prop where
  steps : repeatStep k s = .next t
  ended : t.ended
  active : ∀ j, j < k → ∃ u, repeatStep j s = .next u ∧ u.isActive = true

theorem repeatStep_succ (h : exec .step s = .next u) (k : Nat) : repeatStep (k + 1) s = repeatStep k u := by
  simp only [repeatStep, h]

/-- A block that has ended takes no further STEP. -/
theorem State.stepsTo_zero (h : s.ended) : s.stepsTo 0 s := ⟨rfl, h, fun j hj => absurd hj (Nat.not_lt_zero j)⟩

/-- A STEP, and then some. -/
theorem State.stepsTo.cons (h : u.stepsTo k t) (ha : s.isActive = true) (hstep : exec .step s = .next u) :
    s.stepsTo (k + 1) t where
  steps := (repeatStep_succ hstep k).trans h.steps
  ended := h.ended
  active := by
    intro j hj
    cases j with
    | zero => exact ⟨s, rfl, ha⟩
    | succ j =>
      rw [repeatStep_succ hstep]
      exact h.active j (by omega)

/-! ## O6 -/

/-- The loop of RUN ends with the block (R143). -/
theorem runUnits_of_done (h : s.st = .done) (f : Nat) : runUnits f s = .ok () s := by
  have hn : ¬ s.isActive = true := by rw [State.isActive_iff, h]; nofun
  cases f with
  | zero => rfl
  | succ f => exact if_neg hn

/-- The loop of RUN with as many passes as bytes are missing (R123, R143), by induction on the passes. -/
theorem runUnits_stepsTo (f : Nat) (s : State) (hs : s.blockInv) (ha : s.isActive = true)
    (hf : s.outSize.toNat - s.produced.toNat ≤ f) :
    ∃ k t, k < s.outSize.toNat - s.produced.toNat ∧ (runUnits f s).outcome = .next t ∧ s.stepsTo (k + 1) t := by
  obtain ⟨-, hshort⟩ := hs.filled ha
  induction f generalizing s with
  | zero => omega
  | succ f ih =>
    have hprogress := bdUnit_progress hs ha
    have hstep := exec_step_of_isActive ha
    rw [runUnits, if_pos ha]
    cases hr : bdUnit s with
    | ok a u =>
      rw [hr] at hprogress hstep
      obtain ⟨hu, hnext, hless⟩ := hprogress
      rcases hnext with hau | hdone
      · obtain ⟨k, t, hk, hrun, hsteps⟩ := ih u hu hau (by omega) (hu.filled hau).2
        exact ⟨k + 1, t, by omega, hrun, hsteps.cons ha hstep⟩
      · refine ⟨0, u, by omega, ?_, (State.stepsTo_zero (.inl hdone)).cons ha hstep⟩
        rw [Res.andThen_ok, runUnits_of_done hdone, Res.outcome_ok]
    | raised v =>
      rw [hr] at hprogress hstep
      obtain ⟨e, u, rfl, -⟩ := hprogress
      exact ⟨0, u.raise e, by omega, rfl, (State.stepsTo_zero (.inr (u.raise_st e))).cons ha hstep⟩
    | stop f =>
      rw [hr] at hprogress
      exact hprogress.elim

/-- RUN in AWAIT or DECODING is some STEPs, at most one for each byte that is missing (R123, R143). -/
theorem exec_run_stepsTo (hs : s.blockInv) (ha : s.isActive = true) :
    ∃ k t, k < s.outSize.toNat - s.produced.toNat ∧ exec .run s = .next t ∧ s.stepsTo (k + 1) t := by
  rw [exec_run, runCommand_of_isActive ha]
  exact runUnits_stepsTo _ s hs ha (Nat.le_succ _)

/-- Settles O6: the passes of RUN's loop are the STEPs (`exec_run_stepsTo`). -/
theorem runIsSteps : Obligations.RunIsSteps := by
  unfold Obligations.RunIsSteps
  intro s ha hm hb
  obtain ⟨k, t, hk, hrun, hsteps, hended, hactive⟩ := exec_run_stepsTo ⟨hm.2.1, hm.2.2, fun _ => hb⟩ ha
  exact ⟨k + 1, t, by omega, by omega, hrun, hsteps, hended, hactive⟩

end Sys2Proof.Machine
end

section
/-! RUN with a degenerate literal table (41_codetable.md R109, 44_host_commands.md R143; O7). -/

namespace Sys2Proof.Machine

variable {s t : State} {c : Byte}

/-! ## One unit -/

/-- The state after a unit that appends the byte `c` and reads no stream bit (R109, R112, R113). -/
def State.literalUnit (s : State) (c : Byte) : State :=
  ((s.setRemaining (s.remaining - 1)).pushByte c).finishUnit 1

/-- A degenerate table answers its symbol and reads no bit (R100, R109). -/
theorem decodeSymbol_of_shortcut {T : TableId} (h : (s.tab T).sv = true) :
    decodeSymbol T s = .ok (s.tab T).ss.toNat s := if_pos h

/-- A unit of a degenerate literal table (R109, R112). -/
theorem bdUnit_degenerate (hleft : s.remaining ≠ 0) (hfit : s.produced.toNat < s.outSize.toNat)
    (hsv : s.tabs.tLit.sv = true) (hss : s.tabs.tLit.ss.toNat = c.toNat) :
    bdUnit s = .ok () (s.literalUnit c) := by
  have hsymbol : decodeSymbol .tLit (s.setRemaining (s.remaining - 1)) =
      .ok c.toNat (s.setRemaining (s.remaining - 1)) := hss ▸ decodeSymbol_of_shortcut (T := .tLit) hsv
  rw [bdUnit_of_left hleft, decodeUnit, hsymbol, Res.andThen_ok,
    unitOfSymbol_literal (s := s.setRemaining (s.remaining - 1)) c hfit, Res.andThen_ok, State.literalUnit]

theorem State.literalUnit_appended (hm : s.memoryOk) (c : Byte) : s.appended (s.literalUnit c) c := by
  obtain ⟨hprod, hout, hwin⟩ := State.pushByte_appended hm c
  exact ⟨hprod, hout, hwin⟩

theorem State.literalUnit_produced (hfit : s.produced.toNat < s.outSize.toNat) (c : Byte) :
    (s.literalUnit c).produced.toNat = s.produced.toNat + 1 := State.pushByte_produced_toNat hfit c

theorem State.literalUnit_remaining (hleft : s.remaining ≠ 0) (c : Byte) :
    (s.literalUnit c).remaining.toNat = s.remaining.toNat - 1 :=
  BitVec.toNat_sub_of_le (by bv_omega)

/-- What is left to be said of the state after such a unit is its OUT, its WIN and the control state (R120). -/
theorem State.literalUnit_eq (s : State) (c : Byte) : s.literalUnit c =
    { s with
      out := (s.literalUnit c).out, win := (s.literalUnit c).win, produced := s.produced + 1
      remaining := s.remaining - 1, lastN := 1, st := (s.literalUnit c).st
      site := if (s.literalUnit c).st = .done then .pad else .none } := rfl

theorem State.literalUnit_memoryOk (hm : s.memoryOk) (c : Byte) : (s.literalUnit c).memoryOk :=
  ⟨hm.1, Mem.wf_write hm.2.1 _ c, Mem.wf_write hm.2.2 _ c⟩

/-! ## All of them -/

/-- From `s` to `t` the rest of the block has been filled with the byte `c`, a unit of the sub-block for each byte, and no
stream bit has been read (R109, R120, R130). -/
structure State.filledUp (s t : State) (c : Byte) : Prop where
  out : ∀ a, t.readOut a = if s.produced.toNat ≤ a ∧ a < s.outSize.toNat then some c else s.readOut a
  win : ∀ a, s.produced.toNat ≤ a → a < s.outSize.toNat → t.readWin (a % 8192) = some c
  winKept : ∀ w, (∀ a, s.produced.toNat ≤ a → a < s.outSize.toNat → a % 8192 ≠ w) → t.readWin w = s.readWin w
  frame : t = { s with
    out := t.out, win := t.win, produced := s.outSize, lastN := 1, st := .done, site := .pad
    remaining := BitVec.ofNat 16 (s.remaining.toNat - (s.outSize.toNat - s.produced.toNat)) }

/-- The last byte ends the block (R120). -/
theorem State.filledUp_last (hm : s.memoryOk) (hleft : s.remaining ≠ 0)
    (hlast : s.produced.toNat + 1 = s.outSize.toNat) : s.filledUp (s.literalUnit c) c := by
  obtain ⟨-, hout, hwin⟩ := State.literalUnit_appended hm c
  have hone := State.literalUnit_remaining hleft c
  have hprod : (s.literalUnit c).produced = s.outSize :=
    BitVec.eq_of_toNat_eq ((State.literalUnit_produced (by omega) c).trans hlast)
  have hst : (s.literalUnit c).st = .done := if_pos hprod
  refine ⟨fun a => ?out, fun a ha hlt => ?win, fun w hw => ?winKept, ?frame⟩
  case out =>
    rw [hout]
    exact if_congr (by omega) rfl rfl
  case win =>
    rw [hwin, if_pos (by rw [show a = s.produced.toNat by omega])]
  case winKept => rw [hwin, if_neg fun he => hw _ (Nat.le_refl _) (by omega) he.symm]
  case frame =>
    have hcount : s.remaining - 1 = BitVec.ofNat 16 (s.remaining.toNat - (s.outSize.toNat - s.produced.toNat)) := by
      rw [show s.outSize.toNat - s.produced.toNat = 1 by omega, ← hone, BitVec.ofNat_toNat, BitVec.setWidth_eq]
      rfl
    conv_lhs => rw [s.literalUnit_eq c]
    rw [hst, if_pos rfl, hcount, show s.produced + 1 = s.outSize from hprod]

/-- A byte, and then the rest. -/
theorem State.filledUp.cons (hm : s.memoryOk) (hleft : s.remaining ≠ 0) (hfit : s.produced.toNat < s.outSize.toNat)
    (h : (s.literalUnit c).filledUp t c) : s.filledUp t c := by
  obtain ⟨-, hout, hwin⟩ := State.literalUnit_appended hm c
  have hprod := State.literalUnit_produced hfit c
  have hremaining := State.literalUnit_remaining hleft c
  have hsize : (s.literalUnit c).outSize = s.outSize := rfl
  obtain ⟨hout', hwin', hkept', hframe⟩ := h
  rw [hprod, hsize] at hout' hwin' hkept' hframe
  refine ⟨fun a => ?out, fun a ha hlt => ?win, fun w hw => ?winKept, ?frame⟩
  case out =>
    rw [hout', hout]
    split_ifs <;> first | rfl | omega
  case win =>
    by_cases hlater : s.produced.toNat + 1 ≤ a
    · exact hwin' a hlater hlt
    · obtain rfl : a = s.produced.toNat := by omega
      by_cases hagain : ∃ b, s.produced.toNat + 1 ≤ b ∧ b < s.outSize.toNat ∧ b % 8192 = s.produced.toNat % 8192
      · obtain ⟨b, hb, hlt', he⟩ := hagain
        exact he ▸ hwin' b hb hlt'
      · rw [hkept' _ fun b hb hlt' he => hagain ⟨b, hb, hlt', he⟩, hwin, if_pos rfl]
  case winKept =>
    rw [hkept' w fun a ha => hw a (by omega), hwin, if_neg fun he => hw _ (Nat.le_refl _) hfit he.symm]
  case frame =>
    rw [hremaining, show s.remaining.toNat - 1 - (s.outSize.toNat - (s.produced.toNat + 1)) =
      s.remaining.toNat - (s.outSize.toNat - s.produced.toNat) by omega] at hframe
    exact hframe

/-! ## O7 -/

/-- While bytes are missing after such a unit, the block goes on (R120). -/
theorem State.literalUnit_isActive (hmore : (s.literalUnit c).produced ≠ s.outSize) :
    (s.literalUnit c).isActive = true := by
  have hst : (s.literalUnit c).st = if (s.literalUnit c).remaining = 0 then .await else .decoding := if_neg hmore
  rw [State.isActive_iff, hst]
  split
  · exact .inl rfl
  · exact .inr rfl

/-- The loop of RUN with as many passes as bytes are missing (R109, R143), by induction on the passes. -/
theorem runUnits_filledUp (f : Nat) (s : State) (ha : s.isActive = true) (hm : s.memoryOk)
    (hfit : s.produced.toNat < s.outSize.toNat) (hunits : s.outSize.toNat - s.produced.toNat ≤ s.remaining.toNat)
    (hsv : s.tabs.tLit.sv = true) (hss : s.tabs.tLit.ss.toNat = c.toNat)
    (hf : s.outSize.toNat - s.produced.toNat ≤ f) : ∃ t, runUnits f s = .ok () t ∧ s.filledUp t c := by
  induction f generalizing s with
  | zero => omega
  | succ f ih =>
    have hleft : s.remaining ≠ 0 := by
      intro h0
      rw [h0] at hunits
      exact absurd hunits (Nat.not_le_of_lt (Nat.sub_pos_of_lt hfit))
    have hprod := State.literalUnit_produced hfit c
    have hremaining := State.literalUnit_remaining hleft c
    have hsize : (s.literalUnit c).outSize.toNat = s.outSize.toNat := rfl
    rw [runUnits, if_pos ha, bdUnit_degenerate hleft hfit hsv hss, Res.andThen_ok]
    by_cases hlast : s.produced.toNat + 1 = s.outSize.toNat
    · have hdone : (s.literalUnit c).st = .done := if_pos (BitVec.eq_of_toNat_eq (hprod.trans hlast))
      exact ⟨_, runUnits_of_done hdone f, State.filledUp_last hm hleft hlast⟩
    · have hactive := State.literalUnit_isActive fun he => hlast (hprod.symm.trans (congrArg BitVec.toNat he))
      obtain ⟨t, ht, hfilled⟩ := ih (s.literalUnit c) hactive (State.literalUnit_memoryOk hm c)
        (by omega) (by omega) hsv hss (by omega)
      exact ⟨t, ht, hfilled.cons hm hleft hfit⟩

/-- Settles O7: each pass of RUN's loop appends the byte, until none is missing (`runUnits_filledUp`). -/
theorem runFills : Obligations.RunFills := by
  unfold Obligations.RunFills
  intro s c ha hm hfit hunits hsv hss
  obtain ⟨t, ht, hout, hwin, hkept, hframe⟩ := runUnits_filledUp _ s ha hm hfit hunits hsv hss (Nat.le_succ _)
  refine ⟨t, ?_, hout, hwin, hkept, hframe⟩
  rw [exec_run, runCommand_of_isActive ha, runBlock, ht, Res.outcome_ok]

end Sys2Proof.Machine
end

section
/-! The container's loop (44_host_commands.md R150 to R153; O8): whatever WIN holds, START and RUN decode the block that
the HOST has placed, to its end or to a fault, and leave the HOST's own fields alone. -/

namespace Sys2Proof.Machine

variable {s t u : State} {r : Res Unit}

/-! ## What no unit touches -/

/-- The HOST's container reader and OUT_SIZE are as they were (R149, R150). -/
def State.sameBinding (s u : State) : Prop := u.host = s.host ∧ u.outSize = s.outSize

theorem State.sameBinding_refl (s : State) : s.sameBinding s := ⟨rfl, rfl⟩

theorem State.sameBinding.trans (h : s.sameBinding t) (h' : t.sameBinding u) : s.sameBinding u :=
  ⟨h'.1.trans h.1, h'.2.trans h.2⟩

theorem bdUnit_sameBinding (s : State) : (bdUnit s).keeps s.sameBinding (fun _ => True) := by
  refine (bdUnit_result s).leaves.mono ?_ ?_ fun _ h => h
  · rintro _ _ ⟨_, _, n, ⟨b, x, k, rfl⟩, ⟨o, w, p, rfl⟩, rfl⟩
    exact ⟨rfl, rfl⟩
  · rintro _ _ ⟨b, x, k, rfl⟩
    exact ⟨rfl, rfl⟩

/-- The loop of RUN (R143), by induction on its passes. -/
theorem runUnits_sameBinding (f : Nat) (h : s.sameBinding t) :
    (runUnits f t).keeps s.sameBinding (fun _ => True) := by
  induction f generalizing t with
  | zero => exact h
  | succ f ih =>
    simp only [runUnits]
    split
    · exact ((bdUnit_sameBinding t).mono (fun _ _ hu => h.trans hu) (fun _ _ hu => h.trans hu) fun _ hf => hf).andThen
        fun _ _ hu => ih hu
    · exact h

theorem runCommand_sameBinding (s : State) : (runCommand s).keeps s.sameBinding (fun _ => True) := by
  unfold runCommand
  split
  · exact s.sameBinding_refl
  · split
    · exact runUnits_sameBinding _ s.sameBinding_refl
    · exact Res.leaves_raise ⟨rfl, rfl⟩

/-! ## START and RUN -/

/-- RUN after START ends the block (R143), and what a block says of its output holds (R133, R134). -/
theorem run_startBlock_ended (a b : Word) (hout : Mem.wf .out s.out = true) (hwin : Mem.wf .win s.win = true) :
    ∃ u, exec .run (startBlock a b s) = .next u ∧ u.ended ∧ u.blockInv := by
  have hinv := blockInv_startBlock a b hout hwin
  have hkept := blockInv_commands.exec_kept (i := .run) rfl hinv
  obtain ⟨-, -, ⟨hst, -, -⟩ | ⟨hst, -, -⟩⟩ := startBlock_control a b s
  · obtain ⟨_, u, -, hrun, -, hended, -⟩ := exec_run_stepsTo hinv (State.isActive_iff.2 (.inl hst))
    exact ⟨u, hrun, hended, hkept.of_next hrun⟩
  · have hrun : exec .run (startBlock a b s) = .next (startBlock a b s) := by
      rw [exec_run, runCommand_of_ended (.inl hst), Res.outcome_ok]
    exact ⟨_, hrun, .inl hst, hinv⟩

/-- RUN after START, whatever WIN holds: no unit reads it, so the block is decoded as over an empty WIN, and when it is
done every byte of OUT has been written (R42, R133). -/
theorem run_startBlock (a b : Word) (hout : Mem.wf .out s.out = true) :
    ∃ u, exec .run (startBlock a b s) = .next u ∧ u.ended ∧ u.host = s.host ∧
      (u.st = .done → ∀ k, k < b.toNat → u.readOut k ≠ none) := by
  obtain ⟨v, hv, hended, hinv⟩ := run_startBlock_ended (s := { s with win := [] }) a b hout rfl
  have hstart := startBlock_alike (s := { s with win := [] }) (s' := s) a b hout hout fun _ _ => rfl
  have hsafe : Safe (runCommand (startBlock a b { s with win := [] })).outcome := fun f hf => by
    cases hv.symm.trans hf
  obtain ⟨v', u, hv', hu, halike⟩ := Res.alikeAt.outcome (runCommand_alike hstart) hsafe
  obtain rfl : v = v' := Host.Outcome.next.inj (hv.symm.trans hv')
  obtain ⟨hhost, hsize⟩ := (runCommand_sameBinding (startBlock a b s)).kept.of_next hu
  obtain ⟨r, hr⟩ := startBlock_eq a b s
  rw [hr] at hhost hsize
  refine ⟨u, hu, ?ended, hhost, fun hdone k hk => ?written⟩
  case ended =>
    rw [State.ended, ← halike.st]
    exact hended
  case written =>
    have hblock := hinv.block (.inr (State.isDone_iff.2 (halike.st.trans hdone)))
    have hprod : v.produced = b :=
      (hblock.doneAt (State.isDone_iff.2 (halike.st.trans hdone))).trans (halike.outSize.trans hsize)
    have hbelow : k < v.produced.toNat := hprod ▸ hk
    exact halike.out k hbelow ▸ hblock.written k hbelow

/-! ## The HOST's loop -/

/-- What the HOST reads of a block that has written every byte (R150). -/
theorem State.collected_get_of_written {n : Nat} (h : ∀ k, k < n → s.readOut k ≠ none) {k : Nat} (hk : k < n) :
    s.readOut k = (s.collected n)[k]? := by
  obtain ⟨b, hb⟩ := Option.ne_none_iff_exists'.1 (h k hk)
  rw [s.collected_get hk hb, hb]

/-- The `n` bytes that follow the header at the HOST's cursor, or as many as there are (R66, R150). -/
def HostSide.payload (h : HostSide) (n : Nat) : List Byte := (h.file.drop (h.cursor + 12)).take n

/-- IN reads as the bytes of the file that the HOST has placed (R150, R152). -/
theorem State.placeBlock_readIn {h : HostSide} {n k : Nat} (hlen : n ≤ (h.file.drop (h.cursor + 12)).length)
    (hk : k < n) : (s.placeBlock (h.payload n)).readIn k = h.file.getD (h.cursor + 12 + k) 0 := by
  have hread := Mem.read_ofBytes .inp 0 (h.payload n) k
  have hplaced : k < (h.payload n).length := by
    rw [HostSide.payload, List.length_take]
    omega
  have hfile : h.cursor + 12 + k < h.file.length := by
    rw [List.length_drop] at hlen
    omega
  rw [Nat.zero_add, dif_pos hplaced] at hread
  rw [State.readIn, State.placeBlock_inp, hread]
  simp [HostSide.payload, hfile]

/-- The HOST goes on after a command that has completed (R171). -/
theorem Res.completed_outcome (h : r.outcome = .next u) (k : State → State) : (r.completed k).outcome = .next (k u) := by
  cases r with
  | ok _ v | raised v =>
    obtain rfl : v = u := by simpa using h
    rfl
  | stop f => exact absurd h (by simp)

theorem exec_containerHeader_short (o n : Word) (h : (s.host.file.drop (s.host.cursor + 12)).length < n.toNat) :
    exec (.containerHeader o n) s = .next (s.setHost s.host.fail) := by
  show (containerBlock o n s).outcome = _
  simp only [containerBlock, if_pos h, Res.outcome_ok]

/-- One pass of the loop: the block is placed, started and run, and the HOST goes on (R150). -/
theorem exec_containerHeader_placed (o n : Word) (h : n.toNat ≤ (s.host.file.drop (s.host.cursor + 12)).length)
    (hu : exec .run (startBlock n o (s.placeBlock (s.host.payload n.toNat))) = .next u) :
    exec (.containerHeader o n) s = .next (collectBlock o n u) := by
  show (containerBlock o n s).outcome = _
  simp only [containerBlock, if_neg (Nat.not_lt_of_le h)]
  exact Res.completed_outcome hu _

/-- After a block that is done its output is appended (R150). -/
theorem collectBlock_of_done (o n : Word) (h : s.st = .done) : collectBlock o n s = s.appendBlock o n :=
  if_neg fun hf => nomatch h.symm.trans (State.isFault_iff.1 hf)

/-- A block that failed is reported first (R150). -/
theorem collectBlock_of_fault (o n : Word) (h : s.st = .fault) :
    collectBlock o n s = (s.setHost (s.host.report s.err)).afterFailure o n := if_pos (State.isFault_iff.2 h)

theorem State.afterFailure_of_stop (o n : Word) (h : s.host.policy = .stopAtFailure) :
    s.afterFailure o n = s.setHost { s.host with halted := true } := by
  rw [State.afterFailure, h]

theorem State.afterFailure_of_next (o n : Word) (h : s.host.policy = .nextBlock) :
    s.afterFailure o n = (s.appendBlock o n).nextFree := by
  rw [State.afterFailure, h]

/-- Settles O8: the block is placed, started and run (`run_startBlock`), and what the HOST does then depends on the state
RUN ends in and on the HOST's policy. -/
theorem HostSide.containerBlock : Obligations.ContainerBlock := by
  unfold Obligations.ContainerBlock
  intro s o n
  refine ⟨exec_containerHeader_short o n, fun hlen => ?_⟩
  obtain ⟨u, hu, hended, hhost, hwritten⟩ :=
    run_startBlock (s := s.placeBlock (s.host.payload n.toNat)) n o (Mem.wf_nil .out)
  refine ⟨s.placeBlock (s.host.payload n.toNat), _, u, _, fun k => State.placeBlock_readIn hlen, rfl, rfl, hu,
    exec_containerHeader_placed o n hlen hu, hended, fun hdone => ?done, fun hfault hpolicy => ?stops, fun hfault hpolicy => ?goesOn⟩
  case done =>
    refine ⟨u.collected o.toNat, u.collected_length _, fun k => State.collected_get_of_written (hwritten hdone), ?_⟩
    rw [collectBlock_of_done o n hdone, State.appendBlock, hhost]
    rfl
  case stops =>
    rw [collectBlock_of_fault o n hfault, State.afterFailure_of_stop o n (by rw [hhost]; exact hpolicy), hhost]
    rfl
  case goesOn =>
    refine ⟨u.collected o.toNat, u.collected_length _, fun k c hk => u.collected_get hk, ?_⟩
    rw [collectBlock_of_fault o n hfault, State.afterFailure_of_next o n (by rw [hhost]; exact hpolicy), hhost]
    rfl

end Sys2Proof.Machine
end

section
/-! Taking a fault (60_exceptions.md R171 to R175): what a raise records (O41), that a unit which faults has written
nothing (O39), and that FAULT and its first code stay (O59). -/

namespace Sys2Proof.Machine

variable {α : Type} {s t : State} {r : Res α} {i : Instr}

/-! ## O41 -/

/-- In FAULT a raise ends the parse and does nothing else (R175; log 18). -/
theorem State.raise_of_fault (h : s.st = .fault) (e : ErrCode) : s.raise e = { s with site := .none } := by
  rw [State.raise, if_pos h, ← h]

/-- Settles O41: the two cases of `State.raise`; the codes are those of R160. -/
theorem raiseRecords : Obligations.RaiseRecords := by
  unfold Obligations.RaiseRecords
  intro s e
  refine ⟨rfl, fun h => ?_, fun h => State.raise_of_fault h e⟩
  rw [State.raise_of_no_fault h]
  cases e <;> rfl

/-! ## O39 -/

/-- A unit raises every code of R160 but E_PROTOCOL, which is the commands' (R169). -/
theorem unitFault_code {e : ErrCode} (h : unitFault e) : 1 ≤ (errCode e).toNat ∧ (errCode e).toNat ≤ 8 := by
  cases e with
  | protocol => simp [unitFault, subblockFault] at h
  | _ => decide

/-- A unit that ends in FAULT raised it while it still decoded, for a unit that is finished leaves another state
(R120, R172). -/
theorem bdUnit_fault (h : (bdUnit s).outcome = .next t) (hst : t.st = .fault) :
    ∃ e u, t = u.raise e ∧ unitFault e ∧ s.decodesOnly u := by
  rcases (bdUnit_leaves s).next h with ⟨v, w, n, -, -, rfl⟩ | hraised
  · exact absurd hst w.nextPhase_ne_fault
  · exact hraised

/-- Settles O39: what a unit does before it raises is decoding, which writes no output (`bdUnit_fault`). -/
theorem unitPrecise : Obligations.UnitPrecise := by
  unfold Obligations.UnitPrecise
  intro s t i hi ha ht hst
  rw [exec_unit hi ha] at ht
  obtain ⟨e, u, rfl, he, hu⟩ := bdUnit_fault ht hst
  have herr : (u.raise e).err = errCode e := if_neg (State.st_ne_fault_of_isActive (hu.isActive.trans ha))
  rw [herr]
  obtain ⟨b, x, c, rfl⟩ := hu
  exact ⟨rfl, rfl, rfl, rfl, unitFault_code he⟩

/-! ## The control state under the operations invoked by name -/

/-- `t` has the control state of `s`, or a fault was raised in that control state. -/
def State.raisesOnly (s t : State) : Prop := ∃ u, s.sameControl u ∧ (t = u ∨ ∃ e, t = u.raise e)

theorem State.sameControl.raisesOnly (h : s.sameControl t) : s.raisesOnly t := ⟨t, h, .inl rfl⟩

/-- What an operation returns to its invoker is no part of the control state. -/
theorem State.raisesOnly.setRet (h : s.raisesOnly t) (n : Nat) : s.raisesOnly (t.setRet n) := by
  obtain ⟨u, hu, rfl | ⟨e, rfl⟩⟩ := h
  · exact ⟨t.setRet n, hu, .inl rfl⟩
  · exact ⟨u.setRet n, hu, .inr ⟨e, rfl⟩⟩

/-- The operation leaves the control state alone, whatever it answers, and up to the raise if it raises. -/
def Res.holdsControl (r : Res α) (s : State) : Prop :=
  r.leaves (fun _ u => s.sameControl u) (fun _ u => s.sameControl u) (fun _ => True)

theorem Res.leaves.holdsControl {ok : α → State → Prop} {bad : ErrCode → State → Prop} {stop : Fault → Prop}
    (h : r.leaves ok bad stop) (hok : ∀ a u, ok a u → s.sameControl u) (hbad : ∀ e u, bad e u → s.sameControl u) :
    r.holdsControl s := h.mono hok hbad fun _ _ => trivial

theorem Res.holdsControl.keeps (h : r.holdsControl s) : r.keeps s.raisesOnly (fun _ => True) :=
  h.mono (fun _ _ hu => hu.raisesOnly) (fun e u hu => ⟨u, hu, .inr ⟨e, rfl⟩⟩) fun _ h => h

theorem Res.holdsControl.kept {r : Res Unit} (h : r.holdsControl s) : Kept s.raisesOnly (fun _ => True) r.outcome :=
  h.keeps.kept

theorem Res.holdsControl.keptRet {r : Res Nat} (h : r.holdsControl s) :
    Kept s.raisesOnly (fun _ => True) r.outcomeRet := h.keeps.keptRet fun _ n hu => hu.setRet n

/-- No operation invoked by name but BD.UNIT moves the control state otherwise than by a raise (R8, R171; log 22). -/
theorem exec_operation_raisesOnly (hi : i.isOperation = true) (hunit : i ≠ .bdUnit) :
    Kept s.raisesOnly (fun _ => True) (exec i s) := by
  cases i with
  | brInit => exact s.brInit_readsOnly.sameControl.raisesOnly
  | brIngest n => exact (s.ingest_readsOnly n.val).sameControl.raisesOnly
  | brGet n => exact (s.consume_readsOnly n.val).sameControl.raisesOnly.setRet _
  | ctClear t => exact (clearTable_buildsOnly t s).decodes.sameControl.raisesOnly
  | ctCount t => exact (readCount_spec t s).2.decodes.sameControl.raisesOnly.setRet _
  | ctDegen t =>
    exact ((readShortcut_leaves t s).holdsControl (fun _ _ h => h.1.decodes.sameControl)
      fun _ _ h => h.2.decodes.sameControl).kept
  | ctHlen =>
    exact ((readHlen_leaves s).holdsControl (fun _ _ h => h.1.sameControl) fun _ _ h => h.2.sameControl).keptRet
  | ctHskip t i =>
    exact ((skipIndices_decodesOnly t i _ (s.consume_decodesOnly 2)).holdsControl (fun _ _ h => h.sameControl)
      fun _ _ h => h.sameControl).keptRet
  | ctInitHybrid t skip =>
    exact ((initHybrid_leaves _ t skip s).holdsControl (fun _ _ h => h.decodes.sameControl)
      fun _ _ h => h.2.decodes.sameControl).kept
  | ctInitCoded t d =>
    exact ((initCoded_leaves _ t d s).holdsControl (fun _ _ h => h.decodes.sameControl)
      fun _ _ h => h.2.decodes.sameControl).kept
  | ctAssign t =>
    have hcodes : s.sameControl (s.setTab t (s.tab t).withCodes) := ⟨rfl, rfl, rfl⟩
    exact ((assignCodes_leaves t s).holdsControl (fun _ _ h => h.2 ▸ hcodes) fun _ _ h => h.2.2 ▸ hcodes).kept
  | ctDecode t =>
    exact ((decodeSymbol_readsOnly t s).holdsControl (fun _ _ h => h.sameControl) fun _ _ h => h.2.sameControl).keptRet
  | bdInitSubblock =>
    exact ((initSubblock_leaves s).holdsControl (fun _ _ h => h.sameControl) fun _ _ h => h.2.sameControl).kept
  | bdUnit => exact absurd rfl hunit
  | bdLiteral c =>
    exact ((literal_leaves c s).holdsControl (fun _ _ h => h.2.2 ▸ (s.pushByte_writesOnly c).sameControl)
      fun _ _ h => h.elim).keptRet
  | bdMatch c =>
    refine ((matchUnit_leaves c.toNat s).holdsControl ?_ fun _ _ h => h.2.sameControl).keptRet
    rintro _ u ⟨-, v, hv, hu⟩
    exact hv.sameControl.trans hu.sameControl
  | bdOffset =>
    exact ((readOffset_leaves s).holdsControl (fun _ _ h => h.2.sameControl) fun _ _ h => h.2.sameControl).keptRet
  | lzEmit b =>
    exact ((emit_leaves b s).holdsControl (fun _ _ h => h.2 ▸ (s.pushByte_writesOnly b).sameControl)
      fun _ _ h => h.elim).kept
  | lzCopy n d =>
    exact ((copy_leaves n.toNat d.toNat s).holdsControl (fun _ _ h => h.2.2.sameControl)
      fun _ _ h => h.1 ▸ s.readsOnly_refl.sameControl).kept
  | raise e => exact ⟨s, s.readsOnly_refl.sameControl, .inr ⟨e, rfl⟩⟩
  | _ => cases hi

/-! ## O59 -/

/-- `t` is in FAULT with the code that `s` has. -/
def State.sameFault (s t : State) : Prop := t.st = .fault ∧ t.err = s.err

/-- A raise in FAULT keeps the first code (R175; log 18). -/
theorem State.raisesOnly.sameFault (hf : s.st = .fault) (h : s.raisesOnly t) : s.sameFault t := by
  obtain ⟨u, ⟨hst, herr, -⟩, rfl | ⟨e, rfl⟩⟩ := h
  · exact ⟨hst.trans hf, herr⟩
  · exact ⟨rfl, (if_pos (hst.trans hf)).trans herr⟩

/-- In FAULT no unit is decoded (R174). -/
theorem State.isActive_of_fault (hf : s.st = .fault) : s.isActive = false :=
  Bool.eq_false_iff.2 fun ha => State.st_ne_fault_of_isActive ha hf

/-- Of the commands, READ alone does anything in FAULT (R144, R147, R148, R174). -/
theorem exec_command_of_fault (hi : isCommand i = true) (hr : rebinds i = false) (hf : s.st = .fault) :
    Kept s.sameFault (fun _ => True) (exec i s) := by
  have hsame : s.sameFault s := ⟨hf, rfl⟩
  obtain ⟨-, -, -, -, hstill⟩ := commandsOutOfPlace s
  obtain ⟨hreserved, hstep, hrun⟩ := hstill hf
  cases i with
  | cmdReserved => exact hreserved ▸ hsame
  | step => exact hstep ▸ hsame
  | run => exact hrun ▸ hsame
  | read no =>
    show Kept _ _ (execRead no s)
    unfold execRead
    split
    · exact hsame
    · trivial
  | start _ _ | reset | containerHeader _ _ => cases hr
  | _ => cases hi

/-- In FAULT the operations invoked by name run as elsewhere, except BD.UNIT, which is refused (log 13, log 22). -/
theorem exec_operation_of_fault (hi : i.isOperation = true) (hf : s.st = .fault) :
    Kept s.sameFault (fun _ => True) (exec i s) := by
  by_cases hunit : i = .bdUnit
  · have hrefused : exec i s = .refused .precondition := by
      rw [hunit]
      exact if_neg (by simp [State.isActive_of_fault hf])
    rw [hrefused]
    trivial
  · exact (exec_operation_raisesOnly hi hunit).mono fun _ h => h.sameFault hf

/-- In FAULT no element is parsed, so a stream element is refused or is padding (R50, R70, R174). -/
theorem State.elementOutcome.of_fault {o : Host.Outcome State Fault Refusal} (h : s.elementOutcome o)
    (hs : s.controlOk) (hf : s.st = .fault) : Kept s.sameFault (fun _ => True) o := by
  rcases h with rfl | rfl | ⟨hparsing, -⟩
  · trivial
  · exact ⟨hf, rfl⟩
  · obtain ⟨-, -, hactive, -⟩ := hs
    exact absurd hf (State.st_ne_fault_of_isActive (hactive hparsing))

/-- Every instruction but START, reset and the container reader (R174, R175). -/
theorem exec_of_fault (hr : rebinds i = false) (hs : s.controlOk) (hf : s.st = .fault) :
    Kept s.sameFault (fun _ => True) (exec i s) := by
  cases hc : isCommand i with
  | true => exact exec_command_of_fault hc hr hf
  | false =>
    cases ho : i.isOperation with
    | true => exact exec_operation_of_fault ho hf
    | false => exact (exec_element_cases (by simp [isElement, hc, ho]) s).of_fault hs hf

/-- Settles O59: START, reset and the container reader are the exceptions; all others keep FAULT and its code
(`exec_of_fault`). -/
theorem faultSticky : Obligations.FaultSticky := by
  unfold Obligations.FaultSticky
  intro i s t hs hf ht
  cases i with
  | start a b => exact .inr (.inl ⟨a, b, rfl⟩)
  | reset => exact .inr (.inr (.inl rfl))
  | containerHeader a b => exact .inr (.inr (.inr ⟨a, b, rfl⟩))
  | _ => exact .inl ((exec_of_fault rfl hs hf).of_next ht)

end Sys2Proof.Machine
end

section
/-! A complete code (41_codetable.md R104, 60_exceptions.md R161; O23): the slots of its words, laid end to end, fill the
code space, so each 16 bits begin with one of its words. -/

namespace Sys2Proof.Machine

variable {n cb : Nat}

/-! ## The slots fill the code space -/

/-- A value that a sequence has reached at `a` and not yet passed at `b` is passed in one of the steps between. -/
theorem exists_step_past (f : Nat → Nat) {v a b : Nat} (hab : a ≤ b) (ha : f a ≤ v) (hb : v < f b) :
    ∃ k, a ≤ k ∧ k < b ∧ f k ≤ v ∧ v < f (k + 1) := by
  induction b, hab using Nat.le_induction with
  | base => exact absurd hb (Nat.not_lt_of_le ha)
  | succ b hab ih =>
    by_cases hv : v < f b
    · obtain ⟨k, hak, hkb, hk⟩ := ih hv
      exact ⟨k, hak, Nat.lt_succ_of_lt hkb, hk⟩
    · exact ⟨b, hab, Nat.lt_succ_self b, Nat.le_of_not_lt hv, hb⟩

theorem spaceAt_succ (l : Nat) (xs : List (BitVec 5)) (a : Nat) :
    spaceAt l xs (a + 1) = spaceAt l xs a + if lenIn xs a = l then 2 ^ (16 - l) else 0 := Finset.sum_range_succ ..

/-- Each point of the code space that the lengths take lies in the slot of one symbol: of the length at which the
passes of CT.ASSIGN get past the point, and there of the symbol whose slot takes the counter past it (R102). -/
theorem Counted.slot_at {xs : List (BitVec 5)} {cs : List (BitVec 16)} {ctr v : Nat} (h : Counted xs cs 17 ctr)
    (hv : v < spaceBelow 17 xs) :
    ∃ a, lenIn xs a ≠ 0 ∧ slotStart (lenIn xs a) (codeIn cs a) ≤ v ∧ v < slotEnd (lenIn xs a) (codeIn cs a) := by
  obtain ⟨l, hl1, hl17, hlow, hhigh⟩ := exists_step_past (fun l => spaceBelow l xs) (v := v) (by decide : 1 ≤ 17)
    (by simp [spaceBelow_one]) hv
  rw [spaceBelow_succ hl1] at hhigh
  obtain ⟨a, -, -, hstart, hend⟩ := exists_step_past (fun a => spaceBelow l xs + spaceAt l xs a) (v := v)
    (Nat.zero_le xs.length) hlow hhigh
  have hlen : lenIn xs a = l := by
    by_contra hne
    rw [spaceAt_succ, if_neg hne] at hend
    omega
  rw [spaceAt_succ, if_pos hlen, ← Nat.add_assoc] at hend
  have hslot := h.starts a (by omega) (by omega)
  rw [hlen] at hslot
  refine ⟨a, by omega, ?_, ?_⟩
  · rw [hlen, hslot]
    exact hstart
  · rw [hlen, slotEnd_eq, hslot]
    exact hend

/-- The assignment of a table whose lengths take at most the whole code space has counted them all out (R102). -/
theorem Table.assigned_counted {t : Table n cb} (h : t.lensOk) (hroom : kraft t.lens ≤ 2 ^ 16) :
    Counted t.len.toList t.assigned.codes 17 t.assigned.ctr :=
  (assignFrom_counted Config.maxLen (Nat.le_refl 1) rfl (by simp) t.placed_start t.counted_start
    (t.lens_space h ▸ hroom)).2

/-- In a complete code some word begins each string of 16 bits (R104, R161). -/
theorem Table.withCodes_complete {t : Table n cb} (h : t.lensOk) (hfull : kraft t.lens = 2 ^ 16) {v : Nat}
    (hv : v < 2 ^ 16) : ∃ a, t.lenAt a ≠ 0 ∧ v / 2 ^ (16 - t.lenAt a) = t.withCodes.codeAt a := by
  rw [← hfull, t.lens_space h] at hv
  obtain ⟨a, h0, hstart, hend⟩ := (Table.assigned_counted h hfull.le).slot_at hv
  rw [← t.lenAt_eq_lenIn, ← t.withCodes_codeAt] at hstart hend
  exact ⟨a, by rwa [t.lenAt_eq_lenIn], Nat.div_eq_of_lt_le hstart hend⟩

/-! ## O23 -/

/-- Looking ahead finds a word of a complete code, whatever the register shows (R106, R161). -/
theorem codeWordAt_of_complete {t : Table n cb} (h : t.lensOk) (hsv : t.sv = false) (hfull : kraft t.lens = 2 ^ 16)
    (w : Word) : ∃ a, t.withCodes.lenAt a ≠ 0 ∧ codeWordAt t.withCodes w = some (a, t.withCodes.lenAt a) := by
  obtain ⟨a, h0, hcode⟩ := Table.withCodes_complete h hfull (topBits_lt w (by decide : 16 ≤ 32))
  have hlen : t.withCodes.lenAt a ≤ 16 := h a
  rw [← t.lenAt_withCodes a, topBits_div w hlen (by decide)] at hcode
  have hprefix := t.withCodes_prefixFree h ((Table.assigned_ok_iff h).2 hfull.le)
  refine ⟨a, h0, ?_⟩
  rw [codeWordAt_of_sv (show t.withCodes.sv = false from hsv)]
  exact matchCode_of_word hprefix (by omega) hcode Config.maxLen Nat.one_ne_zero (Nat.one_le_iff_ne_zero.2 h0)
    (by rw [Config.maxLen]; omega)

/-- Settles O23: a complete code has room, and then looking ahead finds a word (`codeWordAt_of_complete`), which
CT.DECODE reads. -/
theorem completeCodeDecodes : Obligations.CompleteCodeDecodes := by
  unfold Obligations.CompleteCodeDecodes
  intro T s t hlens hsv hfull ht
  rw [exec_ctAssign, assignCodes_room hlens hfull.le] at ht
  have hassigned : s.setTab T (s.tab T).withCodes = t := by simpa using ht
  have htab : t.tab T = (s.tab T).withCodes := by rw [← hassigned, State.tab_setTab_same]
  obtain ⟨a, h0, hword⟩ := codeWordAt_of_complete hlens hsv hfull t.br.reg
  rw [← htab] at h0 hword
  obtain ⟨-, hdecode, -⟩ := decodeLookAhead T t
  refine ⟨_, hdecode a _ hword, Table.lt_of_lenAt_ne_zero h0, h0, (t.consume_pos _).symm, ?_⟩
  obtain ⟨b, hb⟩ := t.consume_readsOnly ((t.tab T).lenAt a)
  rw [hb]
  rfl

end Sys2Proof.Machine
end

section
/-! Hardware reset (70_reset_and_hazards.md R190; O2): it is served before the stream element that a block in progress
waits for, and what it leaves is `State.hardReset`. -/

namespace Sys2Proof.Machine

variable {s : State} {rest : List Request}

theorem exec_reset (s : State) : exec .reset s = .next s.hardReset := rfl

theorem State.resetPending_of_port (h : s.port = .deliver .reset :: rest) : s.resetPending = true := by
  simp [State.resetPending, h]

/-- A reset that is asked for is served whether or not an element is being parsed (R190). -/
theorem step_of_resetPending (h : s.resetPending = true) : step s = stepRequest s := by
  simp [step, h]

/-- Settles O2: what reset leaves is read off `State.hardReset`; the step passes over a parse in progress to the
request, whose form the decoder reads as reset at every place of the parser. -/
theorem resetEvent : Obligations.ResetEvent := by
  unfold Obligations.ResetEvent
  refine fun s => ⟨⟨s.hardReset, exec_reset s, s.hardReset_st, s.hardReset_err, s.hardReset_inp, s.hardReset_out,
    s.hardReset_site, s.hardReset_host, s.hardReset_port, s.hardReset_readData, s.hardReset_ret⟩, fun rest hport => ?_⟩
  calc step s
    _ = stepRequest s := step_of_resetPending (State.resetPending_of_port hport)
    _ = stepForm .reset (s.setPort rest) := stepRequest_of_deliver hport
    _ = exec .reset (s.setPort rest) := stepForm_of_ok _ rfl

end Sys2Proof.Machine
end
